-- ==== Sys2Proof/Word.lean ====
section
/-! DEFINITION. The word types of the JV2240's frames: bytes and 16-bit words (epochs, sequence numbers, CRCs). -/

namespace Sys2Proof

/-- One byte of a frame. -/
abbrev Byte := BitVec 8

/-- A 16-bit quantity: an epoch (R120), an event sequence number (R137), a CRC (R152), a kind set (R142). -/
abbrev Word16 := BitVec 16

end Sys2Proof
end

