-- ==== Sys2Proof/Config.lean ====
section
/-! DEFINITION. What the part fixes (Table 0-1, R170) and the one free value of the model. -/

namespace Sys2Proof.Config

/-- Volumes, numbered 0 to 15 (Table 0-1). -/
def volumes : Nat := 16
/-- Extent slots, numbered 0 to 131,071 (Table 0-1). -/
def extentSlots : Nat := 131072
/-- Slots of the intent table (Table 0-1, R44). -/
def intentSlots : Nat := 192
/-- Slots of the wait list (Table 0-1, R70). -/
def waiterSlots : Nat := 32
/-- Slots of the assignment table (Table 0-1, R84). -/
def assignmentSlots : Nat := 32
/-- Most assignments one port holds (R85). -/
def assignmentsPerPort : Nat := 16
/-- Event records of one port's queue, the overflow record apart (R134). -/
def eventRecords : Nat := 24
/-- Most extents one intent may touch (R47). -/
def intentSpan : Nat := 32
/-- REFCLK cycles of one millisecond tick: 25.000 MHz divided by 25,000 (R170). -/
def cyclesPerTick : Nat := 25000

/-- FREE VALUE (log entry 3). Which of several expiries due at one tick is handled next, where R58, R77, R97, R126 and
R170 leave the order open: everywhere but among intents with the same deadline. It has no body: no proof can see what it is. It is applied to the counter
`State.choices`. -/
opaque freeChoice : Nat → Nat

end Sys2Proof.Config
end

