-- ==== Sys2Proof/Syntax.lean ====
section
/-! DEFINITION. The commands of the part: one constructor per row of spec/opcode_table.json. A request row's operand is
the good request frame that carries it (R151, Table 9-5): its request code is the row itself, its CRC and its length
byte are right because the frame is good, so what is left is the port, the sequence, the epoch field and the parameter
bytes (of any length up to 40: a wrong length is refused BAD_LENGTH by R156, within the row). Every burst's command says
too whether the port was still acting on its previous request frame when the burst began (R147). -/

namespace Sys2Proof

/-- The two request ports (0.4). -/
inductive Port where
  | p0
  | p1
  deriving DecidableEq, Repr

/-- A burst as the port's link sees it, its bytes apart (R147). How long a port acts on a frame is not given, so whether it
still does is the command's to say (DESIGN CHOICE: log entry 15). -/
structure Select where
  /-- the port whose chip select frames the burst -/
  port : Port
  /-- chip select was asserted while the port was still acting on its previous request frame -/
  early : Bool
  deriving DecidableEq, Repr

/-- A burst with a good request frame, less its code, its length byte and its CRC (Table 9-5). -/
structure Request extends Select where
  /-- the sequence byte chosen by the controller -/
  seq : Byte
  /-- the epoch field -/
  epoch : Word16
  /-- the parameter bytes; the length byte of the frame is their number -/
  params : List Byte
  deriving DecidableEq, Repr

/-- The two board inputs whose assertion quiesces the part (R162, R163). -/
inductive HoldPin where
  | pfail
  | resetn
  deriving DecidableEq, Repr

/-- What makes the retention-valid mark invalid (R164). -/
inductive VbakEvent where
  /-- VBAK falls below its retention threshold -/
  | falls
  /-- VBAK is first applied -/
  | firstApplied
  deriving DecidableEq, Repr

/-- The commands (spec/opcode_table.json, row by row). An operand `sel`, `sel0`, `sel1` is the level of a port's chip select
at that moment (true: asserted, a burst is under way on the port; R129, R147, R163), and released where it is not written. -/
inductive Instr where
  /-- IDENTIFY, code 0x01 (R169) -/
  | identify (r : Request)
  /-- OPEN_SESSION, code 0x02 (R121) -/
  | openSession (r : Request)
  /-- RENEW, code 0x03 (R124) -/
  | renew (r : Request)
  /-- CLOSE_SESSION, code 0x04 (R130) -/
  | closeSession (r : Request)
  /-- PORT_CONFIG, code 0x05 (R132) -/
  | portConfig (r : Request)
  /-- FETCH_EVENT, code 0x08 (R142) -/
  | fetchEvent (r : Request)
  /-- ACK_EVENT, code 0x09 (R143) -/
  | ackEvent (r : Request)
  /-- EVENT_CONFIG, code 0x0A (R140) -/
  | eventConfig (r : Request)
  /-- CREATE_VOLUME, code 0x10 (R8) -/
  | createVolume (r : Request)
  /-- DELETE_VOLUME, code 0x11 (R12) -/
  | deleteVolume (r : Request)
  /-- VOLUME_STATUS, code 0x12 (R18) -/
  | volumeStatus (r : Request)
  /-- SET_VOLUME, code 0x13 (R13) -/
  | setVolume (r : Request)
  /-- ROUTE, code 0x18 (R37) -/
  | route (r : Request)
  /-- EXTENT_STATES, code 0x19 (R39) -/
  | extentStates (r : Request)
  /-- RETIRE_RANGE, code 0x1A (R41) -/
  | retireRange (r : Request)
  /-- REPORT_READ_FAILURE, code 0x1B (R40) -/
  | reportReadFailure (r : Request)
  /-- OPEN_INTENT, code 0x20 (R47) -/
  | openIntent (r : Request)
  /-- REPORT_WRITE, code 0x21 (R53) -/
  | reportWrite (r : Request)
  /-- ABANDON_INTENT, code 0x22 (R57) -/
  | abandonIntent (r : Request)
  /-- INTENT_STATUS, code 0x23 (R66) -/
  | intentStatus (r : Request)
  /-- CANCEL_WAIT, code 0x24 (R79) -/
  | cancelWait (r : Request)
  /-- TAKE_REPAIR, code 0x28 (R86) -/
  | takeRepair (r : Request)
  /-- REPAIR_DONE, code 0x29 (R93) -/
  | repairDone (r : Request)
  /-- RELEASE_REPAIR, code 0x2A (R96) -/
  | releaseRepair (r : Request)
  /-- FAIL_COPY, code 0x30 (R110) -/
  | failCopy (r : Request)
  /-- REPLACE_COPY, code 0x31 (R115) -/
  | replaceCopy (r : Request)
  /-- CLEAR_ERRORS, code 0x32 (R117) -/
  | clearErrors (r : Request)
  /-- FORMAT, code 0x38 (R168) -/
  | format (r : Request)
  /-- READ_BURST (R150): a burst of `n` whole bytes whose first byte is 0x00. -/
  | readBurst (b : Select) (n : Nat)
  /-- FRAME_ERROR (R153): a request burst, all its whole bytes, that fails the frame check of R151. -/
  | frameError (b : Select) (bytes : List Byte)
  /-- BAD_CODE (R156): a good frame whose code is not in Table 9-3. -/
  | badCode (r : Request) (code : Byte)
  /-- PRST (R129): the port's PRST input is asserted. -/
  | prst (p : Port) (sel : Bool := false)
  /-- QUIESCE (R163): PFAIL or RESETN is asserted. -/
  | quiesce (pin : HoldPin) (sel0 sel1 : Bool := false)
  /-- MAIN_SUPPLY_ARRIVES (R162). -/
  | mainSupplyArrives
  /-- MAIN_SUPPLY_LOST (R164). -/
  | mainSupplyLost
  /-- VBAK_BELOW_THRESHOLD (R164): VBAK falls below its threshold, or is first applied. -/
  | vbakBelowThreshold (e : VbakEvent := .falls)
  /-- START (R165): RESETN is released, with PFAIL at the level `pfail` (true: asserted) at that moment. -/
  | start (pfail : Bool) (sel0 sel1 : Bool := false)
  /-- START_COMPLETE (R165): the start's work is done. -/
  | startComplete
  /-- LEASE_EXPIRY (R126): the deadline of the port's lease. -/
  | leaseExpiry (p : Port)
  /-- INTENT_EXPIRY (R59): the deadline of the intent in the slot. -/
  | intentExpiry (slot : Nat)
  /-- WAITER_EXPIRY (R77): the deadline of the waiter in the slot. -/
  | waiterExpiry (slot : Nat)
  /-- ASSIGNMENT_EXPIRY (R97): the deadline of the assignment in the slot. -/
  | assignmentExpiry (slot : Nat)
  /-- PRST_RELEASE (R129): the port's PRST input is released. -/
  | prstRelease (p : Port) (sel : Bool := false)
  deriving DecidableEq, Repr

end Sys2Proof
end

