-- ==== Sys2Proof/Machine/Frame.lean ====
section
/-! DEFINITION. Frames: numbers in frames, the CRC (R152), the frame check (R151) and the request catalogue
(Table 9-3). -/

namespace Sys2Proof.Machine

/-- A number as `n` bytes, most significant byte first (R160). -/
def bytesOf : Nat → Nat → List Byte
  | 0, _ => []
  | n + 1, v => BitVec.ofNat 8 (v / 256 ^ n) :: bytesOf n v

/-- The unsigned value of bytes sent most significant byte first (R160). -/
def numberOf (bytes : List Byte) : Nat :=
  bytes.foldl (fun acc b => acc * 256 + b.toNat) 0

/-- The number in `len` bytes at offset `off` of a parameter list (R160). -/
def field (ps : List Byte) (off len : Nat) : Nat :=
  numberOf ((ps.drop off).take len)

/-- The byte at an offset, 0 beyond the end. -/
def byteAt (ps : List Byte) (off : Nat) : Byte := ps.getD off 0

/-- One bit of the CRC: the register shifts left by one bit and takes x^16 + x^12 + x^5 + 1 when a 1 falls out
(R152). -/
def crcBit (crc : Word16) : Word16 :=
  if crc.msb then (crc <<< 1) ^^^ 0x1021 else crc <<< 1

/-- One byte of the CRC, most significant bit first (R152). -/
def crcByte (crc : Word16) (b : Byte) : Word16 :=
  crcBit (crcBit (crcBit (crcBit (crcBit (crcBit (crcBit (crcBit
    (crc ^^^ (b.setWidth 16 <<< 8)))))))))

/-- The CRC of bytes in order: start 0xFFFF, no reflection, no inversion (R152). -/
def crc16 (bytes : List Byte) : Word16 := bytes.foldl crcByte 0xFFFF

/-- The CRC as it stands in a frame, most significant byte first (R152). -/
def crcBytes (bytes : List Byte) : List Byte := bytesOf 2 (crc16 bytes).toNat

/-- Bytes followed by their CRC: how every frame ends (R152). -/
def sealFrame (bytes : List Byte) : List Byte := bytes ++ crcBytes bytes

/-- Why a frame is bad (R151, Table 9-8). -/
inductive FrameFault where
  | truncated
  | length
  | crc
  deriving DecidableEq, Repr

/-- The reason byte of a FRAME_ERROR response (Table 9-8). -/
def FrameFault.code : FrameFault → Byte
  | .truncated => 0x01
  | .length => 0x02
  | .crc => 0x03

/-- The frame check of a request burst, in the order of R151; `none` when the frame is good. -/
def frameCheck (bytes : List Byte) : Option FrameFault :=
  let n := bytes.length
  let len := (byteAt bytes 4).toNat
  if n < 5 then some .truncated
  else if len > 40 then some .length
  else if n < 7 + len then some .truncated
  else if n > 7 + len then some .length
  else if bytes.drop (5 + len) ≠ crcBytes (bytes.take (5 + len)) then some .crc
  else none

/-- A row of Table 9-3. -/
structure CatalogueRow where
  code : Byte
  /-- the parameter length the request accepts -/
  lengthOk : Nat → Bool
  /-- whether the request needs a session -/
  needsSession : Bool

/-- A request that accepts one parameter length. -/
def row (code : Byte) (len : Nat) (needs : Bool) : CatalogueRow := ⟨code, fun n => n == len, needs⟩

/-- Table 9-3 in its order. EVENT_CONFIG takes any multiple of 3 from 0 to 33 (R140). -/
def catalogue : List CatalogueRow :=
  [row 0x01 0 false, row 0x02 2 false, row 0x03 0 true, row 0x04 0 true, row 0x05 8 true,
   row 0x08 0 true, row 0x09 0 true, ⟨0x0A, fun n => n % 3 == 0 && n ≤ 33, true⟩,
   row 0x10 10 true, row 0x11 1 true, row 0x12 1 false, row 0x13 5 true,
   row 0x18 6 false, row 0x19 5 false, row 0x1A 11 true, row 0x1B 7 true,
   row 0x20 12 true, row 0x21 4 true, row 0x22 2 true, row 0x23 2 true, row 0x24 2 true,
   row 0x28 1 true, row 0x29 3 true, row 0x2A 2 true,
   row 0x30 2 true, row 0x31 2 true, row 0x32 2 true, row 0x38 0 true]

/-- The row of a code, if Table 9-3 lists it. -/
def catalogueRow (code : Byte) : Option CatalogueRow := catalogue.find? (fun r => r.code == code)

/-- Whether Table 9-3 lists the code. -/
def knownCode (code : Byte) : Bool := (catalogueRow code).isSome

end Sys2Proof.Machine
end

