-- ==== Sys2Proof/WellFormed.lean ====
section
/-! DEFINITION. Which terms of `Instr` are commands: the operands the part's inputs can carry. `exec` is total and takes
an ill-formed term too; log entry 12 says what it then answers. -/

namespace Sys2Proof

/-- A good frame holds at most 40 parameter bytes (R151). -/
def Request.wf (r : Request) : Bool := r.params.length ≤ 40

/-- A request burst that the frame check finds bad: it has a byte, its first byte is not the 0x00 of a read burst, and
R151 gives a reason. -/
def badBurst (bytes : List Byte) : Bool :=
  !bytes.isEmpty && Machine.byteAt bytes 0 != 0 && (Machine.frameCheck bytes).isSome

/-- The commands (one check per row of the table that has an operand to check). -/
def Instr.wf : Instr → Bool
  | .identify r => r.wf
  | .openSession r => r.wf
  | .renew r => r.wf
  | .closeSession r => r.wf
  | .portConfig r => r.wf
  | .fetchEvent r => r.wf
  | .ackEvent r => r.wf
  | .eventConfig r => r.wf
  | .createVolume r => r.wf
  | .deleteVolume r => r.wf
  | .volumeStatus r => r.wf
  | .setVolume r => r.wf
  | .route r => r.wf
  | .extentStates r => r.wf
  | .retireRange r => r.wf
  | .reportReadFailure r => r.wf
  | .openIntent r => r.wf
  | .reportWrite r => r.wf
  | .abandonIntent r => r.wf
  | .intentStatus r => r.wf
  | .cancelWait r => r.wf
  | .takeRepair r => r.wf
  | .repairDone r => r.wf
  | .releaseRepair r => r.wf
  | .failCopy r => r.wf
  | .replaceCopy r => r.wf
  | .clearErrors r => r.wf
  | .format r => r.wf
  | .readBurst _ n => 1 ≤ n
  | .frameError _ bytes => badBurst bytes
  | .badCode r code => r.wf && code != 0 && !Machine.knownCode code
  | .prst _ _ => true
  | .quiesce _ _ _ => true
  | .mainSupplyArrives => true
  | .mainSupplyLost => true
  | .vbakBelowThreshold _ => true
  | .start _ _ _ => true
  | .startComplete => true
  | .leaseExpiry _ => true
  | .intentExpiry slot => slot < Config.intentSlots
  | .waiterExpiry slot => slot < Config.waiterSlots
  | .assignmentExpiry slot => slot < Config.assignmentSlots
  | .prstRelease _ _ => true

end Sys2Proof
end

