-- ==== Sys2Proof/Decode.lean ====
section
/-! DEFINITION. How bursts spell commands: the link's reading of a burst's whole bytes (R147, R151, R156, Table 9-3) and
the frames that spell the commands of a port (Table 9-5). The rows of spec/opcode_table.json give no bits of their own,
so `decodeTableWord` spells none. -/

namespace Sys2Proof

/-- The request a code names (Table 9-3), carried by a good frame. -/
def requestOf (code : Byte) (r : Request) : Option Instr :=
  match code.toNat with
  | 0x01 => some (.identify r)
  | 0x02 => some (.openSession r)
  | 0x03 => some (.renew r)
  | 0x04 => some (.closeSession r)
  | 0x05 => some (.portConfig r)
  | 0x08 => some (.fetchEvent r)
  | 0x09 => some (.ackEvent r)
  | 0x0A => some (.eventConfig r)
  | 0x10 => some (.createVolume r)
  | 0x11 => some (.deleteVolume r)
  | 0x12 => some (.volumeStatus r)
  | 0x13 => some (.setVolume r)
  | 0x18 => some (.route r)
  | 0x19 => some (.extentStates r)
  | 0x1A => some (.retireRange r)
  | 0x1B => some (.reportReadFailure r)
  | 0x20 => some (.openIntent r)
  | 0x21 => some (.reportWrite r)
  | 0x22 => some (.abandonIntent r)
  | 0x23 => some (.intentStatus r)
  | 0x24 => some (.cancelWait r)
  | 0x28 => some (.takeRepair r)
  | 0x29 => some (.repairDone r)
  | 0x2A => some (.releaseRepair r)
  | 0x30 => some (.failCopy r)
  | 0x31 => some (.replaceCopy r)
  | 0x32 => some (.clearErrors r)
  | 0x38 => some (.format r)
  | _ => none

/-- The request frame that bytes hold, less code, length and CRC (Table 9-5). -/
def requestIn (b : Select) (bytes : List Byte) : Request :=
  { toSelect := b, seq := Machine.byteAt bytes 1, epoch := BitVec.ofNat 16 (Machine.field bytes 2 2)
    params := (bytes.drop 5).take (Machine.byteAt bytes 4).toNat }

/-- The command that a burst's whole bytes spell: none for an empty burst, a read burst for a first byte 0x00
(R147), FRAME_ERROR for a bad frame (R151), BAD_CODE for a code outside the catalogue (R156), else the request. -/
def decodeBurst (b : Select) (bytes : List Byte) : Option Instr :=
  match bytes with
  | [] => none
  | code :: _ =>
    if code = 0 then some (.readBurst b bytes.length)
    else match Machine.frameCheck bytes with
      | some _ => some (.frameError b bytes)
      | none => match requestOf code (requestIn b bytes) with
        | some i => some i
        | none => some (.badCode (requestIn b bytes) code)

/-- The request code and frame of a command that a good frame carries (Table 9-3). -/
def Instr.frame? : Instr → Option (Byte × Request)
  | .identify r => some (0x01, r)
  | .openSession r => some (0x02, r)
  | .renew r => some (0x03, r)
  | .closeSession r => some (0x04, r)
  | .portConfig r => some (0x05, r)
  | .fetchEvent r => some (0x08, r)
  | .ackEvent r => some (0x09, r)
  | .eventConfig r => some (0x0A, r)
  | .createVolume r => some (0x10, r)
  | .deleteVolume r => some (0x11, r)
  | .volumeStatus r => some (0x12, r)
  | .setVolume r => some (0x13, r)
  | .route r => some (0x18, r)
  | .extentStates r => some (0x19, r)
  | .retireRange r => some (0x1A, r)
  | .reportReadFailure r => some (0x1B, r)
  | .openIntent r => some (0x20, r)
  | .reportWrite r => some (0x21, r)
  | .abandonIntent r => some (0x22, r)
  | .intentStatus r => some (0x23, r)
  | .cancelWait r => some (0x24, r)
  | .takeRepair r => some (0x28, r)
  | .repairDone r => some (0x29, r)
  | .releaseRepair r => some (0x2A, r)
  | .failCopy r => some (0x30, r)
  | .replaceCopy r => some (0x31, r)
  | .clearErrors r => some (0x32, r)
  | .format r => some (0x38, r)
  | .badCode r code => some (code, r)
  | .readBurst _ _ => none
  | .frameError _ _ => none
  | .prst _ _ => none
  | .quiesce _ _ _ => none
  | .mainSupplyArrives => none
  | .mainSupplyLost => none
  | .vbakBelowThreshold _ => none
  | .start _ _ _ => none
  | .startComplete => none
  | .leaseExpiry _ => none
  | .intentExpiry _ => none
  | .waiterExpiry _ => none
  | .assignmentExpiry _ => none
  | .prstRelease _ _ => none

/-- The whole request frame of a code and a request (Table 9-5, R152). -/
def requestFrame (code : Byte) (r : Request) : List Byte :=
  Machine.sealFrame
    (code :: r.seq :: Machine.bytesOf 2 r.epoch.toNat ++ BitVec.ofNat 8 r.params.length :: r.params)

/-- The burst, with its whole bytes, that spells a command of a port; none for a command that no burst carries. -/
def encodeBurst (i : Instr) : Option (Select × List Byte) :=
  match i with
  | .readBurst b n => some (b, List.replicate n 0)
  | .frameError b bytes => some (b, bytes)
  | _ => i.frame?.map fun c => (c.2.toSelect, requestFrame c.1 c.2)

/-- No row of spec/opcode_table.json gives bits, so no word spells a command. -/
def decodeTableWord (_nbits _w : Nat) : Option Instr := none

end Sys2Proof
end

