-- ==== Sys2Proof/Machine/State.lean ====
section
/-! DEFINITION. The state of the JV2240, its reset value, and the reasons a step may stop. Everything is plain data.
Each field names the table or rule of spec/ that gives it; INVENTORY.md lists them with their reset values. -/

namespace Sys2Proof.Machine

/-! ## Names of fixed sets -/

/-- The two copies of a volume (0.4). -/
inductive Copy where
  | a
  | b
  deriving DecidableEq, Repr

/-- The coherence states of an extent (2.2). -/
inductive Coherence where
  | synced
  | aOnly
  | bOnly
  | suspect
  | lost
  | void
  deriving DecidableEq, Repr

/-- The health of a copy (Table 6-1). -/
inductive Health where
  | online
  | rebuilding
  | failed
  deriving DecidableEq, Repr

/-- The condition of a volume record (R2). -/
inductive Condition where
  | absent
  | normal
  | degraded
  | offline
  deriving DecidableEq, Repr

/-- The read policy of a volume (R38). -/
inductive ReadPolicy where
  | preferA
  | preferB
  | alternate
  deriving DecidableEq, Repr

/-- The report an intent holds for a copy (Table 3-2). -/
inductive Report where
  | pending
  | written
  | failed
  | notRequired
  | dropped
  deriving DecidableEq, Repr

/-- The outcome a REPAIR_DONE reports (5.4). -/
inductive RepairOutcome where
  | copied
  | sourceBad
  | targetBad
  deriving DecidableEq, Repr

/-- The session states (Table 7-1). -/
inductive SessionState where
  | closed
  | opened
  | fenced
  deriving DecidableEq, Repr

/-- The supply states (R162). -/
inductive Supply where
  | off
  | hold
  | starting
  | run
  deriving DecidableEq, Repr

/-- The kind of the last completed start (R166, R167). -/
inductive StartKind where
  | cold
  | warm
  deriving DecidableEq, Repr

/-- The level of an event kind (R139). -/
inductive Level where
  | low
  | high
  deriving DecidableEq, Repr

/-- The event kinds, in code order (Tables 8-2 and 9-9). -/
inductive Kind where
  | waitGranted
  | waitEnded
  | intentExpired
  | assignEnded
  | copyFailed
  | copyOnline
  | repairPending
  | extentLost
  | peerLost
  | peerJoined
  | volumeChanged
  | overflow
  deriving DecidableEq, Repr

/-! ## Records -/

/-- A tag or ticket: a slot number and the slot's generation (0.4). -/
structure Tag where
  slot : Nat
  gen : BitVec 8
  deriving DecidableEq, Repr

/-- The subject of an event (Table 8-2). -/
inductive Subject where
  | none
  | ticket (t : Tag)
  | intent (t : Tag)
  | assignment (t : Tag)
  | volume (v : Nat)
  | copy (v : Nat) (c : Copy)
  | port (p : Port)
  deriving DecidableEq, Repr

/-- The value of an event (Tables 8-2 and 9-9). -/
inductive EventValue where
  | zero
  | intent (t : Tag)
  | waitExpired
  | waitOffline
  | assignExpired
  | assignCopyFailed
  | failRequest
  | failThreshold
  | peerClosed
  | peerExpired
  | peerReset
  | created
  | deleted
  deriving DecidableEq, Repr

/-- An event record (Table 8-1). The overflow record is one with kind `overflow`: its `count` is the number of events
dropped and its `kindSet` their kinds, bit n - 1 for kind code n (R138, R142). Every other record has kind set 0. -/
structure EventRecord where
  kind : Kind
  subject : Subject
  value : EventValue
  count : Nat
  seq : Word16
  kindSet : Word16
  deriving DecidableEq, Repr

/-- The level and mask of one event kind in a port's event configuration (R139). -/
structure KindConfig where
  level : Level
  masked : Bool
  deriving DecidableEq, Repr

/-- The port configuration (Table 7-3), times in milliseconds. -/
structure PortConfig where
  intentLifetime : Nat
  quota : Nat
  assignLease : Nat
  defaultWait : Nat
  deriving DecidableEq, Repr

/-- The session record of a port (Table 7-1). The deadline is a moment in REFCLK cycles (R170). -/
structure Session where
  state : SessionState
  epoch : Word16
  lease : Nat
  deadline : Option Nat
  config : PortConfig
  events : List KindConfig
  deriving DecidableEq, Repr

/-- A port's event queue in arrival order, the overflow record in its place among the others (R134, R138), the
in-service stack with its top first (R141), and the sequence counter (R137). -/
structure EventUnit where
  records : List EventRecord
  stack : List Level
  counter : Word16
  deriving DecidableEq, Repr

/-- The link state of a port (9.2): the last taken sequence and code, the saved response and the link refusal. -/
structure Link where
  lastTaken : Option (Byte × Byte)
  saved : Option (List Byte)
  refusal : Option (List Byte)
  deriving DecidableEq, Repr

/-- The burst on a port between two commands: its chip select is not asserted; it is asserted, with a burst under way; or
it is, with a burst that is discarded whole whenever its chip select is released (R129, R147, R163; log entry 15). -/
inductive Burst where
  | none
  | underWay
  | discarded
  deriving DecidableEq, Repr

/-- What a port's SDO pin does (R148, R161). -/
inductive SdoPin where
  | highImpedance
  | driven
  deriving DecidableEq, Repr

/-- All that belongs to one port: its session, its events, its link, its counts of intents (3.1) and assignments (5.1),
its PRST input (true: asserted), its ATTN output (true: asserted, R144), the burst on its chip select, and what SDO shifted
out while it was driven in the last burst (R147, R150; log entry 10); whether SDO is driven now is `State.sdoPin`. -/
structure PortRecord where
  session : Session
  events : EventUnit
  link : Link
  intents : Nat
  assignments : Nat
  prst : Bool
  attn : Bool
  burst : Burst
  sdo : List Byte
  deriving DecidableEq, Repr

/-- The assignment link of an extent, with the target copy and overtaken mark the retention array keeps beside it
(Table 2-1, R164). -/
structure AssignmentLink where
  slot : Nat
  target : Copy
  overtaken : Bool
  deriving DecidableEq, Repr

/-- An allocated extent record (Table 2-1). -/
structure Extent where
  state : Coherence
  openCount : Nat
  link : Option AssignmentLink
  deriving DecidableEq, Repr

/-- What a volume record keeps of one copy: health, error count and stale count (Table 1-1). -/
structure CopyRecord where
  health : Health
  errors : Nat
  stale : Nat
  deriving DecidableEq, Repr

/-- The six state counts of a volume (Table 1-1). -/
structure StateCounts where
  synced : Nat
  aOnly : Nat
  bOnly : Nat
  suspect : Nat
  lost : Nat
  void : Nat
  deriving DecidableEq, Repr

/-- A present volume record (Table 1-1); its number is its index in the volume table. `extents` is the volume's run of
the extent store: extent e is the record of extent slot `slotBase + e` (R4, R6); every slot of no present volume's run
is FREE (R20). -/
structure Volume where
  condition : Condition
  blockCount : Nat
  shift : Nat
  extentCount : Nat
  slotBase : Nat
  copyA : CopyRecord
  copyB : CopyRecord
  threshold : Nat
  policy : ReadPolicy
  authority : Copy
  toggle : Copy
  counts : StateCounts
  repairNeeded : Nat
  cursor : Nat
  openIntents : Nat
  extents : List Extent
  deriving DecidableEq, Repr

/-- A slot of a table: its generation, kept whether or not the slot is in use, and what it holds. -/
structure Slot (α : Type) where
  gen : BitVec 8
  held : α
  deriving DecidableEq, Repr

/-- An open intent (Table 3-1); its tag is its slot number with the slot's generation. -/
structure Intent where
  port : Port
  epoch : Word16
  volume : Nat
  firstBlock : Nat
  blockCount : Nat
  firstExtent : Nat
  extentCount : Nat
  deadline : Nat
  reportA : Report
  reportB : Report
  deriving DecidableEq, Repr

/-- A waiter (Table 4-1); its ticket is its slot number with the slot's generation. -/
structure Waiter where
  port : Port
  epoch : Word16
  volume : Nat
  firstBlock : Nat
  blockCount : Nat
  deadline : Nat
  deriving DecidableEq, Repr

/-- What a waiter slot holds besides its generation (Table 4-2). -/
inductive WaiterEntry where
  | vacant
  | waiting (w : Waiter)
  | granted (port : Port) (epoch : Word16) (tag : Tag)
  deriving DecidableEq, Repr

/-- An outstanding assignment (Table 5-1); its tag is its slot number with the slot's generation. -/
structure Assignment where
  port : Port
  epoch : Word16
  volume : Nat
  extent : Nat
  source : Copy
  target : Copy
  overtaken : Bool
  deadline : Nat
  deriving DecidableEq, Repr

/-- The whole part. -/
structure State where
  /-- port 0: session unit, event unit, link interface, pins -/
  port0 : PortRecord
  /-- port 1 -/
  port1 : PortRecord
  /-- the volume table with the extent store, one entry per volume number, `none` when ABSENT (R1) -/
  volumes : List (Option Volume)
  /-- the intent table (R44) -/
  intents : List (Slot (Option Intent))
  /-- the waiter slots (R70) -/
  waiters : List (Slot WaiterEntry)
  /-- the WAITING slots in arrival order, the oldest first (R71) -/
  arrival : List Nat
  /-- the assignment table (R84) -/
  assignments : List (Slot (Option Assignment))
  /-- the rotating volume pointer (R89) -/
  pointer : Nat
  /-- the supply state (R162) -/
  supply : Supply
  /-- the kind of the last completed start (R169) -/
  startKind : StartKind
  /-- the kind that the start under way has decided on, from the mark at its beginning (R165) -/
  startDecided : StartKind
  /-- the warm-start count (R164) -/
  warmStarts : Nat
  /-- the retention-valid mark (R164) -/
  retentionValid : Bool
  /-- the PFAIL input, true when asserted (Table 9-10) -/
  pfail : Bool
  /-- the RESETN input, true when asserted (Table 9-10) -/
  resetn : Bool
  /-- the timebase: millisecond ticks counted (R170) -/
  ticks : Nat
  /-- the timebase: REFCLK cycles since the last tick (R170); an input of the environment, log entry 4 -/
  phase : Nat
  /-- whether REFCLK runs (R170); an input of the environment, log entry 4 -/
  refclk : Bool
  /-- MODEL's own: how many free choices have been drawn (log entry 3) -/
  choices : Nat
  /-- the commands waiting, first in, first out -/
  pending : List Instr
  deriving DecidableEq, Repr

/-! ## Why a step may stop -/

/-- No command of this part stops it with a fault: the manual describes none (INVENTORY.md, Faults). The type is empty,
so no step answers a fault. Safe. -/
inductive Fault
  deriving DecidableEq, Repr

/-- The refusals. -/
inductive Refusal where
  /-- raised by `exec` for a command without a meaning; none is left. Safe. -/
  | notModelled (mnemonic : String)
  /-- raised by FRAME_ERROR and BAD_CODE on a term that is not that command (a frame that passes the check of R151, a
  code that Table 9-3 lists, a first byte 0x00): `Instr.wf` is false of it and the part's own link would read the same
  bytes as another row of the table (`Sys2Proof.decodeBurst`). Safe (log entry 12). -/
  | otherCommand (mnemonic : String)
  deriving DecidableEq, Repr

/-! ## Reset -/

/-- The defaults of Table 7-3. -/
def PortConfig.reset : PortConfig :=
  { intentLifetime := 5000, quota := 96, assignLease := 20000, defaultWait := 1000 }

/-- The default levels of Table 8-2, in kind-code order, with no kind masked (R139). -/
def eventConfigReset : List KindConfig :=
  [⟨.high, false⟩, ⟨.high, false⟩, ⟨.high, false⟩, ⟨.low, false⟩, ⟨.high, false⟩, ⟨.low, false⟩,
   ⟨.low, false⟩, ⟨.high, false⟩, ⟨.high, false⟩, ⟨.low, false⟩, ⟨.low, false⟩]

/-- A session record after a start: CLOSED with the epoch it keeps and no lease deadline (R119). The lease, the port
configuration and the event configuration hold no meaningful values then; log entry 2 names the ones here. -/
def Session.reset (epoch : Word16) : Session :=
  { state := .closed, epoch := epoch, lease := 0, deadline := none, config := PortConfig.reset,
    events := eventConfigReset }

/-- An event unit after a start (R145). -/
def EventUnit.reset : EventUnit := { records := [], stack := [], counter := 0 }

/-- A cleared link state (R149). -/
def Link.reset : Link := { lastTaken := none, saved := none, refusal := none }

/-- A port after a cold start: epoch 0, everything else as after any start, PRST not asserted, ATTN low. -/
def PortRecord.reset : PortRecord :=
  { session := Session.reset 0, events := EventUnit.reset, link := Link.reset, intents := 0, assignments := 0,
    prst := false, attn := false, burst := .none, sdo := [] }

/-- The part right after reset: in RUN at the completion of a cold start (R165, R167, Table 10-2; log entry 1). -/
def State.reset : State :=
  { port0 := PortRecord.reset, port1 := PortRecord.reset
    volumes := List.replicate Config.volumes none
    intents := List.replicate Config.intentSlots ⟨0, none⟩
    waiters := List.replicate Config.waiterSlots ⟨0, .vacant⟩
    arrival := []
    assignments := List.replicate Config.assignmentSlots ⟨0, none⟩
    pointer := 15
    supply := .run, startKind := .cold, startDecided := .cold, warmStarts := 0, retentionValid := true
    pfail := false, resetn := false
    ticks := 0, phase := 0, refclk := true
    choices := 0
    pending := [] }

end Sys2Proof.Machine
end

