-- ==== Sys2Proof/Machine/Flags.lean ====
section
/-! DEFINITION. What the part derives from its records: currency and the coherence results (Chapter 2), condition and
counts (R2, R15, R16), eligibility and ATTN (R141, R144). Pure functions, no state change. -/

namespace Sys2Proof.Machine

/-! ## Ports and copies -/

/-- "The peer" of a port (0.4). -/
def peer : Port → Port
  | .p0 => .p1
  | .p1 => .p0

/-- "The other copy" (0.4). -/
def other : Copy → Copy
  | .a => .b
  | .b => .a

/-- What a volume record keeps of a copy. -/
def Volume.copy (v : Volume) : Copy → CopyRecord
  | .a => v.copyA
  | .b => v.copyB

/-- The health of a copy. -/
def Volume.health (v : Volume) (c : Copy) : Health := (v.copy c).health

/-- The report of an intent for a copy. -/
def Intent.report (i : Intent) : Copy → Report
  | .a => i.reportA
  | .b => i.reportB

/-- The intent with the report of one copy replaced. -/
def Intent.withReport (i : Intent) (r : Report) : Copy → Intent
  | .a => { i with reportA := r }
  | .b => { i with reportB := r }

/-- An intent is complete when neither report is PENDING (R46). -/
def Intent.complete (i : Intent) : Bool := i.reportA ≠ .pending && i.reportB ≠ .pending

/-! ## Currency (R21, R22) -/

/-- Whether a copy is current for an extent in a state (Table 2-2). -/
def Coherence.current : Coherence → Copy → Bool
  | .synced, _ => true
  | .suspect, _ => true
  | .aOnly, c => c = .a
  | .bOnly, c => c = .b
  | .lost, _ => false
  | .void, _ => false

/-- The _ONLY state of a copy. -/
def onlyState : Copy → Coherence
  | .a => .aOnly
  | .b => .bOnly

/-- The state that results from a set of current copies; `both` is the state the cause names when both are current
(R21, second part of Table 2-2). -/
def resultOf (a b : Bool) (both : Coherence) : Coherence :=
  if a && b then both else if a then .aOnly else if b then .bOnly else .lost

/-- Copy `c` loses currency (R22). -/
def loseCurrency (c : Copy) (st : Coherence) : Coherence :=
  match st with
  | .void => .void
  | _ => if st.current c then (if st.current (other c) then onlyState (other c) else .lost) else st

/-! ## Intent close and abandon (R25, R26, R27) -/

/-- In R25, R26 and R27 a VOID extent is treated as SUSPECT. -/
def asSuspect (st : Coherence) : Coherence := if st = .void then .suspect else st

/-- Whether a copy ends current at close (R25). -/
def currentAfterClose (st : Coherence) (whole : Bool) (r : Report) (c : Copy) : Bool :=
  r = .written && ((asSuspect st).current c || whole)

/-- The result of intent close, C1 (R25, Table 2-3). -/
def closeResult (st : Coherence) (whole : Bool) (ra rb : Report) : Coherence :=
  resultOf (currentAfterClose st whole ra .a) (currentAfterClose st whole rb .b)
    (if whole || st = .synced then .synced else .suspect)

/-- Whether a copy ends current at abandon: PENDING counts as WRITTEN with partial cover (R26). -/
def currentAfterAbandon (st : Coherence) (whole : Bool) (r : Report) (c : Copy) : Bool :=
  match r with
  | .pending => (asSuspect st).current c
  | _ => currentAfterClose st whole r c

/-- The result of intent abandon, C2 (R26). -/
def abandonResult (st : Coherence) (whole : Bool) (ra rb : Report) : Coherence :=
  let both :=
    if ra = .pending && rb = .pending then .suspect
    else if ra = .pending then .bOnly
    else if rb = .pending then .aOnly
    else if whole || st = .synced then .synced else .suspect
  resultOf (currentAfterAbandon st whole ra .a) (currentAfterAbandon st whole rb .b) both

/-- The report a warm start presumes for a copy: NOT_REQUIRED when it is FAILED, else PENDING (R27). -/
def warmReport (h : Health) : Report := if h = .failed then .notRequired else .pending

/-- The warm-start conversion of an extent with a nonzero open count (R27): the _ONLY states and LOST are unchanged by
the rule's table, every other state follows R26 with partial cover. -/
def warmResult (st : Coherence) (ha hb : Health) : Coherence :=
  match st with
  | .aOnly => .aOnly
  | .bOnly => .bOnly
  | .lost => .lost
  | _ => abandonResult st false (warmReport ha) (warmReport hb)

/-! ## Repairs (R28) -/

/-- The result of a REPAIR_DONE that is not overtaken, C3 (R28). -/
def repairResult (st : Coherence) (source target : Copy) (o : RepairOutcome) : Coherence :=
  match o with
  | .copied => if st.current source then .synced else loseCurrency target st
  | .targetBad => loseCurrency target st
  | .sourceBad => loseCurrency source st

/-- The reduction of the initial state by a copy created FAILED (R10): a FAILED copy is current for no extent. -/
def initialState (st : Coherence) (ha hb : Health) : Coherence :=
  let st := if ha = .failed then loseCurrency .a st else st
  if hb = .failed then loseCurrency .b st else st

/-! ## Geometry (R3, R4) -/

/-- The extent count of a volume of `n` blocks with extent shift `k`: n divided by 2^k, rounded up (R3). -/
def extentCountOf (n k : Nat) : Nat := (n + 2 ^ k - 1) / 2 ^ k

/-- The extent of a block (R4). -/
def extentOf (k b : Nat) : Nat := b / 2 ^ k

/-- The first block of an extent (R4). -/
def extentFirst (k e : Nat) : Nat := e * 2 ^ k

/-- One past the last block of an extent (R4). -/
def extentEnd (k n e : Nat) : Nat := min ((e + 1) * 2 ^ k) n

/-- The number of extents a range of `count` blocks from `first` touches (R4). -/
def spanOf (k first count : Nat) : Nat := extentOf k (first + count - 1) - extentOf k first + 1

/-- Whether a range covers an extent wholly (0.4, R3, R4). -/
def coversWhole (k n first count e : Nat) : Bool :=
  first ≤ extentFirst k e && extentEnd k n e ≤ first + count

/-- Two block ranges of one volume overlap (R48). -/
def overlap (f c g d : Nat) : Bool := f < g + d && g < f + c

/-- Whether an intent touches an extent of its volume (R34). -/
def Intent.touches (i : Intent) (e : Nat) : Bool :=
  i.firstExtent ≤ e && e < i.firstExtent + i.extentCount

/-! ## The derived fields of a volume record (R2, R15, R16) -/

/-- The condition from the two healths (R2). -/
def conditionOf (ha hb : Health) : Condition :=
  match ha, hb with
  | .online, .online => .normal
  | .failed, .failed => .offline
  | _, _ => .degraded

/-- The number of extents in a state (R15). -/
def countState (xs : List Extent) (st : Coherence) : Nat := xs.countP (fun x => x.state = st)

/-- The six state counts (R15). -/
def countsOf (xs : List Extent) : StateCounts :=
  { synced := countState xs .synced, aOnly := countState xs .aOnly, bOnly := countState xs .bOnly,
    suspect := countState xs .suspect, lost := countState xs .lost, void := countState xs .void }

/-- Whether an extent in a state needs a repair that could bring it to SYNCED (R16, R87). -/
def needsRepair (st : Coherence) (ha hb : Health) : Bool :=
  match st with
  | .suspect => true
  | .aOnly => hb ≠ .failed
  | .bOnly => ha ≠ .failed
  | _ => false

/-- The repair-needed count (R16). -/
def repairNeededOf (xs : List Extent) (ha hb : Health) : Nat :=
  xs.countP (fun x => needsRepair x.state ha hb)

/-- The volume with its condition and every count brought to its definition: condition by R2, state counts and stale
counts by R15 (A stale in B_ONLY, B stale in A_ONLY), repair-needed count by R16. -/
def Volume.recount (v : Volume) : Volume :=
  let n := countsOf v.extents
  { v with
    condition := conditionOf v.copyA.health v.copyB.health
    counts := n
    copyA := { v.copyA with stale := n.bOnly }
    copyB := { v.copyB with stale := n.aOnly }
    repairNeeded := repairNeededOf v.extents v.copyA.health v.copyB.health }

/-- Replaces what the record keeps of a copy. -/
def Volume.setCopy (v : Volume) (c : Copy) (r : CopyRecord) : Volume :=
  match c with
  | .a => { v with copyA := r }
  | .b => { v with copyB := r }

/-- A health change, with the condition and the counts following within it (R2, R16). -/
def Volume.setHealth (v : Volume) (c : Copy) (h : Health) : Volume :=
  (v.setCopy c { v.copy c with health := h }).recount

/-- Whether an extent qualifies for TAKE_REPAIR (R87). -/
def Volume.qualifies (v : Volume) (x : Extent) : Bool :=
  needsRepair x.state v.copyA.health v.copyB.health && x.openCount == 0 && x.link.isNone

/-- The source copy of a qualifying extent (R87); the target is the other copy. -/
def Volume.repairSource (v : Volume) (st : Coherence) : Copy :=
  match st with
  | .aOnly => .a
  | .bOnly => .b
  | _ => v.authority

/-! ## Eligibility and ATTN (R139, R141, R144) -/

/-- The level and mask of a kind in a configuration; the overflow record is HIGH and never masked (R139). -/
def kindConfig (cfg : List KindConfig) (k : Kind) : KindConfig :=
  match k with
  | .overflow => ⟨.high, false⟩
  | _ => cfg.getD (match k with
      | .waitGranted => 0 | .waitEnded => 1 | .intentExpired => 2 | .assignEnded => 3 | .copyFailed => 4
      | .copyOnline => 5 | .repairPending => 6 | .extentLost => 7 | .peerLost => 8 | .peerJoined => 9
      | _ => 10) ⟨.low, false⟩

/-- The empty stack below LOW and LOW below HIGH (R141). -/
def Level.rank : Level → Nat
  | .low => 1
  | .high => 2

/-- The rank of the top of the in-service stack, 0 when it is empty (R141). -/
def stackRank : List Level → Nat
  | [] => 0
  | l :: _ => l.rank

/-- Whether a record is eligible under a configuration and a stack (R141). -/
def eligible (cfg : List KindConfig) (stack : List Level) (r : EventRecord) : Bool :=
  !(kindConfig cfg r.kind).masked && stackRank stack < (kindConfig cfg r.kind).level.rank

/-- What the ATTN line of a port shows, given the supply state (R128, R129, R144, R161). In OFF it is low as in HOLD and
STARTING (DESIGN CHOICE: R144 and R161 do not name OFF; log entry 19). -/
def attnRule (supply : Supply) (p : PortRecord) : Bool :=
  supply = .run && !p.prst &&
    match p.session.state with
    | .fenced => true
    | .opened => p.events.records.any (eligible p.session.events p.events.stack)
    | .closed => false

end Sys2Proof.Machine
end

