-- ==== Sys2Proof/Machine/Operands.lean ====
section
/-! DEFINITION. How fields are coded in frames (R160, Tables 9-4, 9-8 and 9-9), and the response frame (R158). -/

namespace Sys2Proof.Machine

/-! ## Status codes -/

/-- The statuses of Table 9-4. -/
inductive Status where
  | ok
  | queued
  | none
  | stale
  | alreadyGranted
  | frameError
  | badCode
  | badLength
  | starting
  | noSession
  | fenced
  | staleEpoch
  | badParam
  | badState
  | noVolume
  | volumeExists
  | noSpace
  | offline
  | span
  | conflict
  | quota
  | tableFull
  | waitFull
  | unknownTag
  | unknownTicket
  | duplicateReport
  | notRequired
  | busy
  | notInService
  | idle
  deriving DecidableEq, Repr

/-- The byte value of a status (Table 9-4). -/
def Status.code : Status → Byte
  | .ok => 0x00
  | .queued => 0x01
  | .none => 0x02
  | .stale => 0x03
  | .alreadyGranted => 0x04
  | .frameError => 0x10
  | .badCode => 0x11
  | .badLength => 0x12
  | .starting => 0x13
  | .noSession => 0x20
  | .fenced => 0x21
  | .staleEpoch => 0x22
  | .badParam => 0x30
  | .badState => 0x31
  | .noVolume => 0x32
  | .volumeExists => 0x33
  | .noSpace => 0x34
  | .offline => 0x35
  | .span => 0x36
  | .conflict => 0x37
  | .quota => 0x38
  | .tableFull => 0x39
  | .waitFull => 0x3A
  | .unknownTag => 0x3B
  | .unknownTicket => 0x3C
  | .duplicateReport => 0x3D
  | .notRequired => 0x3E
  | .busy => 0x3F
  | .notInService => 0x40
  | .idle => 0x7F

/-- What the owner of a request answers: a status with its results (R158). -/
structure Reply where
  status : Status
  results : List Byte
  deriving DecidableEq, Repr

/-- A status without results. -/
def Reply.bare (st : Status) : Reply := ⟨st, []⟩

/-- The response frame: status, sequence echo, result length, results, CRC (R158, Table 9-5). -/
def responseFrame (reply : Reply) (echo : Byte) : List Byte :=
  sealFrame (reply.status.code :: echo :: BitVec.ofNat 8 reply.results.length :: reply.results)

/-- The IDLE frame: status IDLE, sequence echo 0, result length 0 (R150). -/
def idleFrame : List Byte := responseFrame (.bare .idle) 0

/-! ## Coded fields of results (Table 9-8) -/

def Copy.code : Copy → Byte
  | .a => 0x01
  | .b => 0x02

def Coherence.code : Coherence → Byte
  | .synced => 0x00
  | .aOnly => 0x01
  | .bOnly => 0x02
  | .suspect => 0x03
  | .lost => 0x04
  | .void => 0x05

def Health.code : Health → Byte
  | .online => 0x00
  | .rebuilding => 0x01
  | .failed => 0x02

def Condition.code : Condition → Byte
  | .absent => 0x00
  | .normal => 0x01
  | .degraded => 0x02
  | .offline => 0x03

def ReadPolicy.code : ReadPolicy → Byte
  | .preferA => 0x00
  | .preferB => 0x01
  | .alternate => 0x02

def Report.code : Report → Byte
  | .pending => 0x00
  | .written => 0x01
  | .failed => 0x02
  | .notRequired => 0x03
  | .dropped => 0x04

def SessionState.code : SessionState → Byte
  | .closed => 0x00
  | .opened => 0x01
  | .fenced => 0x02

def StartKind.code : StartKind → Byte
  | .cold => 0x00
  | .warm => 0x01

def Level.code : Level → Byte
  | .low => 0x00
  | .high => 0x01

def flagCode (b : Bool) : Byte := if b then 0x01 else 0x00

/-- A tag or ticket: the slot number, then the generation (R160). -/
def Tag.bytes (t : Tag) : List Byte := [BitVec.ofNat 8 t.slot, t.gen]

/-- The number of a port (R160). -/
def portNumber : Port → Byte
  | .p0 => 0
  | .p1 => 1

/-- The code of an event kind (Table 9-9). -/
def Kind.code : Kind → Nat
  | .waitGranted => 1
  | .waitEnded => 2
  | .intentExpired => 3
  | .assignEnded => 4
  | .copyFailed => 5
  | .copyOnline => 6
  | .repairPending => 7
  | .extentLost => 8
  | .peerLost => 9
  | .peerJoined => 10
  | .volumeChanged => 11
  | .overflow => 12

/-- The two bytes of an event's subject (R160). -/
def Subject.bytes : Subject → List Byte
  | .none => [0, 0]
  | .ticket t => t.bytes
  | .intent t => t.bytes
  | .assignment t => t.bytes
  | .volume v => [0, BitVec.ofNat 8 v]
  | .copy v c => [BitVec.ofNat 8 v, c.code]
  | .port p => [0, portNumber p]

/-- The two bytes of an event's value (Table 9-9). -/
def EventValue.bytes : EventValue → List Byte
  | .zero => [0, 0]
  | .intent t => t.bytes
  | .waitExpired => [0, 1]
  | .waitOffline => [0, 2]
  | .assignExpired => [0, 1]
  | .assignCopyFailed => [0, 2]
  | .failRequest => [0, 1]
  | .failThreshold => [0, 2]
  | .peerClosed => [0, 1]
  | .peerExpired => [0, 2]
  | .peerReset => [0, 3]
  | .created => [0, 1]
  | .deleted => [0, 2]

/-! ## Coded fields of parameters: `none` is a byte outside the field's list, refused BAD_PARAM by the owner (R160) -/

def copyParam (b : Byte) : Option Copy :=
  if b = 0x01 then some .a else if b = 0x02 then some .b else none

def coherenceParam (b : Byte) : Option Coherence :=
  if b = 0x00 then some .synced else if b = 0x01 then some .aOnly else if b = 0x02 then some .bOnly
  else if b = 0x03 then some .suspect else if b = 0x04 then some .lost else if b = 0x05 then some .void
  else none

/-- The healths a copy may be created with: ONLINE or FAILED (1.4). -/
def createHealthParam (b : Byte) : Option Health :=
  if b = 0x00 then some .online else if b = 0x02 then some .failed else none

def policyParam (b : Byte) : Option ReadPolicy :=
  if b = 0x00 then some .preferA else if b = 0x01 then some .preferB else if b = 0x02 then some .alternate
  else none

/-- The outcome of a REPORT_WRITE as the report it records: WRITTEN or FAILED (R54, R55). -/
def outcomeParam (b : Byte) : Option Report :=
  if b = 0x01 then some .written else if b = 0x02 then some .failed else none

def repairOutcomeParam (b : Byte) : Option RepairOutcome :=
  if b = 0x00 then some .copied else if b = 0x01 then some .sourceBad else if b = 0x02 then some .targetBad
  else none

def levelParam (b : Byte) : Option Level :=
  if b = 0x00 then some .low else if b = 0x01 then some .high else none

def maskParam (b : Byte) : Option Bool :=
  if b = 0x00 then some false else if b = 0x01 then some true else none

/-- A tag or ticket parameter (R160). -/
def tagParam (ps : List Byte) (off : Nat) : Tag := ⟨(byteAt ps off).toNat, byteAt ps (off + 1)⟩

/-- Whether a change set names the setting of bit `i` (Table 9-8). -/
def names (changeSet : Byte) (i : Nat) : Bool := changeSet.getLsbD i

/-- An entry of an EVENT_CONFIG: the index of its kind in kind-code order (0 to 10), and the level and mask; `none`
when one of the three bytes is outside its list (R140). -/
def eventEntry (k l m : Byte) : Option (Nat × KindConfig) :=
  if 1 ≤ k.toNat ∧ k.toNat ≤ 11 then
    match levelParam l, maskParam m with
    | some level, some masked => some (k.toNat - 1, ⟨level, masked⟩)
    | _, _ => none
  else none

/-- The entries of an EVENT_CONFIG, `none` when any of them is refused (R140). -/
def eventEntries : List Byte → Option (List (Nat × KindConfig))
  | k :: l :: m :: rest =>
    match eventEntry k l m, eventEntries rest with
    | some e, some es => some (e :: es)
    | _, _ => none
  | _ => some []

end Sys2Proof.Machine
end

