-- ==== Sys2Proof/Machine/Ops.lean ====
section
/-! DEFINITION. The named operations over the state: access to ports, volumes and tables, moments and deadlines (R170),
the event unit (R134 to R138), the slot view of the extent store (R6, R20). -/

namespace Sys2Proof.Machine

/-! ## Ports -/

def State.port (s : State) : Port → PortRecord
  | .p0 => s.port0
  | .p1 => s.port1

def State.setPort (s : State) (p : Port) (r : PortRecord) : State :=
  match p with
  | .p0 => { s with port0 := r }
  | .p1 => { s with port1 := r }

def State.setSession (s : State) (p : Port) (x : Session) : State :=
  s.setPort p { s.port p with session := x }

def State.setEvents (s : State) (p : Port) (x : EventUnit) : State :=
  s.setPort p { s.port p with events := x }

def State.setLink (s : State) (p : Port) (x : Link) : State :=
  s.setPort p { s.port p with link := x }

def State.setPrst (s : State) (p : Port) (x : Bool) : State :=
  s.setPort p { s.port p with prst := x }

def State.setBurst (s : State) (p : Port) (x : Burst) : State :=
  s.setPort p { s.port p with burst := x }

/-- The port's chip select is released at the end of a burst during which SDO shifted out the given bytes (R147, R148). -/
def State.endBurst (s : State) (p : Port) (out : List Byte) : State :=
  s.setPort p { s.port p with burst := .none, sdo := out }

/-- SDO is driven only during the port's chip select (R148, R161), and not at all without main supply (log entry 10). -/
def State.sdoPin (s : State) (p : Port) : SdoPin :=
  if s.supply = .off ∨ (s.port p).burst = .none then .highImpedance else .driven

def State.setAttn (s : State) (p : Port) (x : Bool) : State :=
  s.setPort p { s.port p with attn := x }

/-- The port's count of open intents becomes `n` (R45). -/
def State.setIntentCount (s : State) (p : Port) (n : Nat) : State :=
  s.setPort p { s.port p with intents := n }

/-- The port's count of assignments becomes `n` (R85). -/
def State.setAssignmentCount (s : State) (p : Port) (n : Nat) : State :=
  s.setPort p { s.port p with assignments := n }

/-- Both ATTN lines settle to the value R144 gives for the state. -/
def State.settleAttn (s : State) : State :=
  { s with port0 := { s.port0 with attn := attnRule s.supply s.port0 }
           port1 := { s.port1 with attn := attnRule s.supply s.port1 } }

/-! ## Volumes and the extent store -/

/-- The record of a volume, `none` when it is ABSENT or the number names none (R1). -/
def State.volume? (s : State) (v : Nat) : Option Volume := (s.volumes[v]?).join

def State.setVolume (s : State) (v : Nat) (x : Option Volume) : State :=
  { s with volumes := s.volumes.set v x }

/-- Applies a change to a present volume record. -/
def State.modVolume (s : State) (v : Nat) (f : Volume → Volume) : State :=
  match s.volume? v with
  | none => s
  | some x => s.setVolume v (some (f x))

/-- An extent slot by its number: the extent of the present volume whose run holds it, `none` when the slot is FREE
(R6, R20). -/
def State.extentSlot (s : State) (slot : Nat) : Option Extent :=
  s.volumes.findSome? fun
    | some v =>
      if v.slotBase ≤ slot && slot < v.slotBase + v.extentCount then v.extents[slot - v.slotBase]? else none
    | none => none

/-- Applies `f` to each extent with its number, from number `i` on. -/
def mapExtentsFrom (f : Nat → Extent → Extent) : Nat → List Extent → List Extent
  | _, [] => []
  | i, x :: xs => f i x :: mapExtentsFrom f (i + 1) xs

/-- Applies `f` to each extent of a volume with its extent number. -/
def mapExtents (f : Nat → Extent → Extent) (xs : List Extent) : List Extent := mapExtentsFrom f 0 xs

/-! ## Tables -/

/-- The record a slot of a table holds, `none` when the slot is FREE or there is no such slot. -/
def heldAt {α : Type} (t : List (Slot (Option α))) (slot : Nat) : Option α :=
  match t[slot]? with
  | some x => x.held
  | none => none

/-- The lowest-numbered FREE slot of a table (R44, R84). -/
def lowestFree {α : Type} (t : List (Slot (Option α))) : Option Nat := t.findIdx? (fun x => x.held.isNone)

/-- The generation of a slot. -/
def genAt {α : Type} (t : List (Slot α)) (slot : Nat) : BitVec 8 :=
  match t[slot]? with
  | some x => x.gen
  | none => 0

/-- Puts a record into a slot under the slot's next generation, wrapping from 255 to 0 (R44, R70, R84). -/
def place {α : Type} (t : List (Slot α)) (slot : Nat) (x : α) : List (Slot α) :=
  t.set slot ⟨genAt t slot + 1, x⟩

/-- Replaces what a slot holds; the slot keeps its generation. -/
def hold {α : Type} (t : List (Slot α)) (slot : Nat) (x : α) : List (Slot α) :=
  t.set slot ⟨genAt t slot, x⟩

def State.intent? (s : State) (slot : Nat) : Option Intent := heldAt s.intents slot

def State.assignment? (s : State) (slot : Nat) : Option Assignment := heldAt s.assignments slot

/-- What a waiter slot holds besides its generation; EMPTY when there is no such slot. -/
def State.waiterEntry (s : State) (slot : Nat) : WaiterEntry :=
  match s.waiters[slot]? with
  | some x => x.held
  | none => .vacant

/-- The waiter in a WAITING slot. -/
def State.waiter? (s : State) (slot : Nat) : Option Waiter :=
  match s.waiterEntry slot with
  | .waiting w => some w
  | _ => none

/-! ## Time (R170): moments are REFCLK cycles -/

/-- The moment something is taken. -/
def State.moment (s : State) : Nat := s.ticks * Config.cyclesPerTick + s.phase

/-- The moment of the last millisecond tick. -/
def State.lastTick (s : State) : Nat := s.ticks * Config.cyclesPerTick

/-- A deadline of `ms` milliseconds set now. -/
def State.deadlineIn (s : State) (ms : Nat) : Nat := s.moment + ms * Config.cyclesPerTick

/-- Whether a deadline has expired: a tick has come at which at least its time has passed, and ticks reach the
deadline owners, which they do in RUN alone (R163, R165, R170). -/
def State.expired (s : State) (deadline : Nat) : Bool := s.supply = .run && deadline ≤ s.lastTick

/-- The time left to a deadline in whole milliseconds rounded up, at least 1 (R66; log entry 9 for the least value). -/
def State.remaining (s : State) (deadline : Nat) : Nat :=
  max 1 ((deadline - s.moment + Config.cyclesPerTick - 1) / Config.cyclesPerTick)

/-! ## Numbers that wrap or saturate -/

/-- An epoch or event sequence advances by 1, wrapping from 65,535 to 1 (R120, R137). -/
def advance (n : Word16) : Word16 := if n = 0xFFFF then 1 else n + 1

/-- A count increases by 1, saturating at 255 (R107, R136, R138). -/
def bump255 (n : Nat) : Nat := min 255 (n + 1)

/-! ## The event unit (R135 to R138) -/

/-- The bit of a kind in a kind set: bit n - 1 for kind code n (Table 9-7). -/
def kindBit (k : Kind) : Word16 := 1 <<< (k.code - 1)

/-- Whether a record is the overflow record (R138). -/
def EventRecord.isOverflow (r : EventRecord) : Bool := r.kind = .overflow

/-- Whether an event merges into a record: same kind, subject and value (R136). -/
def EventRecord.merges (r : EventRecord) (k : Kind) (sub : Subject) (val : EventValue) : Bool :=
  r.kind = k && r.subject = sub && r.value = val

/-- The number of records, the overflow record apart (R134, R137). -/
def EventUnit.size (u : EventUnit) : Nat := u.records.countP (fun r => !r.isOverflow)

/-- A merge: the record's count increases, everything else stands (R136). -/
def EventUnit.merge (u : EventUnit) (k : Kind) (sub : Subject) (val : EventValue) : EventUnit :=
  { u with records := u.records.map fun r =>
      if r.merges k sub val then { r with count := bump255 r.count } else r }

/-- A new record at the end of the arrival order with the advanced sequence (R137). -/
def EventUnit.append (u : EventUnit) (k : Kind) (sub : Subject) (val : EventValue) : EventUnit :=
  { u with records := u.records ++ [⟨k, sub, val, 1, advance u.counter, 0⟩], counter := advance u.counter }

/-- A drop into the overflow record, which is created at its first drop (R138). -/
def EventUnit.drop (u : EventUnit) (k : Kind) : EventUnit :=
  if u.records.any (·.isOverflow) then
    { u with
      records := u.records.map fun r =>
        if r.isOverflow then { r with count := bump255 r.count, kindSet := r.kindSet ||| kindBit k } else r
      counter := advance u.counter }
  else
    { u with
      records := u.records ++ [⟨.overflow, .none, .zero, 1, advance u.counter, kindBit k⟩]
      counter := advance u.counter }

/-- An event taken for an OPEN port: merged, queued or dropped (R136, R137, R138). -/
def EventUnit.take (u : EventUnit) (k : Kind) (sub : Subject) (val : EventValue) : EventUnit :=
  if u.records.any (fun r => r.merges k sub val) then u.merge k sub val
  else if u.size < Config.eventRecords then u.append k sub val
  else u.drop k

/-- An event raised to one port: taken when its session is OPEN, otherwise discarded (R135). -/
def State.raise (s : State) (p : Port) (k : Kind) (sub : Subject) (val : EventValue) : State :=
  if (s.port p).session.state = .opened then s.setEvents p ((s.port p).events.take k sub val) else s

/-- An event raised to every OPEN port (R134, R135). -/
def State.raiseAll (s : State) (k : Kind) (sub : Subject) (val : EventValue) : State :=
  (s.raise .p0 k sub val).raise .p1 k sub val

/-- The same event raised `n` times to every OPEN port. -/
def State.raiseTimes (s : State) : Nat → Kind → Subject → EventValue → State
  | 0, _, _, _ => s
  | n + 1, k, sub, val => (s.raiseAll k sub val).raiseTimes n k sub val

/-- The event queue, the overflow record and the in-service stack cleared; the sequence counter is left as it was
(R145). -/
def State.clearEvents (s : State) (p : Port) : State :=
  s.setEvents p { (s.port p).events with records := [], stack := [] }

end Sys2Proof.Machine
end

