-- ==== Sys2Proof/Machine/ExtentOps.lean ====
section
/-! DEFINITION. How a cause of Chapter 2 changes extents: whole, with the counts in step and the consequences raised
(R23, R24, R102, R116). -/

namespace Sys2Proof.Machine

/-- How many extents enter LOST from another state (R24). -/
def enteringLost : List Extent → List Extent → Nat
  | x :: xs, y :: ys => (if x.state ≠ .lost ∧ y.state = .lost then 1 else 0) + enteringLost xs ys
  | _, _ => 0

/-- A cause applied to every extent of a volume, each from the state it held before the cause began. The counts follow,
and EXTENT_LOST is raised once for each extent that enters LOST (R15, R16, R23, R24). -/
def State.changeExtents (s : State) (v : Nat) (f : Nat → Extent → Extent) : State :=
  match s.volume? v with
  | none => s
  | some x =>
    let ys := mapExtents f x.extents
    (s.setVolume v (some { x with extents := ys }.recount)).raiseTimes (enteringLost x.extents ys)
      .extentLost (.volume v) .zero

/-- The repair-needed count of a volume, 0 when it is ABSENT. -/
def State.repairNeeded (s : State) (v : Nat) : Nat :=
  match s.volume? v with
  | some x => x.repairNeeded
  | none => 0

/-- REPAIR_PENDING to every OPEN port when the count has passed from 0 to more (R102). -/
def State.raiseRepairPending (s : State) (v before : Nat) : State :=
  if before = 0 ∧ 0 < s.repairNeeded v then s.raiseAll .repairPending (.volume v) .zero else s

/-- A REBUILDING copy whose stale count has reached 0 becomes ONLINE, and COPY_ONLINE is raised (R116). -/
def State.completeRebuild (s : State) (v : Nat) (c : Copy) : State :=
  match s.volume? v with
  | none => s
  | some x =>
    if x.health c = .rebuilding ∧ (x.copy c).stale = 0 then
      (s.setVolume v (some (x.setHealth c .online))).raiseAll .copyOnline (.copy v c) .zero
    else s

/-- The rebuilds of a volume completed, once the extent changes of the request or expiry are complete (R116). -/
def State.completeRebuilds (s : State) (v : Nat) : State := (s.completeRebuild v .a).completeRebuild v .b

/-- The rebuilds of every volume completed, in number order, by the stale counts as they now stand: a count that has reached 0
and risen again within the same teardown completes none (R116; DESIGN CHOICE, that case and that order: log entry 18). -/
def State.completeAll (s : State) : State := (List.range Config.volumes).foldl State.completeRebuilds s

/-- The consequences that follow from the counts (R23), where the cause is the only one of its request or expiry:
REPAIR_PENDING, then COPY_ONLINE. `before` is the repair-needed count before the cause. -/
def State.consequences (s : State) (v before : Nat) : State := (s.raiseRepairPending v before).completeRebuilds v

/-- A cause with its consequences. -/
def State.applyCause (s : State) (v : Nat) (f : Nat → Extent → Extent) : State :=
  (s.changeExtents v f).consequences v (s.repairNeeded v)

/-- Loss of currency of one copy in the extents that `sel` picks (R22, R32, R33). -/
def loseIn (sel : Nat → Bool) (c : Copy) (e : Nat) (x : Extent) : Extent :=
  if sel e then { x with state := loseCurrency c x.state } else x

end Sys2Proof.Machine
end

