-- ==== Sys2Proof/Machine/IntentOps.lean ====
section
/-! DEFINITION. The shared operations of the intent table and the wait list: grant (R50), close (R56), abandon (R57), the
pass (R75), and the removals of waiters (R81, R82). -/

namespace Sys2Proof.Machine

/-! ## Queries (R48, R67) -/

/-- Whether a range overlaps an open intent of the volume (R48). -/
def State.overlapsIntent (s : State) (v first count : Nat) : Bool :=
  s.intents.any fun x =>
    match x.held with
    | some i => i.volume = v && overlap first count i.firstBlock i.blockCount
    | none => false

/-- Whether a range overlaps one of the given waiters of the volume (R48). -/
def State.overlapsWaiter (s : State) (slots : List Nat) (v first count : Nat) : Bool :=
  slots.any fun w =>
    match s.waiter? w with
    | some x => x.volume = v && overlap first count x.firstBlock x.blockCount
    | none => false

/-- Whether an open intent touching the extent still has its report on the copy PENDING (R29, R67). -/
def State.pendingReportOn (s : State) (v e : Nat) (c : Copy) : Bool :=
  s.intents.any fun x =>
    match x.held with
    | some i => i.volume = v && i.touches e && i.report c = .pending
    | none => false

/-- Whether a WAITING waiter names the volume (R83). -/
def State.hasWaiter (s : State) (v : Nat) : Bool :=
  s.arrival.any fun w =>
    match s.waiter? w with
    | some x => x.volume = v
    | none => false

/-! ## Grant (R50) -/

/-- What a grant does to an extent it touches: the open count rises, and its assignment is marked overtaken (R34, R35). -/
def grantExtent (i : Intent) (e : Nat) (x : Extent) : Extent :=
  if i.touches e then
    { x with openCount := x.openCount + 1, link := x.link.map fun l => { l with overtaken := true } }
  else x

/-- Marks the assignments overtaken whose extents of volume `v` are picked by `sel` (R92). -/
def markOvertaken (t : List (Slot (Option Assignment))) (v : Nat) (sel : Nat → Bool) :
    List (Slot (Option Assignment)) :=
  t.map fun x =>
    { x with held := x.held.map fun a =>
        if a.volume = v && sel a.extent then { a with overtaken := true } else a }

/-- The intent a grant creates: the range with its first extent and extent count (R4), each report PENDING or
NOT_REQUIRED by the copy's health at the grant, the deadline at the grant plus the port's lifetime (R50, R58). -/
def State.newIntent (s : State) (p : Port) (epoch : Word16) (v : Nat) (x : Volume) (first count : Nat) : Intent :=
  { port := p, epoch := epoch, volume := v, firstBlock := first, blockCount := count
    firstExtent := extentOf x.shift first, extentCount := spanOf x.shift first count
    deadline := s.deadlineIn (s.port p).session.config.intentLifetime
    reportA := if x.copyA.health = .failed then .notRequired else .pending
    reportB := if x.copyB.health = .failed then .notRequired else .pending }

/-- Grants an intent in a FREE slot (R50). The tag is the slot with its advanced generation (R44). -/
def State.grant (s : State) (slot : Nat) (i : Intent) : State :=
  let s := { s with intents := place s.intents slot (some i)
                    assignments := markOvertaken s.assignments i.volume i.touches }
  let s := s.setIntentCount i.port ((s.port i.port).intents + 1)
  s.modVolume i.volume fun x =>
    { x with openIntents := x.openIntents + 1, extents := mapExtents (grantExtent i) x.extents }

/-- The tag a grant in the slot will form (R44). -/
def State.nextIntentTag (s : State) (slot : Nat) : Tag := ⟨slot, genAt s.intents slot + 1⟩

/-! ## The pass of the wait list (R74, R75) -/

/-- The slot a visited waiter would be granted in, when the four conditions of R75 hold. -/
def State.grantable (s : State) (w : Nat) (x : Waiter) : Option Nat :=
  if s.overlapsIntent x.volume x.firstBlock x.blockCount then none
  else if s.overlapsWaiter (s.arrival.takeWhile (· ≠ w)) x.volume x.firstBlock x.blockCount then none
  else if (s.port x.port).session.config.quota ≤ (s.port x.port).intents then none
  else lowestFree s.intents

/-- One visit of a pass: the grant made whole with WAIT_GRANTED, or nothing (R75). -/
def State.visit (s : State) (w : Nat) : State :=
  match s.waiter? w with
  | none => s
  | some x =>
    match s.grantable w x, s.volume? x.volume with
    | some slot, some vol =>
      let tag := s.nextIntentTag slot
      let s := s.grant slot (s.newIntent x.port x.epoch x.volume vol x.firstBlock x.blockCount)
      let s := { s with waiters := hold s.waiters w (.granted x.port x.epoch tag)
                        arrival := s.arrival.filter (· ≠ w) }
      s.raise x.port .waitGranted (.ticket ⟨w, genAt s.waiters w⟩) (.intent tag)
    | _, _ => s

/-- One pass: the WAITING waiters visited in arrival order (R75). -/
def State.pass (s : State) : State := s.arrival.foldl State.visit s

/-! ## Close and abandon (R56, R57) -/

/-- What C1 does to an extent (R25, R56). -/
def closeExtent (x : Volume) (i : Intent) (e : Nat) (y : Extent) : Extent :=
  if i.touches e then
    { y with
      state := closeResult y.state (coversWhole x.shift x.blockCount i.firstBlock i.blockCount e)
        i.reportA i.reportB
      openCount := y.openCount - 1 }
  else y

/-- What C2 does to an extent (R26, R57). -/
def abandonExtent (x : Volume) (i : Intent) (e : Nat) (y : Extent) : Extent :=
  if i.touches e then
    { y with
      state := abandonResult y.state (coversWhole x.shift x.blockCount i.firstBlock i.blockCount e)
        i.reportA i.reportB
      openCount := y.openCount - 1 }
  else y

/-- Lowers the volume's open-intent count and the port's count, and frees the slot (R17, R45, R56). -/
def State.freeIntent (s : State) (slot : Nat) (i : Intent) : State :=
  let s := s.modVolume i.volume fun x => { x with openIntents := x.openIntents - 1 }
  let s := s.setIntentCount i.port ((s.port i.port).intents - 1)
  { s with intents := hold s.intents slot none }

/-- The end of an intent by a rule for its extents, its rebuilds not yet completed: the extent changes, EXTENT_LOST and
REPAIR_PENDING are raised, the counts fall, the slot is FREE (R24, R56, R57, R102). -/
def State.settleIntent (s : State) (slot : Nat) (rule : Volume → Intent → Nat → Extent → Extent) : State :=
  match s.intent? slot with
  | none => s
  | some i =>
    match s.volume? i.volume with
    | none => s.freeIntent slot i
    | some x =>
      ((s.changeExtents i.volume (rule x i)).raiseRepairPending i.volume (s.repairNeeded i.volume)).freeIntent slot i

/-- Ends an intent by a rule for its extents, where its end is the only one of its request or expiry that can complete a
rebuild; no pass is made (R56 steps 1 and 2, R57, R116). -/
def State.endIntent (s : State) (slot : Nat) (rule : Volume → Intent → Nat → Extent → Extent) : State :=
  match s.intent? slot with
  | none => s
  | some i => (s.settleIntent slot rule).completeRebuilds i.volume

/-- An intent closes by C1, without the pass (R56, R63). -/
def State.closeIntent (s : State) (slot : Nat) : State := s.endIntent slot closeExtent

/-- An intent is abandoned by C2, without the pass (R57, R64). -/
def State.abandonIntent (s : State) (slot : Nat) : State := s.endIntent slot abandonExtent

/-- Abandons every open intent of a port in slot order by C2; the rebuilds are completed when the teardown's extent changes
are all made (R64, R116, R127). -/
def State.abandonAll (s : State) (p : Port) : State :=
  (List.range Config.intentSlots).foldl (fun s slot =>
    match s.intent? slot with
    | some i => if i.port = p then s.settleIntent slot abandonExtent else s
    | none => s) s

/-! ## A copy failure's work in the intent table (R61, R63) -/

/-- R61 on one intent: a PENDING or WRITTEN report on the failed copy becomes DROPPED. -/
def dropReport (v : Nat) (c : Copy) (i : Intent) : Intent :=
  if i.volume = v && (i.report c = .pending || i.report c = .written) then i.withReport .dropped c else i

/-- R61 on every open intent of the volume. -/
def State.dropReports (s : State) (v : Nat) (c : Copy) : State :=
  { s with intents := s.intents.map fun x => { x with held := x.held.map (dropReport v c) } }

/-- Closes, in slot order, each open intent of the volume left with no PENDING report, except the one whose report
triggered the failure (R63, R112). No copy of the volume is REBUILDING by then (R111), so no close completes a rebuild. -/
def State.closeComplete (s : State) (v : Nat) (except : Option Nat) : State :=
  (List.range Config.intentSlots).foldl (fun s slot =>
    match s.intent? slot with
    | some i => if i.volume = v && i.complete && except ≠ some slot then s.closeIntent slot else s
    | none => s) s

/-! ## Removals of waiters -/

/-- A waiter leaves the arrival order and its slot becomes EMPTY (R70, R77, R79). -/
def State.removeWaiter (s : State) (w : Nat) : State :=
  { s with waiters := hold s.waiters w .vacant, arrival := s.arrival.filter (· ≠ w) }

/-- The ticket of a waiter slot (R70). -/
def State.ticket (s : State) (w : Nat) : Tag := ⟨w, genAt s.waiters w⟩

/-- Removes every waiter of an OFFLINE volume in arrival order, with WAIT_ENDED (OFFLINE) to each owner (R81). -/
def State.removeOffline (s : State) (v : Nat) : State :=
  s.arrival.foldl (fun s w =>
    match s.waiter? w with
    | some x => if x.volume = v then
        (s.removeWaiter w).raise x.port .waitEnded (.ticket (s.ticket w)) .waitOffline else s
    | none => s) s

/-- Whether a waiter slot belongs to a port: WAITING or GRANTED for it (R82). -/
def WaiterEntry.ownedBy (x : WaiterEntry) (p : Port) : Bool :=
  match x with
  | .vacant => false
  | .waiting w => w.port = p
  | .granted q _ _ => q = p

/-- At the end of a port's session its WAITING waiters are removed and its GRANTED slots become EMPTY, without events
(R82). -/
def State.removeWaitersOf (s : State) (p : Port) : State :=
  { s with
    arrival := s.arrival.filter fun w => !(s.waiterEntry w).ownedBy p
    waiters := s.waiters.map fun x => if x.held.ownedBy p then { x with held := .vacant } else x }

end Sys2Proof.Machine
end

