-- ==== Sys2Proof/Machine/RepairOps.lean ====
section
/-! DEFINITION. The shared operations of the repair scheduler: how an assignment ends (R28, R29, R30, R94, R95) and the
search of TAKE_REPAIR (R88, R89). -/

namespace Sys2Proof.Machine

/-- What the end of an overtaken assignment does to its extent's state, C4 (R29): nothing on a VOID extent, nothing
while an open intent touching it has its target report PENDING, otherwise the target loses currency. -/
def State.overtakenResult (s : State) (a : Assignment) (st : Coherence) : Coherence :=
  if st = .void then .void
  else if s.pendingReportOn a.volume a.extent a.target then st
  else loseCurrency a.target st

/-- The change of the assignment's extent with its link cleared (R28, R29, R30). -/
def endExtent (a : Assignment) (rule : Coherence → Coherence) (e : Nat) (x : Extent) : Extent :=
  if e = a.extent then { x with state := rule x.state, link := none } else x

/-- Frees an assignment slot and lowers its port's count (R84, R85). -/
def State.freeAssignment (s : State) (slot : Nat) (a : Assignment) : State :=
  let s := s.setAssignmentCount a.port ((s.port a.port).assignments - 1)
  { s with assignments := hold s.assignments slot none }

/-- The end of an assignment, its rebuilds not yet completed: the extent changes and EXTENT_LOST is raised, the link is
cleared and the slot freed, then REPAIR_PENDING is raised (R94 steps 1 to 3, R95, R102). -/
def State.settleAssignment (s : State) (slot : Nat) (a : Assignment) (rule : Coherence → Coherence) : State :=
  ((s.changeExtents a.volume (endExtent a rule)).freeAssignment slot a).raiseRepairPending a.volume
    (s.repairNeeded a.volume)

/-- The end of an assignment, where it is the only one of its request or expiry that can complete a rebuild (R94 steps 1 to
3, R95, R116). -/
def State.endAssignment (s : State) (slot : Nat) (a : Assignment) (rule : Coherence → Coherence) : State :=
  (s.settleAssignment slot a rule).completeRebuilds a.volume

/-- The rule of a revocation: C4 when overtaken, C5 when not (R29, R30, R95). -/
def State.revokedState (s : State) (a : Assignment) : Coherence → Coherence :=
  if a.overtaken then s.overtakenResult a else id

/-- The tag of an assignment slot (R84). -/
def State.assignmentTag (s : State) (slot : Nat) : Tag := ⟨slot, genAt s.assignments slot⟩

/-- Revocation, with ASSIGN_ENDED to the holder when the cause raises it (R95). -/
def State.revoke (s : State) (slot : Nat) (reason : Option EventValue) : State :=
  match s.assignment? slot with
  | none => s
  | some a =>
    let t := s.endAssignment slot a (s.revokedState a)
    match reason with
    | some r => t.raise a.port .assignEnded (.assignment (s.assignmentTag slot)) r
    | none => t

/-- A copy failure revokes, in slot order, every assignment of the volume with ASSIGN_ENDED (R99, R112). No copy of the
volume is REBUILDING by then (R111), so no revocation completes a rebuild. -/
def State.revokeVolume (s : State) (v : Nat) : State :=
  (List.range Config.assignmentSlots).foldl (fun s slot =>
    match s.assignment? slot with
    | some a => if a.volume = v then s.revoke slot (some .assignCopyFailed) else s
    | none => s) s

/-- The end of a port's session revokes, in slot order, every assignment of the port, without ASSIGN_ENDED; the rebuilds are
completed when the teardown's extent changes are all made (R100, R116, R127). -/
def State.revokePort (s : State) (p : Port) : State :=
  (List.range Config.assignmentSlots).foldl (fun s slot =>
    match s.assignment? slot with
    | some a => if a.port = p then s.settleAssignment slot a (s.revokedState a) else s
    | none => s) s

/-! ## The search (R88, R89) -/

/-- The order in which a volume's extents are examined: from the cursor up, then from 0 to the cursor (R88). -/
def Volume.searchOrder (x : Volume) : List Nat :=
  (List.range (x.extentCount - x.cursor)).map (x.cursor + ·) ++ List.range (min x.cursor x.extentCount)

/-- Whether extent number `e` of the volume qualifies (R87). -/
def Volume.extentQualifies (x : Volume) (e : Nat) : Bool :=
  match x.extents[e]? with
  | some y => x.qualifies y
  | none => false

/-- The extent a search of the volume chooses (R88). -/
def Volume.search (x : Volume) : Option Nat :=
  if x.repairNeeded = 0 then none else x.searchOrder.find? x.extentQualifies

/-- The order in which ANY visits the volumes: from the one after the pointer round to the pointer itself (R89). -/
def anyOrder (pointer : Nat) : List Nat :=
  (List.range Config.volumes).map fun i => (pointer + 1 + i) % Config.volumes

/-- The search of one volume by its number; an ABSENT volume has nothing (R89). -/
def State.searchVolume (s : State) (v : Nat) : Option (Nat × Nat) :=
  match s.volume? v with
  | some x => x.search.map (v, ·)
  | none => none

/-- The volume and extent that TAKE_REPAIR with ANY chooses (R89). -/
def State.searchAny (s : State) : Option (Nat × Nat) := (anyOrder s.pointer).findSome? s.searchVolume

end Sys2Proof.Machine
end

