-- ==== Sys2Proof/Machine/HealthOps.lean ====
section
/-! DEFINITION. The failure procedure (R111 to R114) and the charge of an error counter (R107, R108). -/

namespace Sys2Proof.Machine

/-- A health becomes `h`, and the condition and counts follow (R2, R16). -/
def State.setHealth (s : State) (v : Nat) (c : Copy) (h : Health) : State :=
  s.modVolume v fun x => x.setHealth c h

/-- The condition of a volume, ABSENT when its record is not present (R2). -/
def State.condition (s : State) (v : Nat) : Condition :=
  match s.volume? v with
  | some x => x.condition
  | none => .absent

/-- The health of a copy of a volume; of an ABSENT volume the answer is never used. -/
def State.health (s : State) (v : Nat) (c : Copy) : Health :=
  match s.volume? v with
  | some x => x.health c
  | none => .failed

/-- Steps 1 to 3 of the failure procedure: extents, health and condition, the other copy ONLINE if it was REBUILDING
(R111, R114). -/
def State.failExtents (s : State) (v : Nat) (c : Copy) : State :=
  let rebuilding := s.health v (other c) = .rebuilding
  let s := s.changeExtents v (loseIn (fun _ => true) c)
  let s := s.setHealth v c .failed
  if rebuilding then s.setHealth v (other c) .online else s

/-- Steps 4 to 7: intents, assignments, waiters, one pass (R112). -/
def State.failWork (s : State) (v : Nat) (c : Copy) (except : Option Nat) : State :=
  let s := (s.dropReports v c).closeComplete v except
  let s := s.revokeVolume v
  let s := if s.condition v = .offline then s.removeOffline v else s
  s.pass

/-- The whole failure procedure for copy `c` of a volume, with the cause it names; `except` is the intent whose
REPORT_WRITE FAILED triggered it (R111 to R113). -/
def State.failProcedure (s : State) (v : Nat) (c : Copy) (cause : EventValue) (except : Option Nat) : State :=
  let t := ((s.failExtents v c).failWork v c except).raiseAll .copyFailed (.copy v c) cause
  if s.health v (other c) = .rebuilding then t.raiseAll .copyOnline (.copy v (other c)) .zero else t

/-- The volume with the copy's error counter charged by 1 (R107). -/
def Volume.charge (x : Volume) (c : Copy) : Volume :=
  x.setCopy c { x.copy c with errors := bump255 (x.copy c).errors }

/-- Whether the copy fails automatically after a charge (R108). -/
def Volume.failsAt (x : Volume) (c : Copy) : Bool :=
  x.threshold ≠ 0 && x.threshold ≤ (x.copy c).errors && x.health c ≠ .failed && x.health (other c) ≠ .failed

/-- A charge of a copy's error counter, with the automatic failure it may cause (R107, R108). -/
def State.charge (s : State) (v : Nat) (c : Copy) (except : Option Nat) : State :=
  match s.volume? v with
  | none => s
  | some x =>
    let t := s.setVolume v (some (x.charge c))
    if (x.charge c).failsAt c then t.failProcedure v c .failThreshold except else t

end Sys2Proof.Machine
end

