-- ==== Sys2Proof/Machine/SessionOps.lean ====
section
/-! DEFINITION. The path of a request through its port (R147, R154 to R158, R123, R125) and the end of a session (R127). -/

namespace Sys2Proof.Machine

/-! ## The link side of a burst -/

/-- Whether a port takes bursts: in STARTING and RUN, with the port's PRST input not asserted (R129, R147, R163). -/
def State.accepts (s : State) (p : Port) : Bool := (s.supply = .starting || s.supply = .run) && !(s.port p).prst

/-- Whether a port's link acts on the burst whose chip select is released now: it takes bursts, no PRST and no quiescing fell
into the burst, and the burst did not begin while the port still acted on its previous request frame (R147, R163). -/
def State.hears (s : State) (b : Select) : Bool := s.accepts b.port && (s.port b.port).burst ≠ .discarded && !b.early

/-- The burst on a port after a change of a pin, at which chip select has the given level: none without chip select; one that
is to be discarded whole when the port took no bursts before or after the change (R129, R147, R163; a burst begun in HOLD:
log entry 15). -/
def burstAt (b : Burst) (sel accepted : Bool) : Burst :=
  if !sel then .none else if !accepted || b = .discarded then .discarded else .underWay

/-- The state `t` that a pin change has made of `s`, with the port's burst following (R147, R163). -/
def State.noteBurst (t s : State) (p : Port) (sel : Bool) : State :=
  t.setBurst p (burstAt (s.port p).burst sel (s.accepts p && t.accepts p))

/-- The end of a burst of `n` bytes that shows no response: SDO has shifted out 0xFF in every byte (R147), nothing without
main supply (log entry 10). -/
def State.shiftOnes (s : State) (p : Port) (n : Nat) : State :=
  s.endBurst p (if s.supply = .off then [] else List.replicate n 0xFF)

/-- The response of a taken frame is saved; its sequence and code become the last taken request and the link refusal is
removed (R149, R155, R158). -/
def State.answer (s : State) (r : Request) (code : Byte) (reply : Reply) : State :=
  s.setLink r.port { lastTaken := some (r.seq, code), saved := some (responseFrame reply r.seq), refusal := none }

/-- A response that becomes the port's link refusal; the last taken request and the saved response are kept (R149,
R153, R157). -/
def State.refuse (s : State) (p : Port) (reply : Reply) (echo : Byte) : State :=
  s.setLink p { (s.port p).link with refusal := some (responseFrame reply echo) }

/-- Whether a good frame repeats the sequence and code of the last taken request (R154). -/
def State.retransmission (s : State) (r : Request) (code : Byte) : Bool :=
  (s.port r.port).link.lastTaken = some (r.seq, code)

/-! ## The session unit -/

/-- The checks of R125: the refusal, or none. -/
def sessionCheck (x : Session) (needs : Bool) (epoch : Word16) : Option Status :=
  if !needs then none
  else match x.state with
    | .closed => some .noSession
    | .fenced => some .fenced
    | .opened => if epoch = x.epoch then none else some .staleEpoch

/-- The renewal of the lease by a request that passes the checks: when the port is OPEN and the frame carries its
current epoch, the deadline becomes the moment plus the lease (R123). -/
def State.renewLease (s : State) (r : Request) : State :=
  let x := (s.port r.port).session
  if x.state = .opened ∧ r.epoch = x.epoch then
    s.setSession r.port { x with deadline := some (s.deadlineIn x.lease) }
  else s

/-- What a request's owner does: the new state and its reply (R158). -/
abbrev Owner := Port → List Byte → State → State × Reply

/-- A taken frame, after the length and STARTING checks: session and epoch checks, renewal, the owner, the saved
response, and the ATTN lines settled (R123, R125, R144, R155, R158). -/
def State.process (s : State) (r : Request) (code : Byte) (needs : Bool) (own : Owner) : State :=
  match sessionCheck (s.port r.port).session needs r.epoch with
  | some st => s.answer r code (.bare st)
  | none =>
    let (t, reply) := own r.port r.params (s.renewLease r)
    (t.answer r code reply).settleAttn

/-- A good frame of a known code reaching a link that acts on bursts, through the checks in the order of Table 9-2:
retransmission (R154), length (R156), STARTING (R157), then the session unit and the owner. -/
def State.receive (s : State) (r : Request) (code : Byte) (lengthOk needs : Bool) (own : Owner) : State :=
  if s.retransmission r code then s.setLink r.port { (s.port r.port).link with refusal := none }
  else if !lengthOk then s.answer r code (.bare .badLength)
  else if s.supply = .starting then s.refuse r.port (.bare .starting) r.seq
  else s.process r code needs own

/-- A request burst whose good frame carries the code: 0xFF is shifted out in each of its 7 plus L bytes (R147), and the
frame is received where the port hears it. The catalogue gives the code's length and session need (Table 9-3). -/
def State.serve (s : State) (r : Request) (code : Byte) (own : Owner) : State :=
  let t := s.shiftOnes r.port (7 + r.params.length)
  if s.hears r.toSelect then
    match catalogueRow code with
    | some c => t.receive r code (c.lengthOk r.params.length) c.needsSession own
    | none => t
  else t

/-! ## The end of a session -/

/-- The port's session state becomes `st` with no lease deadline. -/
def State.endSession (s : State) (p : Port) (st : SessionState) : State :=
  s.setSession p { (s.port p).session with state := st, deadline := none }

/-- The teardown of a port whose state is already FENCED or CLOSED, in the order of R127. The rebuilds are completed after
its last extent change (R116), and so before the pass; a copy whose stale count reaches 0 at one abandon or revocation and
rises again at a later one stays REBUILDING (DESIGN CHOICE, both: log entry 18). -/
def State.teardown (s : State) (p : Port) (reason : EventValue) : State :=
  let s := (s.clearEvents p).abandonAll p
  let s := ((s.removeWaitersOf p).revokePort p).completeAll
  s.pass.raise (peer p) .peerLost (.port p) reason

end Sys2Proof.Machine
end

