-- ==== Sys2Proof/Machine/Bursts.lean ====
section
/-! DEFINITION. The meanings of the bursts that carry no request of the catalogue: READ_BURST, FRAME_ERROR and BAD_CODE
(Chapter 9). -/

namespace Sys2Proof.Machine

/-! ## READ_BURST (R150) -/

/-- The shown response: the link refusal, else the saved response, else the IDLE frame (R150). In STARTING too, so that a
FRAME_ERROR, BAD_CODE or BAD_LENGTH made there is shown (DEDUCED: R150, R153 and R155 against R157; log entry 20). -/
def Link.shown (l : Link) : List Byte :=
  match l.refusal with
  | some f => f
  | none => match l.saved with
    | some f => f
    | none => idleFrame

/-- What a read burst of `n` bytes shifts out: 0xFF, then the shown response, then 0xFF to the end (R147, R150). -/
def readBytes (shown : List Byte) (n : Nat) : List Byte :=
  (0xFF :: shown ++ List.replicate (n - 1 - shown.length) 0xFF).take n

/-- A read burst changes nothing but what SDO shifts out, and ends (R150); a burst without a whole byte only ends (R147).
One begun while the port still acts on its previous request frame shifts out 0xFF alone (R147). So does one that a PRST,
PFAIL or RESETN falls into: 0xFF is recorded also in the bytes shifted out before the pin changed (DESIGN CHOICE: log
entry 15). -/
def execReadBurst (b : Select) (n : Nat) (s : State) : Host.Outcome State Fault Refusal :=
  .next (if n = 0 then s.setBurst b.port .none
    else if s.hears b then s.endBurst b.port (readBytes (s.port b.port).link.shown n)
    else s.shiftOnes b.port n)

/-! ## FRAME_ERROR (R151, R153) -/

/-- A bad frame: FRAME_ERROR with the reason, echoing the second byte or 0, becomes the link refusal (R153). A burst
without a whole byte only ends (R147). Bytes that pass the check, or begin with 0x00 (a read burst, R147), are
another command. -/
def execFrameError (b : Select) (bytes : List Byte) (s : State) : Host.Outcome State Fault Refusal :=
  if bytes = [] then .next (s.setBurst b.port .none)
  else if byteAt bytes 0 = 0 then .refused (.otherCommand "FRAME_ERROR")
  else match frameCheck bytes with
    | none => .refused (.otherCommand "FRAME_ERROR")
    | some why => .next
      (let t := s.shiftOnes b.port bytes.length
       if s.hears b then t.refuse b.port ⟨.frameError, [why.code]⟩ (byteAt bytes 1) else t)

/-! ## BAD_CODE (R156) -/

/-- A good frame whose code is not in the catalogue: a retransmission shows the saved response again (R154), otherwise it
is taken and refused BAD_CODE in every supply state in which bursts are heard (R155, R156, R157). Taken in STARTING, it is the
last taken request in RUN too (log entry 21). -/
def execBadCode (r : Request) (code : Byte) (s : State) : Host.Outcome State Fault Refusal :=
  if knownCode code ∨ code = 0 then .refused (.otherCommand "BAD_CODE")
  else .next
    (let t := s.shiftOnes r.port (7 + r.params.length)
     if s.hears r.toSelect then
       if s.retransmission r code then t.setLink r.port { (s.port r.port).link with refusal := none }
       else t.answer r code (.bare .badCode)
     else t)

end Sys2Proof.Machine
end

