-- ==== Sys2Proof/Machine/EventRequests.lean ====
section
/-! DEFINITION. The meanings of the event family: FETCH_EVENT, ACK_EVENT and EVENT_CONFIG (Chapter 8). -/

namespace Sys2Proof.Machine

/-! ## FETCH_EVENT (R142) -/

/-- The number of kinds in a kind set (R142). -/
def kindsIn (w : Word16) : Nat := (List.range 16).countP fun i => w.getLsbD i

/-- The level of a record as the configuration stands (R139). -/
def levelOf (cfg : List KindConfig) (r : EventRecord) : Level := (kindConfig cfg r.kind).level

/-- The record FETCH_EVENT chooses: the earliest eligible one of the highest level that has one (R142). -/
def chooseRecord (cfg : List KindConfig) (u : EventUnit) : Option EventRecord :=
  match u.records.find? (fun r => eligible cfg u.stack r && levelOf cfg r = .high) with
  | some r => some r
  | none => u.records.find? (eligible cfg u.stack)

/-- The 12 result bytes of a fetched record (Table 9-7). -/
def recordBytes (r : EventRecord) (level : Level) (depth : Nat) : List Byte :=
  BitVec.ofNat 8 r.kind.code :: r.subject.bytes
    ++ (if r.isOverflow then bytesOf 2 (kindsIn r.kindSet) else r.value.bytes)
    ++ bytesOf 1 r.count ++ bytesOf 2 r.seq.toNat ++ [level.code] ++ bytesOf 2 r.kindSet.toNat ++ bytesOf 1 depth

def ownFetchEvent : Owner := fun p _ s =>
  let cfg := (s.port p).session.events
  let u := (s.port p).events
  match chooseRecord cfg u with
  | none => (s, ⟨.none, bytesOf 1 u.records.length⟩)
  | some r =>
    let rest := u.records.erase r
    (s.setEvents p { u with records := rest, stack := levelOf cfg r :: u.stack },
     ⟨.ok, recordBytes r (levelOf cfg r) rest.length⟩)

def execFetchEvent (r : Request) (s : State) : Host.Outcome State Fault Refusal :=
  .next (s.serve r 0x08 ownFetchEvent)

/-! ## ACK_EVENT (R143) -/

def ownAckEvent : Owner := fun p _ s =>
  let u := (s.port p).events
  match u.stack with
  | [] => (s, .bare .notInService)
  | l :: rest => (s.setEvents p { u with stack := rest }, ⟨.ok, l.code :: bytesOf 1 rest.length⟩)

def execAckEvent (r : Request) (s : State) : Host.Outcome State Fault Refusal :=
  .next (s.serve r 0x09 ownAckEvent)

/-! ## EVENT_CONFIG (R140) -/

/-- Whether two entries name the same kind (R140). -/
def repeatsKind : List (Nat × KindConfig) → Bool
  | [] => false
  | e :: es => es.any (fun f => f.1 = e.1) || repeatsKind es

/-- The configuration with each named kind at its new level and mask (R140). -/
def applyEntries (cfg : List KindConfig) (es : List (Nat × KindConfig)) : List KindConfig :=
  es.foldl (fun c e => c.set e.1 e.2) cfg

/-- The whole configuration in kind-code order, level and mask of each kind (R140). -/
def eventConfigBytes (cfg : List KindConfig) : List Byte :=
  cfg.flatMap fun k => [k.level.code, flagCode k.masked]

def ownEventConfig : Owner := fun p ps s =>
  match eventEntries ps with
  | none => (s, .bare .badParam)
  | some es =>
    if repeatsKind es then (s, .bare .badParam)
    else
      let cfg := applyEntries (s.port p).session.events es
      (s.setSession p { (s.port p).session with events := cfg }, ⟨.ok, eventConfigBytes cfg⟩)

def execEventConfig (r : Request) (s : State) : Host.Outcome State Fault Refusal :=
  .next (s.serve r 0x0A ownEventConfig)

end Sys2Proof.Machine
end

