-- ==== Sys2Proof/Machine/Volumes.lean ====
section
/-! DEFINITION. The meanings of the volume family: CREATE_VOLUME, DELETE_VOLUME, VOLUME_STATUS and SET_VOLUME
(Chapter 1). -/

namespace Sys2Proof.Machine

/-- The check of a volume's name (R5): a number above 15 is refused BAD_PARAM, an ABSENT record NO_VOLUME; otherwise the
rest of the request follows with the record. -/
def State.withVolume (s : State) (v : Nat) (k : Volume → State × Reply) : State × Reply :=
  if Config.volumes ≤ v then (s, .bare .badParam)
  else match s.volume? v with
    | none => (s, .bare .noVolume)
    | some x => k x

/-! ## Slot allocation (R7) -/

/-- The run of a present volume: slot base and extent count. -/
def Volume.run (x : Volume) : Nat × Nat := (x.slotBase, x.extentCount)

/-- Puts a run into a list of runs in slot order. -/
def insertRun (r : Nat × Nat) : List (Nat × Nat) → List (Nat × Nat)
  | [] => [r]
  | q :: qs => if r.1 ≤ q.1 then r :: q :: qs else q :: insertRun r qs

/-- The runs of the present volumes in slot order (R7). -/
def State.runs (s : State) : List (Nat × Nat) :=
  (s.volumes.filterMap fun o => o.map Volume.run).foldr insertRun []

/-- The first gap of at least `m` slots, visited in slot order from slot `start`: its lowest slot (R7). -/
def firstGap (m start : Nat) : List (Nat × Nat) → Option Nat
  | [] => if start + m ≤ Config.extentSlots then some start else none
  | (base, len) :: rest => if start + m ≤ base then some start else firstGap m (max start (base + len)) rest

/-! ## CREATE_VOLUME (R3, R8 to R11) -/

/-- The record and run a CREATE_VOLUME makes (R9, R10). -/
def newVolume (base n k : Nat) (st : Coherence) (ha hb : Health) : Volume :=
  Volume.recount
    { condition := .normal, blockCount := n, shift := k, extentCount := extentCountOf n k, slotBase := base
      copyA := ⟨ha, 0, 0⟩, copyB := ⟨hb, 0, 0⟩, threshold := 8
      policy := .alternate, authority := .a, toggle := .a
      counts := ⟨0, 0, 0, 0, 0, 0⟩, repairNeeded := 0, cursor := 0, openIntents := 0
      extents := List.replicate (extentCountOf n k) ⟨initialState st ha hb, 0, none⟩ }

/-- The parameters of CREATE_VOLUME: number, shift, block count, initial state, two healths; `none` when check 1 of R8
refuses them BAD_PARAM. -/
def createParams (ps : List Byte) : Option (Nat × Nat × Nat × Coherence × Health × Health) :=
  let v := field ps 0 1
  let k := field ps 1 1
  let n := field ps 2 5
  match coherenceParam (byteAt ps 7), createHealthParam (byteAt ps 8), createHealthParam (byteAt ps 9) with
  | some st, some ha, some hb =>
    if Config.volumes ≤ v ∨ k < 8 ∨ 20 < k ∨ n = 0 ∨ (ha = .failed ∧ hb = .failed)
        ∨ Config.extentSlots < extentCountOf n k then none
    else some (v, k, n, st, ha, hb)
  | _, _, _ => none

def ownCreateVolume : Owner := fun _ ps s =>
  match createParams ps with
  | none => (s, .bare .badParam)
  | some (v, k, n, st, ha, hb) =>
    if (s.volume? v).isSome then (s, .bare .volumeExists)
    else match firstGap (extentCountOf n k) 0 s.runs with
      | none => (s, .bare .noSpace)
      | some base =>
        let t := (s.setVolume v (some (newVolume base n k st ha hb))).raiseAll .volumeChanged (.volume v) .created
        (t.raiseRepairPending v 0, ⟨.ok, bytesOf 3 base ++ bytesOf 3 (extentCountOf n k)⟩)

def execCreateVolume (r : Request) (s : State) : Host.Outcome State Fault Refusal :=
  .next (s.serve r 0x10 ownCreateVolume)

/-! ## DELETE_VOLUME (R12) -/

/-- Whether an outstanding assignment names the volume (R103). -/
def State.hasAssignment (s : State) (v : Nat) : Bool :=
  s.assignments.any fun x =>
    match x.held with
    | some a => a.volume = v
    | none => false

def ownDeleteVolume : Owner := fun _ ps s =>
  let v := field ps 0 1
  s.withVolume v fun x =>
    if 0 < x.openIntents ∨ s.hasWaiter v ∨ s.hasAssignment v then (s, .bare .busy)
    else ((s.setVolume v none).raiseAll .volumeChanged (.volume v) .deleted, .bare .ok)

def execDeleteVolume (r : Request) (s : State) : Host.Outcome State Fault Refusal :=
  .next (s.serve r 0x11 ownDeleteVolume)

/-! ## VOLUME_STATUS (R18) -/

/-- The 53 result bytes of a present volume (Table 9-7). -/
def Volume.bytes (x : Volume) (v : Nat) : List Byte :=
  bytesOf 1 v ++ [x.condition.code] ++ bytesOf 5 x.blockCount ++ bytesOf 1 x.shift ++ bytesOf 3 x.extentCount
    ++ bytesOf 3 x.slotBase ++ [x.copyA.health.code, x.copyB.health.code]
    ++ bytesOf 1 x.copyA.errors ++ bytesOf 1 x.copyB.errors ++ bytesOf 1 x.threshold
    ++ [x.policy.code, x.authority.code, x.toggle.code]
    ++ bytesOf 3 x.counts.synced ++ bytesOf 3 x.counts.aOnly ++ bytesOf 3 x.counts.bOnly
    ++ bytesOf 3 x.counts.suspect ++ bytesOf 3 x.counts.lost ++ bytesOf 3 x.counts.void
    ++ bytesOf 3 x.copyA.stale ++ bytesOf 3 x.copyB.stale ++ bytesOf 3 x.repairNeeded
    ++ bytesOf 3 x.cursor ++ bytesOf 1 x.openIntents

/-- The ABSENT answer: the number, then condition ABSENT and every other field 0 (R18). -/
def absentBytes (v : Nat) : List Byte := bytesOf 1 v ++ [Condition.absent.code] ++ List.replicate 51 0

def ownVolumeStatus : Owner := fun _ ps s =>
  let v := field ps 0 1
  if Config.volumes ≤ v then (s, .bare .badParam)
  else match s.volume? v with
    | none => (s, ⟨.ok, absentBytes v⟩)
    | some x => (s, ⟨.ok, x.bytes v⟩)

def execVolumeStatus (r : Request) (s : State) : Host.Outcome State Fault Refusal :=
  .next (s.serve r 0x12 ownVolumeStatus)

/-! ## SET_VOLUME (R13, R14) -/

/-- Whether SET_VOLUME's parameters are refused BAD_PARAM (R13). -/
def setVolumeBad (ps : List Byte) : Bool :=
  let set := byteAt ps 1
  8 ≤ set.toNat
    || names set 0 && (policyParam (byteAt ps 2)).isNone
    || names set 1 && (copyParam (byteAt ps 3)).isNone

/-- The copy that becomes the authority copy, when the change set names AUTHORITY (R13). -/
def newAuthority (ps : List Byte) : Option Copy := if names (byteAt ps 1) 1 then copyParam (byteAt ps 3) else none

/-- Every named setting at its new value (R13). -/
def Volume.settings (x : Volume) (ps : List Byte) : Volume :=
  let set := byteAt ps 1
  { x with
    policy := if names set 0 then (policyParam (byteAt ps 2)).getD x.policy else x.policy
    authority := (newAuthority ps).getD x.authority
    threshold := if names set 2 then field ps 4 1 else x.threshold }

def ownSetVolume : Owner := fun _ ps s =>
  let v := field ps 0 1
  s.withVolume v fun x =>
    if setVolumeBad ps then (s, .bare .badParam)
    else if (newAuthority ps).any (fun c => x.health c = .failed) then (s, .bare .badState)
    else (s.setVolume v (some (x.settings ps)), .bare .ok)

def execSetVolume (r : Request) (s : State) : Host.Outcome State Fault Refusal :=
  .next (s.serve r 0x13 ownSetVolume)

end Sys2Proof.Machine
end

