-- ==== Sys2Proof/Machine/ExtentRequests.lean ====
section
/-! DEFINITION. The meanings of the extent family: ROUTE, EXTENT_STATES, RETIRE_RANGE and REPORT_READ_FAILURE
(Chapter 2). -/

namespace Sys2Proof.Machine

/-- The extent record of an extent number; the default is never used for an extent inside the volume. -/
def Volume.extent (x : Volume) (e : Nat) : Extent := x.extents.getD e ⟨.void, 0, none⟩

/-! ## ROUTE (R37, R38) -/

/-- The code of the readable copies (R37, Table 9-8). -/
def readableCode (st : Coherence) (authority : Copy) : Byte :=
  match st with
  | .synced => 0x03
  | .suspect => authority.code
  | .aOnly => 0x01
  | .bOnly => 0x02
  | .lost => 0x00
  | .void => 0x00

/-- The copy that the read policy names for a SYNCED extent (R38). -/
def policyCopy (x : Volume) : Copy :=
  match x.policy with
  | .preferA => .a
  | .preferB => .b
  | .alternate => x.toggle

/-- The code of the copy to read (R37, Table 9-8). -/
def readCode (x : Volume) (st : Coherence) : Byte :=
  match st with
  | .synced => (policyCopy x).code
  | .suspect => x.authority.code
  | .aOnly => 0x01
  | .bOnly => 0x02
  | .lost => 0x04
  | .void => 0x05

/-- The in-flight flag 0x01 and the repair flag 0x02 (R37, Table 9-7). -/
def routeFlags (y : Extent) : Byte :=
  (if 0 < y.openCount then 0x01 else 0x00) ||| (if y.link.isSome then 0x02 else 0x00)

/-- The alternate toggle after a ROUTE of an extent in a state: flipped for a SYNCED extent under ALTERNATE (R38). -/
def toggleAfter (x : Volume) (st : Coherence) : Copy :=
  if st = .synced ∧ x.policy = .alternate then other x.toggle else x.toggle

def ownRoute : Owner := fun _ ps s =>
  let v := field ps 0 1
  let b := field ps 1 5
  s.withVolume v fun x =>
    if x.blockCount ≤ b then (s, .bare .badParam)
    else if x.condition = .offline then (s, .bare .offline)
    else
      let e := extentOf x.shift b
      let y := x.extent e
      (s.setVolume v (some { x with toggle := toggleAfter x y.state }),
       ⟨.ok, bytesOf 3 e ++ [y.state.code, readableCode y.state x.authority, readCode x y.state, routeFlags y]⟩)

def execRoute (r : Request) (s : State) : Host.Outcome State Fault Refusal :=
  .next (s.serve r 0x18 ownRoute)

/-! ## EXTENT_STATES (R39) -/

/-- The three bytes EXTENT_STATES gives of an extent (2.9). -/
def Extent.bytes (y : Extent) : List Byte := y.state.code :: bytesOf 1 y.openCount ++ [flagCode y.link.isSome]

def ownExtentStates : Owner := fun _ ps s =>
  let v := field ps 0 1
  let first := field ps 1 3
  let n := field ps 4 1
  s.withVolume v fun x =>
    if n = 0 ∨ 16 < n ∨ x.extentCount < first + n then (s, .bare .badParam)
    else (s, ⟨.ok, bytesOf 1 n ++ ((x.extents.drop first).take n).flatMap Extent.bytes⟩)

def execExtentStates (r : Request) (s : State) : Host.Outcome State Fault Refusal :=
  .next (s.serve r 0x19 ownExtentStates)

/-! ## RETIRE_RANGE (R36, R41, R42) -/

/-- What a retire does to an extent the range covers wholly: VOID, and its link's mark overtaken (R35, R36, R42). -/
def retireExtent (x : Volume) (first count e : Nat) (y : Extent) : Extent :=
  if coversWhole x.shift x.blockCount first count e then
    { y with state := .void, link := y.link.map fun l => { l with overtaken := true } }
  else y

/-- The number of extents wholly inside the range (R42). -/
def retiredCount (x : Volume) (first count : Nat) : Nat :=
  (List.range x.extentCount).countP (coversWhole x.shift x.blockCount first count)

def ownRetireRange : Owner := fun _ ps s =>
  let v := field ps 0 1
  let first := field ps 1 5
  let count := field ps 6 5
  s.withVolume v fun x =>
    if count = 0 ∨ x.blockCount < first + count then (s, .bare .badParam)
    else if s.overlapsIntent v first count then (s, .bare .busy)
    else
      let marks := markOvertaken s.assignments v (coversWhole x.shift x.blockCount first count)
      let t := { s with assignments := marks }
      (t.applyCause v (retireExtent x first count), ⟨.ok, bytesOf 3 (retiredCount x first count)⟩)

def execRetireRange (r : Request) (s : State) : Host.Outcome State Fault Refusal :=
  .next (s.serve r 0x1A ownRetireRange)

/-! ## REPORT_READ_FAILURE (R33, R40) -/

/-- The state of an extent of a volume as it stands; of an ABSENT volume the answer is never used. -/
def State.extentState (s : State) (v e : Nat) : Coherence :=
  match s.volume? v with
  | some x => (x.extent e).state
  | none => .void

def ownReportReadFailure : Owner := fun _ ps s =>
  let v := field ps 0 1
  let b := field ps 1 5
  s.withVolume v fun x =>
    if x.blockCount ≤ b then (s, .bare .badParam)
    else match copyParam (byteAt ps 6) with
      | none => (s, .bare .badParam)
      | some c =>
        let e := extentOf x.shift b
        let t := (s.applyCause v (loseIn (· = e) c)).charge v c none
        (t, ⟨.ok, bytesOf 3 e ++ [(t.extentState v e).code, (t.health v c).code]⟩)

def execReportReadFailure (r : Request) (s : State) : Host.Outcome State Fault Refusal :=
  .next (s.serve r 0x1B ownReportReadFailure)

end Sys2Proof.Machine
end

