-- ==== Sys2Proof/Machine/HealthRequests.lean ====
section
/-! DEFINITION. The meanings of the copy-health family: FAIL_COPY, REPLACE_COPY and CLEAR_ERRORS (Chapter 6). -/

namespace Sys2Proof.Machine

/-- The checks the three requests share: the volume's name, then the copy byte (R110, R115, R117). -/
def State.withCopy (s : State) (ps : List Byte) (k : Nat → Volume → Copy → State × Reply) : State × Reply :=
  let v := field ps 0 1
  s.withVolume v fun x =>
    match copyParam (byteAt ps 1) with
    | none => (s, .bare .badParam)
    | some c => k v x c

/-! ## FAIL_COPY (R110) -/

def ownFailCopy : Owner := fun _ ps s =>
  s.withCopy ps fun v x c =>
    if x.health c = .failed then (s, .bare .badState)
    else
      let t := s.failProcedure v c .failRequest none
      (t, ⟨.ok, [(t.health v .a).code, (t.health v .b).code, (t.condition v).code]⟩)

def execFailCopy (r : Request) (s : State) : Host.Outcome State Fault Refusal :=
  .next (s.serve r 0x30 ownFailCopy)

/-! ## REPLACE_COPY (R115) -/

/-- The record of a volume after REPLACE_COPY of a copy: its counter 0, its health REBUILDING or, with nothing stale,
ONLINE, and condition and counts following (R115). -/
def Volume.replaced (x : Volume) (c : Copy) : Volume :=
  (x.setCopy c { x.copy c with
    errors := 0, health := if 0 < (x.copy c).stale then .rebuilding else .online }).recount

def ownReplaceCopy : Owner := fun _ ps s =>
  s.withCopy ps fun v x c =>
    if x.health c ≠ .failed ∨ x.health (other c) = .failed then (s, .bare .badState)
    else
      let y := x.replaced c
      let t := s.setVolume v (some y)
      let t := if y.health c = .online then t.raiseAll .copyOnline (.copy v c) .zero else t
      (t.raiseRepairPending v x.repairNeeded,
       ⟨.ok, [(y.health c).code] ++ bytesOf 3 (y.copy c).stale ++ bytesOf 3 y.repairNeeded⟩)

def execReplaceCopy (r : Request) (s : State) : Host.Outcome State Fault Refusal :=
  .next (s.serve r 0x31 ownReplaceCopy)

/-! ## CLEAR_ERRORS (R117) -/

def ownClearErrors : Owner := fun _ ps s =>
  s.withCopy ps fun v x c =>
    (s.setVolume v (some (x.setCopy c { x.copy c with errors := 0 })), ⟨.ok, bytesOf 1 (x.copy c).errors⟩)

def execClearErrors (r : Request) (s : State) : Host.Outcome State Fault Refusal :=
  .next (s.serve r 0x32 ownClearErrors)

end Sys2Proof.Machine
end

