-- ==== Sys2Proof/Machine/Intents.lean ====
section
/-! DEFINITION. The meanings of the intent family: OPEN_INTENT, REPORT_WRITE, ABANDON_INTENT, INTENT_STATUS,
INTENT_EXPIRY, and of the wait list: CANCEL_WAIT, WAITER_EXPIRY (Chapters 3 and 4). -/

namespace Sys2Proof.Machine

/-! ## The lookup of a tag (R44) -/

/-- The intent a tag finds for a port: the slot holds an open intent, the generation matches, the port and its current
epoch are the intent's (R44). -/
def State.findIntent (s : State) (p : Port) (t : Tag) : Option Intent :=
  match s.intent? t.slot with
  | some i =>
    if genAt s.intents t.slot = t.gen ∧ i.port = p ∧ i.epoch = (s.port p).session.epoch then some i else none
  | none => none

/-! ## OPEN_INTENT (R47 to R51, R70 to R73) -/

/-- The wait time a wait field stands for (R72). -/
def State.waitTime (s : State) (p : Port) (wait : Nat) : Nat :=
  if wait = 0xFFFF then (s.port p).session.config.defaultWait else wait

/-- Whether a waiter slot is EMPTY. -/
def WaiterEntry.isVacant (x : WaiterEntry) : Bool := x = .vacant

/-- Whether a waiter slot is GRANTED. -/
def WaiterEntry.isGranted : WaiterEntry → Bool
  | .granted _ _ _ => true
  | _ => false

/-- The slot a new waiter takes: the lowest EMPTY one, or else the lowest GRANTED one (R70). -/
def State.waiterSlot (s : State) : Option Nat :=
  match s.waiters.findIdx? (fun x => x.held.isVacant) with
  | some w => some w
  | none => s.waiters.findIdx? (fun x => x.held.isGranted)

/-- Queues a waiter in a slot, at the end of the arrival order (R70, R71, R72). -/
def State.queueWaiter (s : State) (w : Nat) (x : Waiter) : State :=
  { s with waiters := place s.waiters w (.waiting x), arrival := s.arrival ++ [w] }

/-- A request that cannot be granted at once and carries a wait time: QUEUED with its ticket, the wait time used and the
number of waiters ahead, or WAIT_FULL (R72). -/
def State.joinWaitList (s : State) (p : Port) (v first count wait : Nat) : State × Reply :=
  if Config.waiterSlots ≤ s.arrival.length then (s, .bare .waitFull)
  else match s.waiterSlot with
    | none => (s, .bare .waitFull)
    | some w =>
      let ms := s.waitTime p wait
      let ticket : Tag := ⟨w, genAt s.waiters w + 1⟩
      (s.queueWaiter w ⟨p, (s.port p).session.epoch, v, first, count, s.deadlineIn ms⟩,
       ⟨.queued, ticket.bytes ++ bytesOf 2 ms ++ bytesOf 1 s.arrival.length⟩)

/-- The answer to a grant: tag, first extent, extent count, the two initial reports, the lifetime used (R51). -/
def grantBytes (t : Tag) (i : Intent) (lifetime : Nat) : List Byte :=
  t.bytes ++ bytesOf 3 i.firstExtent ++ bytesOf 1 i.extentCount ++ [i.reportA.code, i.reportB.code]
    ++ bytesOf 2 lifetime

/-- Admission, check 5 of R47: granted at once, refused, or handed to the wait list (R49). -/
def State.admission (s : State) (p : Port) (v : Nat) (x : Volume) (first count wait : Nat) : State × Reply :=
  if s.overlapsIntent v first count ∨ s.overlapsWaiter s.arrival v first count then
    if wait = 0 then (s, .bare .conflict) else s.joinWaitList p v first count wait
  else if (s.port p).session.config.quota ≤ (s.port p).intents then
    if wait = 0 then (s, .bare .quota) else s.joinWaitList p v first count wait
  else match lowestFree s.intents with
    | none => if wait = 0 then (s, .bare .tableFull) else s.joinWaitList p v first count wait
    | some slot =>
      let i := s.newIntent p (s.port p).session.epoch v x first count
      (s.grant slot i,
       ⟨.ok, grantBytes (s.nextIntentTag slot) i (s.port p).session.config.intentLifetime⟩)

def ownOpenIntent : Owner := fun p ps s =>
  let v := field ps 0 1
  let first := field ps 1 5
  let count := field ps 6 4
  let wait := field ps 10 2
  s.withVolume v fun x =>
    if x.condition = .offline then (s, .bare .offline)
    else if count = 0 ∨ 16777216 < count ∨ x.blockCount < first + count then (s, .bare .badParam)
    else if Config.intentSpan < spanOf x.shift first count then (s, .bare .span)
    else s.admission p v x first count wait

def execOpenIntent (r : Request) (s : State) : Host.Outcome State Fault Refusal :=
  .next (s.serve r 0x20 ownOpenIntent)

/-! ## REPORT_WRITE (R53 to R56) -/

/-- The results of an OK REPORT_WRITE: OPEN or CLOSED, the two reports after the request, the copy's health (3.4). -/
def reportBytes (i : Intent) (h : Health) : List Byte :=
  [flagCode i.complete, i.reportA.code, i.reportB.code, h.code]

/-- The report recorded, the copy charged on FAILED (with the failure that may follow), and the intent closed with its
pass when it is complete (R54, R55, R56). -/
def State.recordReport (s : State) (slot : Nat) (i : Intent) (c : Copy) (o : Report) : State :=
  let i' := i.withReport o c
  let t := { s with intents := hold s.intents slot (some i') }
  let t := if o = .failed then t.charge i.volume c (some slot) else t
  if i'.complete then (t.closeIntent slot).pass else t

def ownReportWrite : Owner := fun p ps s =>
  let tag := tagParam ps 0
  match copyParam (byteAt ps 2), outcomeParam (byteAt ps 3) with
  | some c, some o =>
    match s.findIntent p tag with
    | none => (s, .bare .unknownTag)
    | some i =>
      if i.report c = .notRequired ∨ i.report c = .dropped then (s, .bare .notRequired)
      else if i.report c ≠ .pending then (s, .bare .duplicateReport)
      else
        let t := s.recordReport tag.slot i c o
        (t, ⟨.ok, reportBytes (i.withReport o c) (t.health i.volume c)⟩)
  | _, _ => (s, .bare .badParam)

def execReportWrite (r : Request) (s : State) : Host.Outcome State Fault Refusal :=
  .next (s.serve r 0x21 ownReportWrite)

/-! ## ABANDON_INTENT (R57) -/

def ownAbandonIntent : Owner := fun p ps s =>
  let tag := tagParam ps 0
  match s.findIntent p tag with
  | none => (s, .bare .unknownTag)
  | some _ => ((s.abandonIntent tag.slot).pass, .bare .ok)

def execAbandonIntent (r : Request) (s : State) : Host.Outcome State Fault Refusal :=
  .next (s.serve r 0x22 ownAbandonIntent)

/-! ## INTENT_STATUS (R66) -/

/-- The 18 result bytes of an intent (3.9). -/
def Intent.bytes (i : Intent) (remaining : Nat) : List Byte :=
  bytesOf 1 i.volume ++ bytesOf 5 i.firstBlock ++ bytesOf 4 i.blockCount ++ bytesOf 3 i.firstExtent
    ++ bytesOf 1 i.extentCount ++ [i.reportA.code, i.reportB.code] ++ bytesOf 2 remaining

def ownIntentStatus : Owner := fun p ps s =>
  match s.findIntent p (tagParam ps 0) with
  | none => (s, .bare .unknownTag)
  | some i => (s, ⟨.ok, i.bytes (s.remaining i.deadline)⟩)

def execIntentStatus (r : Request) (s : State) : Host.Outcome State Fault Refusal :=
  .next (s.serve r 0x23 ownIntentStatus)

/-! ## INTENT_EXPIRY (R58, R59) -/

/-- The expiry of the intent in a slot: abandoned by C2 with the re-examination, then INTENT_EXPIRED to the owner (R59);
without effect where the slot holds no intent whose deadline has expired (R60). The events of the extent changes and of
the grants come before INTENT_EXPIRED, in the order R59 tells them (log entry 13). -/
def execIntentExpiry (slot : Nat) (s : State) : Host.Outcome State Fault Refusal :=
  .next (match s.intent? slot with
    | some i =>
      if s.expired i.deadline then
        (((s.abandonIntent slot).pass).raise i.port .intentExpired (.intent ⟨slot, genAt s.intents slot⟩)
          .zero).settleAttn
      else s
    | none => s)

/-! ## CANCEL_WAIT (R79) -/

/-- What a ticket finds for a port: a WAITING or GRANTED slot with the generation, the port and its current epoch
(R70). -/
def State.findTicket (s : State) (p : Port) (t : Tag) : WaiterEntry :=
  if genAt s.waiters t.slot = t.gen then
    match s.waiterEntry t.slot with
    | .waiting w => if w.port = p ∧ w.epoch = (s.port p).session.epoch then .waiting w else .vacant
    | .granted q e tag => if q = p ∧ e = (s.port p).session.epoch then .granted q e tag else .vacant
    | .vacant => .vacant
  else .vacant

def ownCancelWait : Owner := fun p ps s =>
  let t := tagParam ps 0
  match s.findTicket p t with
  | .waiting _ => ((s.removeWaiter t.slot).pass, .bare .ok)
  | .granted _ _ tag => (s, ⟨.alreadyGranted, tag.bytes⟩)
  | .vacant => (s, .bare .unknownTicket)

def execCancelWait (r : Request) (s : State) : Host.Outcome State Fault Refusal :=
  .next (s.serve r 0x24 ownCancelWait)

/-! ## WAITER_EXPIRY (R77) -/

/-- The expiry of the waiter in a slot: it leaves, WAIT_ENDED (EXPIRED) is raised to its owner, then one pass (R77);
without effect where the slot holds no waiter whose deadline has expired (R78). -/
def execWaiterExpiry (slot : Nat) (s : State) : Host.Outcome State Fault Refusal :=
  .next (match s.waiter? slot with
    | some w =>
      if s.expired w.deadline then
        (((s.removeWaiter slot).raise w.port .waitEnded (.ticket (s.ticket slot)) .waitExpired).pass).settleAttn
      else s
    | none => s)

end Sys2Proof.Machine
end

