-- ==== Sys2Proof/Machine/Repairs.lean ====
section
/-! DEFINITION. The meanings of the repair family: TAKE_REPAIR, REPAIR_DONE, RELEASE_REPAIR and ASSIGNMENT_EXPIRY
(Chapter 5). -/

namespace Sys2Proof.Machine

/-- The assignment a tag finds for a port (R84). -/
def State.findAssignment (s : State) (p : Port) (t : Tag) : Option Assignment :=
  match s.assignment? t.slot with
  | some a =>
    if genAt s.assignments t.slot = t.gen ∧ a.port = p ∧ a.epoch = (s.port p).session.epoch then some a else none
  | none => none

/-! ## TAKE_REPAIR (R86 to R90) -/

/-- The assignment TAKE_REPAIR creates on an extent (R87, R90). -/
def State.newAssignment (s : State) (p : Port) (v e : Nat) (x : Volume) : Assignment :=
  let source := x.repairSource (x.extent e).state
  { port := p, epoch := (s.port p).session.epoch, volume := v, extent := e, source := source, target := other source
    overtaken := false, deadline := s.deadlineIn (s.port p).session.config.assignLease }

/-- The extent's link to an assignment slot (R35, R164). -/
def linkExtent (slot : Nat) (a : Assignment) (e : Nat) (y : Extent) : Extent :=
  if e = a.extent then { y with link := some ⟨slot, a.target, a.overtaken⟩ } else y

/-- The cursor after a search chose extent `e`: the extent after it, wrapping to 0 after the last (R88). -/
def cursorAfter (x : Volume) (e : Nat) : Nat := if e + 1 = x.extentCount then 0 else e + 1

/-- Creates the assignment in a FREE slot, sets the link, raises the port's count and moves the cursor (R84, R85, R88,
R90). -/
def State.createAssignment (s : State) (slot : Nat) (a : Assignment) (x : Volume) : State :=
  let s := { s with assignments := place s.assignments slot (some a) }
  let s := s.setAssignmentCount a.port ((s.port a.port).assignments + 1)
  s.setVolume a.volume
    (some { x with extents := mapExtents (linkExtent slot a) x.extents, cursor := cursorAfter x a.extent })

/-- The 19 result bytes of TAKE_REPAIR (Table 9-7). -/
def takeBytes (t : Tag) (a : Assignment) (x : Volume) (lease : Nat) : List Byte :=
  let first := extentFirst x.shift a.extent
  t.bytes ++ bytesOf 1 a.volume ++ bytesOf 3 a.extent ++ [(x.extent a.extent).state.code] ++ bytesOf 5 first
    ++ bytesOf 3 (extentEnd x.shift x.blockCount a.extent - first) ++ [a.source.code, a.target.code]
    ++ bytesOf 2 lease

/-- A search's outcome served: the assignment, or NONE (R86 check 4, R90). The pointer becomes `pointer`. -/
def State.serveRepair (s : State) (p : Port) (slot : Nat) (found : Option (Nat × Nat)) (any : Bool) :
    State × Reply :=
  match found with
  | none => (s, .bare .none)
  | some (v, e) =>
    match s.volume? v with
    | none => (s, .bare .none)
    | some x =>
      let a := s.newAssignment p v e x
      let t := s.createAssignment slot a x
      (if any then { t with pointer := v } else t,
       ⟨.ok, takeBytes ⟨slot, genAt s.assignments slot + 1⟩ a x (s.port p).session.config.assignLease⟩)

def ownTakeRepair : Owner := fun p ps s =>
  let b := field ps 0 1
  if Config.volumes ≤ b ∧ b ≠ 0xFF then (s, .bare .badParam)
  else if b ≠ 0xFF ∧ (s.volume? b).isNone then (s, .bare .noVolume)
  else if Config.assignmentsPerPort ≤ (s.port p).assignments then (s, .bare .quota)
  else match lowestFree s.assignments with
    | none => (s, .bare .tableFull)
    | some slot =>
      if b = 0xFF then s.serveRepair p slot s.searchAny true
      else s.serveRepair p slot (s.searchVolume b) false

def execTakeRepair (r : Request) (s : State) : Host.Outcome State Fault Refusal :=
  .next (s.serve r 0x28 ownTakeRepair)

/-! ## REPAIR_DONE (R93, R94) -/

/-- The copy that an outcome names bad (R94). -/
def badCopy (a : Assignment) (o : RepairOutcome) : Option Copy :=
  match o with
  | .copied => none
  | .sourceBad => some a.source
  | .targetBad => some a.target

/-- The effect of a REPAIR_DONE that passes its checks: C3 or C4, the assignment freed, the consequences, then the charge
of the copy named bad (R93, R94). -/
def State.finishRepair (s : State) (slot : Nat) (a : Assignment) (o : RepairOutcome) : State :=
  let rule := if a.overtaken then s.overtakenResult a else fun st => repairResult st a.source a.target o
  let t := s.endAssignment slot a rule
  match badCopy a o with
  | some c => t.charge a.volume c none
  | none => t

/-- The 7 result bytes of REPAIR_DONE (5.4). -/
def doneBytes (t : State) (a : Assignment) : List Byte :=
  bytesOf 1 a.volume ++ bytesOf 3 a.extent
    ++ [(t.extentState a.volume a.extent).code, (t.health a.volume a.source).code, (t.health a.volume a.target).code]

def ownRepairDone : Owner := fun p ps s =>
  let tag := tagParam ps 0
  match repairOutcomeParam (byteAt ps 2) with
  | none => (s, .bare .badParam)
  | some o =>
    match s.findAssignment p tag with
    | none => (s, .bare .unknownTag)
    | some a =>
      let t := s.finishRepair tag.slot a o
      (t, ⟨if a.overtaken then .stale else .ok, doneBytes t a⟩)

def execRepairDone (r : Request) (s : State) : Host.Outcome State Fault Refusal :=
  .next (s.serve r 0x29 ownRepairDone)

/-! ## RELEASE_REPAIR (R96) -/

def ownReleaseRepair : Owner := fun p ps s =>
  let tag := tagParam ps 0
  match s.findAssignment p tag with
  | none => (s, .bare .unknownTag)
  | some a =>
    let t := s.revoke tag.slot none
    (t, ⟨.ok, [flagCode a.overtaken, (t.extentState a.volume a.extent).code]⟩)

def execReleaseRepair (r : Request) (s : State) : Host.Outcome State Fault Refusal :=
  .next (s.serve r 0x2A ownReleaseRepair)

/-! ## ASSIGNMENT_EXPIRY (R97) -/

/-- The expiry of the assignment in a slot: revoked with ASSIGN_ENDED (EXPIRED); without effect where the slot holds no
assignment whose deadline has expired (R97, R98). -/
def execAssignmentExpiry (slot : Nat) (s : State) : Host.Outcome State Fault Refusal :=
  .next (match s.assignment? slot with
    | some a => if s.expired a.deadline then (s.revoke slot (some .assignExpired)).settleAttn else s
    | none => s)

end Sys2Proof.Machine
end

