-- ==== Sys2Proof/Machine/Sessions.lean ====
section
/-! DEFINITION. The meanings of the session family: OPEN_SESSION, RENEW, CLOSE_SESSION, PORT_CONFIG, LEASE_EXPIRY, PRST
and PRST_RELEASE (Chapter 7). -/

namespace Sys2Proof.Machine

/-- The port configuration OPEN_SESSION sets (Table 7-3). -/
def defaultPortConfig : PortConfig :=
  { intentLifetime := 5000, quota := 96, assignLease := 20000, defaultWait := 1000 }

/-- The event configuration OPEN_SESSION sets: the default levels of Table 8-2 with no kind masked (R139). -/
def defaultEventConfig : List KindConfig :=
  [.high, .high, .high, .low, .high, .low, .low, .high, .high, .low, .low].map fun l => ⟨l, false⟩

/-! ## OPEN_SESSION (R121, R122) -/

/-- The session an OPEN_SESSION opens: next epoch, the lease and its deadline, default configurations (R120, R121). -/
def State.openedSession (s : State) (p : Port) (lease : Nat) : Session :=
  { state := .opened, epoch := advance (s.port p).session.epoch, lease := lease
    deadline := some (s.deadlineIn lease), config := defaultPortConfig, events := defaultEventConfig }

def ownOpenSession : Owner := fun p ps s =>
  let lease := field ps 0 2
  if lease < 100 then (s, .bare .badParam)
  else if (s.port p).session.state = .opened then (s, .bare .badState)
  else
    let x := s.openedSession p lease
    let t := (s.setSession p x).setEvents p { records := [], stack := [], counter := 0 }
    (t.raise (peer p) .peerJoined (.port p) .zero,
     ⟨.ok, bytesOf 2 x.epoch.toNat ++ bytesOf 2 lease ++ [(s.port (peer p)).session.state.code]⟩)

def execOpenSession (r : Request) (s : State) : Host.Outcome State Fault Refusal :=
  .next (s.serve r 0x02 ownOpenSession)

/-! ## RENEW (R124): the renewal itself is the one of R123 -/

def ownRenew : Owner := fun p _ s =>
  (s, ⟨.ok, bytesOf 2 (s.port p).session.lease ++ [(s.port (peer p)).session.state.code]⟩)

def execRenew (r : Request) (s : State) : Host.Outcome State Fault Refusal :=
  .next (s.serve r 0x03 ownRenew)

/-! ## CLOSE_SESSION (R130) -/

def ownCloseSession : Owner := fun p _ s =>
  if 0 < (s.port p).intents ∨ 0 < (s.port p).assignments then (s, .bare .busy)
  else
    let t := (((s.endSession p .closed).clearEvents p).removeWaitersOf p).pass
    (t.raise (peer p) .peerLost (.port p) .peerClosed, .bare .ok)

def execCloseSession (r : Request) (s : State) : Host.Outcome State Fault Refusal :=
  .next (s.serve r 0x04 ownCloseSession)

/-! ## PORT_CONFIG (R68, R69, R73, R101, R132) -/

/-- The 7 result bytes of PORT_CONFIG (7.8). -/
def PortConfig.bytes (c : PortConfig) : List Byte :=
  bytesOf 2 c.intentLifetime ++ bytesOf 1 c.quota ++ bytesOf 2 c.assignLease ++ bytesOf 2 c.defaultWait

/-- Whether PORT_CONFIG's parameters are refused BAD_PARAM, with `intents` the intents the port holds (R132). -/
def portConfigBad (ps : List Byte) (intents : Nat) : Bool :=
  let set := byteAt ps 0
  16 ≤ set.toNat
    || names set 0 && field ps 1 2 < 10
    || names set 1 && (field ps 3 1 < 1 || 192 < field ps 3 1 || field ps 3 1 < intents)
    || names set 2 && field ps 4 2 < 100
    || names set 3 && (field ps 6 2 < 1 || 65534 < field ps 6 2)

/-- The configuration with every named field at its new value (R132). -/
def PortConfig.update (c : PortConfig) (ps : List Byte) : PortConfig :=
  let set := byteAt ps 0
  { intentLifetime := if names set 0 then field ps 1 2 else c.intentLifetime
    quota := if names set 1 then field ps 3 1 else c.quota
    assignLease := if names set 2 then field ps 4 2 else c.assignLease
    defaultWait := if names set 3 then field ps 6 2 else c.defaultWait }

def ownPortConfig : Owner := fun p ps s =>
  if portConfigBad ps (s.port p).intents then (s, .bare .badParam)
  else
    let old := (s.port p).session.config
    let new := old.update ps
    let t := s.setSession p { (s.port p).session with config := new }
    (if old.quota < new.quota then t.pass else t, ⟨.ok, new.bytes⟩)

def execPortConfig (r : Request) (s : State) : Host.Outcome State Fault Refusal :=
  .next (s.serve r 0x05 ownPortConfig)

/-! ## LEASE_EXPIRY (R126) -/

/-- Whether the lease deadline of an OPEN session has been reached (R126). -/
def State.leaseExpired (s : State) (p : Port) : Bool :=
  (s.port p).session.state = .opened &&
    match (s.port p).session.deadline with
    | some d => s.expired d
    | none => false

/-- The fence: FENCED, no deadline, the teardown with EXPIRED; without effect where the deadline has not been reached
or no longer exists (R126, R133). -/
def execLeaseExpiry (p : Port) (s : State) : Host.Outcome State Fault Refusal :=
  .next (if s.leaseExpired p then ((s.endSession p .fenced).teardown p .peerExpired).settleAttn else s)

/-! ## PRST (R129) -/

/-- What the assertion of PRST does to the session: nothing while the supply state is HOLD, STARTING or OFF (R129). -/
def State.resetSession (s : State) (p : Port) : State :=
  if s.supply = .run then
    match (s.port p).session.state with
    | .opened => (s.endSession p .closed).teardown p .peerReset
    | .fenced => s.endSession p .closed
    | .closed => s
  else s

/-- The assertion of PRST; a burst under way on the port is discarded whole, whenever it ends (R129, R147). -/
def execPrst (p : Port) (s : State) (sel : Bool := false) : Host.Outcome State Fault Refusal :=
  .next (((((s.setPrst p true).resetSession p).setLink p Link.reset).noteBurst s p sel).settleAttn)

/-- The release of PRST: the port takes bursts again, one already under way apart, and its ATTN line follows R144 (R129,
R147). -/
def execPrstRelease (p : Port) (s : State) (sel : Bool := false) : Host.Outcome State Fault Refusal :=
  .next (((s.setPrst p false).noteBurst s p sel).settleAttn)

end Sys2Proof.Machine
end

