-- ==== Sys2Proof/Machine/Supply.lean ====
section
/-! DEFINITION. The meanings of the retention controller's family: IDENTIFY, FORMAT, QUIESCE, MAIN_SUPPLY_ARRIVES,
MAIN_SUPPLY_LOST, VBAK_BELOW_THRESHOLD, START and START_COMPLETE (Chapter 10). -/

namespace Sys2Proof.Machine

/-! ## IDENTIFY (R169) -/

/-- The 14 result bytes of IDENTIFY (Table 9-7). -/
def identifyBytes (s : State) : List Byte :=
  bytesOf 2 0x2240 ++ [0x01, 16] ++ bytesOf 3 131072 ++ [192, 32, 32, 24, s.startKind.code]
    ++ bytesOf 2 s.warmStarts

def ownIdentify : Owner := fun _ _ s => (s, ⟨.ok, identifyBytes s⟩)

def execIdentify (r : Request) (s : State) : Host.Outcome State Fault Refusal :=
  .next (s.serve r 0x01 ownIdentify)

/-! ## FORMAT (R168) -/

/-- Whether FORMAT is refused BUSY (R168). -/
def State.formatBusy (s : State) (p : Port) : Bool :=
  s.intents.any (fun x => x.held.isSome) || !s.arrival.isEmpty || s.assignments.any (fun x => x.held.isSome)
    || (s.port (peer p)).session.state = .opened

/-- The numbers of the present volumes, in order. -/
def State.present (s : State) : List Nat :=
  (List.range Config.volumes).filter fun v => (s.volume? v).isSome

def ownFormat : Owner := fun p _ s =>
  if s.formatBusy p then (s, .bare .busy)
  else
    let t := { s with volumes := List.replicate Config.volumes none, pointer := 15 }
    (s.present.foldl (fun t v => t.raise p .volumeChanged (.volume v) .deleted) t,
     ⟨.ok, bytesOf 1 s.present.length⟩)

def execFormat (r : Request) (s : State) : Host.Outcome State Fault Refusal :=
  .next (s.serve r 0x38 ownFormat)

/-! ## The supply events (R162, R163, R164) -/

/-- The board input shown asserted. -/
def State.assertPin (s : State) (pin : HoldPin) : State :=
  match pin with
  | .pfail => { s with pfail := true }
  | .resetn => { s with resetn := true }

/-- PFAIL and RESETN are read as levels in RUN and STARTING: either one asserted makes the state HOLD, and the ATTN lines
go low; everything else stands as it was (R162, R163). In HOLD and OFF they are ignored. -/
def State.readPins (s : State) : State :=
  if (s.supply = .run ∨ s.supply = .starting) ∧ (s.pfail = true ∨ s.resetn = true) then
    { s with supply := .hold }.settleAttn
  else s

/-- Both ports' bursts after a pin change that has made `t` of `s` (R147, R163). -/
def State.noteBursts (t s : State) (sel0 sel1 : Bool) : State := (t.noteBurst s .p0 sel0).noteBurst s .p1 sel1

/-- PFAIL or RESETN asserted; a burst whose chip select is still asserted is discarded (R162, R163). -/
def execQuiesce (pin : HoldPin) (s : State) (sel0 sel1 : Bool := false) : Host.Outcome State Fault Refusal :=
  .next ((s.assertPin pin).readPins.noteBursts s sel0 sel1)

/-- Main supply arrives: OFF becomes HOLD (R162). -/
def execMainSupplyArrives (s : State) : Host.Outcome State Fault Refusal :=
  .next (if s.supply = .off then { s with supply := .hold } else s)

/-- Main supply lost: OFF from any state; the retention array keeps what the requests and expiries taken before left
(R162, R164). The mark stays valid here, whatever the level of VBAK at that moment (DESIGN CHOICE: log entry 22). -/
def execMainSupplyLost (s : State) : Host.Outcome State Fault Refusal :=
  .next { s with supply := .off }.settleAttn

/-- The first application of VBAK makes the retention-valid mark invalid, and so does VBAK's fall below its threshold while
main supply is absent (R164). State holds no level of VBAK: a VBAK that fell before main supply was lost, and is below the
threshold when it goes, leaves the mark valid until another such command comes in OFF (DESIGN CHOICE: log entry 22). -/
def execVbakBelowThreshold (s : State) (e : VbakEvent := .falls) : Host.Outcome State Fault Refusal :=
  .next (if e = .firstApplied ∨ s.supply = .off then { s with retentionValid := false } else s)

/-! ## START (R165, R166, R167) -/

/-- A port at the start of a start: session CLOSED with its epoch kept, events empty, link state cleared, counts 0; the
pins stand (R119, R145, R149, R165). -/
def PortRecord.started (p : PortRecord) : PortRecord :=
  { p with session := Session.reset p.session.epoch, events := EventUnit.reset, link := Link.reset
           intents := 0, assignments := 0 }

/-- The first part of a start: everything outside the retention array is cleared (R165). -/
def State.clearVolatile (s : State) : State :=
  { s with
    port0 := s.port0.started, port1 := s.port1.started
    intents := List.replicate Config.intentSlots ⟨0, none⟩
    waiters := List.replicate Config.waiterSlots ⟨0, .vacant⟩
    arrival := []
    assignments := List.replicate Config.assignmentSlots ⟨0, none⟩
    pointer := 15 }

/-- Steps 2 and 3 of a warm start on one extent: the conversion of an open extent (R27), then the loss of currency of an
overtaken assignment's target and the clearing of the link (R43, R166). -/
def warmExtent (ha hb : Health) (y : Extent) : Extent :=
  let st := if y.openCount = 0 then y.state else warmResult y.state ha hb
  let st := match y.link with
    | some l => if l.overtaken then loseCurrency l.target st else st
    | none => st
  { state := st, openCount := 0, link := none }

/-- Step 5 of a warm start: a REBUILDING copy with a stale count of 0 becomes ONLINE (R19, R166). -/
def CopyRecord.rebuilt (c : CopyRecord) : CopyRecord :=
  if c.health = .rebuilding ∧ c.stale = 0 then { c with health := .online } else c

/-- A warm start on one present volume (R19, R166). -/
def Volume.warmed (x : Volume) : Volume :=
  let y := Volume.recount
    { x with
      extents := x.extents.map (warmExtent x.copyA.health x.copyB.health)
      openIntents := 0, toggle := .a, cursor := 0 }
  Volume.recount { y with copyA := y.copyA.rebuilt, copyB := y.copyB.rebuilt }

/-- A session with epoch 0 (R167). -/
def PortRecord.zeroEpoch (p : PortRecord) : PortRecord :=
  { p with session := { p.session with epoch := 0 } }

/-- The middle and the last part of a start: its kind is decided from the retention-valid mark, and the array is brought to
the state of a warm (R166) or a cold start (R167). The warm-start count, the start kind and the mark change at the
completion (R165). -/
def State.restoreArray (s : State) : State :=
  if s.retentionValid then { s with volumes := s.volumes.map fun o => o.map Volume.warmed, startDecided := .warm }
  else { s with volumes := List.replicate Config.volumes none, startDecided := .cold
                port0 := s.port0.zeroEpoch, port1 := s.port1.zeroEpoch }

/-- RESETN released with PFAIL at the given level: in HOLD with PFAIL deasserted a start begins and its work on the
retention array is carried out (R162, R165); otherwise only the levels are noted and read. -/
def execStart (pfail : Bool) (s : State) (sel0 sel1 : Bool := false) : Host.Outcome State Fault Refusal :=
  .next (let t := { s with resetn := false, pfail := pfail }
    (if s.supply = .hold ∧ pfail = false then { t.clearVolatile.restoreArray with supply := .starting }.settleAttn
      else t.readPins).noteBursts s sel0 sel1)

/-! ## START_COMPLETE (R165, R166 step 6, R167) -/

/-- What the completion records, by the kind decided: WARM with the count advanced to at most 65,535 and the mark left, or
COLD with the count 0 and the mark made valid. -/
def State.recordStart (s : State) : State :=
  match s.startDecided with
  | .warm => { s with startKind := .warm, warmStarts := min 65535 (s.warmStarts + 1) }
  | .cold => { s with startKind := .cold, warmStarts := 0, retentionValid := true }

/-- The start's work is done: RUN, with what the completion records (R165). The link states stand as STARTING left them, so a
frame taken there, refused BAD_CODE or BAD_LENGTH, stays the last taken request (DEDUCED: R149 and R155 against R165; log
entry 21). -/
def execStartComplete (s : State) : Host.Outcome State Fault Refusal :=
  .next (if s.supply = .starting then { s.recordStart with supply := .run }.settleAttn else s)

end Sys2Proof.Machine
end

