-- ==== Sys2Proof/Machine/Dispatch.lean ====
section
/-! DEFINITION. One arm per command, each one call of its meaning. -/

namespace Sys2Proof.Machine

def exec (i : Instr) (s : State) : Host.Outcome State Fault Refusal :=
  match i with
  | .identify r => Sys2Proof.Machine.execIdentify r s
  | .openSession r => Sys2Proof.Machine.execOpenSession r s
  | .renew r => Sys2Proof.Machine.execRenew r s
  | .closeSession r => Sys2Proof.Machine.execCloseSession r s
  | .portConfig r => Sys2Proof.Machine.execPortConfig r s
  | .fetchEvent r => Sys2Proof.Machine.execFetchEvent r s
  | .ackEvent r => Sys2Proof.Machine.execAckEvent r s
  | .eventConfig r => Sys2Proof.Machine.execEventConfig r s
  | .createVolume r => Sys2Proof.Machine.execCreateVolume r s
  | .deleteVolume r => Sys2Proof.Machine.execDeleteVolume r s
  | .volumeStatus r => Sys2Proof.Machine.execVolumeStatus r s
  | .setVolume r => Sys2Proof.Machine.execSetVolume r s
  | .route r => Sys2Proof.Machine.execRoute r s
  | .extentStates r => Sys2Proof.Machine.execExtentStates r s
  | .retireRange r => Sys2Proof.Machine.execRetireRange r s
  | .reportReadFailure r => Sys2Proof.Machine.execReportReadFailure r s
  | .openIntent r => Sys2Proof.Machine.execOpenIntent r s
  | .reportWrite r => Sys2Proof.Machine.execReportWrite r s
  | .abandonIntent r => Sys2Proof.Machine.execAbandonIntent r s
  | .intentStatus r => Sys2Proof.Machine.execIntentStatus r s
  | .cancelWait r => Sys2Proof.Machine.execCancelWait r s
  | .takeRepair r => Sys2Proof.Machine.execTakeRepair r s
  | .repairDone r => Sys2Proof.Machine.execRepairDone r s
  | .releaseRepair r => Sys2Proof.Machine.execReleaseRepair r s
  | .failCopy r => Sys2Proof.Machine.execFailCopy r s
  | .replaceCopy r => Sys2Proof.Machine.execReplaceCopy r s
  | .clearErrors r => Sys2Proof.Machine.execClearErrors r s
  | .format r => Sys2Proof.Machine.execFormat r s
  | .readBurst b n => Sys2Proof.Machine.execReadBurst b n s
  | .frameError b bytes => Sys2Proof.Machine.execFrameError b bytes s
  | .badCode r code => Sys2Proof.Machine.execBadCode r code s
  | .prst p sel => Sys2Proof.Machine.execPrst p s sel
  | .quiesce pin sel0 sel1 => Sys2Proof.Machine.execQuiesce pin s sel0 sel1
  | .mainSupplyArrives => Sys2Proof.Machine.execMainSupplyArrives s
  | .mainSupplyLost => Sys2Proof.Machine.execMainSupplyLost s
  | .vbakBelowThreshold e => Sys2Proof.Machine.execVbakBelowThreshold s e
  | .start pfail sel0 sel1 => Sys2Proof.Machine.execStart pfail s sel0 sel1
  | .startComplete => Sys2Proof.Machine.execStartComplete s
  | .leaseExpiry p => Sys2Proof.Machine.execLeaseExpiry p s
  | .intentExpiry slot => Sys2Proof.Machine.execIntentExpiry slot s
  | .waiterExpiry slot => Sys2Proof.Machine.execWaiterExpiry slot s
  | .assignmentExpiry slot => Sys2Proof.Machine.execAssignmentExpiry slot s
  | .prstRelease p sel => Sys2Proof.Machine.execPrstRelease p s sel

end Sys2Proof.Machine
end

