-- ==== Sys2Proof/Machine/Timebase.lean ====
section
/-! DEFINITION. The millisecond tick (R170): which deadlines expire at it, and in which order their expiries wait to be
handled (R58, R77, R97, R126). -/

namespace Sys2Proof.Machine

/-- The numbered entries of a table that `due` picks, each as a command, in slot order. -/
def dueFrom {α : Type} (due : α → Bool) (cmd : Nat → Instr) : Nat → List α → List Instr
  | _, [] => []
  | i, x :: xs => if due x then cmd i :: dueFrom due cmd (i + 1) xs else dueFrom due cmd (i + 1) xs

/-- The deadlines of open intents that have expired, each once. -/
def State.dueDeadlines (s : State) : List Nat :=
  (s.intents.filterMap fun x =>
    match x.held with
    | some i => if s.expired i.deadline then some i.deadline else none
    | none => none).eraseDups

/-- The intents whose deadline has expired, those with the same deadline together and in slot order (R58). R58 gives no order
for intents with different deadlines that expire at one tick: each deadline is a line of its own, and the order of the lines
is left to the free value (DESIGN CHOICE, log entry 3). -/
def State.dueIntents (s : State) : List (List Instr) :=
  s.dueDeadlines.map fun d =>
    dueFrom (fun x => match x.held with | some i => decide (i.deadline = d) | none => false) .intentExpiry 0 s.intents

/-- The other deadlines that have expired: leases (R126), waiters (R77), assignments (R97). -/
def State.dueOthers (s : State) : List Instr :=
  let lease (p : Port) : List Instr :=
    match (s.port p).session.state, (s.port p).session.deadline with
    | .opened, some d => if s.expired d then [.leaseExpiry p] else []
    | _, _ => []
  lease .p0 ++ lease .p1
    ++ dueFrom (fun x => match x.held with | .waiting w => s.expired w.deadline | _ => false) .waiterExpiry 0 s.waiters
    ++ dueFrom (fun x => match x.held with | some a => s.expired a.deadline | none => false) .assignmentExpiry 0
        s.assignments

/-- An order for the expiries of one tick, which come in lines, none of them empty: a line keeps its own order, which for
intents with the same deadline is slot order (R58), and which line gives the next expiry is a free choice, among intents
with different deadlines too (DESIGN CHOICE: R58, R126 and R170 give no order there; log entry 3). `n` counts the choices
drawn; where one line is left, none is drawn. -/
def interleave : Nat → Nat → List (List Instr) → List Instr × Nat
  | 0, n, lines => (lines.flatten, n)
  | _ + 1, n, [] => ([], n)
  | _ + 1, n, [line] => (line, n)
  | fuel + 1, n, lines@(_ :: _ :: _) =>
    let k := Config.freeChoice n % lines.length
    match lines[k]? with
    | some (c :: cs) =>
      let (rest, m) := interleave fuel (n + 1) (if cs = [] then lines.eraseIdx k else lines.set k cs)
      (c :: rest, m)
    | _ => (lines.flatten, n)

/-- One millisecond tick: the timebase counts it, and the expiries due at it join the commands waiting (R170). -/
def State.tick (s : State) : State :=
  let s := { s with ticks := s.ticks + 1, phase := 0 }
  let lines := s.dueIntents ++ s.dueOthers.map ([·])
  let (order, n) := interleave lines.flatten.length s.choices lines
  { s with pending := s.pending ++ order, choices := n }

/-- What an empty queue does: in RUN with REFCLK running the next tick comes; otherwise the part idles (R163, R165, R170;
log entry 3). -/
def State.idle (s : State) : State := if s.supply = .run ∧ s.refclk then s.tick else s

end Sys2Proof.Machine
end

