-- ==== Sys2Proof/Safety.lean ====
section
/-! DEFINITION. The terms in which claims about the part are made: when a request is taken and admitted, the state that
an answer leaves, what a port has been told, what a cause raises, and the invariants of a run. -/

namespace Sys2Proof.Machine

/-! ## Taking a request (Chapters 7 and 9) -/

/-- A request frame of this code is taken and goes on to its port's session unit, its length apart: the part is in RUN,
the port's PRST input is not asserted, the burst is not one to be discarded, for a pin that changed in it or for its early
begin, and the frame repeats nothing (R129, R147, R154, R155, R163). -/
def Taken (code : Byte) (r : Request) (s : State) : Prop :=
  s.supply = .run ∧ (s.port r.port).prst = false ∧ (s.port r.port).burst ≠ .discarded ∧ r.early = false
    ∧ (s.port r.port).link.lastTaken ≠ some (r.seq, code)

/-- It passes the session and epoch checks as well (R125). -/
def Admitted (code : Byte) (r : Request) (s : State) : Prop :=
  Taken code r s ∧ (s.port r.port).session.state = .opened ∧ r.epoch = (s.port r.port).session.epoch

/-- A burst that ends now reaches its port's link: the supply state is STARTING or RUN, PRST is not asserted, neither a
PRST nor a quiescing has fallen into the burst, and it did not begin while the port still acted on its previous request
frame (R129, R147, R163). -/
def Heard (b : Select) (s : State) : Prop :=
  (s.supply = .starting ∨ s.supply = .run) ∧ (s.port b.port).prst = false ∧ (s.port b.port).burst ≠ .discarded
    ∧ b.early = false

/-- A burst that ends now, with main supply present, is discarded: in HOLD, while PRST is asserted, where a PRST or a
quiescing has fallen into it, and where it began while the port still acted on its previous request frame (R129, R147,
R163). -/
def Discarded (b : Select) (s : State) : Prop :=
  s.supply ≠ .off
    ∧ (s.supply = .hold ∨ (s.port b.port).prst = true ∨ (s.port b.port).burst = .discarded ∨ b.early = true)

/-- The request's burst has ended, with 0xFF shifted out in each byte: its 7 bytes and its parameters (R147, Table 9-5). -/
def shifted (s : State) (r : Request) : State :=
  s.setPort r.port { s.port r.port with burst := .none, sdo := List.replicate (7 + r.params.length) 0xFF }

/-- The state in which the request's owner acts: 0xFF shifted out, and the lease renewed when the port is OPEN and the
frame carries its current epoch (R123). -/
def begun (s : State) (r : Request) : State :=
  let x := (s.port r.port).session
  if x.state = .opened ∧ r.epoch = x.epoch then
    (shifted s r).setPort r.port { (shifted s r).port r.port with
      session := { x with deadline := some (s.moment + x.lease * 25000) } }
  else shifted s r

/-- The port's link after a frame was taken: the frame is the last taken request, its response is saved, and no link
refusal is left (R149, R155, R158). -/
def tookFrame (s : State) (r : Request) (code : Byte) (st : Status) (results : List Byte) : State :=
  s.setPort r.port { s.port r.port with
    link := { lastTaken := some (r.seq, code), saved := some (responseFrame ⟨st, results⟩ r.seq), refusal := none } }

/-- What a frame refused before it reaches an owner leaves: its burst and its link, and nothing else (R155). -/
def refusedEarly (s : State) (r : Request) (code : Byte) (st : Status) : State := tookFrame (shifted s r) r code st []

/-- What a request leaves whose owner has left the state `t`: the response is saved and the ATTN lines have settled (R144,
R155, R158). -/
def concluded (t : State) (r : Request) (code : Byte) (st : Status) (results : List Byte) : State :=
  (tookFrame t r code st results).settleAttn

/-! ## What a command leaves as it was -/

/-- The two states agree outside the volumes, the tables and what follows them: in both ports' sessions, links, PRST
inputs, bursts, SDO bytes and in-service stacks, in the supply, start and pin state, in the timebase and in the queue of
commands. -/
def SameElsewhere (s t : State) : Prop :=
  (∀ p, (t.port p).session = (s.port p).session ∧ (t.port p).link = (s.port p).link ∧ (t.port p).prst = (s.port p).prst
    ∧ (t.port p).burst = (s.port p).burst ∧ (t.port p).sdo = (s.port p).sdo
    ∧ (t.port p).events.stack = (s.port p).events.stack)
  ∧ t.supply = s.supply ∧ t.startKind = s.startKind ∧ t.startDecided = s.startDecided ∧ t.warmStarts = s.warmStarts
  ∧ t.retentionValid = s.retentionValid ∧ t.pfail = s.pfail ∧ t.resetn = s.resetn
  ∧ t.ticks = s.ticks ∧ t.phase = s.phase ∧ t.refclk = s.refclk ∧ t.choices = s.choices ∧ t.pending = s.pending

/-- What a volume keeps while it is present (R1). -/
def Volume.geometry (x : Volume) : Nat × Nat × Nat × Nat := (x.blockCount, x.shift, x.extentCount, x.slotBase)

/-- The parts of a volume record that no extent change and no health change reaches: its geometry, its settings, its
toggle and its cursor. -/
def Volume.fixed (x : Volume) : (Nat × Nat × Nat × Nat) × Nat × ReadPolicy × Copy × Copy × Nat :=
  (x.geometry, x.threshold, x.policy, x.authority, x.toggle, x.cursor)

/-- Every volume but `v` is as it was, the grants of a pass apart: they move open-intent counts, open counts and overtaken
marks and no extent's state (R50). -/
def OthersKept (s t : State) (v : Nat) : Prop :=
  ∀ w, w ≠ v → (s.volume? w = none → t.volume? w = none) ∧
    ∀ x, s.volume? w = some x → ∃ x', t.volume? w = some x'
      ∧ { x' with openIntents := x.openIntents, extents := x.extents } = x
      ∧ x'.extents.map Extent.state = x.extents.map Extent.state

/-- Every volume but `v` is just as it was. -/
def OthersSame (s t : State) (v : Nat) : Prop := ∀ w, w ≠ v → t.volume? w = s.volume? w

/-! ## Events -/

/-- The queue tells of an event: it holds the event's record, or its overflow record names the event's kind (R136 to
R138). -/
def EventUnit.tells (u : EventUnit) (k : Kind) (sub : Subject) (val : EventValue) : Prop :=
  ∃ r ∈ u.records, r.merges k sub val = true ∨ (r.isOverflow = true ∧ r.kindSet &&& kindBit k = kindBit k)

/-- An event: its kind, its subject and its value (Table 8-2). -/
abbrev Event := Kind × Subject × EventValue

/-- An event unit after it has taken the events, in their order (R136 to R138). -/
def EventUnit.takes (u : EventUnit) (es : List Event) : EventUnit := es.foldl (fun u e => u.take e.1 e.2.1 e.2.2) u

/-- Between `s` and `t` exactly these events were raised to the port, in this order (R135). -/
def Told (s t : State) (p : Port) (es : List Event) : Prop :=
  (t.port p).events = if (s.port p).session.state = .opened then (s.port p).events.takes es else (s.port p).events

/-- The state of extent `e` of a volume record, VOID where it has no such extent. -/
def stateAt (x : Volume) (e : Nat) : Coherence := (x.extents.getD e ⟨.void, 0, none⟩).state

/-- How many extents of `x` a change of states brings into LOST from another state (R24). -/
def entersLost (x : Volume) (after : Nat → Coherence) : Nat :=
  (List.range x.extents.length).countP fun e => decide (stateAt x e ≠ .lost ∧ after e = .lost)

/-- What one cause that turns the record `x` of a volume into `x'` raises to every OPEN port: an EXTENT_LOST for each extent
that enters LOST, REPAIR_PENDING when the repair-needed count rises from 0, COPY_ONLINE for a REBUILDING copy with nothing
stale left (R23, R24, R102, R116; that a cause is tested as a whole: log entry 14). -/
def consequencesOf (v : Nat) (x x' : Volume) : List Event :=
  List.replicate (entersLost x (stateAt x')) (.extentLost, .volume v, .zero)
  ++ (if x.repairNeeded = 0 ∧ 0 < x'.repairNeeded then [(.repairPending, .volume v, .zero)] else [])
  ++ ([Copy.a, .b].filter fun c => decide (x.health c = .rebuilding ∧ (x'.copy c).stale = 0)).map
      fun c => (.copyOnline, .copy v c, .zero)

/-- An event that tells a port of a grant which a pass between `s` and `t` made: WAIT_GRANTED with the ticket of a waiter of
the port, and with the tag of the intent that the waiter became, of its port, epoch, volume and range; the waiter's slot is
GRANTED with that tag (R50, R70, R75). -/
def GrantTold (s t : State) (p : Port) (g : Event) : Prop :=
  ∃ w x tag i, w ∈ s.arrival ∧ s.waiter? w = some x ∧ x.port = p ∧ t.waiterEntry w = .granted p x.epoch tag
    ∧ t.intent? tag.slot = some i ∧ genAt t.intents tag.slot = tag.gen ∧ i.port = p ∧ i.epoch = x.epoch
    ∧ i.volume = x.volume ∧ i.firstBlock = x.firstBlock ∧ i.blockCount = x.blockCount
    ∧ g = (.waitGranted, .ticket ⟨w, genAt s.waiters w⟩, .intent tag)

/-- The healths after one cause, or after the causes of a teardown: a REBUILDING copy with nothing stale left is ONLINE, and
no other health changes (R116; a teardown in which a stale count reaches 0 and rises again: log entry 18). -/
def HealthsSettled (x x' : Volume) : Prop :=
  ∀ c, x'.health c = if x.health c = .rebuilding ∧ (x'.copy c).stale = 0 then .online else x.health c

/-! ## Invariants -/

/-- Every present volume has its extent records, and its condition and counts agree with them (R2, R3, R15, R16). -/
def CountsAgree (s : State) : Prop :=
  ∀ v x, s.volume? v = some x →
    x.recount = x ∧ x.extents.length = x.extentCount ∧ x.extentCount = extentCountOf x.blockCount x.shift

/-- Both ATTN lines show what R144 gives. -/
def AttnAgrees (s : State) : Prop := ∀ p, (s.port p).attn = attnRule s.supply (s.port p)

/-- In RUN and STARTING neither PFAIL nor RESETN is asserted (R162: they are read as levels there). -/
def PinsReleased (s : State) : Prop :=
  s.supply = .run ∨ s.supply = .starting → s.pfail = false ∧ s.resetn = false

/-- A port whose session is not OPEN has an empty queue, an empty stack and no lease deadline; an OPEN one has a
deadline (R119, R127, R145). -/
def ClosedPortsIdle (s : State) : Prop :=
  ∀ p, ((s.port p).session.state = .opened → (s.port p).session.deadline.isSome) ∧
    ((s.port p).session.state ≠ .opened →
      (s.port p).session.deadline = none ∧ (s.port p).events.records = [] ∧ (s.port p).events.stack = [])

/-- The bounds of an event unit: at most 24 records and one overflow record, no two records with the same kind, subject
and value, counts 1 to 255 (R134, R136, R138), and a stack of one of the four shapes of R141. -/
def EventUnit.bounded (u : EventUnit) : Prop :=
  u.size ≤ 24 ∧ u.records.countP EventRecord.isOverflow ≤ 1
    ∧ u.records.Pairwise (fun a b => ¬ (a.kind = b.kind ∧ a.subject = b.subject ∧ a.value = b.value))
    ∧ (∀ r ∈ u.records, 1 ≤ r.count ∧ r.count ≤ 255)
    ∧ (u.stack = [] ∨ u.stack = [.low] ∨ u.stack = [.high] ∨ u.stack = [.high, .low])

/-- Both ports' event units are within their bounds. -/
def QueuesBounded (s : State) : Prop := ∀ p, (s.port p).events.bounded

/-- The runs of the present volumes hold at least one slot each, lie within the extent store and share no slot (R6). -/
def RunsDisjoint (s : State) : Prop :=
  (∀ v x, s.volume? v = some x → 0 < x.extentCount ∧ x.slotBase + x.extentCount ≤ 131072) ∧
  ∀ v w x y, v ≠ w → s.volume? v = some x → s.volume? w = some y →
    x.slotBase + x.extentCount ≤ y.slotBase ∨ y.slotBase + y.extentCount ≤ x.slotBase

/-- The tables have the sizes of Table 0-1, each port's event configuration its eleven kinds (R139), and the rotating
pointer names a volume (R89). -/
def TableSizes (s : State) : Prop :=
  s.volumes.length = 16 ∧ s.intents.length = 192 ∧ s.waiters.length = 32 ∧ s.assignments.length = 32
    ∧ (∀ p, (s.port p).session.events.length = 11) ∧ s.pointer < 16

/-- The arrival order names each WAITING slot once and nothing else (R71), and the volume of each waiter is present
(R12). -/
def ArrivalAgrees (s : State) : Prop :=
  s.arrival.Nodup ∧ (∀ w, w ∈ s.arrival ↔ (s.waiter? w).isSome) ∧
    ∀ w x, s.waiter? w = some x → (s.volume? x.volume).isSome

/-- No two open intents cover a common block of one volume (R45). -/
def IntentsDisjoint (s : State) : Prop :=
  ∀ a b i j, a ≠ b → s.intent? a = some i → s.intent? b = some j → i.volume = j.volume →
    overlap i.firstBlock i.blockCount j.firstBlock j.blockCount = false

/-- The number of open intents that `sel` picks. -/
def State.countIntents (s : State) (sel : Intent → Bool) : Nat :=
  s.intents.countP fun x => match x.held with | some i => sel i | none => false

/-- The counts kept beside the intent table agree with it: each port's count (R45), the open-intent count of each present
volume (R17), the open count of each of its extents (R34); and the volume of every open intent is present (R12). -/
def OpenCountsAgree (s : State) : Prop :=
  (∀ p, (s.port p).intents = s.countIntents (fun i => i.port = p)) ∧
  (∀ slot i, s.intent? slot = some i → (s.volume? i.volume).isSome) ∧
  ∀ v x, s.volume? v = some x →
    x.openIntents = s.countIntents (fun i => i.volume = v) ∧
    ∀ e y, x.extents[e]? = some y → y.openCount = s.countIntents (fun i => i.volume = v && i.touches e)

/-- The assignments agree with the ports' counts and with the links of the extents: each port's count is the number of
its assignments (R85), each assignment's extent is there and its link names the assignment's slot, target copy and
overtaken mark (R35, R85, R164), each link names the slot of its extent's assignment, and source and target are the two
copies (R87). -/
def AssignmentsAgree (s : State) : Prop :=
  (∀ p, (s.port p).assignments = s.assignments.countP fun x => match x.held with | some a => a.port = p | none => false) ∧
  (∀ slot a, s.assignment? slot = some a → a.source = other a.target ∧ ∃ x y, s.volume? a.volume = some x ∧
    x.extents[a.extent]? = some y ∧ y.link = some ⟨slot, a.target, a.overtaken⟩) ∧
  ∀ v x e y l, s.volume? v = some x → x.extents[e]? = some y → y.link = some l →
    ∃ a, s.assignment? l.slot = some a ∧ a.volume = v ∧ a.extent = e

end Sys2Proof.Machine
end

