-- ==== Sys2Proof/Certificates/Slice0/Obligations.lean ====
section
/-! DEFINITION. The statements for the provers. The rule numbers in a docstring say where its clauses come from in spec/
and do not claim the whole of each rule; a clause that rests on the model's own choice names its log entry. The first part
holds the words the statements share. -/

namespace Sys2Proof.Machine

/-! ## The words of the statements -/

/-- The commands whose deadline is reached at the next tick (R58, R77, R97, R126, R170). -/
def DueNext (s : State) (c : Instr) : Prop :=
  (∃ p d, c = .leaseExpiry p ∧ (s.port p).session.state = .opened ∧ (s.port p).session.deadline = some d
      ∧ d ≤ (s.ticks + 1) * 25000)
  ∨ (∃ slot i, c = .intentExpiry slot ∧ s.intent? slot = some i ∧ i.deadline ≤ (s.ticks + 1) * 25000)
  ∨ (∃ slot w, c = .waiterExpiry slot ∧ s.waiter? slot = some w ∧ w.deadline ≤ (s.ticks + 1) * 25000)
  ∨ (∃ slot a, c = .assignmentExpiry slot ∧ s.assignment? slot = some a ∧ a.deadline ≤ (s.ticks + 1) * 25000)

/-- The slot of an intent's expiry. -/
def intentSlotOf : Instr → Option Nat
  | .intentExpiry slot => some slot
  | _ => none

/-- The reason a burst is a bad frame, by the five checks of R151 in their order, as the code of Table 9-8. -/
def reasonOf (bytes : List Byte) : Option Byte :=
  let n := bytes.length
  let len := (bytes.getD 4 0).toNat
  if n < 5 then some 0x01
  else if 40 < len then some 0x02
  else if n < 7 + len then some 0x01
  else if 7 + len < n then some 0x02
  else if bytes.drop (5 + len) = bytesOf 2 (crc16 (bytes.take (5 + len))).toNat then none
  else some 0x03

/-- A port's session ended: the given state, no deadline, an empty queue and stack; epoch, lease length, configurations and
sequence counter as they were (R127, R129, R130, R145). -/
def endedPort (x : PortRecord) (st : SessionState) : PortRecord :=
  { x with
    session := { x.session with state := st, deadline := none }
    events := { x.events with records := [], stack := [] } }

/-- The record of a volume with a copy's error counter charged by 1 (R107). -/
def chargedRecord (x : Volume) (c : Copy) : Volume :=
  x.setCopy c { x.copy c with errors := min 255 ((x.copy c).errors + 1) }

/-- A charge of the copy makes it fail: the threshold is not 0 and reached, and neither copy is FAILED (R108). -/
def ChargeFails (x : Volume) (c : Copy) : Prop :=
  x.threshold ≠ 0 ∧ x.threshold ≤ min 255 ((x.copy c).errors + 1) ∧ x.health c ≠ .failed ∧ x.health (other c) ≠ .failed

/-- Whether an intent covers an extent of its volume wholly. -/
def coveredBy (x : Volume) (i : Intent) (e : Nat) : Bool :=
  decide (i.firstBlock ≤ e * 2 ^ x.shift) && decide (min ((e + 1) * 2 ^ x.shift) x.blockCount ≤ i.firstBlock + i.blockCount)

/-- The state that the teardown of a port leaves an extent in: the port's intents that touch it are abandoned in slot order
(R26, R64), then the port's overtaken assignment of it is revoked (R29, R100); one not overtaken changes nothing (R30). -/
def tornState (u : State) (p : Port) (v : Nat) (x : Volume) (e : Nat) (st : Coherence) : Coherence :=
  let touches (i : Intent) : Bool := i.volume = v && decide (i.firstExtent ≤ e) && decide (e < i.firstExtent + i.extentCount)
  let abandoned := (List.range 192).foldl (fun st k => match u.intent? k with
    | some i => if i.port = p ∧ touches i = true then abandonResult st (coveredBy x i e) i.reportA i.reportB else st
    | none => st) st
  (List.range 32).foldl (fun st k => match u.assignment? k with
    | some a =>
      let peerWrites := (List.range 192).any fun j => match u.intent? j with
        | some i => i.port ≠ p && touches i && i.report a.target = .pending
        | none => false
      if a.port = p ∧ a.volume = v ∧ a.extent = e ∧ a.overtaken = true ∧ st ≠ .void ∧ peerWrites = false
      then loseCurrency a.target st else st
    | none => st) abandoned

/-- What steps 1 to 5 of the teardown of a port leave, in `m`, of the state `u` in which its session has just ended: exactly
the port's intents, waiter slots and assignments are gone, every slot under its generation, and its counts are lower by
them; every extent is in the state of `tornState`, with its open count lower by the port's intents on it and its link
cleared where the port held its assignment; each volume keeps its settings and error counts, its open-intent count is lower
by the port's intents, its counts follow, and a REBUILDING copy with nothing stale left is ONLINE. The peer's intents,
assignments and waiters, the pointer and all of its port but the queue are as they were (R26, R29, R30, R45, R64, R82, R85,
R100, R116, R127; a stale count that reaches 0 and rises again: log entry 18). -/
def WorkEnded (u m : State) (p : Port) : Prop :=
  SameElsewhere u m ∧ m.pointer = u.pointer
  ∧ m.intents = u.intents.map (fun x => { x with held := x.held.filter fun i => i.port ≠ p })
  ∧ m.waiters = u.waiters.map (fun x => if x.held.ownedBy p then { x with held := .vacant } else x)
  ∧ m.arrival = u.arrival.filter (fun w => !(u.waiterEntry w).ownedBy p)
  ∧ m.assignments = u.assignments.map (fun x => { x with held := x.held.filter fun a => a.port ≠ p })
  ∧ m.port p = { u.port p with
      intents := (u.port p).intents - u.countIntents fun i => i.port = p
      assignments := (u.port p).assignments
        - u.assignments.countP fun x => match x.held with | some a => a.port = p | none => false }
  ∧ m.port (peer p) = { u.port (peer p) with events := (m.port (peer p)).events }
  ∧ ∀ v, (u.volume? v = none → m.volume? v = none) ∧ ∀ x, u.volume? v = some x → ∃ x', m.volume? v = some x'
      ∧ x'.fixed = x.fixed ∧ x'.copyA.errors = x.copyA.errors ∧ x'.copyB.errors = x.copyB.errors
      ∧ x'.extents.length = x.extents.length
      ∧ x'.openIntents = x.openIntents - u.countIntents (fun i => i.port = p && i.volume = v)
      ∧ (∀ e y, x.extents[e]? = some y → ∃ y', x'.extents[e]? = some y' ∧ y'.state = tornState u p v x e y.state
          ∧ y'.openCount = y.openCount - u.countIntents (fun i => i.port = p && i.volume = v && i.touches e)
          ∧ let held := ∃ slot a, u.assignment? slot = some a ∧ a.port = p ∧ a.volume = v ∧ a.extent = e
            (held → y'.link = none) ∧ (¬ held → y'.link = y.link))
      ∧ (CountsAgree u → x'.recount = x' ∧ HealthsSettled x x')

/-- What those steps raise to the peer: `causes`, each an EXTENT_LOST or a REPAIR_PENDING of a volume that the port worked on,
no fewer EXTENT_LOST than the volume has extents that are LOST and were not, and a REPAIR_PENDING where its repair-needed
count has risen from 0; then, after all of them, COPY_ONLINE for each rebuild completed (R24, R64, R100, R102, R116; that
REPAIR_PENDING is tested at the end of each intent and assignment: log entry 14; which rebuilds, and the order of the
COPY_ONLINE: log entry 18). -/
def WorkTold (u m : State) (p : Port) : Prop :=
  ∃ causes : List Event,
    (∀ g ∈ causes, ∃ v, (g = (.extentLost, .volume v, .zero) ∨ g = (.repairPending, .volume v, .zero))
      ∧ ((∃ slot i, u.intent? slot = some i ∧ i.port = p ∧ i.volume = v)
        ∨ ∃ slot a, u.assignment? slot = some a ∧ a.port = p ∧ a.volume = v))
    ∧ (∀ v x x', u.volume? v = some x → m.volume? v = some x' →
        entersLost x (stateAt x') ≤ causes.count (.extentLost, .volume v, .zero)
        ∧ (x.repairNeeded = 0 → 0 < x'.repairNeeded → (.repairPending, .volume v, .zero) ∈ causes))
    ∧ Told u m (peer p) (causes ++ (List.range 16).flatMap fun v =>
        match u.volume? v, m.volume? v with
        | some x, some x' => ([Copy.a, .b].filter fun c => decide (x.health c = .rebuilding ∧ (x'.copy c).stale = 0)).map
            fun c => (.copyOnline, .copy v c, .zero)
        | _, _ => [])

/-- What the teardown of a port's session leaves of the state `u` in which the session has just ended: steps 1 to 5 of R127
end the port's work and raise their consequences to the peer, then one pass is made, and last of all an OPEN peer is told
PEER_LOST with the reason. So no intent, no waiter slot and no assignment of the port is left, its queue is still empty,
every extent is in the state of `tornState`, the volumes keep their settings and error counts, an OPEN peer is told
EXTENT_LOST of a volume that has lost an extent, and everything else is as it was (R26, R29, R30, R64, R82, R100, R116,
R127). -/
def TornDown (u t : State) (p : Port) (reason : EventValue) : Prop :=
  (∃ m, WorkEnded u m p ∧ (CountsAgree u → WorkTold u m p) ∧ t = m.pass.raise (peer p) .peerLost (.port p) reason)
  ∧ SameElsewhere u t ∧ (t.port p).events = (u.port p).events
  ∧ (∀ slot i, t.intent? slot = some i → i.port ≠ p)
  ∧ (∀ w, (t.waiterEntry w).ownedBy p = false)
  ∧ (∀ slot a, t.assignment? slot = some a → a.port ≠ p)
  ∧ (∀ v x, u.volume? v = some x → ∃ x', t.volume? v = some x' ∧ x'.fixed = x.fixed
      ∧ x'.copyA.errors = x.copyA.errors ∧ x'.copyB.errors = x.copyB.errors
      ∧ x'.extents.length = x.extents.length
      ∧ (∀ e y, x.extents[e]? = some y → stateAt x' e = tornState u p v x e y.state)
      ∧ ((u.port (peer p)).session.state = .opened → 0 < entersLost x (stateAt x') →
          (t.port (peer p)).events.tells .extentLost (.volume v) .zero))
  ∧ ((u.port (peer p)).session.state = .opened → (t.port (peer p)).events.tells .peerLost (.port p) reason)

/-- The extent state that CREATE_VOLUME gives every slot: the table of R10. -/
def reducedState (st : Coherence) (ha hb : Health) : Coherence :=
  match ha, hb, st with
  | .failed, _, .synced => .bOnly
  | .failed, _, .suspect => .bOnly
  | .failed, _, .aOnly => .lost
  | _, .failed, .synced => .aOnly
  | _, .failed, .suspect => .aOnly
  | _, .failed, .bOnly => .lost
  | _, _, x => x

/-- Whether blocks `first` to `first + count - 1` cover extent `e` of the volume wholly (R3, R4). -/
def Covers (x : Volume) (first count e : Nat) : Prop :=
  first ≤ e * 2 ^ x.shift ∧ min ((e + 1) * 2 ^ x.shift) x.blockCount ≤ first + count

/-- Between `s` and `t` only the record of volume `v` and the ports' queues have changed. -/
def OnlyRecord (s t : State) (v : Nat) : Prop :=
  SameElsewhere s t ∧ OthersSame s t v ∧ t.pointer = s.pointer ∧ t.intents = s.intents ∧ t.waiters = s.waiters
  ∧ t.arrival = s.arrival ∧ t.assignments = s.assignments
  ∧ ∀ p, t.port p = { s.port p with events := (t.port p).events }

/-- No waiter left in the list could be granted: each is blocked by an open intent, an earlier waiter, its port's quota or a
full table (R75). -/
def NoneGrantable (t : State) : Prop := ∀ w x, w ∈ t.arrival → t.waiter? w = some x → t.grantable w x = none

/-- What the end of an intent leaves in `m`, before the pass, of a state `s` that holds the intent in the slot and `x` as the
record of its volume: the slot FREE under its generation, its port's count and the volume's open-intent count one lower, each
touched extent in the state `rule` gives from the state it held with its open count one lower, and the counts and healths
settled; each port is told the consequences. Every other slot of the three tables, the arrival order, the rotating pointer,
every other extent and volume, every link, setting and error count, and all else is as it was (R23, R34, R44, R45, R56,
R57). -/
def IntentFreed (s m : State) (slot : Nat) (i : Intent) (x : Volume) (rule : Nat → Coherence → Coherence) : Prop :=
  SameElsewhere s m ∧ OthersSame s m i.volume ∧ m.pointer = s.pointer
  ∧ m.intents = s.intents.set slot ⟨genAt s.intents slot, none⟩
  ∧ m.waiters = s.waiters ∧ m.arrival = s.arrival ∧ m.assignments = s.assignments
  ∧ m.port i.port = { s.port i.port with
      intents := (s.port i.port).intents - 1, events := (m.port i.port).events }
  ∧ m.port (peer i.port) = { s.port (peer i.port) with events := (m.port (peer i.port)).events }
  ∧ ∃ y, m.volume? i.volume = some y ∧ y.fixed = x.fixed
    ∧ y.copyA.errors = x.copyA.errors ∧ y.copyB.errors = x.copyB.errors ∧ y.openIntents = x.openIntents - 1
    ∧ y.extents.length = x.extents.length
    ∧ (∀ e z, x.extents[e]? = some z → y.extents[e]? = some
        (if i.firstExtent ≤ e ∧ e < i.firstExtent + i.extentCount
         then { z with state := rule e z.state, openCount := z.openCount - 1 } else z))
    ∧ y.recount = y ∧ HealthsSettled x y ∧ ∀ p, Told s m p (consequencesOf i.volume x y)

/-- The end of an intent with its pass: `t` is what `done` makes of the pass over a state that `IntentFreed` describes, so no
waiter left in the list could be granted; and, the grants of the pass apart, no other volume is changed in `t`, each touched
extent is in the state `rule` gives, every other extent in its own, and each port is told the consequences, then each grant
of the pass to a waiter of the port, then `last` (R56, R57, R59, R74, R75). -/
def IntentEnded (s t : State) (done : State → State) (slot : Nat) (i : Intent) (x : Volume)
    (rule : Nat → Coherence → Coherence) (last : Port → List Event) : Prop :=
  (∃ m, IntentFreed s m slot i x rule ∧ t = done m.pass) ∧ (ArrivalAgrees s → NoneGrantable t)
  ∧ OthersKept s t i.volume ∧ ∃ x', t.volume? i.volume = some x' ∧ x'.fixed = x.fixed
    ∧ x'.extents.length = x.extents.length
    ∧ x'.copyA.errors = x.copyA.errors ∧ x'.copyB.errors = x.copyB.errors
    ∧ (∀ e y, x.extents[e]? = some y → ∃ y', x'.extents[e]? = some y'
        ∧ y'.state = if i.firstExtent ≤ e ∧ e < i.firstExtent + i.extentCount then rule e y.state else y.state)
    ∧ HealthsSettled x x'
    ∧ ∀ p, ∃ grants : List Event, (∀ g ∈ grants, GrantTold s t p g)
        ∧ Told s t p (consequencesOf i.volume x x' ++ grants ++ last p)

/-- Whether a failure of copy `c` of volume `v` closes the intent in a slot: it is one of the volume's, its report on the
other copy is not PENDING, and it is not the one whose report triggered the failure (R61, R63). -/
def closedByFailure (v : Nat) (c : Copy) (except : Option Nat) (slot : Nat) (i : Intent) : Bool :=
  i.volume = v && decide (i.report (other c) ≠ .pending) && decide (except ≠ some slot)

/-- An intent after the visit of R61, where copy `c` of volume `v` fails: its report on the copy DROPPED if the intent is one
of the volume's and the report was PENDING or WRITTEN. -/
def droppedBy (v : Nat) (c : Copy) (i : Intent) : Intent :=
  if i.volume = v ∧ (i.report c = .pending ∨ i.report c = .written) then i.withReport .dropped c else i

/-- The state that the failure of copy `c` of volume `v` leaves an extent in: the loss of currency of its state (R32), then
the close of each intent of R63 that touches it, in slot order, with its reports after the visit of R61, then the end of each
overtaken assignment of it, in slot order (R29, R99); one not overtaken changes nothing (R30). -/
def takenState (s : State) (v : Nat) (x : Volume) (c : Copy) (except : Option Nat) (e : Nat) (st : Coherence) : Coherence :=
  let touches (i : Intent) : Bool := i.volume = v && decide (i.firstExtent ≤ e) && decide (e < i.firstExtent + i.extentCount)
  let closed := (List.range 192).foldl (fun st k => match s.intent? k with
    | some i =>
      let j := droppedBy v c i
      if touches i && closedByFailure v c except k i then closeResult st (coveredBy x i e) j.reportA j.reportB else st
    | none => st) (loseCurrency c st)
  (List.range 32).foldl (fun st k => match s.assignment? k with
    | some a =>
      let writing := (List.range 192).any fun j => match s.intent? j with
        | some i => touches i && i.report (other c) = .pending
        | none => false
      if a.volume = v ∧ a.extent = e ∧ a.overtaken = true ∧ (a.target = c ∨ writing = false)
      then loseCurrency a.target st else st
    | none => st) closed

/-- What steps 1 to 6 of the failure procedure of copy `c` leave in `m`, before the pass, of a state `s` that holds `x` as the
record of the volume. Of the volume's intents those of `closedByFailure` are gone, and each other one has its report on the
copy DROPPED where it was PENDING or WRITTEN; the volume's assignments are gone, and the waiters in the list of an OFFLINE
volume; every slot keeps its generation, and the ports' and the volume's counts are lower by what is gone. Each extent is in
the state of `takenState`, with its open count lower by the closed intents on it and its link cleared where it was assigned;
the copy is FAILED, a REBUILDING other copy ONLINE, and the counts follow. All else is as it was: the other volumes, their
intents, waiters and assignments, the pointer, the settings and the error counts (R32, R61, R63, R81, R99, R111, R112). -/
def FailureWorked (s m : State) (v : Nat) (x : Volume) (c : Copy) (except : Option Nat) : Prop :=
  let offline := x.health (other c) = .failed
  let closes := closedByFailure v c except
  let closed (sel : Intent → Bool) : Nat := (List.range 192).countP fun k => match s.intent? k with
    | some i => closes k i && sel i
    | none => false
  let leaves (w : Nat) : Bool := decide offline && match s.waiter? w with
    | some y => decide (y.volume = v)
    | none => false
  SameElsewhere s m ∧ OthersSame s m v ∧ m.pointer = s.pointer
  ∧ (∀ k, m.intents[k]? = (s.intents[k]?).map fun (z : Slot (Option Intent)) =>
      { z with held := (z.held.filter fun i => !closes k i).map (droppedBy v c) })
  ∧ m.assignments = s.assignments.map (fun z => { z with held := z.held.filter fun a => a.volume ≠ v })
  ∧ (∀ w, m.waiters[w]? = (s.waiters[w]?).map fun (z : Slot WaiterEntry) =>
      if w ∈ s.arrival ∧ leaves w = true then { z with held := .vacant } else z)
  ∧ m.arrival = s.arrival.filter (fun w => !leaves w)
  ∧ (∀ p, m.port p = { s.port p with
      intents := (s.port p).intents - closed fun i => i.port = p
      assignments := (s.port p).assignments
        - s.assignments.countP fun z => match z.held with | some a => a.port = p && a.volume = v | none => false
      events := (m.port p).events })
  ∧ ∃ y, m.volume? v = some y ∧ y.fixed = x.fixed
    ∧ y.copyA.errors = x.copyA.errors ∧ y.copyB.errors = x.copyB.errors
    ∧ y.openIntents = x.openIntents - closed (fun _ => true)
    ∧ y.health c = .failed ∧ y.health (other c) = (if x.health (other c) = .rebuilding then .online else x.health (other c))
    ∧ y.recount = y ∧ y.extents.length = x.extents.length
    ∧ ∀ e z, x.extents[e]? = some z → ∃ z', y.extents[e]? = some z' ∧ z'.state = takenState s v x c except e z.state
        ∧ z'.openCount = z.openCount - closed (fun i => i.touches e)
        ∧ let held := ∃ slot a, s.assignment? slot = some a ∧ a.volume = v ∧ a.extent = e
          (held → z'.link = none) ∧ (¬ held → z'.link = z.link)

/-- The events that steps 1 to 6 of the failure procedure raise to a port, with `x'` the record they leave: an EXTENT_LOST for
each extent that the loss of currency makes LOST; then those of the closes and of the ends of assignments, with ASSIGN_ENDED
for each assignment that the port held, in slot order; then WAIT_ENDED for each of its waiters removed, in arrival order; and
nothing else, with no fewer EXTENT_LOST than extents that are LOST and were not (R24, R63, R81, R99, R112; no REPAIR_PENDING:
log entry 14). -/
def FailureTells (s : State) (v : Nat) (x x' : Volume) (c : Copy) (p : Port) (told : List Event) : Prop :=
  let lost : Event := (.extentLost, .volume v, .zero)
  let first := entersLost x fun e => loseCurrency c (stateAt x e)
  let ended : List Event := (List.range 32).filterMap fun slot => match s.assignment? slot with
    | some a => if a.volume = v ∧ a.port = p
      then some (.assignEnded, .assignment ⟨slot, genAt s.assignments slot⟩, .assignCopyFailed) else none
    | none => none
  let waits : List Event := s.arrival.eraseDups.filterMap fun w => match s.waiter? w with
    | some y => if x.health (other c) = .failed ∧ y.volume = v ∧ y.port = p
      then some (.waitEnded, .ticket ⟨w, genAt s.waiters w⟩, .waitOffline) else none
    | none => none
  ∃ work : List Event, told = List.replicate first lost ++ work ++ waits ∧ work.filter (fun g => g ≠ lost) = ended
    ∧ entersLost x (stateAt x') ≤ told.count lost

/-- The failure procedure of copy `c` of volume `v`, whole, from `s`, in which the volume's record is `x`, to `t`, in which it
is `x'`: after the work and its events one pass is made, then every OPEN port is told COPY_FAILED with the cause, and
COPY_ONLINE of the other copy where it was REBUILDING. So the copy is FAILED, a REBUILDING other copy ONLINE, and the copy
current for no extent; an extent that no closing intent touches and no overtaken assignment names takes the loss of currency
of its state; no report on the copy is PENDING or WRITTEN, the triggering intent's FAILED report standing; no assignment of
the volume is left, no waiter of an OFFLINE one, and no waiter that could be granted (R32, R61 to R63, R75, R81, R99,
R111 to R114). -/
def TakenOut (s t : State) (v : Nat) (x x' : Volume) (c : Copy) (cause : EventValue) (except : Option Nat) : Prop :=
  let d := other c
  let failed : Event := (.copyFailed, .copy v c, cause)
  let online : List Event := if x.health d = .rebuilding then [(.copyOnline, .copy v d, .zero)] else []
  (∃ m, FailureWorked s m v x c except
    ∧ t = (let n := m.pass.raiseAll .copyFailed (.copy v c) cause
           if x.health d = .rebuilding then n.raiseAll .copyOnline (.copy v d) .zero else n)
    ∧ ∀ p, ∃ told grants : List Event, FailureTells s v x x' c p told ∧ (∀ g ∈ grants, GrantTold s t p g)
      ∧ Told s m p told ∧ Told s t p (told ++ grants ++ [failed] ++ online))
  ∧ (ArrivalAgrees s → NoneGrantable t)
  ∧ t.volume? v = some x' ∧ x'.fixed = x.fixed ∧ x'.extents.length = x.extents.length
  ∧ x'.copyA.errors = x.copyA.errors ∧ x'.copyB.errors = x.copyB.errors
  ∧ x'.health c = .failed ∧ x'.health d = (if x.health d = .rebuilding then .online else x.health d)
  ∧ x'.condition = (if x.health d = .failed then .offline else .degraded)
  ∧ (∀ y ∈ x'.extents, y.state.current c = false)
  ∧ (∀ e y, x.extents[e]? = some y →
      (∀ slot i, s.intent? slot = some i → i.volume = v → i.firstExtent ≤ e → e < i.firstExtent + i.extentCount →
        except ≠ some slot → i.report d = .pending) →
      (∀ slot a, s.assignment? slot = some a → a.volume = v → a.extent = e → a.overtaken = false) →
      stateAt x' e = loseCurrency c y.state)
  ∧ (∀ slot i, t.intent? slot = some i → i.volume = v → i.report c ≠ .pending ∧ i.report c ≠ .written)
  ∧ (∀ slot a, t.assignment? slot = some a → a.volume ≠ v)
  ∧ (x'.condition = .offline → ∀ w y, w ∈ t.arrival → t.waiter? w = some y → y.volume ≠ v)
  ∧ OthersKept s t v ∧ SameElsewhere s t

/-- An extent of the volume qualifies for repair (R87). -/
def Qualifies (x : Volume) (e : Nat) : Prop :=
  ∃ y, x.extents[e]? = some y ∧ y.openCount = 0 ∧ y.link = none ∧
    (y.state = .suspect ∨ (y.state = .aOnly ∧ x.copyB.health ≠ .failed)
      ∨ (y.state = .bOnly ∧ x.copyA.health ≠ .failed))

/-- The extent that the search of a volume chooses: the first qualifying one from the cursor up and then from 0 (R88). -/
def Chosen (x : Volume) (e : Nat) : Prop :=
  e < x.extentCount ∧ Qualifies x e ∧
    (if x.cursor ≤ e then ∀ k, x.cursor ≤ k → k < e → ¬ Qualifies x k
     else (∀ k, x.cursor ≤ k → k < x.extentCount → ¬ Qualifies x k) ∧ ∀ k, k < e → ¬ Qualifies x k)

/-- What a TAKE_REPAIR leaves that hands out extent `e`, whose record is `y`, of volume `v`: the assignment of R90 in the
slot under its next generation, the extent's link, the port's count raised, the cursor after the extent, the given
pointer, the answer of Table 9-7, and everything else as it was (R84, R85, R87, R88, R90). -/
def RepairTaken (r : Request) (s t : State) (v e slot : Nat) (x : Volume) (y : Extent) (pointer : Nat) : Prop :=
  let p := r.port
  let lease := (s.port p).session.config.assignLease
  let source : Copy := match y.state with | .aOnly => .a | .bOnly => .b | _ => x.authority
  let first := e * 2 ^ x.shift
  let gen := genAt s.assignments slot + 1
  t.assignments = s.assignments.set slot ⟨gen,
      some ⟨p, (s.port p).session.epoch, v, e, source, other source, false, s.moment + lease * 25000⟩⟩
  ∧ (t.port p).assignments = (s.port p).assignments + 1
  ∧ (t.port (peer p)).assignments = (s.port (peer p)).assignments ∧ (∀ q, (t.port q).intents = (s.port q).intents)
  ∧ t.volume? v = some { x with
      cursor := if e + 1 = x.extentCount then 0 else e + 1
      extents := x.extents.set e { y with link := some ⟨slot, other source, false⟩ } }
  ∧ OthersSame s t v ∧ t.pointer = pointer ∧ t.intents = s.intents ∧ t.waiters = s.waiters ∧ t.arrival = s.arrival
  ∧ (∀ q, (t.port q).events = (s.port q).events)
  ∧ SameElsewhere (concluded (begun s r) r 0x28 .ok
      ([BitVec.ofNat 8 slot, gen] ++ bytesOf 1 v ++ bytesOf 3 e ++ [y.state.code] ++ bytesOf 5 first
        ++ bytesOf 3 (min ((e + 1) * 2 ^ x.shift) x.blockCount - first)
        ++ [source.code, (other source).code] ++ bytesOf 2 lease)) t

/-- What the end of an assignment leaves: its slot FREE under its generation, its port's count one lower, and of the
volumes only the assignment's own extent changed, to the state given, with its link cleared and its open count kept, and
the counts and healths settled; each port is told the consequences, then `last`. The intents, the waiters, the pointer and
the other counts are as they were. -/
def AssignmentEnded (s t : State) (slot : Nat) (a : Assignment) (x : Volume) (st : Coherence → Coherence)
    (last : Port → List Event) : Prop :=
  t.assignments = s.assignments.set slot ⟨genAt s.assignments slot, none⟩
  ∧ (t.port a.port).assignments = (s.port a.port).assignments - 1
  ∧ (t.port (peer a.port)).assignments = (s.port (peer a.port)).assignments ∧ (∀ p, (t.port p).intents = (s.port p).intents)
  ∧ t.intents = s.intents ∧ t.waiters = s.waiters ∧ t.arrival = s.arrival ∧ t.pointer = s.pointer ∧ OthersSame s t a.volume
  ∧ ∃ x', t.volume? a.volume = some x' ∧ x'.fixed = x.fixed
      ∧ x'.copyA.errors = x.copyA.errors ∧ x'.copyB.errors = x.copyB.errors
      ∧ x'.openIntents = x.openIntents ∧ x'.recount = x'
      ∧ x'.extents.length = x.extents.length
      ∧ (∀ e y, x.extents[e]? = some y → x'.extents[e]? = some
          (if e = a.extent then { y with state := st y.state, link := none } else y))
      ∧ HealthsSettled x x' ∧ ∀ p, Told s t p (consequencesOf a.volume x x' ++ last p)

/-- The state an overtaken assignment's end gives its extent: as it was for VOID or while an open intent touching it has
its target report PENDING, else the target loses currency (R29). -/
def overtakenRule (s : State) (a : Assignment) (st : Coherence) : Coherence :=
  if st = .void ∨ s.pendingReportOn a.volume a.extent a.target = true then st else loseCurrency a.target st

/-- The code of the state of extent `e` of a volume record. -/
def stateCode (x : Volume) (e : Nat) : Byte := (stateAt x e).code

/-- The burst on a port after a pin change that finds or leaves the port taking no bursts: discarded whole if its chip select
is asserted (R129, R147, R163; a burst begun in HOLD: log entry 15). -/
def cutBurst (sel : Bool) : Burst := if sel then .discarded else .none

/-- The four conditions of R75 on a waiter's visit, the FREE slot in the intent table apart: its range meets no open intent of
its volume and no waiter still WAITING ahead of it, and its port is below its quota. -/
def Unblocked (s : State) (w : Nat) (x : Waiter) : Prop :=
  let meets (first count : Nat) : Prop := first < x.firstBlock + x.blockCount ∧ x.firstBlock < first + count
  (∀ slot i, s.intent? slot = some i → i.volume = x.volume → ¬ meets i.firstBlock i.blockCount)
  ∧ (∀ k y, k ∈ s.arrival.takeWhile (fun k => k ≠ w) → s.waiter? k = some y → y.volume = x.volume →
      ¬ meets y.firstBlock y.blockCount)
  ∧ (s.port x.port).intents < (s.port x.port).session.config.quota

/-- A port after a start has cleared it: its session CLOSED with the epoch given, everything volatile cleared, the PRST
input and what SDO last shifted out as they were, a burst under way discarded (R119, R145, R149, R163, R165; the values
without meaning: log entry 2; that burst: log entry 15). -/
def startedPort (x : PortRecord) (epoch : Word16) (sel : Bool) : PortRecord :=
  { PortRecord.reset with
    session := { PortRecord.reset.session with epoch := epoch }, prst := x.prst, burst := cutBurst sel, sdo := x.sdo }

/-- The conversion of one extent by a warm start: R27's table for an extent with a nonzero open count (log entry 8 for the
rows it leaves out), then R43's loss for an overtaken assignment. -/
def warmState (ha hb : Health) (y : Extent) : Coherence :=
  let converted : Coherence :=
    if y.openCount = 0 then y.state
    else match y.state, ha, hb with
      | .aOnly, _, _ => .aOnly
      | .bOnly, _, _ => .bOnly
      | .lost, _, _ => .lost
      | _, .failed, .failed => .lost
      | _, .failed, _ => .bOnly
      | _, _, .failed => .aOnly
      | _, _, _ => .suspect
  match y.link with
  | some l => if l.overtaken then loseCurrency l.target converted else converted
  | none => converted

end Sys2Proof.Machine

open Sys2Proof Sys2Proof.Machine

/-! ## The queue of commands and the millisecond tick -/

/-- One step takes the command at the front of the queue, whole, and runs it with the queue's rest (R159; the queue itself
is the model's, log entry 1). -/
def Obligations.StepRunsFrontCommand : Prop :=
  ∀ (c : Instr) (rest : List Instr) (s : State), s.pending = c :: rest → step s = exec c { s with pending := rest }

/-- On an empty queue in RUN with REFCLK running, one step is one millisecond tick (log entries 3 and 4): the timebase
counts it, and exactly the expiries due at it wait to be handled, each once, those of intents with the same deadline in slot
order (R58, R170); which comes before which is else left open, for intents with different deadlines too (log entry 3).
Nothing else changes but the count of free choices. Otherwise an empty queue leaves the part as it is. -/
def Obligations.EmptyQueueTicks : Prop :=
  ∀ s : State, s.pending = [] →
    (s.supply = .run → s.refclk = true → ∃ order n,
      step s = .next { s with ticks := s.ticks + 1, phase := 0, pending := order, choices := n }
      ∧ (∀ c, c ∈ order ↔ DueNext s c) ∧ order.Nodup ∧ (order.filterMap intentSlotOf).Pairwise fun a b =>
        ∀ i j, s.intent? a = some i → s.intent? b = some j → i.deadline = j.deadline → a < b)
    ∧ ((s.supply ≠ .run ∨ s.refclk = false) → step s = .next s)

/-! ## Frames (Chapter 9) -/

/-- A burst of whole bytes passes the frame check exactly when it is a request frame as Table 9-5 lays it out, with at most
40 parameter bytes and the CRC of R152 at its end (R151). -/
def Obligations.GoodFramesAreSealedRequests : Prop :=
  ∀ bytes : List Byte, frameCheck bytes = none ↔
    ∃ (code : Byte) (r : Request), r.params.length ≤ 40 ∧ bytes = requestFrame code r

/-- No good frame stays good when one of its bytes is changed to another value (R151, R152). -/
def Obligations.OneByteErrorsAreCaught : Prop :=
  ∀ (bytes : List Byte) (k : Nat) (b : Byte), frameCheck bytes = none → k < bytes.length → bytes[k]? ≠ some b →
    (frameCheck (bytes.set k b)).isSome

/-- Every command that a burst carries is read back from the burst that spells it, with every operand, its port and its early
begin among them (R147, R151, R156, Tables 9-3 and 9-5; the early begin is the burst's own operand: log entry 15). -/
def Obligations.BurstDecodesToItsCommand : Prop :=
  ∀ (i : Instr) (b : Select) (bytes : List Byte), i.wf = true → encodeBurst i = some (b, bytes) →
    decodeBurst b bytes = some i


/-! ## The link (Chapter 9) -/

/-- A read burst of `n` bytes, at least 1, shifts out 0xFF, then the shown response, then 0xFF, cut to `n` bytes, where
the port's link hears bursts; the shown response is the link refusal, else the saved response, else the IDLE frame (in
STARTING: log entry 20). In HOLD, while PRST is asserted, where a PRST or a quiescing has fallen into the burst (in the bytes
before that pin change too), and where the burst began while the port still acted on its previous request frame, it shifts
out 0xFF alone (log entry 15). The burst is over, SDO is at high impedance, and nothing else changes (R129, R147, R148, R150,
R161, R163; OFF: log entry 10). -/
def Obligations.ReadBurstShowsResponse : Prop :=
  ∀ (b : Select) (n : Nat) (s : State), 1 ≤ n →
    let p := b.port
    let shown := match (s.port p).link.refusal, (s.port p).link.saved with
      | some f, _ => f
      | none, some f => f
      | none, none => sealFrame [0x7F, 0, 0]
    (Heard b s → exec (.readBurst b n) s = .next
      (s.setPort p { s.port p with burst := .none, sdo := ([0xFF] ++ shown ++ List.replicate n 0xFF).take n }))
    ∧ (Discarded b s → exec (.readBurst b n) s =
      .next (s.setPort p { s.port p with burst := .none, sdo := List.replicate n 0xFF }))
    ∧ (s.supply = .off → exec (.readBurst b n) s = .next (s.setPort p { s.port p with burst := .none, sdo := [] }))
    ∧ (∀ t, exec (.readBurst b n) s = .next t → t.sdoPin p = .highImpedance)

/-- Where the port hears bursts, a burst that does not begin with 0x00 and is a bad frame makes FRAME_ERROR with its reason,
echoing the second byte or 0, the port's link refusal. In HOLD, while PRST is asserted, where a PRST or a quiescing has
fallen into the burst, and where it began while the port still acted on its previous request frame, a bad frame leaves the
link as it was (log entry 15), and so it does in OFF, where nothing is shifted out (log entry 10). Where the port hears
bursts, a good frame whose code is not in the catalogue, and that repeats nothing, is taken and refused BAD_CODE whatever the
session, in STARTING too. With main supply 0xFF is shifted out in each byte; nothing else changes (R129, R147, R151, R153,
R155 to R157, R163). -/
def Obligations.BadFramesAndUnknownCodesAreRefused : Prop :=
  (∀ (b : Select) (bytes : List Byte) (why : Byte) (s : State),
    bytes ≠ [] → bytes.getD 0 0 ≠ 0 → reasonOf bytes = some why →
    let p := b.port
    let ended := { s.port p with burst := .none, sdo := List.replicate bytes.length 0xFF }
    (Heard b s → exec (.frameError b bytes) s = .next (s.setPort p { ended with
      link := { (s.port p).link with
        refusal := some (responseFrame ⟨.frameError, [why]⟩ (bytes.getD 1 0)) } }))
    ∧ (Discarded b s → exec (.frameError b bytes) s = .next (s.setPort p ended))
    ∧ (s.supply = .off → exec (.frameError b bytes) s = .next (s.setPort p { ended with sdo := [] })))
  ∧ (∀ (r : Request) (code : Byte) (s : State),
    code ≠ 0 → knownCode code = false → Heard r.toSelect s → (s.port r.port).link.lastTaken ≠ some (r.seq, code) →
    exec (.badCode r code) s = .next (refusedEarly s r code .badCode))

/-- A good frame of any code, in the order of the link's checks: in HOLD, while PRST is asserted, where a PRST or a quiescing
has fallen into its burst, and where the burst began while the port still acted on its previous request frame, it is
discarded, and so it is in OFF, where nothing is shifted out (log entries 10 and 15); a repetition of the last taken
request's sequence and code is not carried out again and only removes the link refusal; a request of the catalogue with a
length Table 9-3 does not give it is refused BAD_LENGTH; in STARTING one of the right length is refused STARTING, as the link
refusal; then one that needs a session is refused NO_SESSION, FENCED or STALE_EPOCH by the port's session. With main supply
0xFF is shifted out in each byte, and nothing else changes (R125, R129, R147, R154 to R157, R163). -/
def Obligations.LinkAndSessionChecksInOrder : Prop :=
  ∀ (i : Instr) (code : Byte) (r : Request) (s : State), i.frame? = some (code, r) → i.wf = true →
    (Discarded r.toSelect s → exec i s = .next (shifted s r))
    ∧ (s.supply = .off → exec i s = .next (s.setPort r.port { s.port r.port with burst := .none, sdo := [] }))
    ∧ (Heard r.toSelect s → (s.port r.port).link.lastTaken = some (r.seq, code) →
        exec i s = .next ((shifted s r).setPort r.port { (shifted s r).port r.port with
          link := { (s.port r.port).link with refusal := none } }))
    ∧ (∀ row, catalogueRow code = some row → Heard r.toSelect s → (s.port r.port).link.lastTaken ≠ some (r.seq, code) →
        (row.lengthOk r.params.length = false → exec i s = .next (refusedEarly s r code .badLength))
        ∧ (row.lengthOk r.params.length = true → s.supply = .starting →
            exec i s = .next ((shifted s r).setPort r.port { (shifted s r).port r.port with
              link := { (s.port r.port).link with refusal := some (responseFrame ⟨.starting, []⟩ r.seq) } }))
        ∧ (row.lengthOk r.params.length = true → s.supply = .run → row.needsSession = true →
            ((s.port r.port).session.state = .closed → exec i s = .next (refusedEarly s r code .noSession))
            ∧ ((s.port r.port).session.state = .fenced → exec i s = .next (refusedEarly s r code .fenced))
            ∧ ((s.port r.port).session.state = .opened → r.epoch ≠ (s.port r.port).session.epoch →
                exec i s = .next (refusedEarly s r code .staleEpoch))))

/-! ## Sessions (Chapter 7) -/

/-- OPEN_SESSION with a lease in range, from CLOSED or FENCED, opens a session with the next epoch and every default of
Tables 7-3 and 8-2, an empty event unit and sequence 0, tells an OPEN peer PEER_JOINED, and answers with the new epoch, the
lease and the peer's state. A lease below 100 is refused BAD_PARAM and an OPEN port BAD_STATE, with the renewal of R123
(R120, R121, R122). -/
def Obligations.OpenSessionOpens : Prop :=
  ∀ (r : Request) (s : State), Taken 0x02 r s → r.params.length = 2 →
    let p := r.port
    let x := (s.port p).session
    let lease := field r.params 0 2
    let epoch : Word16 := if x.epoch = 0xFFFF then 1 else x.epoch + 1
    let low : KindConfig := ⟨.low, false⟩
    let high : KindConfig := ⟨.high, false⟩
    (lease < 100 → exec (.openSession r) s = .next (concluded (begun s r) r 0x02 .badParam []))
    ∧ (100 ≤ lease → x.state = .opened →
        exec (.openSession r) s = .next (concluded (begun s r) r 0x02 .badState []))
    ∧ (100 ≤ lease → x.state ≠ .opened → exec (.openSession r) s = .next (concluded
        (((shifted s r).setPort p { (shifted s r).port p with
            session := { state := .opened, epoch := epoch, lease := lease
                         deadline := some (s.moment + lease * 25000)
                         config := { intentLifetime := 5000, quota := 96, assignLease := 20000, defaultWait := 1000 }
                         events := [high, high, high, low, high, low, low, high, high, low, low] }
            events := { records := [], stack := [], counter := 0 } }).raise (peer p) .peerJoined (.port p) .zero)
        r 0x02 .ok
        (bytesOf 2 epoch.toNat ++ bytesOf 2 lease ++ [(s.port (peer p)).session.state.code])))

/-- RENEW renews the lease, answers the lease and the peer's state, and changes nothing else; without an OPEN session of
its epoch it is refused as R125 gives (R123, R124, R125). -/
def Obligations.RenewRenewsLease : Prop :=
  ∀ (r : Request) (s : State), Taken 0x03 r s → r.params = [] →
    let x := (s.port r.port).session
    (x.state = .opened → r.epoch = x.epoch → exec (.renew r) s = .next (concluded
      ((shifted s r).setPort r.port { (shifted s r).port r.port with
        session := { x with deadline := some (s.moment + x.lease * 25000) } }) r 0x03 .ok
      (bytesOf 2 x.lease ++ [(s.port (peer r.port)).session.state.code])))
    ∧ (x.state = .closed → exec (.renew r) s = .next (refusedEarly s r 0x03 .noSession))
    ∧ (x.state = .fenced → exec (.renew r) s = .next (refusedEarly s r 0x03 .fenced))
    ∧ (x.state = .opened → r.epoch ≠ x.epoch → exec (.renew r) s = .next (refusedEarly s r 0x03 .staleEpoch))

/-- CLOSE_SESSION is refused BUSY while the port holds an intent or an assignment. Otherwise the session is CLOSED, its
queue and stack are cleared, none of its waiters is left, WAITING or GRANTED, one pass is made, and an OPEN peer is told
PEER_LOST with CLOSED last of all (R82, R130). -/
def Obligations.CloseSessionCloses : Prop :=
  ∀ (r : Request) (s : State), Admitted 0x04 r s → r.params = [] →
    let p := r.port
    (0 < (s.port p).intents ∨ 0 < (s.port p).assignments →
      exec (.closeSession r) s = .next (concluded (begun s r) r 0x04 .busy []))
    ∧ ((s.port p).intents = 0 → (s.port p).assignments = 0 →
        let closed := (shifted s r).setPort p (endedPort ((shifted s r).port p) .closed)
        let t := (closed.removeWaitersOf p).pass.raise (peer p) .peerLost (.port p) .peerClosed
        exec (.closeSession r) s = .next (concluded t r 0x04 .ok [])
        ∧ (∀ w, (t.waiterEntry w).ownedBy p = false)
        ∧ SameElsewhere closed t ∧ (t.port p).events = (closed.port p).events
        ∧ ((s.port (peer p)).session.state = .opened → (t.port (peer p)).events.tells .peerLost (.port p) .peerClosed))

/-- PORT_CONFIG is refused BAD_PARAM for a bit beyond the four fields, for a named field out of its range, and for a named
quota below the intents held; otherwise every named field takes its value, one pass follows a raised quota, and the
answer is the whole configuration (R68, R69, R73, R101, R132). -/
def Obligations.PortConfigSetsNamedFields : Prop :=
  ∀ (r : Request) (s : State), Admitted 0x05 r s → r.params.length = 8 →
    let p := r.port
    let set := byteAt r.params 0
    let named (k : Nat) : Bool := set.getLsbD k
    let life := field r.params 1 2
    let quota := field r.params 3 1
    let lease := field r.params 4 2
    let wait := field r.params 6 2
    let old := (s.port p).session.config
    let bad := 16 ≤ set.toNat ∨ (named 0 ∧ life < 10) ∨ (named 1 ∧ (quota = 0 ∨ 192 < quota ∨ quota < (s.port p).intents))
      ∨ (named 2 ∧ lease < 100) ∨ (named 3 ∧ (wait = 0 ∨ wait = 65535))
    (bad → exec (.portConfig r) s = .next (concluded (begun s r) r 0x05 .badParam []))
    ∧ (¬ bad →
        let new : PortConfig :=
          { intentLifetime := if named 0 then life else old.intentLifetime
            quota := if named 1 then quota else old.quota
            assignLease := if named 2 then lease else old.assignLease
            defaultWait := if named 3 then wait else old.defaultWait }
        let t := (begun s r).setPort p { (begun s r).port p with
          session := { ((begun s r).port p).session with config := new } }
        exec (.portConfig r) s = .next (concluded (if old.quota < new.quota then t.pass else t) r 0x05 .ok
          (bytesOf 2 new.intentLifetime ++ bytesOf 1 new.quota ++ bytesOf 2 new.assignLease ++ bytesOf 2 new.defaultWait)))

/-- The lease deadline of an OPEN session reached in RUN fences the port and tears its session down with EXPIRED, and its
ATTN is asserted: the port's work alone ends, one pass follows, and PEER_LOST comes last (R116, R126, R127, R128, R133;
REPAIR_PENDING at each end: log entry 14; a stale count that reaches 0 and rises again, and the place of COPY_ONLINE: log
entry 18). A deadline not reached or not there, and a supply state other than RUN, changes nothing (log entry 11). -/
def Obligations.LeaseExpiryFences : Prop :=
  ∀ (p : Port) (s : State), TableSizes s →
    (∀ d, s.supply = .run → (s.port p).session.state = .opened → (s.port p).session.deadline = some d →
      d ≤ s.ticks * 25000 → ∃ t, exec (.leaseExpiry p) s = .next t.settleAttn
        ∧ TornDown (s.setPort p (endedPort (s.port p) .fenced)) t p .peerExpired
        ∧ ((s.port p).prst = false → (t.settleAttn.port p).attn = true))
    ∧ ((s.supply ≠ .run ∨ (s.port p).session.state ≠ .opened
        ∨ ∀ d, (s.port p).session.deadline = some d → s.ticks * 25000 < d) → exec (.leaseExpiry p) s = .next s)

/-- The assertion of PRST clears the link state, drives ATTN low and discards a burst under way, whenever its chip select is
released. In RUN it closes an OPEN session with the teardown and the reason RESET: the port's work alone ends, one pass
follows, and PEER_LOST comes last (R127; REPAIR_PENDING at each end: log entry 14; a stale count that reaches 0 and rises
again, and the place of COPY_ONLINE: log entry 18).
A FENCED one it closes with nothing more; a CLOSED session, and any session in HOLD, STARTING and OFF, stands (R129, R147;
the link in HOLD and OFF: log entry 6). The release lets the port take bursts and show ATTN again, a burst already under way
apart, and changes nothing else; a release of an input that is not asserted notes the burst at most (R129, R144, R147; log
entry 15). -/
def Obligations.PrstResetsPort : Prop :=
  ∀ (p : Port) (sel : Bool) (s : State), TableSizes s →
    let cleared := s.setPort p { s.port p with prst := true, link := ⟨none, none, none⟩, burst := cutBurst sel }
    (s.supply = .run → (s.port p).session.state = .opened → ∃ t,
        TornDown (s.setPort p (endedPort { s.port p with prst := true } .closed)) t p .peerReset
        ∧ let u := (t.setPort p { t.port p with link := ⟨none, none, none⟩, burst := cutBurst sel }).settleAttn
          exec (.prst p sel) s = .next u ∧ (u.port p).attn = false)
    ∧ (s.supply = .run → (s.port p).session.state = .fenced → exec (.prst p sel) s = .next
        (cleared.setPort p { cleared.port p with
          session := { (s.port p).session with state := .closed, deadline := none } }).settleAttn)
    ∧ (s.supply ≠ .run ∨ (s.port p).session.state = .closed → exec (.prst p sel) s = .next cleared.settleAttn)
    ∧ ((s.port p).prst = true → exec (.prstRelease p sel) s = .next
        (s.setPort p { s.port p with prst := false, burst := cutBurst sel }).settleAttn)
    ∧ ((s.port p).prst = false → ∃ b, exec (.prstRelease p sel) s = .next
        (s.setPort p { s.port p with burst := b }).settleAttn)
    ∧ (∀ t u, s.supply ≠ .off → exec (.prst p true) s = .next t → exec (.prstRelease p true) t = .next u →
        Discarded ⟨p, false⟩ u)

/-! ## Events (Chapter 8) -/

/-- An event taken by an event unit within its bounds merges into the record that equals it, whose count rises to at most
255; else it joins the queue's end with count 1 and the advanced sequence while fewer than 24 records are held; else it is
dropped into the overflow record with the sequence advanced. The stack is not changed (R136, R137, R138). -/
def Obligations.EventIsMergedQueuedOrDropped : Prop :=
  ∀ (u : EventUnit) (k : Kind) (sub : Subject) (val : EventValue), u.bounded → k ≠ .overflow →
    let next : Word16 := if u.counter = 0xFFFF then 1 else u.counter + 1
    let same (r : EventRecord) : Prop := r.kind = k ∧ r.subject = sub ∧ r.value = val
    let held := (u.records.filter (fun r => r.kind ≠ .overflow)).length
    (u.take k sub val).stack = u.stack
    ∧ (∀ pre r post, u.records = pre ++ r :: post → same r →
        (u.take k sub val).records = pre ++ { r with count := min 255 (r.count + 1) } :: post
        ∧ (u.take k sub val).counter = u.counter)
    ∧ ((∀ r ∈ u.records, ¬ same r) → (u.take k sub val).counter = next)
    ∧ ((∀ r ∈ u.records, ¬ same r) → held < 24 →
        (u.take k sub val).records = u.records ++ [⟨k, sub, val, 1, next, 0⟩])
    ∧ ((∀ r ∈ u.records, ¬ same r) → 24 ≤ held → (∀ r ∈ u.records, r.kind ≠ .overflow) →
        (u.take k sub val).records = u.records ++ [⟨.overflow, .none, .zero, 1, next, kindBit k⟩])
    ∧ (∀ pre r post, (∀ q ∈ u.records, ¬ same q) → 24 ≤ held → u.records = pre ++ r :: post → r.kind = .overflow →
        (u.take k sub val).records
          = pre ++ { r with count := min 255 (r.count + 1), kindSet := r.kindSet ||| kindBit k } :: post)

/-- FETCH_EVENT takes the earliest eligible record of the highest level that has one, pushes its level on the stack and
answers its fields and the depth left; where no record is eligible it answers NONE with the depth and changes nothing but
the lease and the link (R141, R142). -/
def Obligations.FetchTakesEarliestHighest : Prop :=
  ∀ (r : Request) (s : State), Admitted 0x08 r s → r.params = [] →
    let p := r.port
    let u := (s.port p).events
    let can (q : EventRecord) : Bool := eligible (s.port p).session.events u.stack q
    let level (q : EventRecord) : Level := (kindConfig (s.port p).session.events q.kind).level
    ((∀ q ∈ u.records, can q = false) →
      exec (.fetchEvent r) s = .next (concluded (begun s r) r 0x08 .none [BitVec.ofNat 8 u.records.length]))
    ∧ (∀ pre q post, u.records = pre ++ q :: post → can q = true →
        (∀ o ∈ pre, can o = true → (level o).rank < (level q).rank) →
        (∀ o ∈ post, can o = true → (level o).rank ≤ (level q).rank) →
        exec (.fetchEvent r) s = .next (concluded
          ((begun s r).setPort p { (begun s r).port p with
            events := { u with records := pre ++ post, stack := level q :: u.stack } }) r 0x08 .ok
          (BitVec.ofNat 8 q.kind.code :: q.subject.bytes
            ++ (if q.kind = .overflow then bytesOf 2 ((List.range 16).countP fun b => q.kindSet.getLsbD b) else q.value.bytes)
            ++ [BitVec.ofNat 8 q.count] ++ bytesOf 2 q.seq.toNat ++ [(level q).code] ++ bytesOf 2 q.kindSet.toNat
            ++ [BitVec.ofNat 8 (pre ++ post).length])))

/-- ACK_EVENT removes the top entry of the in-service stack and answers the level removed and the number of entries left;
the queue is not changed, and the ATTN line follows R144. With an empty stack it is refused NOT_IN_SERVICE; without an OPEN
session of its epoch it is refused as R125 gives (R143). -/
def Obligations.AckEventPopsStack : Prop :=
  ∀ (r : Request) (s : State), Taken 0x09 r s → r.params = [] →
    let p := r.port
    let x := (s.port p).session
    let u := (s.port p).events
    (x.state = .closed → exec (.ackEvent r) s = .next (refusedEarly s r 0x09 .noSession))
    ∧ (x.state = .fenced → exec (.ackEvent r) s = .next (refusedEarly s r 0x09 .fenced))
    ∧ (x.state = .opened → r.epoch ≠ x.epoch → exec (.ackEvent r) s = .next (refusedEarly s r 0x09 .staleEpoch))
    ∧ (x.state = .opened → r.epoch = x.epoch → u.stack = [] →
        exec (.ackEvent r) s = .next (concluded (begun s r) r 0x09 .notInService []))
    ∧ (∀ l rest, x.state = .opened → r.epoch = x.epoch → u.stack = l :: rest →
        exec (.ackEvent r) s = .next (concluded
          ((begun s r).setPort p { (begun s r).port p with events := { u with stack := rest } }) r 0x09 .ok
          [l.code, BitVec.ofNat 8 rest.length]))

/-- EVENT_CONFIG with entries for distinct kinds of the eleven sets each named kind's level and mask, keeps the others,
answers the whole configuration, and leaves the queue and the stack as they are; each entry is written here as its kind's
index from 0 to 10 with its setting. One with an entry for another kind, with a level byte that is neither LOW nor HIGH, with
a mask byte that is neither 0 nor 1, or with two entries for one kind is refused BAD_PARAM and changes no entry (R139,
R140). -/
def Obligations.EventConfigSetsNamedKinds : Prop :=
  (∀ (r : Request) (s : State) (es : List (Nat × KindConfig)), Admitted 0x0A r s → TableSizes s → es.length ≤ 11 →
    (∀ e ∈ es, e.1 < 11) → (es.map Prod.fst).Nodup →
    r.params = es.flatMap (fun e => [BitVec.ofNat 8 (e.1 + 1), e.2.level.code, flagCode e.2.masked]) →
    ∃ cfg : List KindConfig, cfg.length = 11
      ∧ (∀ e ∈ es, cfg[e.1]? = some e.2)
      ∧ (∀ k, k ∉ es.map Prod.fst → cfg[k]? = (s.port r.port).session.events[k]?)
      ∧ exec (.eventConfig r) s = .next (concluded
          ((begun s r).setPort r.port { (begun s r).port r.port with
            session := { ((begun s r).port r.port).session with events := cfg } }) r 0x0A .ok
          (cfg.flatMap fun k => [k.level.code, flagCode k.masked])))
  ∧ (∀ (r : Request) (s : State) (es : List (Byte × Byte × Byte)), Admitted 0x0A r s → es.length ≤ 11 →
    r.params = es.flatMap (fun e => [e.1, e.2.1, e.2.2]) →
    (∃ e ∈ es, e.1 = 0 ∨ 11 < e.1.toNat ∨ 1 < e.2.1.toNat ∨ 1 < e.2.2.toNat) ∨ ¬ (es.map Prod.fst).Nodup →
    exec (.eventConfig r) s = .next (concluded (begun s r) r 0x0A .badParam []))

/-! ## Volumes (Chapter 1) -/

/-- Every request that names a volume, VOLUME_STATUS, CREATE_VOLUME and TAKE_REPAIR apart, is refused BAD_PARAM for a number
above 15 and NO_VOLUME for an ABSENT record, and changes nothing but the lease and the link; ROUTE and EXTENT_STATES so
without a session too (R5, R37, R39). -/
def Obligations.VolumeNameIsCheckedFirst : Prop :=
  ∀ c ∈ ([(.deleteVolume, 0x11, 1, true), (.setVolume, 0x13, 5, true), (.route, 0x18, 6, false),
      (.extentStates, 0x19, 5, false), (.retireRange, 0x1A, 11, true), (.reportReadFailure, 0x1B, 7, true),
      (.openIntent, 0x20, 12, true), (.failCopy, 0x30, 2, true), (.replaceCopy, 0x31, 2, true),
      (.clearErrors, 0x32, 2, true)] : List ((Request → Instr) × Byte × Nat × Bool)),
    ∀ (r : Request) (s : State), Taken c.2.1 r s → (c.2.2.2 = true → Admitted c.2.1 r s) → r.params.length = c.2.2.1 →
      (15 < field r.params 0 1 →
        exec (c.1 r) s = .next (concluded (begun s r) r c.2.1 .badParam []))
      ∧ (field r.params 0 1 ≤ 15 → s.volume? (field r.params 0 1) = none →
        exec (c.1 r) s = .next (concluded (begun s r) r c.2.1 .noVolume []))

/-- CREATE_VOLUME is refused BAD_PARAM for a number, shift, block count, state, health or extent count out of range and for
two FAILED copies, else VOLUME_EXISTS for a present volume, else NO_SPACE when no gap holds the run. Otherwise it makes the
record of R9 with every slot in the reduced state of R10, open count 0 and no assignment, raises VOLUME_CHANGED and, with
work to do, REPAIR_PENDING, but no EXTENT_LOST, and answers the slot base and the extent count (R1, R3, R8 to R11). -/
def Obligations.CreateVolumeMakesRecord : Prop :=
  ∀ (r : Request) (s : State), Admitted 0x10 r s → r.params.length = 10 →
    let v := field r.params 0 1
    let k := field r.params 1 1
    let n := field r.params 2 5
    let m := (n + (2 ^ k - 1)) / 2 ^ k
    let a := byteAt r.params 8
    let b := byteAt r.params 9
    let bad := 15 < v ∨ k < 8 ∨ 20 < k ∨ n = 0 ∨ 5 < (byteAt r.params 7).toNat ∨ (a ≠ 0 ∧ a ≠ 2) ∨ (b ≠ 0 ∧ b ≠ 2)
      ∨ (a = 2 ∧ b = 2) ∨ 131072 < m
    (bad → exec (.createVolume r) s = .next (concluded (begun s r) r 0x10 .badParam []))
    ∧ (¬ bad → (s.volume? v).isSome →
        exec (.createVolume r) s = .next (concluded (begun s r) r 0x10 .volumeExists []))
    ∧ (¬ bad → s.volume? v = none → firstGap m 0 s.runs = none →
        exec (.createVolume r) s = .next (concluded (begun s r) r 0x10 .noSpace []))
    ∧ (∀ base (st : Coherence) (ha hb : Health), ¬ bad → s.volume? v = none → firstGap m 0 s.runs = some base →
        byteAt r.params 7 = st.code → a = ha.code → b = hb.code → ∃ x : Volume,
          exec (.createVolume r) s = .next (concluded
            ((((begun s r).setVolume v (some x)).raiseAll .volumeChanged (.volume v) .created).raiseRepairPending v 0)
            r 0x10 .ok (bytesOf 3 base ++ bytesOf 3 m))
          ∧ x.geometry = (n, k, m, base) ∧ x.copyA.health = ha ∧ x.copyB.health = hb
          ∧ x.copyA.errors = 0 ∧ x.copyB.errors = 0 ∧ x.threshold = 8
          ∧ x.policy = .alternate ∧ x.authority = .a ∧ x.toggle = .a ∧ x.cursor = 0 ∧ x.openIntents = 0
          ∧ x.extents = List.replicate m ⟨reducedState st ha hb, 0, none⟩ ∧ x.recount = x)

/-- The run of a new volume is the lowest place where `m` consecutive slots of the store are in no present volume's run,
and there is none only when no place fits (R7). -/
def Obligations.PlacementIsFirstFit : Prop :=
  ∀ (s : State) (m : Nat), RunsDisjoint s →
    let fits (base : Nat) : Prop := base + m ≤ 131072 ∧
      ∀ v x, s.volume? v = some x → base + m ≤ x.slotBase ∨ x.slotBase + x.extentCount ≤ base
    (∀ base, firstGap m 0 s.runs = some base → fits base ∧ ∀ b, b < base → ¬ fits b)
    ∧ (firstGap m 0 s.runs = none → ∀ b, ¬ fits b)

/-- DELETE_VOLUME is refused BUSY while the volume has an open intent, a WAITING waiter or an assignment; otherwise its
record becomes ABSENT and VOLUME_CHANGED with DELETED is raised to every OPEN port (R12, R83, R103). SET_VOLUME is refused
BAD_PARAM for a bit beyond the three settings or a named setting outside its list, BAD_STATE for a FAILED copy named as
AUTHORITY; otherwise each named setting takes its value and nothing else of the volume changes (R13). -/
def Obligations.DeleteAndSetVolumeChangeRecord : Prop :=
  (∀ (r : Request) (s : State) (x : Volume), Admitted 0x11 r s → r.params.length = 1 →
      let v := field r.params 0 1
      let busy := 0 < x.openIntents ∨ (∃ w y, w ∈ s.arrival ∧ s.waiter? w = some y ∧ y.volume = v)
        ∨ (∃ slot a, s.assignment? slot = some a ∧ a.volume = v)
      v ≤ 15 → s.volume? v = some x →
      (busy → exec (.deleteVolume r) s = .next (concluded (begun s r) r 0x11 .busy []))
      ∧ (¬ busy → exec (.deleteVolume r) s = .next (concluded
          (((begun s r).setVolume v none).raiseAll .volumeChanged (.volume v) .deleted) r 0x11 .ok [])))
  ∧ (∀ (r : Request) (s : State) (x : Volume), Admitted 0x13 r s → r.params.length = 5 →
      let v := field r.params 0 1
      let set := byteAt r.params 1
      let policy := policyParam (byteAt r.params 2)
      let authority := copyParam (byteAt r.params 3)
      let bad := 8 ≤ set.toNat ∨ (set.getLsbD 0 = true ∧ policy = none) ∨ (set.getLsbD 1 = true ∧ authority = none)
      let failed := set.getLsbD 1 = true ∧ ∃ c, authority = some c ∧ x.health c = .failed
      v ≤ 15 → s.volume? v = some x →
      (bad → exec (.setVolume r) s = .next (concluded (begun s r) r 0x13 .badParam []))
      ∧ (¬ bad → failed → exec (.setVolume r) s = .next (concluded (begun s r) r 0x13 .badState []))
      ∧ (¬ bad → ¬ failed → exec (.setVolume r) s = .next (concluded
          ((begun s r).setVolume v (some { x with
            policy := if set.getLsbD 0 then policy.getD x.policy else x.policy
            authority := if set.getLsbD 1 then authority.getD x.authority else x.authority
            threshold := if set.getLsbD 2 then field r.params 4 1 else x.threshold })) r 0x13 .ok [])))

/-- VOLUME_STATUS needs no session. It is refused BAD_PARAM for a number above 15, answers ABSENT with zeros for an absent
record, and otherwise answers each field of the record at the place Table 9-7 gives it, a number cut to its field's
width (log entry 17); it changes nothing but the lease and the link (R18). -/
def Obligations.VolumeStatusReportsRecord : Prop :=
  ∀ (r : Request) (s : State), Taken 0x12 r s → r.params.length = 1 →
    let v := field r.params 0 1
    (15 < v → exec (.volumeStatus r) s = .next (concluded (begun s r) r 0x12 .badParam []))
    ∧ (v ≤ 15 → s.volume? v = none → exec (.volumeStatus r) s = .next (concluded (begun s r) r 0x12 .ok
        (BitVec.ofNat 8 v :: List.replicate 52 0)))
    ∧ (∀ x, v ≤ 15 → s.volume? v = some x → ∃ res : List Byte,
        exec (.volumeStatus r) s = .next (concluded (begun s r) r 0x12 .ok res) ∧ res.length = 53
        ∧ field res 0 1 = v ∧ byteAt res 1 = x.condition.code ∧ field res 2 5 = x.blockCount % 256 ^ 5
        ∧ field res 7 1 = x.shift % 256 ∧ field res 8 3 = x.extentCount % 256 ^ 3 ∧ field res 11 3 = x.slotBase % 256 ^ 3
        ∧ byteAt res 14 = x.copyA.health.code ∧ byteAt res 15 = x.copyB.health.code
        ∧ field res 16 1 = x.copyA.errors % 256 ∧ field res 17 1 = x.copyB.errors % 256
        ∧ field res 18 1 = x.threshold % 256 ∧ byteAt res 19 = x.policy.code ∧ byteAt res 20 = x.authority.code
        ∧ byteAt res 21 = x.toggle.code ∧ field res 22 3 = x.counts.synced % 256 ^ 3
        ∧ field res 25 3 = x.counts.aOnly % 256 ^ 3 ∧ field res 28 3 = x.counts.bOnly % 256 ^ 3
        ∧ field res 31 3 = x.counts.suspect % 256 ^ 3 ∧ field res 34 3 = x.counts.lost % 256 ^ 3
        ∧ field res 37 3 = x.counts.void % 256 ^ 3 ∧ field res 40 3 = x.copyA.stale % 256 ^ 3
        ∧ field res 43 3 = x.copyB.stale % 256 ^ 3 ∧ field res 46 3 = x.repairNeeded % 256 ^ 3
        ∧ field res 49 3 = x.cursor % 256 ^ 3 ∧ field res 52 1 = x.openIntents % 256)


/-! ## Extents (Chapter 2) -/

/-- The loss of currency of R22, row by row, for either copy of an extent in each of the six states. Where the copy is
current for none of the extents it is taken from, every extent stays as it is, and so no count moves. -/
def Obligations.LossOfCurrencyTable : Prop :=
  ∀ c : Copy,
    loseCurrency c .synced = onlyState (other c)
    ∧ loseCurrency c .suspect = onlyState (other c)
    ∧ loseCurrency c (onlyState c) = .lost
    ∧ loseCurrency c (onlyState (other c)) = onlyState (other c)
    ∧ loseCurrency c .lost = .lost
    ∧ loseCurrency c .void = .void
    ∧ (∀ st, st.current c = false → loseCurrency c st = st)
    ∧ ∀ (sel : Nat → Bool) (xs : List Extent),
        (∀ e y, xs[e]? = some y → sel e = true → y.state.current c = false) → mapExtents (loseIn sel c) xs = xs

/-- Table 2-3, row by row; only whether each report is WRITTEN matters (R25). And the abandon of R26, row by row: with
neither report PENDING it is the close; a PENDING copy keeps its currency and gains none, and where both copies end current
the result is SUSPECT for two PENDING reports and the _ONLY state of a copy whose report is WRITTEN. -/
def Obligations.IntentCloseTable : Prop :=
  (∀ (ra rb : Report), (ra ≠ .written → rb ≠ .written → ∀ st whole, closeResult st whole ra rb = .lost)
    ∧ (rb ≠ .written →
        (∀ st, closeResult st true .written rb = .aOnly)
        ∧ closeResult .synced false .written rb = .aOnly ∧ closeResult .aOnly false .written rb = .aOnly
        ∧ closeResult .bOnly false .written rb = .lost ∧ closeResult .suspect false .written rb = .aOnly
        ∧ closeResult .lost false .written rb = .lost ∧ closeResult .void false .written rb = .aOnly)
    ∧ (ra ≠ .written →
        (∀ st, closeResult st true ra .written = .bOnly)
        ∧ closeResult .synced false ra .written = .bOnly ∧ closeResult .aOnly false ra .written = .lost
        ∧ closeResult .bOnly false ra .written = .bOnly ∧ closeResult .suspect false ra .written = .bOnly
        ∧ closeResult .lost false ra .written = .lost ∧ closeResult .void false ra .written = .bOnly)
    ∧ (∀ st, closeResult st true .written .written = .synced)
    ∧ closeResult .synced false .written .written = .synced ∧ closeResult .aOnly false .written .written = .aOnly
    ∧ closeResult .bOnly false .written .written = .bOnly ∧ closeResult .suspect false .written .written = .suspect
    ∧ closeResult .lost false .written .written = .lost ∧ closeResult .void false .written .written = .suspect)
  ∧ (∀ (st : Coherence) (whole : Bool),
    (∀ ra rb, ra ≠ .pending → rb ≠ .pending → abandonResult st whole ra rb = closeResult st whole ra rb)
    ∧ abandonResult st whole .pending .pending = (match st with
        | .synced => .suspect | .suspect => .suspect | .void => .suspect
        | .aOnly => .aOnly | .bOnly => .bOnly | .lost => .lost)
    ∧ abandonResult st whole .pending .written = (match st with
        | .synced => .bOnly | .suspect => .bOnly | .void => .bOnly | .bOnly => .bOnly
        | .aOnly => if whole then .bOnly else .aOnly
        | .lost => if whole then .bOnly else .lost)
    ∧ abandonResult st whole .written .pending = (match st with
        | .synced => .aOnly | .suspect => .aOnly | .void => .aOnly | .aOnly => .aOnly
        | .bOnly => if whole then .aOnly else .bOnly
        | .lost => if whole then .aOnly else .lost)
    ∧ (∀ rb, rb ≠ .pending → rb ≠ .written → abandonResult st whole .pending rb = (match st with
        | .synced => .aOnly | .suspect => .aOnly | .void => .aOnly | .aOnly => .aOnly
        | .bOnly => .lost | .lost => .lost))
    ∧ (∀ ra, ra ≠ .pending → ra ≠ .written → abandonResult st whole ra .pending = (match st with
        | .synced => .bOnly | .suspect => .bOnly | .void => .bOnly | .bOnly => .bOnly
        | .aOnly => .lost | .lost => .lost)))

/-- ROUTE of a block needs no session. Beyond the volume it is refused BAD_PARAM, of an OFFLINE volume OFFLINE. Otherwise
it answers the extent, its state, its readable copies, the copy to read and the two flags; the alternate toggle flips for a
SYNCED extent under ALTERNATE, and nothing else changes but the lease and the link (R4, R37, R38). -/
def Obligations.RouteNamesCopyToRead : Prop :=
  ∀ (r : Request) (s : State) (x : Volume), Taken 0x18 r s → r.params.length = 6 →
    let v := field r.params 0 1
    let b := field r.params 1 5
    let e := b / 2 ^ x.shift
    v ≤ 15 → s.volume? v = some x →
    (x.blockCount ≤ b → exec (.route r) s = .next (concluded (begun s r) r 0x18 .badParam []))
    ∧ (b < x.blockCount → x.condition = .offline →
        exec (.route r) s = .next (concluded (begun s r) r 0x18 .offline []))
    ∧ (∀ y, b < x.blockCount → x.condition ≠ .offline → x.extents[e]? = some y →
        let policyCopy : Copy := match x.policy with | .preferA => .a | .preferB => .b | .alternate => x.toggle
        let readable : Byte := match y.state with
          | .synced => 3 | .suspect => x.authority.code | .aOnly => 1 | .bOnly => 2 | .lost => 0 | .void => 0
        let read : Byte := match y.state with
          | .synced => policyCopy.code | .suspect => x.authority.code | .aOnly => 1 | .bOnly => 2 | .lost => 4 | .void => 5
        let flags : Byte := (if 0 < y.openCount then 1 else 0) ||| (if y.link.isSome then 2 else 0)
        exec (.route r) s = .next (concluded
          ((begun s r).setVolume v (some { x with
            toggle := if y.state = .synced ∧ x.policy = .alternate then other x.toggle else x.toggle })) r 0x18 .ok
          (bytesOf 3 e ++ [y.state.code, readable, read, flags])))

/-- EXTENT_STATES needs no session. It is refused BAD_PARAM for a volume number above 15, NO_VOLUME for an ABSENT record,
and BAD_PARAM for a count of 0 or above 16 and for a range that ends beyond the volume; otherwise it answers the count and,
of each extent in order, the state, the open count and the assignment flag. It changes nothing but the lease and the link
(R39). -/
def Obligations.ExtentStatesReportsExtents : Prop :=
  ∀ (r : Request) (s : State), Taken 0x19 r s → r.params.length = 5 →
    let v := field r.params 0 1
    let first := field r.params 1 3
    let n := field r.params 4 1
    (15 < v → exec (.extentStates r) s = .next (concluded (begun s r) r 0x19 .badParam []))
    ∧ (v ≤ 15 → s.volume? v = none → exec (.extentStates r) s = .next (concluded (begun s r) r 0x19 .noVolume []))
    ∧ (∀ x, v ≤ 15 → s.volume? v = some x →
        (n = 0 ∨ 16 < n ∨ x.extentCount < first + n →
          exec (.extentStates r) s = .next (concluded (begun s r) r 0x19 .badParam []))
        ∧ (∀ ys : List Extent, n ≠ 0 → n ≤ 16 → first + n ≤ x.extentCount → ys.length = n →
            (∀ j < n, x.extents[first + j]? = ys[j]?) →
            exec (.extentStates r) s = .next (concluded (begun s r) r 0x19 .ok
              (BitVec.ofNat 8 n :: ys.flatMap fun y =>
                [y.state.code, BitVec.ofNat 8 y.openCount, if y.link.isSome then 1 else 0]))))

/-- A RETIRE_RANGE inside the volume that overlaps no open intent makes exactly the extents VOID that it covers wholly, marks
their assignments overtaken in link and record, leaves every other extent, assignment slot and volume, the intents and the
wait list as they were, every slot with its generation, and answers the number of those extents; each OPEN port is told its
consequences and nothing else, among them COPY_ONLINE for a REBUILDING copy with nothing stale left. Outside the volume it is
refused BAD_PARAM, and BUSY over an open intent (R4, R23, R36, R41, R42, R116). -/
def Obligations.RetireMakesWholeExtentsVoid : Prop :=
  ∀ (r : Request) (s : State) (x : Volume), Admitted 0x1A r s → r.params.length = 11 →
    let v := field r.params 0 1
    let first := field r.params 1 5
    let count := field r.params 6 5
    let busy := ∃ slot i, s.intent? slot = some i ∧ i.volume = v ∧
      first < i.firstBlock + i.blockCount ∧ i.firstBlock < first + count
    let covered (e : Nat) : Bool := decide (first ≤ e * 2 ^ x.shift)
      && decide (min ((e + 1) * 2 ^ x.shift) x.blockCount ≤ first + count)
    v ≤ 15 → s.volume? v = some x →
    (count = 0 ∨ x.blockCount < first + count →
      exec (.retireRange r) s = .next (concluded (begun s r) r 0x1A .badParam []))
    ∧ (count ≠ 0 → first + count ≤ x.blockCount → busy →
        exec (.retireRange r) s = .next (concluded (begun s r) r 0x1A .busy []))
    ∧ (count ≠ 0 → first + count ≤ x.blockCount → ¬ busy → ∃ (t : State) (x' : Volume) (ks : List Nat), exec (.retireRange r) s = .next t
        ∧ t.volume? v = some x' ∧ x'.extents.length = x.extents.length ∧ x'.fixed = x.fixed
        ∧ x'.copyA.errors = x.copyA.errors ∧ x'.copyB.errors = x.copyB.errors ∧ x'.openIntents = x.openIntents
        ∧ (∀ e y, x.extents[e]? = some y → Covers x first count e →
            x'.extents[e]? = some ⟨.void, y.openCount, y.link.map fun l => { l with overtaken := true }⟩)
        ∧ (∀ e, ¬ Covers x first count e → x'.extents[e]? = x.extents[e]?)
        ∧ t.assignments = s.assignments.map (fun (k : Slot (Option Assignment)) =>
            { k with held := k.held.map fun a =>
                { a with overtaken := a.overtaken || (decide (a.volume = v) && covered a.extent) } })
        ∧ OthersSame s t v ∧ t.intents = s.intents ∧ t.waiters = s.waiters ∧ t.arrival = s.arrival
        ∧ t.pointer = s.pointer
        ∧ (∀ p, (t.port p).intents = (s.port p).intents ∧ (t.port p).assignments = (s.port p).assignments)
        ∧ x'.recount = x' ∧ ks.Nodup ∧ (∀ e, e ∈ ks ↔ e < x.extentCount ∧ Covers x first count e)
        ∧ HealthsSettled x x' ∧ (∀ p, Told s t p (consequencesOf v x x'))
        ∧ SameElsewhere (concluded (begun s r) r 0x1A .ok (bytesOf 3 ks.length)) t)

/-- A REPORT_READ_FAILURE of a block outside the volume, or whose copy byte names neither A nor B, is refused BAD_PARAM.
Otherwise it takes currency from the named copy in the block's extent, with the consequences of that one change told to each
OPEN port (EXTENT_LOST, REPAIR_PENDING, COPY_ONLINE), and charges the copy's error counter by 1 up to 255. Where the charge
fails no copy (the threshold is 0 or not reached, or one of the two copies is FAILED already: the last copy is protected),
nothing else changes. Where it does, the failure procedure follows with THRESHOLD as the cause, whole, from the state so
left. The answer gives the extent, its state and the copy's health as they then stand (R22 to R24, R33, R40, R102, R107,
R108, R111 to R113, R116; no REPAIR_PENDING within the procedure: log entry 14). -/
def Obligations.ReadFailureTakesCurrency : Prop :=
  ∀ (r : Request) (s : State) (x : Volume), Admitted 0x1B r s → r.params.length = 7 →
    let v := field r.params 0 1
    let b := field r.params 1 5
    let e := b / 2 ^ x.shift
    v ≤ 15 → s.volume? v = some x →
    (x.blockCount ≤ b ∨ (byteAt r.params 6 ≠ 1 ∧ byteAt r.params 6 ≠ 2) →
      exec (.reportReadFailure r) s = .next (concluded (begun s r) r 0x1B .badParam []))
    ∧ (∀ c : Copy, b < x.blockCount → byteAt r.params 6 = c.code →
      ∃ m y t x', OnlyRecord (begun s r) m v ∧ m.volume? v = some y
        ∧ y.fixed = x.fixed ∧ y.extents.length = x.extents.length ∧ y.openIntents = x.openIntents
        ∧ (y.copy c).errors = min 255 ((x.copy c).errors + 1) ∧ (y.copy (other c)).errors = (x.copy (other c)).errors
        ∧ (∀ k z, x.extents[k]? = some z →
            y.extents[k]? = some (if k = e then { z with state := loseCurrency c z.state } else z))
        ∧ y.recount = y ∧ HealthsSettled x y ∧ (∀ p, Told s m p (consequencesOf v x y))
        ∧ (¬ ChargeFails x c → t = m)
        ∧ (ChargeFails x c → TableSizes s → TakenOut m t v y x' c .failThreshold none)
        ∧ t.volume? v = some x' ∧ x'.fixed = x.fixed ∧ x'.extents.length = x.extents.length
        ∧ (x'.copy c).errors = min 255 ((x.copy c).errors + 1) ∧ (x'.copy (other c)).errors = (x.copy (other c)).errors
        ∧ (∀ z, x'.extents[e]? = some z → z.state.current c = false)
        ∧ OthersKept s t v ∧ SameElsewhere (begun s r) t
        ∧ exec (.reportReadFailure r) s = .next
            (concluded t r 0x1B .ok (bytesOf 3 e ++ [stateCode x' e, (x'.health c).code])))

/-! ## Intents (Chapter 3) -/

/-- An OPEN_INTENT that passes every check of R47 and R49 is granted at once, whatever its wait field: the intent of R50
takes the lowest FREE slot under the next generation, and the answer carries the tag, the extents, the two initial reports
and the lifetime (R44, R47, R49, R50, R51). -/
def Obligations.OpenIntentIsGranted : Prop :=
  ∀ (r : Request) (s : State) (x : Volume) (slot : Nat), Admitted 0x20 r s → r.params.length = 12 →
    let p := r.port
    let v := field r.params 0 1
    let first := field r.params 1 5
    let count := field r.params 6 4
    let lo := first / 2 ^ x.shift
    let hi := (first + count - 1) / 2 ^ x.shift
    let life := (s.port p).session.config.intentLifetime
    v ≤ 15 → s.volume? v = some x → x.condition ≠ .offline → count ≠ 0 → count ≤ 16777216 →
    first + count ≤ x.blockCount → hi - lo + 1 ≤ 32 →
    s.overlapsIntent v first count = false → s.overlapsWaiter s.arrival v first count = false →
    (s.port p).intents < (s.port p).session.config.quota → lowestFree s.intents = some slot →
    let i : Intent :=
      { port := p, epoch := (s.port p).session.epoch, volume := v, firstBlock := first, blockCount := count
        firstExtent := lo, extentCount := hi - lo + 1, deadline := s.moment + life * 25000
        reportA := if x.copyA.health = .failed then .notRequired else .pending
        reportB := if x.copyB.health = .failed then .notRequired else .pending }
    exec (.openIntent r) s = .next (concluded ((begun s r).grant slot i) r 0x20 .ok
      ([BitVec.ofNat 8 slot, genAt s.intents slot + 1] ++ bytesOf 3 lo ++ bytesOf 1 (hi - lo + 1)
        ++ [i.reportA.code, i.reportB.code] ++ bytesOf 2 life))

/-- What a grant does, whole: the intent in its slot under the next generation, the port's count and the volume's count
raised by 1, the open count of every extent the range touches raised by 1 and its assignment marked overtaken in link and
record, no extent's state changed, and nothing else: every other slot, FREE ones too, and every generation but the taken
slot's is as it was (R34, R35, R44, R50, R84, R92). -/
def Obligations.GrantTouchesItsExtents : Prop :=
  ∀ (s : State) (slot : Nat) (i : Intent) (x : Volume),
    lowestFree s.intents = some slot → s.volume? i.volume = some x →
    let t := s.grant slot i
    let touched (e : Nat) : Bool := decide (i.firstExtent ≤ e) && decide (e < i.firstExtent + i.extentCount)
    t.intents = s.intents.set slot ⟨genAt s.intents slot + 1, some i⟩
    ∧ t.port i.port = { s.port i.port with intents := (s.port i.port).intents + 1 }
    ∧ t.port (peer i.port) = s.port (peer i.port)
    ∧ (∃ ys, t.volume? i.volume = some { x with openIntents := x.openIntents + 1, extents := ys }
        ∧ ys.length = x.extents.length
        ∧ ∀ e y, x.extents[e]? = some y → ys[e]? = some
            (if touched e then
              { y with openCount := y.openCount + 1, link := y.link.map fun l => { l with overtaken := true } }
             else y))
    ∧ OthersSame s t i.volume
    ∧ t.assignments = s.assignments.map (fun (k : Slot (Option Assignment)) =>
        { k with held := k.held.map fun a =>
            { a with overtaken := a.overtaken || (decide (a.volume = i.volume) && touched a.extent) } })
    ∧ t.waiters = s.waiters ∧ t.arrival = s.arrival ∧ t.pointer = s.pointer ∧ SameElsewhere s t

/-- An OPEN_INTENT that is not granted: OFFLINE for an OFFLINE volume, else BAD_PARAM for a range out of bounds, else SPAN
beyond 32 extents; then with wait 0 it is refused CONFLICT, QUOTA or TABLE_FULL, the first that applies, and with a wait it
is refused WAIT_FULL at 32 waiters and otherwise queued in the lowest EMPTY slot, or else the lowest GRANTED one, under the
next generation, at the end of the arrival order. No refusal and no queuing changes an extent, an intent or an assignment
(R47, R49, R70, R71, R72). -/
def Obligations.OpenIntentWaitsOrIsRefused : Prop :=
  ∀ (r : Request) (s : State) (x : Volume), Admitted 0x20 r s → r.params.length = 12 →
    let p := r.port
    let v := field r.params 0 1
    let first := field r.params 1 5
    let count := field r.params 6 4
    let wait := field r.params 10 2
    let span := (first + count - 1) / 2 ^ x.shift - first / 2 ^ x.shift + 1
    let conflict := s.overlapsIntent v first count = true ∨ s.overlapsWaiter s.arrival v first count = true
    let atQuota := (s.port p).session.config.quota ≤ (s.port p).intents
    let full := lowestFree s.intents = none
    let refusedAs (st : Status) := exec (.openIntent r) s = .next (concluded (begun s r) r 0x20 st [])
    v ≤ 15 → s.volume? v = some x →
    (x.condition = .offline → refusedAs .offline)
    ∧ (x.condition ≠ .offline → (count = 0 ∨ 16777216 < count ∨ x.blockCount < first + count) → refusedAs .badParam)
    ∧ (x.condition ≠ .offline → count ≠ 0 → count ≤ 16777216 → first + count ≤ x.blockCount →
        (32 < span → refusedAs .span)
        ∧ (span ≤ 32 → wait = 0 →
            (conflict → refusedAs .conflict)
            ∧ (¬ conflict → atQuota → refusedAs .quota)
            ∧ (¬ conflict → ¬ atQuota → full → refusedAs .tableFull))
        ∧ (span ≤ 32 → wait ≠ 0 → conflict ∨ atQuota ∨ full →
            (32 ≤ s.arrival.length → refusedAs .waitFull)
            ∧ (∀ w, s.arrival.length < 32 → w < s.waiters.length →
                ((s.waiterEntry w = .vacant ∧ ∀ k, k < w → s.waiterEntry k ≠ .vacant)
                  ∨ ((∀ k, k < s.waiters.length → s.waiterEntry k ≠ .vacant)
                    ∧ (s.waiterEntry w).isGranted = true ∧ ∀ k, k < w → (s.waiterEntry k).isGranted = false)) →
                let ms := if wait = 65535 then (s.port p).session.config.defaultWait else wait
                let gen := genAt s.waiters w + 1
                exec (.openIntent r) s = .next (concluded
                  { begun s r with
                    waiters := s.waiters.set w ⟨gen, .waiting ⟨p, (s.port p).session.epoch, v, first, count,
                      s.moment + ms * 25000⟩⟩
                    arrival := s.arrival ++ [w] } r 0x20 .queued
                  ([BitVec.ofNat 8 w, gen] ++ bytesOf 2 ms ++ bytesOf 1 s.arrival.length)))))

/-- A REPORT_WRITE of WRITTEN for a copy whose report is PENDING sets it. While the other report is PENDING nothing else
changes and the answer says OPEN. Otherwise the intent closes: each touched extent takes its state by Table 2-3, the counts
fall, the slot is FREE and the tag finds nothing any more, one pass is made, each OPEN port is told the consequences and then
the grants of the pass, all else is as it was, and the answer says CLOSED with both reports and the copy's health (R23 to
R25, R45, R54, R56, R75, R102, R116; REPAIR_PENDING on the close as a whole: log entry 14). -/
def Obligations.WrittenReportRecordsOrCloses : Prop :=
  ∀ (r : Request) (s : State) (i : Intent) (x : Volume) (c : Copy), Admitted 0x21 r s → r.params.length = 4 →
    let p := r.port
    let tag := tagParam r.params 0
    let j := i.withReport .written c
    byteAt r.params 2 = c.code → byteAt r.params 3 = 1 → s.findIntent p tag = some i → i.report c = .pending →
    s.volume? i.volume = some x →
    (i.report (other c) = .pending → exec (.reportWrite r) s = .next (concluded
      { begun s r with intents := s.intents.set tag.slot ⟨tag.gen, some j⟩ } r 0x21 .ok
      [0, j.reportA.code, j.reportB.code, (x.health c).code]))
    ∧ (i.report (other c) ≠ .pending → ∃ t x', exec (.reportWrite r) s = .next t ∧ t.volume? i.volume = some x'
        ∧ IntentEnded (begun s r) t
            (fun u => concluded u r 0x21 .ok [1, j.reportA.code, j.reportB.code, (x'.health c).code]) tag.slot i x
            (fun e st => closeResult st (coveredBy x i e) j.reportA j.reportB) (fun _ => [])
        ∧ t.findIntent p tag = none
        ∧ SameElsewhere (concluded (begun s r) r 0x21 .ok
            [1, j.reportA.code, j.reportB.code, (x'.health c).code]) t)

/-- A REPORT_WRITE of FAILED for a copy whose report is PENDING sets it and charges the copy's error counter by 1 up to
255. Where the charge fails no copy (last-copy protection among it), nothing more changes at this point; where it does, the
failure procedure follows with THRESHOLD as the cause, whole and with its own pass, and leaves this intent open with its
report FAILED. Then, while the other report is PENDING, the intent stays open with both reports; otherwise it closes by Table
2-3 on the extents as they stand, with its own pass as after a report of WRITTEN, and the copy is current for none of its
extents. The answer gives the copy's health after all of it (R25, R55, R56, R62, R63, R107, R108, R111 to R113;
REPAIR_PENDING on the close as a whole, and none within the procedure: log entry 14). -/
def Obligations.FailedReportChargesCopy : Prop :=
  ∀ (r : Request) (s : State) (i : Intent) (x : Volume) (c : Copy), Admitted 0x21 r s → r.params.length = 4 →
    let p := r.port
    let tag := tagParam r.params 0
    let j := i.withReport .failed c
    let waits := i.report (other c) = .pending
    let answer (h : Health) : List Byte := [if waits then 0 else 1, j.reportA.code, j.reportB.code, h.code]
    byteAt r.params 2 = c.code → byteAt r.params 3 = 2 → s.findIntent p tag = some i → i.report c = .pending →
    s.volume? i.volume = some x →
    let charged := ({ begun s r with intents := s.intents.set tag.slot ⟨tag.gen, some j⟩ } : State).setVolume i.volume
      (some (chargedRecord x c))
    ∃ m y t x', m.volume? i.volume = some y ∧ m.intent? tag.slot = some j
      ∧ (¬ ChargeFails x c → m = charged)
      ∧ (ChargeFails x c → TableSizes s →
          TakenOut charged m i.volume (chargedRecord x c) y c .failThreshold (some tag.slot))
      ∧ exec (.reportWrite r) s = .next t ∧ t.volume? i.volume = some x'
      ∧ (waits → t = concluded m r 0x21 .ok (answer (y.health c)) ∧ t.findIntent p tag = some j)
      ∧ (¬ waits → t.findIntent p tag = none
          ∧ IntentEnded m t (fun u => concluded u r 0x21 .ok (answer (x'.health c))) tag.slot j y
              (fun e st => closeResult st (coveredBy x i e) j.reportA j.reportB) (fun _ => [])
          ∧ ∀ e y, x'.extents[e]? = some y → i.firstExtent ≤ e → e < i.firstExtent + i.extentCount →
              y.state.current c = false)
      ∧ x'.fixed = x.fixed ∧ x'.extents.length = x.extents.length
      ∧ (x'.copy c).errors = min 255 ((x.copy c).errors + 1)
      ∧ (x'.copy (other c)).errors = (x.copy (other c)).errors
      ∧ OthersKept s t i.volume
      ∧ SameElsewhere (concluded (begun s r) r 0x21 .ok (answer (x'.health c))) t

/-- The answers to a tag or ticket that finds nothing, to a second or unwanted report, and to a copy or outcome byte that
names none: each changes nothing but the lease and the link (R44, R53, R57, R66, R70, R79, R84, R93, R96). -/
def Obligations.DeadTagsAreRefused : Prop :=
  ∀ (r : Request) (s : State),
    let p := r.port
    let tag := tagParam r.params 0
    (s.findIntent p tag = none →
      (Admitted 0x21 r s → r.params.length = 4 → ∀ c : Copy, byteAt r.params 2 = c.code →
        (byteAt r.params 3 = 1 ∨ byteAt r.params 3 = 2) →
        exec (.reportWrite r) s = .next (concluded (begun s r) r 0x21 .unknownTag []))
      ∧ (Admitted 0x22 r s → r.params.length = 2 →
        exec (.abandonIntent r) s = .next (concluded (begun s r) r 0x22 .unknownTag []))
      ∧ (Admitted 0x23 r s → r.params.length = 2 →
        exec (.intentStatus r) s = .next (concluded (begun s r) r 0x23 .unknownTag [])))
    ∧ (∀ (i : Intent) (c : Copy), s.findIntent p tag = some i → Admitted 0x21 r s → r.params.length = 4 →
        byteAt r.params 2 = c.code → (byteAt r.params 3 = 1 ∨ byteAt r.params 3 = 2) →
        ((i.report c = .notRequired ∨ i.report c = .dropped) →
          exec (.reportWrite r) s = .next (concluded (begun s r) r 0x21 .notRequired []))
        ∧ ((i.report c = .written ∨ i.report c = .failed) →
          exec (.reportWrite r) s = .next (concluded (begun s r) r 0x21 .duplicateReport [])))
    ∧ (s.findAssignment p tag = none →
        (Admitted 0x29 r s → r.params.length = 3 → (byteAt r.params 2).toNat ≤ 2 →
          exec (.repairDone r) s = .next (concluded (begun s r) r 0x29 .unknownTag []))
        ∧ (Admitted 0x2A r s → r.params.length = 2 →
          exec (.releaseRepair r) s = .next (concluded (begun s r) r 0x2A .unknownTag [])))
    ∧ (s.findTicket p tag = .vacant → Admitted 0x24 r s → r.params.length = 2 →
        exec (.cancelWait r) s = .next (concluded (begun s r) r 0x24 .unknownTicket []))
    ∧ (Admitted 0x21 r s → r.params.length = 4 →
        (byteAt r.params 2 ≠ 1 ∧ byteAt r.params 2 ≠ 2) ∨ (byteAt r.params 3 ≠ 1 ∧ byteAt r.params 3 ≠ 2) →
        exec (.reportWrite r) s = .next (concluded (begun s r) r 0x21 .badParam []))
    ∧ (Admitted 0x29 r s → r.params.length = 3 → 2 < (byteAt r.params 2).toNat →
        exec (.repairDone r) s = .next (concluded (begun s r) r 0x29 .badParam []))

/-- An intent ends by ABANDON_INTENT of its port's tag, or by its deadline reached in RUN: each touched extent takes its
state by R26 with the reports as they stand, the counts fall, the slot is FREE and the tag finds nothing any more, one pass is
made, and all else is as it was; after an expiry its owner, if OPEN, is told INTENT_EXPIRED with the tag, after the
consequences and the grants of the pass (R26, R45, R57 to R60, R75; that order: log entry 13; REPAIR_PENDING on the end as a
whole: log entry 14).
Before the deadline, on a FREE slot, or outside RUN, an expiry does nothing (log entry 11). -/
def Obligations.AbandonAndExpirySettleExtents : Prop :=
  (∀ (r : Request) (s : State) (i : Intent) (x : Volume), Admitted 0x22 r s → r.params.length = 2 →
    s.findIntent r.port (tagParam r.params 0) = some i → s.volume? i.volume = some x →
    ∃ t, exec (.abandonIntent r) s = .next t
      ∧ IntentEnded (begun s r) t (fun u => concluded u r 0x22 .ok []) (tagParam r.params 0).slot i x
          (fun e st => abandonResult st (coveredBy x i e) i.reportA i.reportB) (fun _ => [])
      ∧ t.findIntent r.port (tagParam r.params 0) = none
      ∧ SameElsewhere (concluded (begun s r) r 0x22 .ok []) t)
  ∧ (∀ (slot : Nat) (s : State),
    (∀ i x, s.supply = .run → s.intent? slot = some i → i.deadline ≤ s.ticks * 25000 → s.volume? i.volume = some x →
      let tag : Tag := ⟨slot, genAt s.intents slot⟩
      ∃ t, exec (.intentExpiry slot) s = .next t
        ∧ IntentEnded s t (fun u => (u.raise i.port .intentExpired (.intent tag) .zero).settleAttn) slot i x
          (fun e st => abandonResult st (coveredBy x i e) i.reportA i.reportB)
          (fun p => if p = i.port then [(.intentExpired, .intent tag, .zero)] else [])
        ∧ t.findIntent i.port tag = none ∧ SameElsewhere s t
        ∧ ((s.port i.port).session.state = .opened → (t.port i.port).events.tells .intentExpired (.intent tag) .zero))
    ∧ ((s.supply ≠ .run ∨ ∀ i, s.intent? slot = some i → s.ticks * 25000 < i.deadline) →
        exec (.intentExpiry slot) s = .next s))

/-- INTENT_STATUS of an intent the port's tag finds answers its range, its extents, its two reports and the time left in
whole milliseconds rounded up, and changes nothing but the lease and the link (R66; the least answer of 1: log entry 9). -/
def Obligations.IntentStatusReportsIntent : Prop :=
  ∀ (r : Request) (s : State) (i : Intent), Admitted 0x23 r s → r.params.length = 2 →
    s.findIntent r.port (tagParam r.params 0) = some i →
    let left := max 1 ((i.deadline - s.moment + 24999) / 25000)
    exec (.intentStatus r) s = .next (concluded (begun s r) r 0x23 .ok
      (bytesOf 1 i.volume ++ bytesOf 5 i.firstBlock ++ bytesOf 4 i.blockCount ++ bytesOf 3 i.firstExtent
        ++ bytesOf 1 i.extentCount ++ [i.reportA.code, i.reportB.code] ++ bytesOf 2 left))

/-! ## The wait list (Chapter 4) -/

/-- A pass visits the WAITING waiters in arrival order. A visited waiter that no open intent, no earlier waiter and not its
port's quota blocks, with an intent slot FREE, becomes the intent of R50 in the lowest FREE slot under the next generation,
with its own port, epoch, volume and range, its extents, a PENDING report for each copy that is not FAILED, and the
deadline from this moment; its waiter slot becomes GRANTED with the port, the epoch and the tag, it leaves the arrival
order, and its port, if OPEN, is told WAIT_GRANTED with the ticket and the tag; nothing else changes but what the grant
changes. Any other visit changes nothing. After the pass no waiter left in the list could be granted: each is blocked by an
open intent, by an earlier waiter, by its port's quota or by a full table (R4, R44, R50, R70, R74 to R76). -/
def Obligations.PassLeavesOnlyBlockedWaiters : Prop :=
  (∀ s : State, ArrivalAgrees s →
    ∀ w x, w ∈ s.pass.arrival → s.pass.waiter? w = some x → s.pass.grantable w x = none)
  ∧ (∀ s : State, s.pass = s.arrival.foldl State.visit s)
  ∧ (∀ (s : State) (w slot : Nat) (x : Waiter) (vol : Volume), s.waiter? w = some x → s.volume? x.volume = some vol →
      Unblocked s w x → lowestFree s.intents = some slot →
      let lo := x.firstBlock / 2 ^ vol.shift
      let ticket : Tag := ⟨w, genAt s.waiters w⟩
      let tag : Tag := ⟨slot, genAt s.intents slot + 1⟩
      let i : Intent :=
        { port := x.port, epoch := x.epoch, volume := x.volume, firstBlock := x.firstBlock, blockCount := x.blockCount
          firstExtent := lo, extentCount := (x.firstBlock + x.blockCount - 1) / 2 ^ vol.shift - lo + 1
          deadline := s.moment + (s.port x.port).session.config.intentLifetime * 25000
          reportA := if vol.copyA.health = .failed then .notRequired else .pending
          reportB := if vol.copyB.health = .failed then .notRequired else .pending }
      let t := s.visit w
      t = ({ s.grant slot i with
            waiters := s.waiters.set w ⟨ticket.gen, .granted x.port x.epoch tag⟩
            arrival := s.arrival.filter (fun k => k ≠ w) } : State).raise x.port .waitGranted (.ticket ticket) (.intent tag)
      ∧ t.intent? slot = some i ∧ genAt t.intents slot = tag.gen ∧ t.waiterEntry w = .granted x.port x.epoch tag
      ∧ w ∉ t.arrival
      ∧ ∀ p, Told s t p (if p = x.port then [(.waitGranted, .ticket ticket, .intent tag)] else []))
  ∧ (∀ (s : State) (w : Nat), (∀ x, s.waiter? w = some x → ¬ Unblocked s w x ∨ lowestFree s.intents = none) →
      s.visit w = s)

/-- A waiter leaves by CANCEL_WAIT of its port's ticket, or by its deadline reached in RUN: its slot is EMPTY under its
generation, it leaves the arrival order, and one pass is made; before the pass of an expiry its owner, if OPEN, is told
WAIT_ENDED with EXPIRED. CANCEL_WAIT of a GRANTED slot answers ALREADY_GRANTED with the recorded tag and changes nothing but
the lease and the link (R77 to R80). An expiry before the deadline, on a slot that is not WAITING, or outside RUN does nothing
(log entry 11). -/
def Obligations.CancelAndExpiryEndWaits : Prop :=
  (∀ (r : Request) (s : State), Admitted 0x24 r s → r.params.length = 2 →
    let t := tagParam r.params 0
    (∀ w, s.findTicket r.port t = .waiting w → exec (.cancelWait r) s = .next (concluded
        ({ begun s r with waiters := s.waiters.set t.slot ⟨t.gen, .vacant⟩
                          arrival := s.arrival.filter (· ≠ t.slot) } : State).pass r 0x24 .ok []))
    ∧ (∀ q e tag, s.findTicket r.port t = .granted q e tag → exec (.cancelWait r) s = .next
        (concluded (begun s r) r 0x24 .alreadyGranted [BitVec.ofNat 8 tag.slot, tag.gen])))
  ∧ (∀ (slot : Nat) (s : State),
    (∀ w, s.supply = .run → s.waiter? slot = some w → w.deadline ≤ s.ticks * 25000 →
      let ticket : Tag := ⟨slot, genAt s.waiters slot⟩
      let u : State := { s with waiters := s.waiters.set slot ⟨ticket.gen, .vacant⟩, arrival := s.arrival.filter (· ≠ slot) }
      let t := ((u.raise w.port .waitEnded (.ticket ticket) .waitExpired).pass).settleAttn
      exec (.waiterExpiry slot) s = .next t ∧ t.waiterEntry slot = .vacant ∧ slot ∉ t.arrival
        ∧ ((s.port w.port).session.state = .opened → (t.port w.port).events.tells .waitEnded (.ticket ticket) .waitExpired))
    ∧ ((s.supply ≠ .run ∨ ∀ w, s.waiter? slot = some w → s.ticks * 25000 < w.deadline) →
        exec (.waiterExpiry slot) s = .next s))

/-! ## Repairs (Chapter 5) -/

/-- TAKE_REPAIR of a named volume, its port below 16 assignments and a slot FREE, hands out the extent its search chooses
and leaves the rotating pointer; with no qualifying extent it answers NONE. A volume byte that is neither 0 to 15 nor ANY
is refused BAD_PARAM, an ABSENT volume NO_VOLUME, a port with 16 assignments QUOTA, a full table TABLE_FULL (R84 to R88,
R90). -/
def Obligations.TakeRepairOfVolume : Prop :=
  ∀ (r : Request) (s : State), Admitted 0x28 r s → r.params.length = 1 →
    let p := r.port
    let v := field r.params 0 1
    let refusedAs (st : Status) := exec (.takeRepair r) s = .next (concluded (begun s r) r 0x28 st [])
    (15 < v → v ≠ 255 → refusedAs .badParam)
    ∧ (v ≤ 15 → s.volume? v = none → refusedAs .noVolume)
    ∧ (v = 255 ∨ (v ≤ 15 ∧ (s.volume? v).isSome) →
        (16 ≤ (s.port p).assignments → refusedAs .quota)
        ∧ ((s.port p).assignments < 16 → lowestFree s.assignments = none → refusedAs .tableFull))
    ∧ (∀ x slot, v ≤ 15 → s.volume? v = some x → CountsAgree s → (s.port p).assignments < 16 →
        lowestFree s.assignments = some slot →
        ((∀ e, ¬ Qualifies x e) → refusedAs .none)
        ∧ (∀ e y, Chosen x e → x.extents[e]? = some y →
            ∃ t, exec (.takeRepair r) s = .next t ∧ RepairTaken r s t v e slot x y s.pointer))

/-- TAKE_REPAIR with ANY, its port below 16 assignments and a slot FREE, serves the first volume after the rotating pointer
in which an extent qualifies, the pointer's own volume last, and the pointer becomes that volume's number; where none
qualifies anywhere it answers NONE and the pointer stays (R89). -/
def Obligations.TakeRepairOfAnyTakesTurns : Prop :=
  ∀ (r : Request) (s : State) (slot : Nat), Admitted 0x28 r s → r.params = [0xFF] → CountsAgree s → TableSizes s →
    (s.port r.port).assignments < 16 → lowestFree s.assignments = some slot →
    let turn (v : Nat) : Nat := (v + 15 - s.pointer) % 16
    ((∀ v x, v ≤ 15 → s.volume? v = some x → ∀ e, ¬ Qualifies x e) →
      exec (.takeRepair r) s = .next (concluded (begun s r) r 0x28 .none []))
    ∧ (∀ v x e y, v ≤ 15 → s.volume? v = some x → Chosen x e → x.extents[e]? = some y →
        (∀ w z, w ≤ 15 → turn w < turn v → s.volume? w = some z → ∀ k, ¬ Qualifies z k) →
        ∃ t, exec (.takeRepair r) s = .next t ∧ RepairTaken r s t v e slot x y v)

/-- A REPAIR_DONE of COPIED for an assignment the port's tag finds ends it: not overtaken it is answered OK, and its extent
becomes SYNCED where the source is current and loses the target otherwise; overtaken it is answered STALE, and its extent
changes by R29. One of SOURCE_BAD or TARGET_BAD, overtaken or not, ends it too and charges the copy it names by 1 up to
255; not overtaken, that copy is then not current for the extent. Where the charge fails no copy (last-copy protection among
it), nothing more changes; where it does, the failure procedure follows with THRESHOLD as the cause, whole, from the state so
left. The answer carries the extent's state and the two healths (R28, R29, R93, R94, R107, R108, R111 to R113; no
REPAIR_PENDING within the procedure: log entry 14). -/
def Obligations.RepairDoneEndsAssignment : Prop :=
  ∀ (r : Request) (s : State) (a : Assignment) (x : Volume), Admitted 0x29 r s → r.params.length = 3 →
    let tag := tagParam r.params 0
    let status : Status := if a.overtaken then .stale else .ok
    let answer (x' : Volume) : List Byte := bytesOf 1 a.volume ++ bytesOf 3 a.extent
      ++ [stateCode x' a.extent, (x'.health a.source).code, (x'.health a.target).code]
    s.findAssignment r.port tag = some a → s.volume? a.volume = some x →
    (byteAt r.params 2 = 0 → ∃ t x', exec (.repairDone r) s = .next t ∧ t.volume? a.volume = some x'
        ∧ AssignmentEnded s t tag.slot a x (if a.overtaken then overtakenRule s a
            else fun st => if st.current a.source then .synced else loseCurrency a.target st) (fun _ => [])
        ∧ SameElsewhere (concluded (begun s r) r 0x29 status (answer x')) t)
    ∧ (∀ c, (byteAt r.params 2 = 1 ∧ c = a.source) ∨ (byteAt r.params 2 = 2 ∧ c = a.target) →
        ∃ m y t x', AssignmentEnded (begun s r) m tag.slot a (chargedRecord x c)
            (if a.overtaken then overtakenRule s a else loseCurrency c) (fun _ => [])
          ∧ SameElsewhere (begun s r) m ∧ m.volume? a.volume = some y
          ∧ (¬ ChargeFails x c → t = m)
          ∧ (ChargeFails x c → TableSizes s → TakenOut m t a.volume y x' c .failThreshold none)
          ∧ t.volume? a.volume = some x' ∧ x'.fixed = x.fixed ∧ x'.extents.length = x.extents.length
          ∧ (x'.copy c).errors = min 255 ((x.copy c).errors + 1)
          ∧ (x'.copy (other c)).errors = (x.copy (other c)).errors
          ∧ t.findAssignment r.port tag = none
          ∧ (a.overtaken = false → ∀ y, x'.extents[a.extent]? = some y → y.state.current c = false)
          ∧ OthersKept s t a.volume ∧ SameElsewhere (begun s r) t
          ∧ exec (.repairDone r) s = .next (concluded t r 0x29 status (answer x')))

/-- An assignment ends by RELEASE_REPAIR of its port's tag, or by its deadline reached in RUN: an overtaken one by R29, one
not overtaken with its extent's state as it was. The release answers whether it was overtaken and the extent's state; after
an expiry the holder, if OPEN, is told ASSIGN_ENDED with EXPIRED, after the consequences (R29, R30, R95 to R98). Before the
deadline, on a FREE slot, or outside RUN, an expiry does nothing (log entry 11). -/
def Obligations.ReleaseAndExpiryRevoke : Prop :=
  (∀ (r : Request) (s : State) (a : Assignment) (x : Volume), Admitted 0x2A r s → r.params.length = 2 →
    let tag := tagParam r.params 0
    s.findAssignment r.port tag = some a → s.volume? a.volume = some x →
    ∃ t x', exec (.releaseRepair r) s = .next t ∧ t.volume? a.volume = some x'
      ∧ AssignmentEnded s t tag.slot a x (if a.overtaken then overtakenRule s a else id) (fun _ => [])
      ∧ SameElsewhere (concluded (begun s r) r 0x2A .ok [if a.overtaken then 1 else 0, stateCode x' a.extent]) t)
  ∧ (∀ (slot : Nat) (s : State),
    (∀ a x, s.supply = .run → s.assignment? slot = some a → a.deadline ≤ s.ticks * 25000 → s.volume? a.volume = some x →
      ∃ t, exec (.assignmentExpiry slot) s = .next t
        ∧ AssignmentEnded s t slot a x (if a.overtaken then overtakenRule s a else id)
          (fun p => if p = a.port
            then [(.assignEnded, .assignment ⟨slot, genAt s.assignments slot⟩, .assignExpired)] else [])
        ∧ SameElsewhere s t
        ∧ ((s.port a.port).session.state = .opened → (t.port a.port).events.tells .assignEnded
            (.assignment ⟨slot, genAt s.assignments slot⟩) .assignExpired))
    ∧ ((s.supply ≠ .run ∨ ∀ a, s.assignment? slot = some a → s.ticks * 25000 < a.deadline) →
        exec (.assignmentExpiry slot) s = .next s))

/-! ## Copy health (Chapter 6) -/

/-- FAIL_COPY whose copy byte names neither A nor B is refused BAD_PARAM, and of a FAILED copy BAD_STATE. Otherwise it
carries out the failure procedure with REQUEST as the cause: the extents take the loss of currency of their states, then the
closes and the ends of assignments; the copy is FAILED; the intents have their reports dropped or are closed, assignments and,
where the volume becomes OFFLINE, waiters are gone; one pass is made; the error counters, the settings and all else stay. Each
OPEN port is told an EXTENT_LOST for each extent that the loss of currency makes LOST, then what the work in flight raises
(EXTENT_LOST, ASSIGN_ENDED of each assignment it held, WAIT_ENDED of each of its waiters removed), then the grants of the
pass, then COPY_FAILED, then COPY_ONLINE where the other copy was REBUILDING; no fewer EXTENT_LOST in all than extents that
are LOST and were not. The answer gives the healths and the condition (R24, R32, R61, R63, R75, R81, R99, R110 to R114; no
REPAIR_PENDING: log entry 14). -/
def Obligations.FailCopyTakesCopyOut : Prop :=
  ∀ (r : Request) (s : State) (x : Volume), Admitted 0x30 r s → r.params.length = 2 → TableSizes s →
    let v := field r.params 0 1
    v ≤ 15 → s.volume? v = some x →
    (byteAt r.params 1 ≠ 1 → byteAt r.params 1 ≠ 2 →
      exec (.failCopy r) s = .next (concluded (begun s r) r 0x30 .badParam []))
    ∧ ∀ c : Copy, byteAt r.params 1 = c.code →
      (x.health c = .failed → exec (.failCopy r) s = .next (concluded (begun s r) r 0x30 .badState []))
      ∧ (x.health c ≠ .failed → ∃ t x', TakenOut (begun s r) t v x x' c .failRequest none
          ∧ exec (.failCopy r) s = .next
              (concluded t r 0x30 .ok [(x'.health .a).code, (x'.health .b).code, x'.condition.code]))

/-- REPLACE_COPY of a FAILED copy beside one that is not FAILED sets its error counter to 0 and its health to REBUILDING,
or to ONLINE with COPY_ONLINE when nothing is stale, with the condition and the repair-needed count following and
REPAIR_PENDING on a rise from 0; no extent changes. Otherwise it is refused BAD_STATE, and BAD_PARAM where the copy byte names
neither A nor B (R16, R102, R115). -/
def Obligations.ReplaceCopyStartsRebuild : Prop :=
  ∀ (r : Request) (s : State) (x : Volume), Admitted 0x31 r s → r.params.length = 2 →
    let v := field r.params 0 1
    v ≤ 15 → s.volume? v = some x →
    (byteAt r.params 1 ≠ 1 → byteAt r.params 1 ≠ 2 →
      exec (.replaceCopy r) s = .next (concluded (begun s r) r 0x31 .badParam []))
    ∧ ∀ c : Copy, byteAt r.params 1 = c.code →
    (x.health c ≠ .failed ∨ x.health (other c) = .failed →
      exec (.replaceCopy r) s = .next (concluded (begun s r) r 0x31 .badState []))
    ∧ (x.health c = .failed → x.health (other c) ≠ .failed → CountsAgree s →
        let stale := (x.copy c).stale
        let h : Health := if stale = 0 then .online else .rebuilding
        let x' := (x.setCopy c ⟨h, 0, stale⟩).recount
        let t := (begun s r).setVolume v (some x')
        let t := if stale = 0 then t.raiseAll .copyOnline (.copy v c) .zero else t
        let t := if x.repairNeeded = 0 ∧ x'.repairNeeded ≠ 0 then t.raiseAll .repairPending (.volume v) .zero else t
        exec (.replaceCopy r) s = .next (concluded t r 0x31 .ok
          ([h.code] ++ bytesOf 3 stale ++ bytesOf 3 x'.repairNeeded))
        ∧ x'.extents = x.extents)

/-- CLEAR_ERRORS sets the named copy's error counter to 0, whatever its health, and answers the value it held; nothing else
of the volume changes, no event is raised and no threshold is tested. The volume's name is checked first by R5, and a copy
byte that names neither A nor B is refused BAD_PARAM (R117). -/
def Obligations.ClearErrorsZeroesCounter : Prop :=
  ∀ (r : Request) (s : State), Admitted 0x32 r s → r.params.length = 2 →
    let v := field r.params 0 1
    (15 < v → exec (.clearErrors r) s = .next (concluded (begun s r) r 0x32 .badParam []))
    ∧ (v ≤ 15 → s.volume? v = none → exec (.clearErrors r) s = .next (concluded (begun s r) r 0x32 .noVolume []))
    ∧ (∀ x, v ≤ 15 → s.volume? v = some x →
        (byteAt r.params 1 ≠ 1 → byteAt r.params 1 ≠ 2 →
          exec (.clearErrors r) s = .next (concluded (begun s r) r 0x32 .badParam []))
        ∧ (byteAt r.params 1 = 1 → exec (.clearErrors r) s = .next (concluded
            ((begun s r).setVolume v (some { x with copyA := { x.copyA with errors := 0 } })) r 0x32 .ok
            [BitVec.ofNat 8 x.copyA.errors]))
        ∧ (byteAt r.params 1 = 2 → exec (.clearErrors r) s = .next (concluded
            ((begun s r).setVolume v (some { x with copyB := { x.copyB with errors := 0 } })) r 0x32 .ok
            [BitVec.ofNat 8 x.copyB.errors])))

/-! ## Retention and start-up (Chapter 10) -/

/-- IDENTIFY needs no session. In RUN it answers the part code, the revision, the capacities, the start kind and the
warm-start count, and changes nothing but the link and, when its frame carries the current epoch of an OPEN port, the
lease. In STARTING it is refused STARTING, as the link refusal (R169, Table 9-7). -/
def Obligations.IdentifyAnswers : Prop :=
  ∀ (r : Request) (s : State), r.params = [] →
    (Taken 0x01 r s → exec (.identify r) s = .next (concluded (begun s r) r 0x01 .ok
      ([0x22, 0x40, 0x01, 16, 0x02, 0x00, 0x00, 192, 32, 32, 24, s.startKind.code] ++ bytesOf 2 s.warmStarts)))
    ∧ (s.supply = .starting → Heard r.toSelect s → (s.port r.port).link.lastTaken ≠ some (r.seq, 0x01) →
        exec (.identify r) s = .next ((shifted s r).setPort r.port { (shifted s r).port r.port with
          link := { (s.port r.port).link with refusal := some (responseFrame ⟨.starting, []⟩ r.seq) } }))

/-- FORMAT is refused BUSY while an intent is open, a waiter waits, an assignment is outstanding or the peer is OPEN.
Otherwise every volume record becomes ABSENT and the pointer 15, the requester alone is told VOLUME_CHANGED with DELETED of
each volume that was present, in number order, and the answer is their number; all else is kept (R19, R168). -/
def Obligations.FormatEmptiesVolumes : Prop :=
  ∀ (r : Request) (s : State), Admitted 0x38 r s → r.params = [] →
    let p := r.port
    let busy := (∃ slot i, s.intent? slot = some i) ∨ s.arrival ≠ [] ∨ (∃ slot a, s.assignment? slot = some a)
      ∨ (s.port (peer p)).session.state = .opened
    let present := (List.range 16).filter fun v => (s.volume? v).isSome
    (busy → exec (.format r) s = .next (concluded (begun s r) r 0x38 .busy []))
    ∧ (¬ busy → exec (.format r) s = .next (concluded
        (present.foldl (fun t v => t.raise p .volumeChanged (.volume v) .deleted)
          { begun s r with volumes := List.replicate 16 none, pointer := 15 }) r 0x38 .ok
        [BitVec.ofNat 8 present.length]))

/-- Table 10-1 for the supply and the two level inputs: PFAIL or RESETN asserted makes RUN and STARTING HOLD with both ATTN
lines low and discards a burst under way, and leaves HOLD and OFF as they are; main supply turns OFF to HOLD, its loss turns
any state to OFF; VBAK first applied, and VBAK falling below its threshold while main supply is absent, make the
retention-valid mark invalid, and a loss of main supply leaves it (VBAK below its threshold already then: log entry 22). A
release of RESETN in OFF, or in HOLD with PFAIL asserted, begins no start. Nothing else changes (R161 to R164;
that the volatile records stand in OFF: log entry 5; the levels that START notes: log entry 7; a burst in HOLD and OFF: log
entry 15; ATTN in OFF: log entry 19). -/
def Obligations.SupplyEventsFollowTable : Prop :=
  ∀ (s : State) (sel0 sel1 : Bool),
    let quiet (t : State) : State :=
      { t with port0 := { t.port0 with attn := false }, port1 := { t.port1 with attn := false } }
    let cut (t : State) : State :=
      { t with port0 := { t.port0 with burst := cutBurst sel0 }, port1 := { t.port1 with burst := cutBurst sel1 } }
    (s.supply = .run ∨ s.supply = .starting →
      exec (.quiesce .pfail sel0 sel1) s = .next (cut (quiet { s with pfail := true, supply := .hold }))
      ∧ exec (.quiesce .resetn sel0 sel1) s = .next (cut (quiet { s with resetn := true, supply := .hold })))
    ∧ (s.supply = .hold ∨ s.supply = .off →
        exec (.quiesce .pfail sel0 sel1) s = .next (cut { s with pfail := true })
        ∧ exec (.quiesce .resetn sel0 sel1) s = .next (cut { s with resetn := true }))
    ∧ (s.supply = .off → exec .mainSupplyArrives s = .next { s with supply := .hold })
    ∧ (s.supply ≠ .off → exec .mainSupplyArrives s = .next s)
    ∧ exec .mainSupplyLost s = .next (quiet { s with supply := .off })
    ∧ exec (.vbakBelowThreshold .firstApplied) s = .next { s with retentionValid := false }
    ∧ (s.supply = .off → exec (.vbakBelowThreshold .falls) s = .next { s with retentionValid := false })
    ∧ (s.supply ≠ .off → exec (.vbakBelowThreshold .falls) s = .next s)
    ∧ (s.supply = .off → ∀ pf, exec (.start pf sel0 sel1) s = .next (cut { s with resetn := false, pfail := pf }))
    ∧ (s.supply = .hold → exec (.start true sel0 sel1) s = .next (cut { s with resetn := false, pfail := true }))
    ∧ (s.supply ≠ .starting → exec .startComplete s = .next s)

/-- A release of RESETN in HOLD with PFAIL deasserted begins a start that clears everything outside the retention array
and, with the retention-valid mark invalid, makes every volume ABSENT and both epochs 0; its completion enters RUN with the
start kind COLD, the warm-start count 0 and the mark valid. So does the completion from every STARTING state whose start was
decided COLD, whatever has reached the links or the pins since, and it changes nothing else but the ATTN lines, which follow
R144 (R144, R165, R167; the links as STARTING left them: log entry 21; that the array's work is done at once: log entry 7; the lease and configurations of a port not opened since: log entry 2; a burst under way in HOLD:
log entry 15). -/
def Obligations.ColdStartEmptiesPart : Prop :=
  (∀ (s : State) (sel0 sel1 : Bool), s.supply = .hold → s.retentionValid = false →
    let t : State := { State.reset with
      port0 := startedPort s.port0 0 sel0, port1 := startedPort s.port1 0 sel1, supply := .starting
      startKind := s.startKind, startDecided := .cold, warmStarts := s.warmStarts, retentionValid := false
      ticks := s.ticks, phase := s.phase, refclk := s.refclk, choices := s.choices, pending := s.pending }
    exec (.start false sel0 sel1) s = .next t
      ∧ exec .startComplete t = .next { t with
          supply := .run, startKind := .cold, warmStarts := 0, retentionValid := true })
  ∧ ∀ s : State, s.supply = .starting → s.startDecided = .cold → exec .startComplete s = .next
      ({ s with supply := .run, startKind := .cold, warmStarts := 0, retentionValid := true } : State).settleAttn

/-- With the mark valid the start keeps each present volume's record with its extents converted, links and open counts
cleared, counts recomputed, toggle A and cursor 0, and a REBUILDING copy with nothing stale ONLINE; it keeps both epochs
and empties the tables. Its completion enters RUN with the start kind WARM and the count advanced up to 65,535. So does the
completion from every STARTING state whose start was decided WARM, whatever has reached the links or the pins since, and it
changes nothing else but the ATTN lines, which follow R144 (R19, R27, R43, R144, R165, R166; the links as STARTING left
them: log entry 21; the lease and configurations of a port not opened since: log entry 2; that the array's work is done at once:
log entry 7; the rows that R27 leaves out: log entry 8; a burst under way in HOLD: log entry 15). -/
def Obligations.WarmStartConvertsExtents : Prop :=
  (∀ (s : State) (sel0 sel1 : Bool), s.supply = .hold → s.retentionValid = true →
    ∃ vs : List (Option Volume),
      let t : State := { State.reset with
        port0 := startedPort s.port0 s.port0.session.epoch sel0, port1 := startedPort s.port1 s.port1.session.epoch sel1
        volumes := vs, supply := .starting, startKind := s.startKind, startDecided := .warm, warmStarts := s.warmStarts
        ticks := s.ticks, phase := s.phase, refclk := s.refclk, choices := s.choices, pending := s.pending }
      exec (.start false sel0 sel1) s = .next t
      ∧ exec .startComplete t = .next { t with
          supply := .run, startKind := .warm, warmStarts := min 65535 (s.warmStarts + 1) }
      ∧ (∀ v, s.volume? v = none → t.volume? v = none)
      ∧ (∀ v x, s.volume? v = some x → ∃ x', t.volume? v = some x'
          ∧ x'.geometry = x.geometry ∧ x'.copyA.errors = x.copyA.errors ∧ x'.copyB.errors = x.copyB.errors
          ∧ x'.threshold = x.threshold ∧ x'.policy = x.policy ∧ x'.authority = x.authority
          ∧ x'.toggle = .a ∧ x'.cursor = 0 ∧ x'.openIntents = 0 ∧ x'.recount = x'
          ∧ x'.extents = x.extents.map (fun y => ⟨warmState x.copyA.health x.copyB.health y, 0, none⟩)
          ∧ (∀ c, x'.health c = (if x.health c = .rebuilding ∧ (x'.copy c).stale = 0 then .online else x.health c))))
  ∧ ∀ s : State, s.supply = .starting → s.startDecided = .warm → exec .startComplete s = .next
      ({ s with supply := .run, startKind := .warm, warmStarts := min 65535 (s.warmStarts + 1) } : State).settleAttn

/-! ## The whole machine -/

/-- Every step keeps each volume's condition, state counts, stale counts and repair-needed count in agreement with its
extents and healths (R2, R3, R15, R16, R23). -/
def Obligations.StepKeepsCountsAgreeing : Prop :=
  ∀ s t : State, CountsAgree s → step s = .next t → CountsAgree t

/-- Every step leaves both ATTN lines at what R144 gives (R128, R129, R144; OFF: log entry 19), and neither PFAIL nor RESETN
asserted in RUN and STARTING (R162). -/
def Obligations.StepKeepsPinsSettled : Prop :=
  ∀ s t : State, step s = .next t → (AttnAgrees s → AttnAgrees t) ∧ (PinsReleased s → PinsReleased t)

/-- Every step keeps both event units within their bounds (R134, R136, R138, R141), and keeps a port whose session is not
OPEN without records, stack or deadline (R127, R135, R145). -/
def Obligations.StepKeepsQueuesBounded : Prop :=
  ∀ s t : State, step s = .next t →
    (QueuesBounded s → QueuesBounded t) ∧ (ClosedPortsIdle s → ClosedPortsIdle t)


/-- Every step keeps open intents of one volume without a common block (R45, R48), and keeps the ports' intent counts, the
volumes' open-intent counts and the extents' open counts in agreement with the intent table (R12, R17, R34, R45). -/
def Obligations.StepKeepsIntentsAgreeing : Prop :=
  ∀ s t : State, step s = .next t →
    (IntentsDisjoint s → IntentsDisjoint t) ∧ (OpenCountsAgree s → OpenCountsAgree t)

/-- Every step keeps the assignment table, the ports' assignment counts and the extents' links in agreement (R35, R85,
R164). -/
def Obligations.StepKeepsAssignmentsAgreeing : Prop :=
  ∀ s t : State, AssignmentsAgree s → step s = .next t → AssignmentsAgree t

/-- Every step keeps the runs of the present volumes disjoint and inside the extent store (R6, R7), the arrival order naming
each WAITING slot once, with its volume present (R12, R70, R71), and the sizes of the tables (Table 0-1). -/
def Obligations.StepKeepsTablesAgreeing : Prop :=
  ∀ s t : State, step s = .next t →
    (RunsDisjoint s → RunsDisjoint t) ∧ (ArrivalAgrees s → ArrivalAgrees t) ∧ (TableSizes s → TableSizes t)

/-- Every invariant above holds right after reset (R165, R167, Table 10-2; that reset is the completion of a cold start:
log entry 1). -/
def Obligations.ResetMeetsInvariants : Prop :=
  CountsAgree State.reset ∧ AttnAgrees State.reset ∧ PinsReleased State.reset ∧ QueuesBounded State.reset
    ∧ ClosedPortsIdle State.reset ∧ RunsDisjoint State.reset ∧ IntentsDisjoint State.reset
    ∧ OpenCountsAgree State.reset ∧ AssignmentsAgree State.reset ∧ ArrivalAgrees State.reset ∧ TableSizes State.reset

/-- While a volume is present, no step changes its block count, extent shift, extent count or slot base (R1, R6). -/
def Obligations.GeometryIsFixedWhilePresent : Prop :=
  ∀ (s t : State) (v : Nat) (x y : Volume), step s = .next t → s.volume? v = some x → t.volume? v = some y →
    y.geometry = x.geometry


/-- Only OPEN_SESSION and a cold start change an epoch: any other command leaves both ports' epochs, and OPEN_SESSION leaves
the peer's (R119, R120, R166). And a good frame on one port leaves the other port's session, link state, PRST input,
burst and SDO as they were (R148, R159). -/
def Obligations.PortsKeepTheirOwnSessions : Prop :=
  (∀ (c : Instr) (s t : State) (p : Port), exec c s = .next t →
    (∀ r, c = .openSession r → r.port ≠ p) → (∀ pf a b, c = .start pf a b → s.retentionValid = true) →
    (t.port p).session.epoch = (s.port p).session.epoch)
  ∧ (∀ (c : Instr) (s t : State) (code : Byte) (r : Request), c.frame? = some (code, r) → exec c s = .next t →
    let q := peer r.port
    (t.port q).session = (s.port q).session ∧ (t.port q).link = (s.port q).link
      ∧ (t.port q).prst = (s.port q).prst ∧ (t.port q).burst = (s.port q).burst ∧ (t.port q).sdo = (s.port q).sdo)
end

