-- ==== Sys2Proof/Laws/State.lean ====
section
/-! SUPPORT. What each named update of the state does to each field, one lemma per field per update: no later proof unfolds a
record update. -/

namespace Sys2Proof.Machine

/-! ## Ports -/

@[simp] theorem peer_p0 : peer .p0 = .p1 := rfl
@[simp] theorem peer_p1 : peer .p1 = .p0 := rfl
@[simp] theorem peer_ne (p : Port) : peer p ≠ p := by cases p <;> decide
@[simp] theorem ne_peer (p : Port) : p ≠ peer p := by cases p <;> decide
@[simp] theorem peer_peer (p : Port) : peer (peer p) = p := by cases p <;> rfl
theorem eq_peer_of_ne {p q : Port} (h : q ≠ p) : q = peer p := by cases p <;> cases q <;> simp_all
@[simp] theorem other_ne (c : Copy) : other c ≠ c := by cases c <;> decide
@[simp] theorem ne_other (c : Copy) : c ≠ other c := by cases c <;> decide
@[simp] theorem other_other (c : Copy) : other (other c) = c := by cases c <;> rfl

theorem port_p0 (s : State) : s.port .p0 = s.port0 := rfl
theorem port_p1 (s : State) : s.port .p1 = s.port1 := rfl

@[simp] theorem State.port_setPort_self (s : State) (p : Port) (r : PortRecord) : (s.setPort p r).port p = r := by
  cases p <;> rfl

@[simp] theorem State.port_setPort_peer (s : State) (p : Port) (r : PortRecord) :
    (s.setPort p r).port (peer p) = s.port (peer p) := by cases p <;> rfl

@[simp] theorem State.port_setPort_peer' (s : State) (p : Port) (r : PortRecord) :
    (s.setPort (peer p) r).port p = s.port p := by cases p <;> rfl

theorem State.port_setPort (s : State) (p q : Port) (r : PortRecord) :
    (s.setPort p r).port q = if q = p then r else s.port q := by cases p <;> cases q <;> rfl

@[simp] theorem State.setPort_setPort (s : State) (p : Port) (r r' : PortRecord) :
    (s.setPort p r).setPort p r' = s.setPort p r' := by cases p <;> rfl

@[simp] theorem State.setPort_port (s : State) (p : Port) : s.setPort p (s.port p) = s := by cases p <;> rfl

theorem State.setPort_comm (s : State) (p : Port) (r r' : PortRecord) :
    (s.setPort p r).setPort (peer p) r' = (s.setPort (peer p) r').setPort p r := by cases p <;> rfl

/-- A state is its ports and the rest: two states equal in both ports and in the state with port 0's and port 1's records
put back are equal. -/
theorem State.ext_port {s t : State} (h : ∀ p, s.port p = t.port p)
    (hrest : { s with port0 := t.port0, port1 := t.port1 } = t) : s = t := by
  have h0 := h .p0
  have h1 := h .p1
  simp only [State.port] at h0 h1
  rw [← hrest, ← h0, ← h1]

@[simp] theorem State.setPort_volumes (s : State) (p : Port) (r : PortRecord) : (s.setPort p r).volumes = s.volumes := by
  cases p <;> rfl
@[simp] theorem State.setPort_intents (s : State) (p : Port) (r : PortRecord) : (s.setPort p r).intents = s.intents := by
  cases p <;> rfl
@[simp] theorem State.setPort_waiters (s : State) (p : Port) (r : PortRecord) : (s.setPort p r).waiters = s.waiters := by
  cases p <;> rfl
@[simp] theorem State.setPort_arrival (s : State) (p : Port) (r : PortRecord) : (s.setPort p r).arrival = s.arrival := by
  cases p <;> rfl
@[simp] theorem State.setPort_assignments (s : State) (p : Port) (r : PortRecord) : (s.setPort p r).assignments = s.assignments := by
  cases p <;> rfl
@[simp] theorem State.setPort_pointer (s : State) (p : Port) (r : PortRecord) : (s.setPort p r).pointer = s.pointer := by
  cases p <;> rfl
@[simp] theorem State.setPort_supply (s : State) (p : Port) (r : PortRecord) : (s.setPort p r).supply = s.supply := by
  cases p <;> rfl
@[simp] theorem State.setPort_startKind (s : State) (p : Port) (r : PortRecord) : (s.setPort p r).startKind = s.startKind := by
  cases p <;> rfl
@[simp] theorem State.setPort_startDecided (s : State) (p : Port) (r : PortRecord) : (s.setPort p r).startDecided = s.startDecided := by
  cases p <;> rfl
@[simp] theorem State.setPort_warmStarts (s : State) (p : Port) (r : PortRecord) : (s.setPort p r).warmStarts = s.warmStarts := by
  cases p <;> rfl
@[simp] theorem State.setPort_retentionValid (s : State) (p : Port) (r : PortRecord) : (s.setPort p r).retentionValid = s.retentionValid := by
  cases p <;> rfl
@[simp] theorem State.setPort_pfail (s : State) (p : Port) (r : PortRecord) : (s.setPort p r).pfail = s.pfail := by
  cases p <;> rfl
@[simp] theorem State.setPort_resetn (s : State) (p : Port) (r : PortRecord) : (s.setPort p r).resetn = s.resetn := by
  cases p <;> rfl
@[simp] theorem State.setPort_ticks (s : State) (p : Port) (r : PortRecord) : (s.setPort p r).ticks = s.ticks := by
  cases p <;> rfl
@[simp] theorem State.setPort_phase (s : State) (p : Port) (r : PortRecord) : (s.setPort p r).phase = s.phase := by
  cases p <;> rfl
@[simp] theorem State.setPort_refclk (s : State) (p : Port) (r : PortRecord) : (s.setPort p r).refclk = s.refclk := by
  cases p <;> rfl
@[simp] theorem State.setPort_choices (s : State) (p : Port) (r : PortRecord) : (s.setPort p r).choices = s.choices := by
  cases p <;> rfl
@[simp] theorem State.setPort_pending (s : State) (p : Port) (r : PortRecord) : (s.setPort p r).pending = s.pending := by
  cases p <;> rfl

/-! ## setSession -/

@[simp] theorem State.setSession_port_self (s : State) (p : Port) (x : Session) :
    (s.setSession p x).port p = { s.port p with session := x } := by cases p <;> rfl
@[simp] theorem State.setSession_port_peer (s : State) (p : Port) (x : Session) :
    (s.setSession p x).port (peer p) = s.port (peer p) := by cases p <;> rfl
@[simp] theorem State.setSession_port_peer' (s : State) (p : Port) (x : Session) :
    (s.setSession (peer p) x).port p = s.port p := by cases p <;> rfl
@[simp] theorem State.setSession_port_events (s : State) (p q : Port) (x : Session) :
    ((s.setSession p x).port q).events = (s.port q).events := by cases p <;> cases q <;> rfl
@[simp] theorem State.setSession_port_link (s : State) (p q : Port) (x : Session) :
    ((s.setSession p x).port q).link = (s.port q).link := by cases p <;> cases q <;> rfl
@[simp] theorem State.setSession_port_intents (s : State) (p q : Port) (x : Session) :
    ((s.setSession p x).port q).intents = (s.port q).intents := by cases p <;> cases q <;> rfl
@[simp] theorem State.setSession_port_assignments (s : State) (p q : Port) (x : Session) :
    ((s.setSession p x).port q).assignments = (s.port q).assignments := by cases p <;> cases q <;> rfl
@[simp] theorem State.setSession_port_prst (s : State) (p q : Port) (x : Session) :
    ((s.setSession p x).port q).prst = (s.port q).prst := by cases p <;> cases q <;> rfl
@[simp] theorem State.setSession_port_attn (s : State) (p q : Port) (x : Session) :
    ((s.setSession p x).port q).attn = (s.port q).attn := by cases p <;> cases q <;> rfl
@[simp] theorem State.setSession_port_burst (s : State) (p q : Port) (x : Session) :
    ((s.setSession p x).port q).burst = (s.port q).burst := by cases p <;> cases q <;> rfl
@[simp] theorem State.setSession_port_sdo (s : State) (p q : Port) (x : Session) :
    ((s.setSession p x).port q).sdo = (s.port q).sdo := by cases p <;> cases q <;> rfl
@[simp] theorem State.setSession_volumes (s : State) (p : Port) (x : Session) : (s.setSession p x).volumes = s.volumes := by
  cases p <;> rfl
@[simp] theorem State.setSession_intents (s : State) (p : Port) (x : Session) : (s.setSession p x).intents = s.intents := by
  cases p <;> rfl
@[simp] theorem State.setSession_waiters (s : State) (p : Port) (x : Session) : (s.setSession p x).waiters = s.waiters := by
  cases p <;> rfl
@[simp] theorem State.setSession_arrival (s : State) (p : Port) (x : Session) : (s.setSession p x).arrival = s.arrival := by
  cases p <;> rfl
@[simp] theorem State.setSession_assignments (s : State) (p : Port) (x : Session) : (s.setSession p x).assignments = s.assignments := by
  cases p <;> rfl
@[simp] theorem State.setSession_pointer (s : State) (p : Port) (x : Session) : (s.setSession p x).pointer = s.pointer := by
  cases p <;> rfl
@[simp] theorem State.setSession_supply (s : State) (p : Port) (x : Session) : (s.setSession p x).supply = s.supply := by
  cases p <;> rfl
@[simp] theorem State.setSession_startKind (s : State) (p : Port) (x : Session) : (s.setSession p x).startKind = s.startKind := by
  cases p <;> rfl
@[simp] theorem State.setSession_startDecided (s : State) (p : Port) (x : Session) : (s.setSession p x).startDecided = s.startDecided := by
  cases p <;> rfl
@[simp] theorem State.setSession_warmStarts (s : State) (p : Port) (x : Session) : (s.setSession p x).warmStarts = s.warmStarts := by
  cases p <;> rfl
@[simp] theorem State.setSession_retentionValid (s : State) (p : Port) (x : Session) : (s.setSession p x).retentionValid = s.retentionValid := by
  cases p <;> rfl
@[simp] theorem State.setSession_pfail (s : State) (p : Port) (x : Session) : (s.setSession p x).pfail = s.pfail := by
  cases p <;> rfl
@[simp] theorem State.setSession_resetn (s : State) (p : Port) (x : Session) : (s.setSession p x).resetn = s.resetn := by
  cases p <;> rfl
@[simp] theorem State.setSession_ticks (s : State) (p : Port) (x : Session) : (s.setSession p x).ticks = s.ticks := by
  cases p <;> rfl
@[simp] theorem State.setSession_phase (s : State) (p : Port) (x : Session) : (s.setSession p x).phase = s.phase := by
  cases p <;> rfl
@[simp] theorem State.setSession_refclk (s : State) (p : Port) (x : Session) : (s.setSession p x).refclk = s.refclk := by
  cases p <;> rfl
@[simp] theorem State.setSession_choices (s : State) (p : Port) (x : Session) : (s.setSession p x).choices = s.choices := by
  cases p <;> rfl
@[simp] theorem State.setSession_pending (s : State) (p : Port) (x : Session) : (s.setSession p x).pending = s.pending := by
  cases p <;> rfl

/-! ## setEvents -/

@[simp] theorem State.setEvents_port_self (s : State) (p : Port) (x : EventUnit) :
    (s.setEvents p x).port p = { s.port p with events := x } := by cases p <;> rfl
@[simp] theorem State.setEvents_port_peer (s : State) (p : Port) (x : EventUnit) :
    (s.setEvents p x).port (peer p) = s.port (peer p) := by cases p <;> rfl
@[simp] theorem State.setEvents_port_peer' (s : State) (p : Port) (x : EventUnit) :
    (s.setEvents (peer p) x).port p = s.port p := by cases p <;> rfl
@[simp] theorem State.setEvents_port_session (s : State) (p q : Port) (x : EventUnit) :
    ((s.setEvents p x).port q).session = (s.port q).session := by cases p <;> cases q <;> rfl
@[simp] theorem State.setEvents_port_link (s : State) (p q : Port) (x : EventUnit) :
    ((s.setEvents p x).port q).link = (s.port q).link := by cases p <;> cases q <;> rfl
@[simp] theorem State.setEvents_port_intents (s : State) (p q : Port) (x : EventUnit) :
    ((s.setEvents p x).port q).intents = (s.port q).intents := by cases p <;> cases q <;> rfl
@[simp] theorem State.setEvents_port_assignments (s : State) (p q : Port) (x : EventUnit) :
    ((s.setEvents p x).port q).assignments = (s.port q).assignments := by cases p <;> cases q <;> rfl
@[simp] theorem State.setEvents_port_prst (s : State) (p q : Port) (x : EventUnit) :
    ((s.setEvents p x).port q).prst = (s.port q).prst := by cases p <;> cases q <;> rfl
@[simp] theorem State.setEvents_port_attn (s : State) (p q : Port) (x : EventUnit) :
    ((s.setEvents p x).port q).attn = (s.port q).attn := by cases p <;> cases q <;> rfl
@[simp] theorem State.setEvents_port_burst (s : State) (p q : Port) (x : EventUnit) :
    ((s.setEvents p x).port q).burst = (s.port q).burst := by cases p <;> cases q <;> rfl
@[simp] theorem State.setEvents_port_sdo (s : State) (p q : Port) (x : EventUnit) :
    ((s.setEvents p x).port q).sdo = (s.port q).sdo := by cases p <;> cases q <;> rfl
@[simp] theorem State.setEvents_volumes (s : State) (p : Port) (x : EventUnit) : (s.setEvents p x).volumes = s.volumes := by
  cases p <;> rfl
@[simp] theorem State.setEvents_intents (s : State) (p : Port) (x : EventUnit) : (s.setEvents p x).intents = s.intents := by
  cases p <;> rfl
@[simp] theorem State.setEvents_waiters (s : State) (p : Port) (x : EventUnit) : (s.setEvents p x).waiters = s.waiters := by
  cases p <;> rfl
@[simp] theorem State.setEvents_arrival (s : State) (p : Port) (x : EventUnit) : (s.setEvents p x).arrival = s.arrival := by
  cases p <;> rfl
@[simp] theorem State.setEvents_assignments (s : State) (p : Port) (x : EventUnit) : (s.setEvents p x).assignments = s.assignments := by
  cases p <;> rfl
@[simp] theorem State.setEvents_pointer (s : State) (p : Port) (x : EventUnit) : (s.setEvents p x).pointer = s.pointer := by
  cases p <;> rfl
@[simp] theorem State.setEvents_supply (s : State) (p : Port) (x : EventUnit) : (s.setEvents p x).supply = s.supply := by
  cases p <;> rfl
@[simp] theorem State.setEvents_startKind (s : State) (p : Port) (x : EventUnit) : (s.setEvents p x).startKind = s.startKind := by
  cases p <;> rfl
@[simp] theorem State.setEvents_startDecided (s : State) (p : Port) (x : EventUnit) : (s.setEvents p x).startDecided = s.startDecided := by
  cases p <;> rfl
@[simp] theorem State.setEvents_warmStarts (s : State) (p : Port) (x : EventUnit) : (s.setEvents p x).warmStarts = s.warmStarts := by
  cases p <;> rfl
@[simp] theorem State.setEvents_retentionValid (s : State) (p : Port) (x : EventUnit) : (s.setEvents p x).retentionValid = s.retentionValid := by
  cases p <;> rfl
@[simp] theorem State.setEvents_pfail (s : State) (p : Port) (x : EventUnit) : (s.setEvents p x).pfail = s.pfail := by
  cases p <;> rfl
@[simp] theorem State.setEvents_resetn (s : State) (p : Port) (x : EventUnit) : (s.setEvents p x).resetn = s.resetn := by
  cases p <;> rfl
@[simp] theorem State.setEvents_ticks (s : State) (p : Port) (x : EventUnit) : (s.setEvents p x).ticks = s.ticks := by
  cases p <;> rfl
@[simp] theorem State.setEvents_phase (s : State) (p : Port) (x : EventUnit) : (s.setEvents p x).phase = s.phase := by
  cases p <;> rfl
@[simp] theorem State.setEvents_refclk (s : State) (p : Port) (x : EventUnit) : (s.setEvents p x).refclk = s.refclk := by
  cases p <;> rfl
@[simp] theorem State.setEvents_choices (s : State) (p : Port) (x : EventUnit) : (s.setEvents p x).choices = s.choices := by
  cases p <;> rfl
@[simp] theorem State.setEvents_pending (s : State) (p : Port) (x : EventUnit) : (s.setEvents p x).pending = s.pending := by
  cases p <;> rfl

/-! ## setLink -/

@[simp] theorem State.setLink_port_self (s : State) (p : Port) (x : Link) :
    (s.setLink p x).port p = { s.port p with link := x } := by cases p <;> rfl
@[simp] theorem State.setLink_port_peer (s : State) (p : Port) (x : Link) :
    (s.setLink p x).port (peer p) = s.port (peer p) := by cases p <;> rfl
@[simp] theorem State.setLink_port_peer' (s : State) (p : Port) (x : Link) :
    (s.setLink (peer p) x).port p = s.port p := by cases p <;> rfl
@[simp] theorem State.setLink_port_session (s : State) (p q : Port) (x : Link) :
    ((s.setLink p x).port q).session = (s.port q).session := by cases p <;> cases q <;> rfl
@[simp] theorem State.setLink_port_events (s : State) (p q : Port) (x : Link) :
    ((s.setLink p x).port q).events = (s.port q).events := by cases p <;> cases q <;> rfl
@[simp] theorem State.setLink_port_intents (s : State) (p q : Port) (x : Link) :
    ((s.setLink p x).port q).intents = (s.port q).intents := by cases p <;> cases q <;> rfl
@[simp] theorem State.setLink_port_assignments (s : State) (p q : Port) (x : Link) :
    ((s.setLink p x).port q).assignments = (s.port q).assignments := by cases p <;> cases q <;> rfl
@[simp] theorem State.setLink_port_prst (s : State) (p q : Port) (x : Link) :
    ((s.setLink p x).port q).prst = (s.port q).prst := by cases p <;> cases q <;> rfl
@[simp] theorem State.setLink_port_attn (s : State) (p q : Port) (x : Link) :
    ((s.setLink p x).port q).attn = (s.port q).attn := by cases p <;> cases q <;> rfl
@[simp] theorem State.setLink_port_burst (s : State) (p q : Port) (x : Link) :
    ((s.setLink p x).port q).burst = (s.port q).burst := by cases p <;> cases q <;> rfl
@[simp] theorem State.setLink_port_sdo (s : State) (p q : Port) (x : Link) :
    ((s.setLink p x).port q).sdo = (s.port q).sdo := by cases p <;> cases q <;> rfl
@[simp] theorem State.setLink_volumes (s : State) (p : Port) (x : Link) : (s.setLink p x).volumes = s.volumes := by
  cases p <;> rfl
@[simp] theorem State.setLink_intents (s : State) (p : Port) (x : Link) : (s.setLink p x).intents = s.intents := by
  cases p <;> rfl
@[simp] theorem State.setLink_waiters (s : State) (p : Port) (x : Link) : (s.setLink p x).waiters = s.waiters := by
  cases p <;> rfl
@[simp] theorem State.setLink_arrival (s : State) (p : Port) (x : Link) : (s.setLink p x).arrival = s.arrival := by
  cases p <;> rfl
@[simp] theorem State.setLink_assignments (s : State) (p : Port) (x : Link) : (s.setLink p x).assignments = s.assignments := by
  cases p <;> rfl
@[simp] theorem State.setLink_pointer (s : State) (p : Port) (x : Link) : (s.setLink p x).pointer = s.pointer := by
  cases p <;> rfl
@[simp] theorem State.setLink_supply (s : State) (p : Port) (x : Link) : (s.setLink p x).supply = s.supply := by
  cases p <;> rfl
@[simp] theorem State.setLink_startKind (s : State) (p : Port) (x : Link) : (s.setLink p x).startKind = s.startKind := by
  cases p <;> rfl
@[simp] theorem State.setLink_startDecided (s : State) (p : Port) (x : Link) : (s.setLink p x).startDecided = s.startDecided := by
  cases p <;> rfl
@[simp] theorem State.setLink_warmStarts (s : State) (p : Port) (x : Link) : (s.setLink p x).warmStarts = s.warmStarts := by
  cases p <;> rfl
@[simp] theorem State.setLink_retentionValid (s : State) (p : Port) (x : Link) : (s.setLink p x).retentionValid = s.retentionValid := by
  cases p <;> rfl
@[simp] theorem State.setLink_pfail (s : State) (p : Port) (x : Link) : (s.setLink p x).pfail = s.pfail := by
  cases p <;> rfl
@[simp] theorem State.setLink_resetn (s : State) (p : Port) (x : Link) : (s.setLink p x).resetn = s.resetn := by
  cases p <;> rfl
@[simp] theorem State.setLink_ticks (s : State) (p : Port) (x : Link) : (s.setLink p x).ticks = s.ticks := by
  cases p <;> rfl
@[simp] theorem State.setLink_phase (s : State) (p : Port) (x : Link) : (s.setLink p x).phase = s.phase := by
  cases p <;> rfl
@[simp] theorem State.setLink_refclk (s : State) (p : Port) (x : Link) : (s.setLink p x).refclk = s.refclk := by
  cases p <;> rfl
@[simp] theorem State.setLink_choices (s : State) (p : Port) (x : Link) : (s.setLink p x).choices = s.choices := by
  cases p <;> rfl
@[simp] theorem State.setLink_pending (s : State) (p : Port) (x : Link) : (s.setLink p x).pending = s.pending := by
  cases p <;> rfl

/-! ## setPrst -/

@[simp] theorem State.setPrst_port_self (s : State) (p : Port) (x : Bool) :
    (s.setPrst p x).port p = { s.port p with prst := x } := by cases p <;> rfl
@[simp] theorem State.setPrst_port_peer (s : State) (p : Port) (x : Bool) :
    (s.setPrst p x).port (peer p) = s.port (peer p) := by cases p <;> rfl
@[simp] theorem State.setPrst_port_peer' (s : State) (p : Port) (x : Bool) :
    (s.setPrst (peer p) x).port p = s.port p := by cases p <;> rfl
@[simp] theorem State.setPrst_port_session (s : State) (p q : Port) (x : Bool) :
    ((s.setPrst p x).port q).session = (s.port q).session := by cases p <;> cases q <;> rfl
@[simp] theorem State.setPrst_port_events (s : State) (p q : Port) (x : Bool) :
    ((s.setPrst p x).port q).events = (s.port q).events := by cases p <;> cases q <;> rfl
@[simp] theorem State.setPrst_port_link (s : State) (p q : Port) (x : Bool) :
    ((s.setPrst p x).port q).link = (s.port q).link := by cases p <;> cases q <;> rfl
@[simp] theorem State.setPrst_port_intents (s : State) (p q : Port) (x : Bool) :
    ((s.setPrst p x).port q).intents = (s.port q).intents := by cases p <;> cases q <;> rfl
@[simp] theorem State.setPrst_port_assignments (s : State) (p q : Port) (x : Bool) :
    ((s.setPrst p x).port q).assignments = (s.port q).assignments := by cases p <;> cases q <;> rfl
@[simp] theorem State.setPrst_port_attn (s : State) (p q : Port) (x : Bool) :
    ((s.setPrst p x).port q).attn = (s.port q).attn := by cases p <;> cases q <;> rfl
@[simp] theorem State.setPrst_port_burst (s : State) (p q : Port) (x : Bool) :
    ((s.setPrst p x).port q).burst = (s.port q).burst := by cases p <;> cases q <;> rfl
@[simp] theorem State.setPrst_port_sdo (s : State) (p q : Port) (x : Bool) :
    ((s.setPrst p x).port q).sdo = (s.port q).sdo := by cases p <;> cases q <;> rfl
@[simp] theorem State.setPrst_volumes (s : State) (p : Port) (x : Bool) : (s.setPrst p x).volumes = s.volumes := by
  cases p <;> rfl
@[simp] theorem State.setPrst_intents (s : State) (p : Port) (x : Bool) : (s.setPrst p x).intents = s.intents := by
  cases p <;> rfl
@[simp] theorem State.setPrst_waiters (s : State) (p : Port) (x : Bool) : (s.setPrst p x).waiters = s.waiters := by
  cases p <;> rfl
@[simp] theorem State.setPrst_arrival (s : State) (p : Port) (x : Bool) : (s.setPrst p x).arrival = s.arrival := by
  cases p <;> rfl
@[simp] theorem State.setPrst_assignments (s : State) (p : Port) (x : Bool) : (s.setPrst p x).assignments = s.assignments := by
  cases p <;> rfl
@[simp] theorem State.setPrst_pointer (s : State) (p : Port) (x : Bool) : (s.setPrst p x).pointer = s.pointer := by
  cases p <;> rfl
@[simp] theorem State.setPrst_supply (s : State) (p : Port) (x : Bool) : (s.setPrst p x).supply = s.supply := by
  cases p <;> rfl
@[simp] theorem State.setPrst_startKind (s : State) (p : Port) (x : Bool) : (s.setPrst p x).startKind = s.startKind := by
  cases p <;> rfl
@[simp] theorem State.setPrst_startDecided (s : State) (p : Port) (x : Bool) : (s.setPrst p x).startDecided = s.startDecided := by
  cases p <;> rfl
@[simp] theorem State.setPrst_warmStarts (s : State) (p : Port) (x : Bool) : (s.setPrst p x).warmStarts = s.warmStarts := by
  cases p <;> rfl
@[simp] theorem State.setPrst_retentionValid (s : State) (p : Port) (x : Bool) : (s.setPrst p x).retentionValid = s.retentionValid := by
  cases p <;> rfl
@[simp] theorem State.setPrst_pfail (s : State) (p : Port) (x : Bool) : (s.setPrst p x).pfail = s.pfail := by
  cases p <;> rfl
@[simp] theorem State.setPrst_resetn (s : State) (p : Port) (x : Bool) : (s.setPrst p x).resetn = s.resetn := by
  cases p <;> rfl
@[simp] theorem State.setPrst_ticks (s : State) (p : Port) (x : Bool) : (s.setPrst p x).ticks = s.ticks := by
  cases p <;> rfl
@[simp] theorem State.setPrst_phase (s : State) (p : Port) (x : Bool) : (s.setPrst p x).phase = s.phase := by
  cases p <;> rfl
@[simp] theorem State.setPrst_refclk (s : State) (p : Port) (x : Bool) : (s.setPrst p x).refclk = s.refclk := by
  cases p <;> rfl
@[simp] theorem State.setPrst_choices (s : State) (p : Port) (x : Bool) : (s.setPrst p x).choices = s.choices := by
  cases p <;> rfl
@[simp] theorem State.setPrst_pending (s : State) (p : Port) (x : Bool) : (s.setPrst p x).pending = s.pending := by
  cases p <;> rfl

/-! ## setBurst -/

@[simp] theorem State.setBurst_port_self (s : State) (p : Port) (x : Burst) :
    (s.setBurst p x).port p = { s.port p with burst := x } := by cases p <;> rfl
@[simp] theorem State.setBurst_port_peer (s : State) (p : Port) (x : Burst) :
    (s.setBurst p x).port (peer p) = s.port (peer p) := by cases p <;> rfl
@[simp] theorem State.setBurst_port_peer' (s : State) (p : Port) (x : Burst) :
    (s.setBurst (peer p) x).port p = s.port p := by cases p <;> rfl
@[simp] theorem State.setBurst_port_session (s : State) (p q : Port) (x : Burst) :
    ((s.setBurst p x).port q).session = (s.port q).session := by cases p <;> cases q <;> rfl
@[simp] theorem State.setBurst_port_events (s : State) (p q : Port) (x : Burst) :
    ((s.setBurst p x).port q).events = (s.port q).events := by cases p <;> cases q <;> rfl
@[simp] theorem State.setBurst_port_link (s : State) (p q : Port) (x : Burst) :
    ((s.setBurst p x).port q).link = (s.port q).link := by cases p <;> cases q <;> rfl
@[simp] theorem State.setBurst_port_intents (s : State) (p q : Port) (x : Burst) :
    ((s.setBurst p x).port q).intents = (s.port q).intents := by cases p <;> cases q <;> rfl
@[simp] theorem State.setBurst_port_assignments (s : State) (p q : Port) (x : Burst) :
    ((s.setBurst p x).port q).assignments = (s.port q).assignments := by cases p <;> cases q <;> rfl
@[simp] theorem State.setBurst_port_prst (s : State) (p q : Port) (x : Burst) :
    ((s.setBurst p x).port q).prst = (s.port q).prst := by cases p <;> cases q <;> rfl
@[simp] theorem State.setBurst_port_attn (s : State) (p q : Port) (x : Burst) :
    ((s.setBurst p x).port q).attn = (s.port q).attn := by cases p <;> cases q <;> rfl
@[simp] theorem State.setBurst_port_sdo (s : State) (p q : Port) (x : Burst) :
    ((s.setBurst p x).port q).sdo = (s.port q).sdo := by cases p <;> cases q <;> rfl
@[simp] theorem State.setBurst_volumes (s : State) (p : Port) (x : Burst) : (s.setBurst p x).volumes = s.volumes := by
  cases p <;> rfl
@[simp] theorem State.setBurst_intents (s : State) (p : Port) (x : Burst) : (s.setBurst p x).intents = s.intents := by
  cases p <;> rfl
@[simp] theorem State.setBurst_waiters (s : State) (p : Port) (x : Burst) : (s.setBurst p x).waiters = s.waiters := by
  cases p <;> rfl
@[simp] theorem State.setBurst_arrival (s : State) (p : Port) (x : Burst) : (s.setBurst p x).arrival = s.arrival := by
  cases p <;> rfl
@[simp] theorem State.setBurst_assignments (s : State) (p : Port) (x : Burst) : (s.setBurst p x).assignments = s.assignments := by
  cases p <;> rfl
@[simp] theorem State.setBurst_pointer (s : State) (p : Port) (x : Burst) : (s.setBurst p x).pointer = s.pointer := by
  cases p <;> rfl
@[simp] theorem State.setBurst_supply (s : State) (p : Port) (x : Burst) : (s.setBurst p x).supply = s.supply := by
  cases p <;> rfl
@[simp] theorem State.setBurst_startKind (s : State) (p : Port) (x : Burst) : (s.setBurst p x).startKind = s.startKind := by
  cases p <;> rfl
@[simp] theorem State.setBurst_startDecided (s : State) (p : Port) (x : Burst) : (s.setBurst p x).startDecided = s.startDecided := by
  cases p <;> rfl
@[simp] theorem State.setBurst_warmStarts (s : State) (p : Port) (x : Burst) : (s.setBurst p x).warmStarts = s.warmStarts := by
  cases p <;> rfl
@[simp] theorem State.setBurst_retentionValid (s : State) (p : Port) (x : Burst) : (s.setBurst p x).retentionValid = s.retentionValid := by
  cases p <;> rfl
@[simp] theorem State.setBurst_pfail (s : State) (p : Port) (x : Burst) : (s.setBurst p x).pfail = s.pfail := by
  cases p <;> rfl
@[simp] theorem State.setBurst_resetn (s : State) (p : Port) (x : Burst) : (s.setBurst p x).resetn = s.resetn := by
  cases p <;> rfl
@[simp] theorem State.setBurst_ticks (s : State) (p : Port) (x : Burst) : (s.setBurst p x).ticks = s.ticks := by
  cases p <;> rfl
@[simp] theorem State.setBurst_phase (s : State) (p : Port) (x : Burst) : (s.setBurst p x).phase = s.phase := by
  cases p <;> rfl
@[simp] theorem State.setBurst_refclk (s : State) (p : Port) (x : Burst) : (s.setBurst p x).refclk = s.refclk := by
  cases p <;> rfl
@[simp] theorem State.setBurst_choices (s : State) (p : Port) (x : Burst) : (s.setBurst p x).choices = s.choices := by
  cases p <;> rfl
@[simp] theorem State.setBurst_pending (s : State) (p : Port) (x : Burst) : (s.setBurst p x).pending = s.pending := by
  cases p <;> rfl

/-! ## setAttn -/

@[simp] theorem State.setAttn_port_self (s : State) (p : Port) (x : Bool) :
    (s.setAttn p x).port p = { s.port p with attn := x } := by cases p <;> rfl
@[simp] theorem State.setAttn_port_peer (s : State) (p : Port) (x : Bool) :
    (s.setAttn p x).port (peer p) = s.port (peer p) := by cases p <;> rfl
@[simp] theorem State.setAttn_port_peer' (s : State) (p : Port) (x : Bool) :
    (s.setAttn (peer p) x).port p = s.port p := by cases p <;> rfl
@[simp] theorem State.setAttn_port_session (s : State) (p q : Port) (x : Bool) :
    ((s.setAttn p x).port q).session = (s.port q).session := by cases p <;> cases q <;> rfl
@[simp] theorem State.setAttn_port_events (s : State) (p q : Port) (x : Bool) :
    ((s.setAttn p x).port q).events = (s.port q).events := by cases p <;> cases q <;> rfl
@[simp] theorem State.setAttn_port_link (s : State) (p q : Port) (x : Bool) :
    ((s.setAttn p x).port q).link = (s.port q).link := by cases p <;> cases q <;> rfl
@[simp] theorem State.setAttn_port_intents (s : State) (p q : Port) (x : Bool) :
    ((s.setAttn p x).port q).intents = (s.port q).intents := by cases p <;> cases q <;> rfl
@[simp] theorem State.setAttn_port_assignments (s : State) (p q : Port) (x : Bool) :
    ((s.setAttn p x).port q).assignments = (s.port q).assignments := by cases p <;> cases q <;> rfl
@[simp] theorem State.setAttn_port_prst (s : State) (p q : Port) (x : Bool) :
    ((s.setAttn p x).port q).prst = (s.port q).prst := by cases p <;> cases q <;> rfl
@[simp] theorem State.setAttn_port_burst (s : State) (p q : Port) (x : Bool) :
    ((s.setAttn p x).port q).burst = (s.port q).burst := by cases p <;> cases q <;> rfl
@[simp] theorem State.setAttn_port_sdo (s : State) (p q : Port) (x : Bool) :
    ((s.setAttn p x).port q).sdo = (s.port q).sdo := by cases p <;> cases q <;> rfl
@[simp] theorem State.setAttn_volumes (s : State) (p : Port) (x : Bool) : (s.setAttn p x).volumes = s.volumes := by
  cases p <;> rfl
@[simp] theorem State.setAttn_intents (s : State) (p : Port) (x : Bool) : (s.setAttn p x).intents = s.intents := by
  cases p <;> rfl
@[simp] theorem State.setAttn_waiters (s : State) (p : Port) (x : Bool) : (s.setAttn p x).waiters = s.waiters := by
  cases p <;> rfl
@[simp] theorem State.setAttn_arrival (s : State) (p : Port) (x : Bool) : (s.setAttn p x).arrival = s.arrival := by
  cases p <;> rfl
@[simp] theorem State.setAttn_assignments (s : State) (p : Port) (x : Bool) : (s.setAttn p x).assignments = s.assignments := by
  cases p <;> rfl
@[simp] theorem State.setAttn_pointer (s : State) (p : Port) (x : Bool) : (s.setAttn p x).pointer = s.pointer := by
  cases p <;> rfl
@[simp] theorem State.setAttn_supply (s : State) (p : Port) (x : Bool) : (s.setAttn p x).supply = s.supply := by
  cases p <;> rfl
@[simp] theorem State.setAttn_startKind (s : State) (p : Port) (x : Bool) : (s.setAttn p x).startKind = s.startKind := by
  cases p <;> rfl
@[simp] theorem State.setAttn_startDecided (s : State) (p : Port) (x : Bool) : (s.setAttn p x).startDecided = s.startDecided := by
  cases p <;> rfl
@[simp] theorem State.setAttn_warmStarts (s : State) (p : Port) (x : Bool) : (s.setAttn p x).warmStarts = s.warmStarts := by
  cases p <;> rfl
@[simp] theorem State.setAttn_retentionValid (s : State) (p : Port) (x : Bool) : (s.setAttn p x).retentionValid = s.retentionValid := by
  cases p <;> rfl
@[simp] theorem State.setAttn_pfail (s : State) (p : Port) (x : Bool) : (s.setAttn p x).pfail = s.pfail := by
  cases p <;> rfl
@[simp] theorem State.setAttn_resetn (s : State) (p : Port) (x : Bool) : (s.setAttn p x).resetn = s.resetn := by
  cases p <;> rfl
@[simp] theorem State.setAttn_ticks (s : State) (p : Port) (x : Bool) : (s.setAttn p x).ticks = s.ticks := by
  cases p <;> rfl
@[simp] theorem State.setAttn_phase (s : State) (p : Port) (x : Bool) : (s.setAttn p x).phase = s.phase := by
  cases p <;> rfl
@[simp] theorem State.setAttn_refclk (s : State) (p : Port) (x : Bool) : (s.setAttn p x).refclk = s.refclk := by
  cases p <;> rfl
@[simp] theorem State.setAttn_choices (s : State) (p : Port) (x : Bool) : (s.setAttn p x).choices = s.choices := by
  cases p <;> rfl
@[simp] theorem State.setAttn_pending (s : State) (p : Port) (x : Bool) : (s.setAttn p x).pending = s.pending := by
  cases p <;> rfl

/-! ## setIntentCount -/

@[simp] theorem State.setIntentCount_port_self (s : State) (p : Port) (x : Nat) :
    (s.setIntentCount p x).port p = { s.port p with intents := x } := by cases p <;> rfl
@[simp] theorem State.setIntentCount_port_peer (s : State) (p : Port) (x : Nat) :
    (s.setIntentCount p x).port (peer p) = s.port (peer p) := by cases p <;> rfl
@[simp] theorem State.setIntentCount_port_peer' (s : State) (p : Port) (x : Nat) :
    (s.setIntentCount (peer p) x).port p = s.port p := by cases p <;> rfl
@[simp] theorem State.setIntentCount_port_session (s : State) (p q : Port) (x : Nat) :
    ((s.setIntentCount p x).port q).session = (s.port q).session := by cases p <;> cases q <;> rfl
@[simp] theorem State.setIntentCount_port_events (s : State) (p q : Port) (x : Nat) :
    ((s.setIntentCount p x).port q).events = (s.port q).events := by cases p <;> cases q <;> rfl
@[simp] theorem State.setIntentCount_port_link (s : State) (p q : Port) (x : Nat) :
    ((s.setIntentCount p x).port q).link = (s.port q).link := by cases p <;> cases q <;> rfl
@[simp] theorem State.setIntentCount_port_assignments (s : State) (p q : Port) (x : Nat) :
    ((s.setIntentCount p x).port q).assignments = (s.port q).assignments := by cases p <;> cases q <;> rfl
@[simp] theorem State.setIntentCount_port_prst (s : State) (p q : Port) (x : Nat) :
    ((s.setIntentCount p x).port q).prst = (s.port q).prst := by cases p <;> cases q <;> rfl
@[simp] theorem State.setIntentCount_port_attn (s : State) (p q : Port) (x : Nat) :
    ((s.setIntentCount p x).port q).attn = (s.port q).attn := by cases p <;> cases q <;> rfl
@[simp] theorem State.setIntentCount_port_burst (s : State) (p q : Port) (x : Nat) :
    ((s.setIntentCount p x).port q).burst = (s.port q).burst := by cases p <;> cases q <;> rfl
@[simp] theorem State.setIntentCount_port_sdo (s : State) (p q : Port) (x : Nat) :
    ((s.setIntentCount p x).port q).sdo = (s.port q).sdo := by cases p <;> cases q <;> rfl
@[simp] theorem State.setIntentCount_volumes (s : State) (p : Port) (x : Nat) : (s.setIntentCount p x).volumes = s.volumes := by
  cases p <;> rfl
@[simp] theorem State.setIntentCount_intents (s : State) (p : Port) (x : Nat) : (s.setIntentCount p x).intents = s.intents := by
  cases p <;> rfl
@[simp] theorem State.setIntentCount_waiters (s : State) (p : Port) (x : Nat) : (s.setIntentCount p x).waiters = s.waiters := by
  cases p <;> rfl
@[simp] theorem State.setIntentCount_arrival (s : State) (p : Port) (x : Nat) : (s.setIntentCount p x).arrival = s.arrival := by
  cases p <;> rfl
@[simp] theorem State.setIntentCount_assignments (s : State) (p : Port) (x : Nat) : (s.setIntentCount p x).assignments = s.assignments := by
  cases p <;> rfl
@[simp] theorem State.setIntentCount_pointer (s : State) (p : Port) (x : Nat) : (s.setIntentCount p x).pointer = s.pointer := by
  cases p <;> rfl
@[simp] theorem State.setIntentCount_supply (s : State) (p : Port) (x : Nat) : (s.setIntentCount p x).supply = s.supply := by
  cases p <;> rfl
@[simp] theorem State.setIntentCount_startKind (s : State) (p : Port) (x : Nat) : (s.setIntentCount p x).startKind = s.startKind := by
  cases p <;> rfl
@[simp] theorem State.setIntentCount_startDecided (s : State) (p : Port) (x : Nat) : (s.setIntentCount p x).startDecided = s.startDecided := by
  cases p <;> rfl
@[simp] theorem State.setIntentCount_warmStarts (s : State) (p : Port) (x : Nat) : (s.setIntentCount p x).warmStarts = s.warmStarts := by
  cases p <;> rfl
@[simp] theorem State.setIntentCount_retentionValid (s : State) (p : Port) (x : Nat) : (s.setIntentCount p x).retentionValid = s.retentionValid := by
  cases p <;> rfl
@[simp] theorem State.setIntentCount_pfail (s : State) (p : Port) (x : Nat) : (s.setIntentCount p x).pfail = s.pfail := by
  cases p <;> rfl
@[simp] theorem State.setIntentCount_resetn (s : State) (p : Port) (x : Nat) : (s.setIntentCount p x).resetn = s.resetn := by
  cases p <;> rfl
@[simp] theorem State.setIntentCount_ticks (s : State) (p : Port) (x : Nat) : (s.setIntentCount p x).ticks = s.ticks := by
  cases p <;> rfl
@[simp] theorem State.setIntentCount_phase (s : State) (p : Port) (x : Nat) : (s.setIntentCount p x).phase = s.phase := by
  cases p <;> rfl
@[simp] theorem State.setIntentCount_refclk (s : State) (p : Port) (x : Nat) : (s.setIntentCount p x).refclk = s.refclk := by
  cases p <;> rfl
@[simp] theorem State.setIntentCount_choices (s : State) (p : Port) (x : Nat) : (s.setIntentCount p x).choices = s.choices := by
  cases p <;> rfl
@[simp] theorem State.setIntentCount_pending (s : State) (p : Port) (x : Nat) : (s.setIntentCount p x).pending = s.pending := by
  cases p <;> rfl

/-! ## setAssignmentCount -/

@[simp] theorem State.setAssignmentCount_port_self (s : State) (p : Port) (x : Nat) :
    (s.setAssignmentCount p x).port p = { s.port p with assignments := x } := by cases p <;> rfl
@[simp] theorem State.setAssignmentCount_port_peer (s : State) (p : Port) (x : Nat) :
    (s.setAssignmentCount p x).port (peer p) = s.port (peer p) := by cases p <;> rfl
@[simp] theorem State.setAssignmentCount_port_peer' (s : State) (p : Port) (x : Nat) :
    (s.setAssignmentCount (peer p) x).port p = s.port p := by cases p <;> rfl
@[simp] theorem State.setAssignmentCount_port_session (s : State) (p q : Port) (x : Nat) :
    ((s.setAssignmentCount p x).port q).session = (s.port q).session := by cases p <;> cases q <;> rfl
@[simp] theorem State.setAssignmentCount_port_events (s : State) (p q : Port) (x : Nat) :
    ((s.setAssignmentCount p x).port q).events = (s.port q).events := by cases p <;> cases q <;> rfl
@[simp] theorem State.setAssignmentCount_port_link (s : State) (p q : Port) (x : Nat) :
    ((s.setAssignmentCount p x).port q).link = (s.port q).link := by cases p <;> cases q <;> rfl
@[simp] theorem State.setAssignmentCount_port_intents (s : State) (p q : Port) (x : Nat) :
    ((s.setAssignmentCount p x).port q).intents = (s.port q).intents := by cases p <;> cases q <;> rfl
@[simp] theorem State.setAssignmentCount_port_prst (s : State) (p q : Port) (x : Nat) :
    ((s.setAssignmentCount p x).port q).prst = (s.port q).prst := by cases p <;> cases q <;> rfl
@[simp] theorem State.setAssignmentCount_port_attn (s : State) (p q : Port) (x : Nat) :
    ((s.setAssignmentCount p x).port q).attn = (s.port q).attn := by cases p <;> cases q <;> rfl
@[simp] theorem State.setAssignmentCount_port_burst (s : State) (p q : Port) (x : Nat) :
    ((s.setAssignmentCount p x).port q).burst = (s.port q).burst := by cases p <;> cases q <;> rfl
@[simp] theorem State.setAssignmentCount_port_sdo (s : State) (p q : Port) (x : Nat) :
    ((s.setAssignmentCount p x).port q).sdo = (s.port q).sdo := by cases p <;> cases q <;> rfl
@[simp] theorem State.setAssignmentCount_volumes (s : State) (p : Port) (x : Nat) : (s.setAssignmentCount p x).volumes = s.volumes := by
  cases p <;> rfl
@[simp] theorem State.setAssignmentCount_intents (s : State) (p : Port) (x : Nat) : (s.setAssignmentCount p x).intents = s.intents := by
  cases p <;> rfl
@[simp] theorem State.setAssignmentCount_waiters (s : State) (p : Port) (x : Nat) : (s.setAssignmentCount p x).waiters = s.waiters := by
  cases p <;> rfl
@[simp] theorem State.setAssignmentCount_arrival (s : State) (p : Port) (x : Nat) : (s.setAssignmentCount p x).arrival = s.arrival := by
  cases p <;> rfl
@[simp] theorem State.setAssignmentCount_assignments (s : State) (p : Port) (x : Nat) : (s.setAssignmentCount p x).assignments = s.assignments := by
  cases p <;> rfl
@[simp] theorem State.setAssignmentCount_pointer (s : State) (p : Port) (x : Nat) : (s.setAssignmentCount p x).pointer = s.pointer := by
  cases p <;> rfl
@[simp] theorem State.setAssignmentCount_supply (s : State) (p : Port) (x : Nat) : (s.setAssignmentCount p x).supply = s.supply := by
  cases p <;> rfl
@[simp] theorem State.setAssignmentCount_startKind (s : State) (p : Port) (x : Nat) : (s.setAssignmentCount p x).startKind = s.startKind := by
  cases p <;> rfl
@[simp] theorem State.setAssignmentCount_startDecided (s : State) (p : Port) (x : Nat) : (s.setAssignmentCount p x).startDecided = s.startDecided := by
  cases p <;> rfl
@[simp] theorem State.setAssignmentCount_warmStarts (s : State) (p : Port) (x : Nat) : (s.setAssignmentCount p x).warmStarts = s.warmStarts := by
  cases p <;> rfl
@[simp] theorem State.setAssignmentCount_retentionValid (s : State) (p : Port) (x : Nat) : (s.setAssignmentCount p x).retentionValid = s.retentionValid := by
  cases p <;> rfl
@[simp] theorem State.setAssignmentCount_pfail (s : State) (p : Port) (x : Nat) : (s.setAssignmentCount p x).pfail = s.pfail := by
  cases p <;> rfl
@[simp] theorem State.setAssignmentCount_resetn (s : State) (p : Port) (x : Nat) : (s.setAssignmentCount p x).resetn = s.resetn := by
  cases p <;> rfl
@[simp] theorem State.setAssignmentCount_ticks (s : State) (p : Port) (x : Nat) : (s.setAssignmentCount p x).ticks = s.ticks := by
  cases p <;> rfl
@[simp] theorem State.setAssignmentCount_phase (s : State) (p : Port) (x : Nat) : (s.setAssignmentCount p x).phase = s.phase := by
  cases p <;> rfl
@[simp] theorem State.setAssignmentCount_refclk (s : State) (p : Port) (x : Nat) : (s.setAssignmentCount p x).refclk = s.refclk := by
  cases p <;> rfl
@[simp] theorem State.setAssignmentCount_choices (s : State) (p : Port) (x : Nat) : (s.setAssignmentCount p x).choices = s.choices := by
  cases p <;> rfl
@[simp] theorem State.setAssignmentCount_pending (s : State) (p : Port) (x : Nat) : (s.setAssignmentCount p x).pending = s.pending := by
  cases p <;> rfl

/-! ## endBurst -/

@[simp] theorem State.endBurst_port_self (s : State) (p : Port) (x : List Byte) :
    (s.endBurst p x).port p = { s.port p with burst := .none, sdo := x } := by cases p <;> rfl
@[simp] theorem State.endBurst_port_peer (s : State) (p : Port) (x : List Byte) :
    (s.endBurst p x).port (peer p) = s.port (peer p) := by cases p <;> rfl
@[simp] theorem State.endBurst_port_peer' (s : State) (p : Port) (x : List Byte) :
    (s.endBurst (peer p) x).port p = s.port p := by cases p <;> rfl
@[simp] theorem State.endBurst_port_session (s : State) (p q : Port) (x : List Byte) :
    ((s.endBurst p x).port q).session = (s.port q).session := by cases p <;> cases q <;> rfl
@[simp] theorem State.endBurst_port_events (s : State) (p q : Port) (x : List Byte) :
    ((s.endBurst p x).port q).events = (s.port q).events := by cases p <;> cases q <;> rfl
@[simp] theorem State.endBurst_port_link (s : State) (p q : Port) (x : List Byte) :
    ((s.endBurst p x).port q).link = (s.port q).link := by cases p <;> cases q <;> rfl
@[simp] theorem State.endBurst_port_intents (s : State) (p q : Port) (x : List Byte) :
    ((s.endBurst p x).port q).intents = (s.port q).intents := by cases p <;> cases q <;> rfl
@[simp] theorem State.endBurst_port_assignments (s : State) (p q : Port) (x : List Byte) :
    ((s.endBurst p x).port q).assignments = (s.port q).assignments := by cases p <;> cases q <;> rfl
@[simp] theorem State.endBurst_port_prst (s : State) (p q : Port) (x : List Byte) :
    ((s.endBurst p x).port q).prst = (s.port q).prst := by cases p <;> cases q <;> rfl
@[simp] theorem State.endBurst_port_attn (s : State) (p q : Port) (x : List Byte) :
    ((s.endBurst p x).port q).attn = (s.port q).attn := by cases p <;> cases q <;> rfl
@[simp] theorem State.endBurst_volumes (s : State) (p : Port) (x : List Byte) : (s.endBurst p x).volumes = s.volumes := by
  cases p <;> rfl
@[simp] theorem State.endBurst_intents (s : State) (p : Port) (x : List Byte) : (s.endBurst p x).intents = s.intents := by
  cases p <;> rfl
@[simp] theorem State.endBurst_waiters (s : State) (p : Port) (x : List Byte) : (s.endBurst p x).waiters = s.waiters := by
  cases p <;> rfl
@[simp] theorem State.endBurst_arrival (s : State) (p : Port) (x : List Byte) : (s.endBurst p x).arrival = s.arrival := by
  cases p <;> rfl
@[simp] theorem State.endBurst_assignments (s : State) (p : Port) (x : List Byte) : (s.endBurst p x).assignments = s.assignments := by
  cases p <;> rfl
@[simp] theorem State.endBurst_pointer (s : State) (p : Port) (x : List Byte) : (s.endBurst p x).pointer = s.pointer := by
  cases p <;> rfl
@[simp] theorem State.endBurst_supply (s : State) (p : Port) (x : List Byte) : (s.endBurst p x).supply = s.supply := by
  cases p <;> rfl
@[simp] theorem State.endBurst_startKind (s : State) (p : Port) (x : List Byte) : (s.endBurst p x).startKind = s.startKind := by
  cases p <;> rfl
@[simp] theorem State.endBurst_startDecided (s : State) (p : Port) (x : List Byte) : (s.endBurst p x).startDecided = s.startDecided := by
  cases p <;> rfl
@[simp] theorem State.endBurst_warmStarts (s : State) (p : Port) (x : List Byte) : (s.endBurst p x).warmStarts = s.warmStarts := by
  cases p <;> rfl
@[simp] theorem State.endBurst_retentionValid (s : State) (p : Port) (x : List Byte) : (s.endBurst p x).retentionValid = s.retentionValid := by
  cases p <;> rfl
@[simp] theorem State.endBurst_pfail (s : State) (p : Port) (x : List Byte) : (s.endBurst p x).pfail = s.pfail := by
  cases p <;> rfl
@[simp] theorem State.endBurst_resetn (s : State) (p : Port) (x : List Byte) : (s.endBurst p x).resetn = s.resetn := by
  cases p <;> rfl
@[simp] theorem State.endBurst_ticks (s : State) (p : Port) (x : List Byte) : (s.endBurst p x).ticks = s.ticks := by
  cases p <;> rfl
@[simp] theorem State.endBurst_phase (s : State) (p : Port) (x : List Byte) : (s.endBurst p x).phase = s.phase := by
  cases p <;> rfl
@[simp] theorem State.endBurst_refclk (s : State) (p : Port) (x : List Byte) : (s.endBurst p x).refclk = s.refclk := by
  cases p <;> rfl
@[simp] theorem State.endBurst_choices (s : State) (p : Port) (x : List Byte) : (s.endBurst p x).choices = s.choices := by
  cases p <;> rfl
@[simp] theorem State.endBurst_pending (s : State) (p : Port) (x : List Byte) : (s.endBurst p x).pending = s.pending := by
  cases p <;> rfl

/-! ## settleAttn -/

@[simp] theorem State.settleAttn_port (s : State) (p : Port) :
    s.settleAttn.port p = { s.port p with attn := attnRule s.supply (s.port p) } := by cases p <;> rfl
@[simp] theorem State.settleAttn_volumes (s : State) : s.settleAttn.volumes = s.volumes := rfl
@[simp] theorem State.settleAttn_intents (s : State) : s.settleAttn.intents = s.intents := rfl
@[simp] theorem State.settleAttn_waiters (s : State) : s.settleAttn.waiters = s.waiters := rfl
@[simp] theorem State.settleAttn_arrival (s : State) : s.settleAttn.arrival = s.arrival := rfl
@[simp] theorem State.settleAttn_assignments (s : State) : s.settleAttn.assignments = s.assignments := rfl
@[simp] theorem State.settleAttn_pointer (s : State) : s.settleAttn.pointer = s.pointer := rfl
@[simp] theorem State.settleAttn_supply (s : State) : s.settleAttn.supply = s.supply := rfl
@[simp] theorem State.settleAttn_startKind (s : State) : s.settleAttn.startKind = s.startKind := rfl
@[simp] theorem State.settleAttn_startDecided (s : State) : s.settleAttn.startDecided = s.startDecided := rfl
@[simp] theorem State.settleAttn_warmStarts (s : State) : s.settleAttn.warmStarts = s.warmStarts := rfl
@[simp] theorem State.settleAttn_retentionValid (s : State) : s.settleAttn.retentionValid = s.retentionValid := rfl
@[simp] theorem State.settleAttn_pfail (s : State) : s.settleAttn.pfail = s.pfail := rfl
@[simp] theorem State.settleAttn_resetn (s : State) : s.settleAttn.resetn = s.resetn := rfl
@[simp] theorem State.settleAttn_ticks (s : State) : s.settleAttn.ticks = s.ticks := rfl
@[simp] theorem State.settleAttn_phase (s : State) : s.settleAttn.phase = s.phase := rfl
@[simp] theorem State.settleAttn_refclk (s : State) : s.settleAttn.refclk = s.refclk := rfl
@[simp] theorem State.settleAttn_choices (s : State) : s.settleAttn.choices = s.choices := rfl
@[simp] theorem State.settleAttn_pending (s : State) : s.settleAttn.pending = s.pending := rfl

/-! ## setVolume -/

@[simp] theorem State.setVolume_port (s : State) (v : Nat) (x : Option Volume) (p : Port) :
    (s.setVolume v x).port p = s.port p := by cases p <;> rfl
@[simp] theorem State.setVolume_port0 (s : State) (v : Nat) (x : Option Volume) : (s.setVolume v x).port0 = s.port0 := rfl
@[simp] theorem State.setVolume_port1 (s : State) (v : Nat) (x : Option Volume) : (s.setVolume v x).port1 = s.port1 := rfl
@[simp] theorem State.setVolume_intents (s : State) (v : Nat) (x : Option Volume) : (s.setVolume v x).intents = s.intents := rfl
@[simp] theorem State.setVolume_waiters (s : State) (v : Nat) (x : Option Volume) : (s.setVolume v x).waiters = s.waiters := rfl
@[simp] theorem State.setVolume_arrival (s : State) (v : Nat) (x : Option Volume) : (s.setVolume v x).arrival = s.arrival := rfl
@[simp] theorem State.setVolume_assignments (s : State) (v : Nat) (x : Option Volume) : (s.setVolume v x).assignments = s.assignments := rfl
@[simp] theorem State.setVolume_pointer (s : State) (v : Nat) (x : Option Volume) : (s.setVolume v x).pointer = s.pointer := rfl
@[simp] theorem State.setVolume_supply (s : State) (v : Nat) (x : Option Volume) : (s.setVolume v x).supply = s.supply := rfl
@[simp] theorem State.setVolume_startKind (s : State) (v : Nat) (x : Option Volume) : (s.setVolume v x).startKind = s.startKind := rfl
@[simp] theorem State.setVolume_startDecided (s : State) (v : Nat) (x : Option Volume) : (s.setVolume v x).startDecided = s.startDecided := rfl
@[simp] theorem State.setVolume_warmStarts (s : State) (v : Nat) (x : Option Volume) : (s.setVolume v x).warmStarts = s.warmStarts := rfl
@[simp] theorem State.setVolume_retentionValid (s : State) (v : Nat) (x : Option Volume) : (s.setVolume v x).retentionValid = s.retentionValid := rfl
@[simp] theorem State.setVolume_pfail (s : State) (v : Nat) (x : Option Volume) : (s.setVolume v x).pfail = s.pfail := rfl
@[simp] theorem State.setVolume_resetn (s : State) (v : Nat) (x : Option Volume) : (s.setVolume v x).resetn = s.resetn := rfl
@[simp] theorem State.setVolume_ticks (s : State) (v : Nat) (x : Option Volume) : (s.setVolume v x).ticks = s.ticks := rfl
@[simp] theorem State.setVolume_phase (s : State) (v : Nat) (x : Option Volume) : (s.setVolume v x).phase = s.phase := rfl
@[simp] theorem State.setVolume_refclk (s : State) (v : Nat) (x : Option Volume) : (s.setVolume v x).refclk = s.refclk := rfl
@[simp] theorem State.setVolume_choices (s : State) (v : Nat) (x : Option Volume) : (s.setVolume v x).choices = s.choices := rfl
@[simp] theorem State.setVolume_pending (s : State) (v : Nat) (x : Option Volume) : (s.setVolume v x).pending = s.pending := rfl

/-! ## Reading volumes -/

theorem State.volume?_of_volumes {s t : State} (h : t.volumes = s.volumes) (v : Nat) : t.volume? v = s.volume? v := by
  rw [State.volume?, State.volume?, h]

theorem State.volume?_lt {s : State} {v : Nat} {x : Volume} (h : s.volume? v = some x) : v < s.volumes.length := by
  by_contra hn
  simp [State.volume?, List.getElem?_eq_none (Nat.le_of_not_lt hn)] at h

@[simp] theorem State.volume?_setPort (s : State) (p : Port) (r : PortRecord) (v : Nat) :
    (s.setPort p r).volume? v = s.volume? v := State.volume?_of_volumes (by simp) v

@[simp] theorem State.volume?_settleAttn (s : State) (v : Nat) : s.settleAttn.volume? v = s.volume? v := rfl

theorem State.volume?_setVolume_self {s : State} {v : Nat} (h : v < s.volumes.length) (x : Option Volume) :
    (s.setVolume v x).volume? v = x := by
  simp [State.volume?, State.setVolume, h]

theorem State.volume?_setVolume_ne (s : State) {v w : Nat} (h : w ≠ v) (x : Option Volume) :
    (s.setVolume v x).volume? w = s.volume? w := by
  simp [State.volume?, State.setVolume, List.getElem?_set_ne (Ne.symm h)]

theorem State.volume?_setVolume {s : State} {v : Nat} {y : Volume} (h : s.volume? v = some y) (w : Nat) (x : Option Volume) :
    (s.setVolume v x).volume? w = if w = v then x else s.volume? w := by
  by_cases hw : w = v
  · subst hw; simp [State.volume?_setVolume_self (State.volume?_lt h)]
  · simp [hw, State.volume?_setVolume_ne s hw]

@[simp] theorem State.length_setVolume (s : State) (v : Nat) (x : Option Volume) :
    (s.setVolume v x).volumes.length = s.volumes.length := by simp [State.setVolume]

/-! ## Reading the tables -/

theorem State.intent?_of_intents {s t : State} (h : t.intents = s.intents) (k : Nat) : t.intent? k = s.intent? k := by
  rw [State.intent?, State.intent?, h]
theorem State.assignment?_of_assignments {s t : State} (h : t.assignments = s.assignments) (k : Nat) : t.assignment? k = s.assignment? k := by
  rw [State.assignment?, State.assignment?, h]
theorem State.waiterEntry_of_waiters {s t : State} (h : t.waiters = s.waiters) (k : Nat) : t.waiterEntry k = s.waiterEntry k := by
  rw [State.waiterEntry, State.waiterEntry, h]
theorem State.waiter?_of_waiters {s t : State} (h : t.waiters = s.waiters) (k : Nat) : t.waiter? k = s.waiter? k := by
  rw [State.waiter?, State.waiter?, State.waiterEntry, State.waiterEntry, h]
@[simp] theorem State.intent?_setPort (s : State) (p : Port) (x : PortRecord) (k : Nat) : (s.setPort p x).intent? k = s.intent? k :=
  State.intent?_of_intents (by simp) k
@[simp] theorem State.assignment?_setPort (s : State) (p : Port) (x : PortRecord) (k : Nat) : (s.setPort p x).assignment? k = s.assignment? k :=
  State.assignment?_of_assignments (by simp) k
@[simp] theorem State.waiterEntry_setPort (s : State) (p : Port) (x : PortRecord) (k : Nat) : (s.setPort p x).waiterEntry k = s.waiterEntry k :=
  State.waiterEntry_of_waiters (by simp) k
@[simp] theorem State.waiter?_setPort (s : State) (p : Port) (x : PortRecord) (k : Nat) : (s.setPort p x).waiter? k = s.waiter? k :=
  State.waiter?_of_waiters (by simp) k
@[simp] theorem State.volume?_setSession (s : State) (p : Port) (x : Session) (k : Nat) : (s.setSession p x).volume? k = s.volume? k :=
  State.volume?_of_volumes (by simp) k
@[simp] theorem State.intent?_setSession (s : State) (p : Port) (x : Session) (k : Nat) : (s.setSession p x).intent? k = s.intent? k :=
  State.intent?_of_intents (by simp) k
@[simp] theorem State.assignment?_setSession (s : State) (p : Port) (x : Session) (k : Nat) : (s.setSession p x).assignment? k = s.assignment? k :=
  State.assignment?_of_assignments (by simp) k
@[simp] theorem State.waiterEntry_setSession (s : State) (p : Port) (x : Session) (k : Nat) : (s.setSession p x).waiterEntry k = s.waiterEntry k :=
  State.waiterEntry_of_waiters (by simp) k
@[simp] theorem State.waiter?_setSession (s : State) (p : Port) (x : Session) (k : Nat) : (s.setSession p x).waiter? k = s.waiter? k :=
  State.waiter?_of_waiters (by simp) k
@[simp] theorem State.volume?_setEvents (s : State) (p : Port) (x : EventUnit) (k : Nat) : (s.setEvents p x).volume? k = s.volume? k :=
  State.volume?_of_volumes (by simp) k
@[simp] theorem State.intent?_setEvents (s : State) (p : Port) (x : EventUnit) (k : Nat) : (s.setEvents p x).intent? k = s.intent? k :=
  State.intent?_of_intents (by simp) k
@[simp] theorem State.assignment?_setEvents (s : State) (p : Port) (x : EventUnit) (k : Nat) : (s.setEvents p x).assignment? k = s.assignment? k :=
  State.assignment?_of_assignments (by simp) k
@[simp] theorem State.waiterEntry_setEvents (s : State) (p : Port) (x : EventUnit) (k : Nat) : (s.setEvents p x).waiterEntry k = s.waiterEntry k :=
  State.waiterEntry_of_waiters (by simp) k
@[simp] theorem State.waiter?_setEvents (s : State) (p : Port) (x : EventUnit) (k : Nat) : (s.setEvents p x).waiter? k = s.waiter? k :=
  State.waiter?_of_waiters (by simp) k
@[simp] theorem State.volume?_setLink (s : State) (p : Port) (x : Link) (k : Nat) : (s.setLink p x).volume? k = s.volume? k :=
  State.volume?_of_volumes (by simp) k
@[simp] theorem State.intent?_setLink (s : State) (p : Port) (x : Link) (k : Nat) : (s.setLink p x).intent? k = s.intent? k :=
  State.intent?_of_intents (by simp) k
@[simp] theorem State.assignment?_setLink (s : State) (p : Port) (x : Link) (k : Nat) : (s.setLink p x).assignment? k = s.assignment? k :=
  State.assignment?_of_assignments (by simp) k
@[simp] theorem State.waiterEntry_setLink (s : State) (p : Port) (x : Link) (k : Nat) : (s.setLink p x).waiterEntry k = s.waiterEntry k :=
  State.waiterEntry_of_waiters (by simp) k
@[simp] theorem State.waiter?_setLink (s : State) (p : Port) (x : Link) (k : Nat) : (s.setLink p x).waiter? k = s.waiter? k :=
  State.waiter?_of_waiters (by simp) k
@[simp] theorem State.volume?_setPrst (s : State) (p : Port) (x : Bool) (k : Nat) : (s.setPrst p x).volume? k = s.volume? k :=
  State.volume?_of_volumes (by simp) k
@[simp] theorem State.intent?_setPrst (s : State) (p : Port) (x : Bool) (k : Nat) : (s.setPrst p x).intent? k = s.intent? k :=
  State.intent?_of_intents (by simp) k
@[simp] theorem State.assignment?_setPrst (s : State) (p : Port) (x : Bool) (k : Nat) : (s.setPrst p x).assignment? k = s.assignment? k :=
  State.assignment?_of_assignments (by simp) k
@[simp] theorem State.waiterEntry_setPrst (s : State) (p : Port) (x : Bool) (k : Nat) : (s.setPrst p x).waiterEntry k = s.waiterEntry k :=
  State.waiterEntry_of_waiters (by simp) k
@[simp] theorem State.waiter?_setPrst (s : State) (p : Port) (x : Bool) (k : Nat) : (s.setPrst p x).waiter? k = s.waiter? k :=
  State.waiter?_of_waiters (by simp) k
@[simp] theorem State.volume?_setBurst (s : State) (p : Port) (x : Burst) (k : Nat) : (s.setBurst p x).volume? k = s.volume? k :=
  State.volume?_of_volumes (by simp) k
@[simp] theorem State.intent?_setBurst (s : State) (p : Port) (x : Burst) (k : Nat) : (s.setBurst p x).intent? k = s.intent? k :=
  State.intent?_of_intents (by simp) k
@[simp] theorem State.assignment?_setBurst (s : State) (p : Port) (x : Burst) (k : Nat) : (s.setBurst p x).assignment? k = s.assignment? k :=
  State.assignment?_of_assignments (by simp) k
@[simp] theorem State.waiterEntry_setBurst (s : State) (p : Port) (x : Burst) (k : Nat) : (s.setBurst p x).waiterEntry k = s.waiterEntry k :=
  State.waiterEntry_of_waiters (by simp) k
@[simp] theorem State.waiter?_setBurst (s : State) (p : Port) (x : Burst) (k : Nat) : (s.setBurst p x).waiter? k = s.waiter? k :=
  State.waiter?_of_waiters (by simp) k
@[simp] theorem State.volume?_setAttn (s : State) (p : Port) (x : Bool) (k : Nat) : (s.setAttn p x).volume? k = s.volume? k :=
  State.volume?_of_volumes (by simp) k
@[simp] theorem State.intent?_setAttn (s : State) (p : Port) (x : Bool) (k : Nat) : (s.setAttn p x).intent? k = s.intent? k :=
  State.intent?_of_intents (by simp) k
@[simp] theorem State.assignment?_setAttn (s : State) (p : Port) (x : Bool) (k : Nat) : (s.setAttn p x).assignment? k = s.assignment? k :=
  State.assignment?_of_assignments (by simp) k
@[simp] theorem State.waiterEntry_setAttn (s : State) (p : Port) (x : Bool) (k : Nat) : (s.setAttn p x).waiterEntry k = s.waiterEntry k :=
  State.waiterEntry_of_waiters (by simp) k
@[simp] theorem State.waiter?_setAttn (s : State) (p : Port) (x : Bool) (k : Nat) : (s.setAttn p x).waiter? k = s.waiter? k :=
  State.waiter?_of_waiters (by simp) k
@[simp] theorem State.volume?_setIntentCount (s : State) (p : Port) (x : Nat) (k : Nat) : (s.setIntentCount p x).volume? k = s.volume? k :=
  State.volume?_of_volumes (by simp) k
@[simp] theorem State.intent?_setIntentCount (s : State) (p : Port) (x : Nat) (k : Nat) : (s.setIntentCount p x).intent? k = s.intent? k :=
  State.intent?_of_intents (by simp) k
@[simp] theorem State.assignment?_setIntentCount (s : State) (p : Port) (x : Nat) (k : Nat) : (s.setIntentCount p x).assignment? k = s.assignment? k :=
  State.assignment?_of_assignments (by simp) k
@[simp] theorem State.waiterEntry_setIntentCount (s : State) (p : Port) (x : Nat) (k : Nat) : (s.setIntentCount p x).waiterEntry k = s.waiterEntry k :=
  State.waiterEntry_of_waiters (by simp) k
@[simp] theorem State.waiter?_setIntentCount (s : State) (p : Port) (x : Nat) (k : Nat) : (s.setIntentCount p x).waiter? k = s.waiter? k :=
  State.waiter?_of_waiters (by simp) k
@[simp] theorem State.volume?_setAssignmentCount (s : State) (p : Port) (x : Nat) (k : Nat) : (s.setAssignmentCount p x).volume? k = s.volume? k :=
  State.volume?_of_volumes (by simp) k
@[simp] theorem State.intent?_setAssignmentCount (s : State) (p : Port) (x : Nat) (k : Nat) : (s.setAssignmentCount p x).intent? k = s.intent? k :=
  State.intent?_of_intents (by simp) k
@[simp] theorem State.assignment?_setAssignmentCount (s : State) (p : Port) (x : Nat) (k : Nat) : (s.setAssignmentCount p x).assignment? k = s.assignment? k :=
  State.assignment?_of_assignments (by simp) k
@[simp] theorem State.waiterEntry_setAssignmentCount (s : State) (p : Port) (x : Nat) (k : Nat) : (s.setAssignmentCount p x).waiterEntry k = s.waiterEntry k :=
  State.waiterEntry_of_waiters (by simp) k
@[simp] theorem State.waiter?_setAssignmentCount (s : State) (p : Port) (x : Nat) (k : Nat) : (s.setAssignmentCount p x).waiter? k = s.waiter? k :=
  State.waiter?_of_waiters (by simp) k
@[simp] theorem State.volume?_endBurst (s : State) (p : Port) (x : List Byte) (k : Nat) : (s.endBurst p x).volume? k = s.volume? k :=
  State.volume?_of_volumes (by simp) k
@[simp] theorem State.intent?_endBurst (s : State) (p : Port) (x : List Byte) (k : Nat) : (s.endBurst p x).intent? k = s.intent? k :=
  State.intent?_of_intents (by simp) k
@[simp] theorem State.assignment?_endBurst (s : State) (p : Port) (x : List Byte) (k : Nat) : (s.endBurst p x).assignment? k = s.assignment? k :=
  State.assignment?_of_assignments (by simp) k
@[simp] theorem State.waiterEntry_endBurst (s : State) (p : Port) (x : List Byte) (k : Nat) : (s.endBurst p x).waiterEntry k = s.waiterEntry k :=
  State.waiterEntry_of_waiters (by simp) k
@[simp] theorem State.waiter?_endBurst (s : State) (p : Port) (x : List Byte) (k : Nat) : (s.endBurst p x).waiter? k = s.waiter? k :=
  State.waiter?_of_waiters (by simp) k
@[simp] theorem State.intent?_settleAttn (s : State) (k : Nat) : s.settleAttn.intent? k = s.intent? k := rfl
@[simp] theorem State.intent?_setVolume (s : State) (v : Nat) (x : Option Volume) (k : Nat) :
    (s.setVolume v x).intent? k = s.intent? k := rfl
@[simp] theorem State.assignment?_settleAttn (s : State) (k : Nat) : s.settleAttn.assignment? k = s.assignment? k := rfl
@[simp] theorem State.assignment?_setVolume (s : State) (v : Nat) (x : Option Volume) (k : Nat) :
    (s.setVolume v x).assignment? k = s.assignment? k := rfl
@[simp] theorem State.waiterEntry_settleAttn (s : State) (k : Nat) : s.settleAttn.waiterEntry k = s.waiterEntry k := rfl
@[simp] theorem State.waiterEntry_setVolume (s : State) (v : Nat) (x : Option Volume) (k : Nat) :
    (s.setVolume v x).waiterEntry k = s.waiterEntry k := rfl
@[simp] theorem State.waiter?_settleAttn (s : State) (k : Nat) : s.settleAttn.waiter? k = s.waiter? k := rfl
@[simp] theorem State.waiter?_setVolume (s : State) (v : Nat) (x : Option Volume) (k : Nat) :
    (s.setVolume v x).waiter? k = s.waiter? k := rfl

end Sys2Proof.Machine
end

