-- ==== Sys2Proof/Laws/Events.lean ====
section
/-! SUPPORT. What raising events can do: the event unit alone changes, its stack does not, and what a queue tells of stays
told. -/

namespace Sys2Proof.Machine

/-! ## The event unit -/

@[simp] theorem EventUnit.take_stack (u : EventUnit) (k : Kind) (sub : Subject) (val : EventValue) :
    (u.take k sub val).stack = u.stack := by
  simp only [EventUnit.take, EventUnit.merge, EventUnit.append, EventUnit.drop]
  split
  · rfl
  · split
    · rfl
    · split <;> rfl

theorem kindBit_and (k : Kind) (w : Word16) : (w ||| kindBit k) &&& kindBit k = kindBit k := by
  ext i
  simp only [BitVec.getElem_and, BitVec.getElem_or]
  cases w[i] <;> cases (kindBit k)[i] <;> rfl

/-- A taken event is told. -/
theorem EventUnit.tells_take (u : EventUnit) (k : Kind) (sub : Subject) (val : EventValue) :
    (u.take k sub val).tells k sub val := by
  simp only [EventUnit.take]
  split
  · rename_i h
    obtain ⟨r, hr, hm⟩ := List.any_eq_true.1 h
    refine ⟨{ r with count := bump255 r.count }, ?_, .inl ?_⟩
    · simp only [EventUnit.merge, List.mem_map]
      exact ⟨r, hr, by simp [hm]⟩
    · simpa [EventRecord.merges] using hm
  · split
    · exact ⟨_, List.mem_append_right _ (List.mem_singleton.2 rfl), .inl (by simp [EventRecord.merges])⟩
    · simp only [EventUnit.drop]
      split
      · rename_i h
        obtain ⟨r, hr, ho⟩ := List.any_eq_true.1 h
        refine ⟨{ r with count := bump255 r.count, kindSet := r.kindSet ||| kindBit k }, ?_, .inr ⟨?_, kindBit_and k _⟩⟩
        · simp only [List.mem_map]
          exact ⟨r, hr, by simp [ho]⟩
        · simpa [EventRecord.isOverflow] using ho
      · exact ⟨_, List.mem_append_right _ (List.mem_singleton.2 rfl), .inr ⟨by simp [EventRecord.isOverflow], by simp⟩⟩

/-- What a queue tells of stays told when another event is taken. -/
theorem EventUnit.tells_take_of_tells {u : EventUnit} {k : Kind} {sub : Subject} {val : EventValue}
    (h : u.tells k sub val) (k' : Kind) (sub' : Subject) (val' : EventValue) : (u.take k' sub' val').tells k sub val := by
  obtain ⟨r, hr, hm⟩ := h
  simp only [EventUnit.take]
  split
  · refine ⟨if r.merges k' sub' val' then { r with count := bump255 r.count } else r,
      List.mem_map.2 ⟨r, hr, rfl⟩, ?_⟩
    split
    · simpa [EventRecord.merges, EventRecord.isOverflow] using hm
    · exact hm
  · split
    · exact ⟨r, List.mem_append_left _ hr, hm⟩
    · simp only [EventUnit.drop]
      split
      · refine ⟨if r.isOverflow then { r with count := bump255 r.count, kindSet := r.kindSet ||| kindBit k' } else r,
          List.mem_map.2 ⟨r, hr, rfl⟩, ?_⟩
        split
        · rcases hm with hm | ⟨ho, hk⟩
          · exact .inl (by simpa [EventRecord.merges] using hm)
          · refine .inr ⟨by simpa [EventRecord.isOverflow] using ho, ?_⟩
            show (r.kindSet ||| kindBit k') &&& kindBit k = kindBit k
            ext i
            have := congrArg (fun w : Word16 => w[i]) hk
            simp only [BitVec.getElem_and, BitVec.getElem_or] at this ⊢
            revert this
            cases r.kindSet[i] <;> cases (kindBit k)[i] <;> cases (kindBit k')[i] <;> simp
        · exact hm
      · exact ⟨r, List.mem_append_left _ hr, hm⟩

/-! ## Raising -/

/-- `t` is `s` but for the records and sequence counters of the two event units, which tell of all they told of before, and
which are as they were where the session is not OPEN (R135). -/
structure OnlyEvents (s t : State) : Prop where
  port : ∀ p, t.port p = { s.port p with events := (t.port p).events }
  stack : ∀ p, (t.port p).events.stack = (s.port p).events.stack
  told : ∀ p k sub val, (s.port p).events.tells k sub val → (t.port p).events.tells k sub val
  shut : ∀ p, (s.port p).session.state ≠ .opened → (t.port p).events = (s.port p).events
  rest : t = { s with port0 := t.port0, port1 := t.port1 }

theorem OnlyEvents.refl (s : State) : OnlyEvents s s := ⟨fun _ => rfl, fun _ => rfl, fun _ _ _ _ h => h, fun _ _ => rfl, rfl⟩

theorem OnlyEvents.session {s t : State} (h : OnlyEvents s t) (p : Port) : (t.port p).session = (s.port p).session := by
  rw [h.port p]

theorem OnlyEvents.trans {s t u : State} (h : OnlyEvents s t) (k : OnlyEvents t u) : OnlyEvents s u where
  port p := by rw [k.port p, h.port p]
  stack p := (k.stack p).trans (h.stack p)
  told p a b c x := k.told p a b c (h.told p a b c x)
  shut p x := (k.shut p (by rw [h.session p]; exact x)).trans (h.shut p x)
  rest := by rw [k.rest]; conv_lhs => rw [h.rest]

theorem OnlyEvents.volumes {s t : State} (h : OnlyEvents s t) : t.volumes = s.volumes := by rw [h.rest]
theorem OnlyEvents.intents {s t : State} (h : OnlyEvents s t) : t.intents = s.intents := by rw [h.rest]
theorem OnlyEvents.waiters {s t : State} (h : OnlyEvents s t) : t.waiters = s.waiters := by rw [h.rest]
theorem OnlyEvents.arrival {s t : State} (h : OnlyEvents s t) : t.arrival = s.arrival := by rw [h.rest]
theorem OnlyEvents.assignments {s t : State} (h : OnlyEvents s t) : t.assignments = s.assignments := by rw [h.rest]
theorem OnlyEvents.pointer {s t : State} (h : OnlyEvents s t) : t.pointer = s.pointer := by rw [h.rest]
theorem OnlyEvents.supply {s t : State} (h : OnlyEvents s t) : t.supply = s.supply := by rw [h.rest]

theorem OnlyEvents.volume? {s t : State} (h : OnlyEvents s t) (v : Nat) : t.volume? v = s.volume? v :=
  State.volume?_of_volumes h.volumes v
theorem OnlyEvents.intent? {s t : State} (h : OnlyEvents s t) (k : Nat) : t.intent? k = s.intent? k :=
  State.intent?_of_intents h.intents k
theorem OnlyEvents.waiter? {s t : State} (h : OnlyEvents s t) (k : Nat) : t.waiter? k = s.waiter? k :=
  State.waiter?_of_waiters h.waiters k
theorem OnlyEvents.waiterEntry {s t : State} (h : OnlyEvents s t) (k : Nat) : t.waiterEntry k = s.waiterEntry k :=
  State.waiterEntry_of_waiters h.waiters k
theorem OnlyEvents.assignment? {s t : State} (h : OnlyEvents s t) (k : Nat) : t.assignment? k = s.assignment? k :=
  State.assignment?_of_assignments h.assignments k

/-- All that raising an event to one port can do (R135 to R138). -/
theorem raise_onlyEvents (s : State) (p : Port) (k : Kind) (sub : Subject) (val : EventValue) :
    OnlyEvents s (s.raise p k sub val) := by
  unfold State.raise
  split
  · rename_i ho
    refine ⟨?_, ?_, ?_, ?_, ?_⟩
    · intro q
      by_cases hq : q = p
      · subst hq; simp
      · have := eq_peer_of_ne hq; subst this; simp
    · intro q
      by_cases hq : q = p
      · subst hq; simp
      · have := eq_peer_of_ne hq; subst this; simp
    · intro q a b c h
      by_cases hq : q = p
      · subst hq; simpa using EventUnit.tells_take_of_tells h k sub val
      · have := eq_peer_of_ne hq; subst this; simpa using h
    · intro q h
      by_cases hq : q = p
      · subst hq; exact absurd ho h
      · have := eq_peer_of_ne hq; subst this; simp
    · cases p <;> rfl
  · exact OnlyEvents.refl s

theorem raiseAll_onlyEvents (s : State) (k : Kind) (sub : Subject) (val : EventValue) :
    OnlyEvents s (s.raiseAll k sub val) :=
  (raise_onlyEvents s .p0 k sub val).trans (raise_onlyEvents _ .p1 k sub val)

theorem raiseTimes_onlyEvents (s : State) (n : Nat) (k : Kind) (sub : Subject) (val : EventValue) :
    OnlyEvents s (s.raiseTimes n k sub val) := by
  induction n generalizing s with
  | zero => exact OnlyEvents.refl s
  | succ n ih => exact (raiseAll_onlyEvents s k sub val).trans (ih _)

/-- An OPEN port is told of an event raised to it. -/
theorem raise_tells {s : State} {p : Port} (h : (s.port p).session.state = .opened) (k : Kind) (sub : Subject)
    (val : EventValue) : ((s.raise p k sub val).port p).events.tells k sub val := by
  unfold State.raise
  rw [if_pos h, State.setEvents_port_self]
  exact EventUnit.tells_take _ k sub val

theorem raiseAll_tells {s : State} {p : Port} (h : (s.port p).session.state = .opened) (k : Kind) (sub : Subject)
    (val : EventValue) : ((s.raiseAll k sub val).port p).events.tells k sub val := by
  cases p with
  | p0 => exact (raise_onlyEvents _ .p1 k sub val).told .p0 k sub val (raise_tells h k sub val)
  | p1 => exact raise_tells (by rw [(raise_onlyEvents s .p0 k sub val).session .p1]; exact h) k sub val

end Sys2Proof.Machine
end

