-- ==== Sys2Proof/Laws/Extents.lean ====
section
/-! SUPPORT. What a cause of Chapter 2 can do to a state: one volume's extents by the rule, its derived fields with them, at
most a health that becomes ONLINE, and events. -/

namespace Sys2Proof.Machine

/-! ## Extents by number -/

theorem mapExtentsFrom_getElem? (f : Nat → Extent → Extent) (i j : Nat) (xs : List Extent) :
    (mapExtentsFrom f i xs)[j]? = xs[j]?.map (f (i + j)) := by
  induction xs generalizing i j with
  | nil => simp [mapExtentsFrom]
  | cons x xs ih =>
    cases j with
    | zero => simp [mapExtentsFrom]
    | succ j =>
      rw [mapExtentsFrom, List.getElem?_cons_succ, List.getElem?_cons_succ, ih]
      congr 2
      omega

/-- Each extent goes through the rule with its own number. -/
@[simp] theorem mapExtents_getElem? (f : Nat → Extent → Extent) (xs : List Extent) (e : Nat) :
    (mapExtents f xs)[e]? = xs[e]?.map (f e) := by
  rw [mapExtents, mapExtentsFrom_getElem?, Nat.zero_add]

theorem mapExtentsFrom_length (f : Nat → Extent → Extent) (i : Nat) (xs : List Extent) :
    (mapExtentsFrom f i xs).length = xs.length := by
  induction xs generalizing i with
  | nil => rfl
  | cons x xs ih => simp [mapExtentsFrom, ih]

@[simp] theorem mapExtents_length (f : Nat → Extent → Extent) (xs : List Extent) :
    (mapExtents f xs).length = xs.length := mapExtentsFrom_length f 0 xs

/-- A rule that keeps every state keeps the list of states. -/
theorem mapExtents_states {f : Nat → Extent → Extent} (h : ∀ e y, (f e y).state = y.state) (xs : List Extent) :
    (mapExtents f xs).map Extent.state = xs.map Extent.state := by
  apply List.ext_getElem?
  intro e
  simp only [List.getElem?_map, mapExtents_getElem?, Option.map_map]
  congr 1
  funext y
  exact h e y

/-! ## Recounting -/

@[simp] theorem recount_recount (x : Volume) : x.recount.recount = x.recount := rfl
@[simp] theorem recount_extents (x : Volume) : x.recount.extents = x.extents := rfl
@[simp] theorem recount_geometry (x : Volume) : x.recount.geometry = x.geometry := rfl
@[simp] theorem recount_fixed (x : Volume) : x.recount.fixed = x.fixed := rfl
@[simp] theorem recount_errorsA (x : Volume) : x.recount.copyA.errors = x.copyA.errors := rfl
@[simp] theorem recount_errorsB (x : Volume) : x.recount.copyB.errors = x.copyB.errors := rfl
@[simp] theorem recount_health (x : Volume) (c : Copy) : x.recount.health c = x.health c := by cases c <;> rfl
@[simp] theorem recount_openIntents (x : Volume) : x.recount.openIntents = x.openIntents := rfl

/-- The part of a volume record that no cause and no health change reaches, with its error counts and its count of open
intents. -/
structure Volume.Settled (x x' : Volume) : Prop where
  fixed : x'.fixed = x.fixed
  errorsA : x'.copyA.errors = x.copyA.errors
  errorsB : x'.copyB.errors = x.copyB.errors
  openIntents : x'.openIntents = x.openIntents

theorem Volume.Settled.refl (x : Volume) : x.Settled x := ⟨rfl, rfl, rfl, rfl⟩

theorem Volume.Settled.trans {x y z : Volume} (h : x.Settled y) (k : y.Settled z) : x.Settled z :=
  ⟨k.fixed.trans h.fixed, k.errorsA.trans h.errorsA, k.errorsB.trans h.errorsB, k.openIntents.trans h.openIntents⟩

theorem setHealth_settled (x : Volume) (c : Copy) (h : Health) : x.Settled (x.setHealth c h) := by
  cases c <;> exact ⟨rfl, rfl, rfl, rfl⟩

@[simp] theorem setHealth_extents (x : Volume) (c : Copy) (h : Health) : (x.setHealth c h).extents = x.extents := by
  cases c <;> rfl

@[simp] theorem setHealth_health_self (x : Volume) (c : Copy) (h : Health) : (x.setHealth c h).health c = h := by
  cases c <;> rfl

@[simp] theorem setHealth_health_other (x : Volume) (c : Copy) (h : Health) :
    (x.setHealth c h).health (other c) = x.health (other c) := by cases c <;> rfl

/-! ## What stays elsewhere -/

theorem SameElsewhere.refl (s : State) : SameElsewhere s s := by simp [SameElsewhere]

theorem SameElsewhere.trans {s t u : State} (h : SameElsewhere s t) (k : SameElsewhere t u) : SameElsewhere s u := by
  unfold SameElsewhere at *
  obtain ⟨h0, h1, h2, h3, h4, h5, h6, h7, h8, h9, h10, h11, h12⟩ := h
  obtain ⟨k0, k1, k2, k3, k4, k5, k6, k7, k8, k9, k10, k11, k12⟩ := k
  refine ⟨fun p => ?_, k1.trans h1, k2.trans h2, k3.trans h3, k4.trans h4, k5.trans h5, k6.trans h6, k7.trans h7,
    k8.trans h8, k9.trans h9, k10.trans h10, k11.trans h11, k12.trans h12⟩
  obtain ⟨a1, a2, a3, a4, a5, a6⟩ := h0 p
  obtain ⟨b1, b2, b3, b4, b5, b6⟩ := k0 p
  exact ⟨b1.trans a1, b2.trans a2, b3.trans a3, b4.trans a4, b5.trans a5, b6.trans a6⟩

theorem OnlyEvents.sameElsewhere {s t : State} (h : OnlyEvents s t) : SameElsewhere s t := by
  refine ⟨fun p => ⟨by rw [h.port p], by rw [h.port p], by rw [h.port p], by rw [h.port p], by rw [h.port p],
    h.stack p⟩, ?_⟩
  rw [h.rest]
  simp

theorem setVolume_sameElsewhere (s : State) (v : Nat) (x : Option Volume) : SameElsewhere s (s.setVolume v x) := by
  simp [SameElsewhere]

theorem modVolume_sameElsewhere (s : State) (v : Nat) (f : Volume → Volume) : SameElsewhere s (s.modVolume v f) := by
  unfold State.modVolume
  split
  · exact SameElsewhere.refl s
  · exact setVolume_sameElsewhere s v _

theorem OthersSame.refl (s : State) (v : Nat) : OthersSame s s v := fun _ _ => rfl

theorem OthersSame.trans {s t u : State} {v : Nat} (h : OthersSame s t v) (k : OthersSame t u v) : OthersSame s u v :=
  fun w hw => (k w hw).trans (h w hw)

theorem OnlyEvents.othersSame {s t : State} (h : OnlyEvents s t) (v : Nat) : OthersSame s t v := fun w _ => h.volume? w

theorem setVolume_othersSame (s : State) (v : Nat) (x : Option Volume) : OthersSame s (s.setVolume v x) v :=
  fun _ hw => State.volume?_setVolume_ne s hw x

theorem setVolume_same {s : State} {v : Nat} {x : Volume} (h : s.volume? v = some x) : s.setVolume v (some x) = s := by
  have hl := State.volume?_lt h
  have hv : s.volumes[v]? = some (some x) := by
    revert h
    simp only [State.volume?]
    cases hs : s.volumes[v]? with
    | none => simp
    | some o => simp
  have : s.volumes.set v (some x) = s.volumes := by
    apply List.ext_getElem?
    intro w
    by_cases hw : v = w
    · subst hw; rw [List.getElem?_set_self hl, hv]
    · rw [List.getElem?_set_ne hw]
  rw [State.setVolume, this]

/-! ## A cause and its consequences -/

theorem changeExtents_absent {s : State} {v : Nat} (h : s.volume? v = none) (f : Nat → Extent → Extent) :
    s.changeExtents v f = s := by
  rw [State.changeExtents, h]

/-- All that a change of extents can do: the volume's extents by the rule with the counts in step, and events (R23, R24). -/
theorem changeExtents_does {s : State} {v : Nat} {x : Volume} (h : s.volume? v = some x) (f : Nat → Extent → Extent) :
    OnlyEvents (s.setVolume v (some { x with extents := mapExtents f x.extents }.recount)) (s.changeExtents v f) := by
  rw [State.changeExtents, h]
  exact raiseTimes_onlyEvents _ _ _ _ _

theorem raiseRepairPending_onlyEvents (s : State) (v before : Nat) : OnlyEvents s (s.raiseRepairPending v before) := by
  unfold State.raiseRepairPending
  split
  · exact raiseAll_onlyEvents s _ _ _
  · exact OnlyEvents.refl s

/-- All that completing a rebuild can do: the copy ONLINE, or nothing, and events (R116). -/
theorem completeRebuild_does {s : State} {v : Nat} {x : Volume} (h : s.volume? v = some x) (c : Copy) :
    ∃ x', x.Settled x' ∧ x'.extents = x.extents
      ∧ (x' = x ∨ (x.health c = .rebuilding ∧ (x.copy c).stale = 0 ∧ x' = x.setHealth c .online))
      ∧ OnlyEvents (s.setVolume v (some x')) (s.completeRebuild v c) := by
  rw [State.completeRebuild, h]
  dsimp only
  split
  · rename_i hc
    exact ⟨_, setHealth_settled x c _, setHealth_extents x c _, .inr ⟨hc.1, hc.2, rfl⟩, raiseAll_onlyEvents _ _ _ _⟩
  · exact ⟨x, .refl x, rfl, .inl rfl, by rw [setVolume_same h]; exact OnlyEvents.refl s⟩

theorem completeRebuild_absent {s : State} {v : Nat} (h : s.volume? v = none) (c : Copy) : s.completeRebuild v c = s := by
  rw [State.completeRebuild, h]

theorem OnlyEvents.setVolume {s t : State} (h : OnlyEvents s t) (v : Nat) (x : Option Volume) :
    OnlyEvents (s.setVolume v x) (t.setVolume v x) where
  port p := by simpa using h.port p
  stack p := by simpa using h.stack p
  told p := by simpa using h.told p
  shut p := by simpa using h.shut p
  rest := by
    show ({ t with volumes := t.volumes.set v x } : State) = _
    rw [h.volumes]
    conv_lhs => rw [h.rest]
    rfl

theorem setVolume_setVolume (s : State) (v : Nat) (x y : Option Volume) :
    (s.setVolume v x).setVolume v y = s.setVolume v y := by
  simp [State.setVolume]

/-- All that completing the rebuilds of a volume can do: copies that become ONLINE, and events (R116). -/
theorem completeRebuilds_does {s : State} {v : Nat} {x : Volume} (h : s.volume? v = some x) :
    ∃ x', x.Settled x' ∧ x'.extents = x.extents
      ∧ (∀ c, x'.health c = x.health c ∨ (x.health c = .rebuilding ∧ x'.health c = .online))
      ∧ OnlyEvents (s.setVolume v (some x')) (s.completeRebuilds v) := by
  obtain ⟨y, sy, ey, cy, oy⟩ := completeRebuild_does h .a
  have hv2 : (s.completeRebuild v .a).volume? v = some y := by
    rw [oy.volume? v, State.volume?_setVolume h, if_pos rfl]
  obtain ⟨z, sz, ez, cz, oz⟩ := completeRebuild_does hv2 .b
  refine ⟨z, sy.trans sz, ez.trans ey, ?_, ?_⟩
  · intro c
    have hz : z.health c = y.health c ∨ (c = .b ∧ y.health c = .rebuilding ∧ z.health c = .online) := by
      rcases cz with rfl | ⟨k1, -, rfl⟩
      · exact .inl rfl
      · cases c with
        | a => exact .inl (setHealth_health_other y .b .online)
        | b => exact .inr ⟨rfl, k1, setHealth_health_self y .b _⟩
    have hy : y.health c = x.health c ∨ (c = .a ∧ x.health c = .rebuilding ∧ y.health c = .online) := by
      rcases cy with rfl | ⟨k1, -, rfl⟩
      · exact .inl rfl
      · cases c with
        | a => exact .inr ⟨rfl, k1, setHealth_health_self x .a _⟩
        | b => exact .inl (setHealth_health_other x .a .online)
    rcases hz with hz | ⟨hc, hz1, hz2⟩ <;> rcases hy with hy | ⟨hc', hy1, hy2⟩
    · exact .inl (hz.trans hy)
    · exact .inr ⟨hy1, hz.trans hy2⟩
    · exact .inr ⟨hy ▸ hz1, hz2⟩
    · subst hc; cases hc'
  · have b := (oy.setVolume v (some z)).trans oz
    rwa [setVolume_setVolume] at b

theorem completeRebuilds_absent {s : State} {v : Nat} (h : s.volume? v = none) : s.completeRebuilds v = s := by
  rw [State.completeRebuilds, completeRebuild_absent h, completeRebuild_absent h]

theorem completeRebuilds_sameElsewhere (s : State) (v : Nat) : SameElsewhere s (s.completeRebuilds v) := by
  cases h : s.volume? v with
  | none => rw [completeRebuilds_absent h]; exact .refl s
  | some x =>
    obtain ⟨_, -, -, -, o⟩ := completeRebuilds_does h
    exact (setVolume_sameElsewhere s v _).trans o.sameElsewhere

/-- All that the consequences of the counts can do: copies that become ONLINE, and events (R23, R102, R116). -/
theorem consequences_does {s : State} {v : Nat} {x : Volume} (h : s.volume? v = some x) (before : Nat) :
    ∃ x', x.Settled x' ∧ x'.extents = x.extents
      ∧ (∀ c, x'.health c = x.health c ∨ (x.health c = .rebuilding ∧ x'.health c = .online))
      ∧ OnlyEvents (s.setVolume v (some x')) (s.consequences v before) := by
  have h1 := raiseRepairPending_onlyEvents s v before
  obtain ⟨x', sx, ex, hx, ox⟩ := completeRebuilds_does (show (s.raiseRepairPending v before).volume? v = some x by
    rw [h1.volume? v, h])
  exact ⟨x', sx, ex, hx, (h1.setVolume v (some x')).trans ox⟩

theorem consequences_absent {s : State} {v : Nat} (h : s.volume? v = none) (before : Nat) :
    OnlyEvents s (s.consequences v before) := by
  have h1 := raiseRepairPending_onlyEvents s v before
  rw [State.consequences, completeRebuilds_absent (by rw [h1.volume? v, h])]
  exact h1

/-- All that a cause with its consequences can do (R23, R24, R102, R116). -/
theorem applyCause_does {s : State} {v : Nat} {x : Volume} (h : s.volume? v = some x) (f : Nat → Extent → Extent) :
    ∃ x', x.Settled x' ∧ x'.extents = mapExtents f x.extents
      ∧ (∀ c, x'.health c = x.health c ∨ (x.health c = .rebuilding ∧ x'.health c = .online))
      ∧ OnlyEvents (s.setVolume v (some x')) (s.applyCause v f) := by
  have h1 := changeExtents_does h f
  have hv : (s.changeExtents v f).volume? v = some { x with extents := mapExtents f x.extents }.recount := by
    rw [h1.volume? v, State.volume?_setVolume h, if_pos rfl]
  obtain ⟨x', sx, ex, hx, ox⟩ := consequences_does hv (s.repairNeeded v)
  have s0 : x.Settled (Volume.recount { x with extents := mapExtents f x.extents }) := ⟨rfl, rfl, rfl, rfl⟩
  refine ⟨x', s0.trans sx, ex, ?_, ?_⟩
  · intro c
    have := hx c
    rw [recount_health] at this
    cases c <;> exact this
  · have := (h1.setVolume v (some x')).trans ox
    rwa [setVolume_setVolume] at this

theorem applyCause_absent {s : State} {v : Nat} (h : s.volume? v = none) (f : Nat → Extent → Extent) :
    OnlyEvents s (s.applyCause v f) := by
  rw [State.applyCause, changeExtents_absent h]
  exact consequences_absent h _

theorem changeExtents_sameElsewhere (s : State) (v : Nat) (f : Nat → Extent → Extent) :
    SameElsewhere s (s.changeExtents v f) := by
  cases h : s.volume? v with
  | none => rw [changeExtents_absent h]; exact .refl s
  | some x => exact (setVolume_sameElsewhere s v _).trans (changeExtents_does h f).sameElsewhere

theorem consequences_sameElsewhere (s : State) (v before : Nat) : SameElsewhere s (s.consequences v before) := by
  cases h : s.volume? v with
  | none => exact (consequences_absent h before).sameElsewhere
  | some x =>
    obtain ⟨_, -, -, -, ox⟩ := consequences_does h before
    exact (setVolume_sameElsewhere s v _).trans ox.sameElsewhere

theorem applyCause_sameElsewhere (s : State) (v : Nat) (f : Nat → Extent → Extent) : SameElsewhere s (s.applyCause v f) :=
  (changeExtents_sameElsewhere s v f).trans (consequences_sameElsewhere _ v _)

end Sys2Proof.Machine
end

