-- ==== Sys2Proof/Laws/Frames.lean ====
section
/-! SUPPORT. Numbers in frames (R160) and the shape of frames (R151, R152): the laws that proofs about bytes cite. -/

namespace Sys2Proof.Machine

/-! ## Numbers as bytes (R160) -/

@[simp] theorem bytesOf_length (n v : Nat) : (bytesOf n v).length = n := by
  induction n with
  | zero => rfl
  | succ n ih => simp [bytesOf, ih]

theorem numberOf_from (bytes : List Byte) (acc : Nat) :
    bytes.foldl (fun acc b => acc * 256 + b.toNat) acc = acc * 256 ^ bytes.length + numberOf bytes := by
  induction bytes generalizing acc with
  | nil => simp [numberOf]
  | cons b bs ih =>
    have h : numberOf (b :: bs) = (0 * 256 + b.toNat) * 256 ^ bs.length + numberOf bs := by
      rw [numberOf, List.foldl_cons, ih]
    rw [List.foldl_cons, ih, h]
    simp only [List.length_cons, pow_succ]
    ring

theorem numberOf_cons (b : Byte) (bs : List Byte) : numberOf (b :: bs) = b.toNat * 256 ^ bs.length + numberOf bs := by
  rw [numberOf, List.foldl_cons, numberOf_from]
  simp

theorem numberOf_lt (bytes : List Byte) : numberOf bytes < 256 ^ bytes.length := by
  induction bytes with
  | nil => simp [numberOf]
  | cons b bs ih =>
    rw [numberOf_cons, List.length_cons, pow_succ]
    have := b.isLt
    nlinarith [Nat.mul_le_mul_right (256 ^ bs.length) (Nat.le_of_lt_succ (show b.toNat < 255 + 1 by omega))]

/-- A number written as `n` bytes is read back, less what `n` bytes cannot hold. -/
theorem numberOf_bytesOf (n v : Nat) : numberOf (bytesOf n v) = v % 256 ^ n := by
  induction n with
  | zero => simp [bytesOf, numberOf, Nat.mod_one]
  | succ n ih =>
    rw [bytesOf, numberOf_cons, ih, bytesOf_length, BitVec.toNat_ofNat]
    have h : (2 : Nat) ^ 8 = 256 := rfl
    rw [h, pow_succ, Nat.mod_mul, mul_comm, add_comm]

/-- A field that stands at its offset is read back (R160). -/
theorem field_reads (pre post : List Byte) (n v : Nat) :
    field (pre ++ (bytesOf n v ++ post)) pre.length n = v % 256 ^ n := by
  rw [field, List.drop_left, List.take_left' (bytesOf_length n v), numberOf_bytesOf]

theorem field_lt (ps : List Byte) (off len : Nat) : field ps off len < 256 ^ len := by
  refine lt_of_lt_of_le (numberOf_lt _) (Nat.pow_le_pow_right (by decide) ?_)
  simp

/-! ## Frames (R151, R152) -/

@[simp] theorem crcBytes_length (bytes : List Byte) : (crcBytes bytes).length = 2 := bytesOf_length _ _

@[simp] theorem sealFrame_length (bytes : List Byte) : (sealFrame bytes).length = bytes.length + 2 := by
  simp [sealFrame]

theorem requestFrame_length (code : Byte) (r : Request) : (requestFrame code r).length = 7 + r.params.length := by
  simp [requestFrame]
  omega

/-- The frame check passes a frame whose length byte and CRC are right (R151). -/
theorem frameCheck_good {bytes : List Byte} (h40 : (byteAt bytes 4).toNat ≤ 40)
    (hlen : bytes.length = 7 + (byteAt bytes 4).toNat)
    (hcrc : bytes.drop (5 + (byteAt bytes 4).toNat) = crcBytes (bytes.take (5 + (byteAt bytes 4).toNat))) :
    frameCheck bytes = none := by
  simp only [frameCheck]
  rw [if_neg (by omega), if_neg (by omega), if_neg (by omega), if_neg (by omega), if_neg (by simpa using hcrc)]

/-- Whatever passes the frame check has the shape of Table 9-5. -/
theorem shape_of_good {bytes : List Byte} (h : frameCheck bytes = none) :
    (byteAt bytes 4).toNat ≤ 40 ∧ bytes.length = 7 + (byteAt bytes 4).toNat
    ∧ bytes.drop (5 + (byteAt bytes 4).toNat) = crcBytes (bytes.take (5 + (byteAt bytes 4).toNat)) := by
  simp only [frameCheck] at h
  split at h
  · cases h
  · split at h
    · cases h
    · split at h
      · cases h
      · split at h
        · cases h
        · split at h
          · cases h
          · rename_i h1 h2 h3 h4 h5
            exact ⟨by omega, by omega, by simpa using h5⟩

end Sys2Proof.Machine
end

