-- ==== Sys2Proof/Laws/Intents.lean ====
section
/-! SUPPORT. What the shared operations of the intent table and the wait list can do: a grant, a visit, a pass, the end of an
intent, the removals of waiters. -/

namespace Sys2Proof.Machine

/-! ## Slots -/

theorem State.waiter?_lt {s : State} {w : Nat} {x : Waiter} (h : s.waiter? w = some x) : w < s.waiters.length := by
  by_contra hn
  simp [State.waiter?, State.waiterEntry, List.getElem?_eq_none (Nat.le_of_not_lt hn)] at h

theorem heldAt_some {α : Type} {t : List (Slot (Option α))} {k : Nat} {a : α} (h : heldAt t k = some a) :
    ∃ x, t[k]? = some x ∧ x.held = some a := by
  unfold heldAt at h
  split at h
  · exact ⟨_, ‹_›, h⟩
  · cases h

theorem lowestFree_spec {α : Type} {t : List (Slot (Option α))} {k : Nat} (h : lowestFree t = some k) :
    k < t.length ∧ heldAt t k = none ∧ ∀ j, j < k → (heldAt t j).isSome := by
  unfold lowestFree at h
  rw [List.findIdx?_eq_some_iff_getElem] at h
  obtain ⟨hk, hp, hlt⟩ := h
  refine ⟨hk, ?_, ?_⟩
  · simpa [heldAt, hk] using hp
  · intro j hj
    have := hlt j hj
    have hjl : j < t.length := lt_trans hj hk
    simp only [heldAt, List.getElem?_eq_getElem hjl]
    cases hh : (t[j]).held with
    | none => simp [hh] at this
    | some a => rfl

/-- Marking keeps every slot, its generation, and whether it is FREE: only the overtaken marks of the picked extents rise
(R84, R92). -/
theorem markOvertaken_eq_map (t : List (Slot (Option Assignment))) (v : Nat) (sel : Nat → Bool) :
    markOvertaken t v sel = t.map fun k => { k with held := k.held.map fun a =>
      { a with overtaken := a.overtaken || (decide (a.volume = v) && sel a.extent) } } := by
  refine List.map_congr_left fun k _ => ?_
  congr 1
  refine Option.map_congr fun a _ => ?_
  cases h : decide (a.volume = v) && sel a.extent <;> simp_all

theorem place_getElem?_ne {α : Type} (t : List (Slot α)) {k j : Nat} (h : j ≠ k) (x : α) : (place t k x)[j]? = t[j]? := by
  rw [place, List.getElem?_set_ne (Ne.symm h)]

theorem hold_getElem?_ne {α : Type} (t : List (Slot α)) {k j : Nat} (h : j ≠ k) (x : α) : (hold t k x)[j]? = t[j]? := by
  rw [hold, List.getElem?_set_ne (Ne.symm h)]

theorem place_getElem?_self {α : Type} {t : List (Slot α)} {k : Nat} (h : k < t.length) (x : α) :
    (place t k x)[k]? = some ⟨genAt t k + 1, x⟩ := by
  rw [place, List.getElem?_set_self h]

theorem hold_getElem?_self {α : Type} {t : List (Slot α)} {k : Nat} (h : k < t.length) (x : α) :
    (hold t k x)[k]? = some ⟨genAt t k, x⟩ := by
  rw [hold, List.getElem?_set_self h]

@[simp] theorem place_length {α : Type} (t : List (Slot α)) (k : Nat) (x : α) : (place t k x).length = t.length := by
  simp [place]

@[simp] theorem hold_length {α : Type} (t : List (Slot α)) (k : Nat) (x : α) : (hold t k x).length = t.length := by
  simp [hold]

/-! ## A fold of steps that each keep a relation -/

theorem foldl_keeps {α : Type} {R : State → State → Prop} (refl : ∀ s, R s s) (trans : ∀ s t u, R s t → R t u → R s u)
    {f : State → α → State} (h : ∀ s a, R s (f s a)) (l : List α) (s : State) : R s (l.foldl f s) := by
  induction l generalizing s with
  | nil => exact refl s
  | cons a l ih => exact trans _ _ _ (h s a) (ih _)

/-! ## What grants alone can do -/

/-- A volume record after grants: its open-intent count and the open counts and marks of its extents apart, it is as it was,
and no extent's state has changed (R34, R35, R50). -/
def Volume.GrantedTo (x x' : Volume) : Prop :=
  { x' with openIntents := x.openIntents, extents := x.extents } = x
    ∧ x'.extents.map Extent.state = x.extents.map Extent.state

theorem Volume.GrantedTo.refl (x : Volume) : x.GrantedTo x := ⟨rfl, rfl⟩

theorem Volume.GrantedTo.trans {x y z : Volume} (h : x.GrantedTo y) (k : y.GrantedTo z) : x.GrantedTo z := by
  refine ⟨?_, k.2.trans h.2⟩
  have e := congrArg (fun w : Volume => { w with openIntents := x.openIntents, extents := x.extents }) k.1
  exact e.trans h.1

/-- What grants, and so a pass, can do to a state (R50, R75). -/
structure GrantsOnly (s t : State) : Prop where
  elsewhere : SameElsewhere s t
  volumes : ∀ v, (s.volume? v = none → t.volume? v = none)
    ∧ ∀ x, s.volume? v = some x → ∃ x', t.volume? v = some x' ∧ x.GrantedTo x'
  pointer : t.pointer = s.pointer
  intents : ∀ (k : Nat) (x : Slot (Option Intent)), s.intents[k]? = some x → x.held.isSome → t.intents[k]? = some x
  count : t.intents.length = s.intents.length
  arrival : t.arrival.Sublist s.arrival
  told : ∀ p k sub val, (s.port p).events.tells k sub val → (t.port p).events.tells k sub val
  shut : ∀ p, (s.port p).session.state ≠ .opened → (t.port p).events = (s.port p).events
  assignments : ∀ p, (t.port p).assignments = (s.port p).assignments

theorem GrantsOnly.refl (s : State) : GrantsOnly s s :=
  ⟨.refl s, fun _ => ⟨id, fun x h => ⟨x, h, .refl x⟩⟩, rfl, fun _ _ h _ => h, rfl, .refl _, fun _ _ _ _ h => h,
    fun _ _ => rfl, fun _ => rfl⟩

theorem GrantsOnly.trans {s t u : State} (h : GrantsOnly s t) (k : GrantsOnly t u) : GrantsOnly s u where
  elsewhere := h.elsewhere.trans k.elsewhere
  volumes v := by
    refine ⟨fun hn => (k.volumes v).1 ((h.volumes v).1 hn), fun x hx => ?_⟩
    obtain ⟨y, hy, gy⟩ := (h.volumes v).2 x hx
    obtain ⟨z, hz, gz⟩ := (k.volumes v).2 y hy
    exact ⟨z, hz, gy.trans gz⟩
  pointer := k.pointer.trans h.pointer
  intents j x hx ho := k.intents j x (h.intents j x hx ho) ho
  count := k.count.trans h.count
  arrival := k.arrival.trans h.arrival
  told p a b c hx := k.told p a b c (h.told p a b c hx)
  shut p hp := (k.shut p (by rw [((h.elsewhere).1 p).1]; exact hp)).trans (h.shut p hp)
  assignments p := (k.assignments p).trans (h.assignments p)

theorem OnlyEvents.grantsOnly {s t : State} (h : OnlyEvents s t) : GrantsOnly s t where
  elsewhere := h.sameElsewhere
  volumes v := by rw [h.volume? v]; exact ⟨id, fun x hx => ⟨x, hx, .refl x⟩⟩
  pointer := h.pointer
  intents j x hx _ := by rw [h.intents]; exact hx
  count := by rw [h.intents]
  arrival := by rw [h.arrival]
  told := h.told
  shut := h.shut
  assignments p := by rw [h.port p]

theorem grantExtent_state (i : Intent) (e : Nat) (y : Extent) : (grantExtent i e y).state = y.state := by
  unfold grantExtent
  split <;> rfl

/-- A grant in a FREE slot is one of the things `GrantsOnly` allows. -/
theorem grant_grantsOnly {s : State} {slot : Nat} (hf : lowestFree s.intents = some slot) (i : Intent) :
    GrantsOnly s (s.grant slot i) := by
  obtain ⟨hl, hn, -⟩ := lowestFree_spec hf
  have hports : ∀ p, ((s.grant slot i).port p).session = (s.port p).session
      ∧ ((s.grant slot i).port p).link = (s.port p).link ∧ ((s.grant slot i).port p).prst = (s.port p).prst
      ∧ ((s.grant slot i).port p).burst = (s.port p).burst
      ∧ ((s.grant slot i).port p).sdo = (s.port p).sdo ∧ ((s.grant slot i).port p).events = (s.port p).events
      ∧ ((s.grant slot i).port p).assignments = (s.port p).assignments := by
    intro p
    simp only [State.grant, State.modVolume]
    split <;> cases p <;> cases i.port <;> exact ⟨rfl, rfl, rfl, rfl, rfl, rfl, rfl⟩
  have hrest : (s.grant slot i).supply = s.supply ∧ (s.grant slot i).startKind = s.startKind
      ∧ (s.grant slot i).startDecided = s.startDecided ∧ (s.grant slot i).warmStarts = s.warmStarts
      ∧ (s.grant slot i).retentionValid = s.retentionValid
      ∧ (s.grant slot i).pfail = s.pfail ∧ (s.grant slot i).resetn = s.resetn ∧ (s.grant slot i).ticks = s.ticks
      ∧ (s.grant slot i).phase = s.phase ∧ (s.grant slot i).refclk = s.refclk ∧ (s.grant slot i).choices = s.choices
      ∧ (s.grant slot i).pending = s.pending ∧ (s.grant slot i).pointer = s.pointer
      ∧ (s.grant slot i).arrival = s.arrival ∧ (s.grant slot i).intents = place s.intents slot (some i) := by
    simp only [State.grant, State.modVolume]
    split <;> simp
  obtain ⟨r1, r2, r3, r4, r5, r6, r7, r8, r9, r10, r11, r12, r13, r14, r15⟩ := hrest
  refine ⟨⟨fun p => ?_, r1, r2, r3, r4, r5, r6, r7, r8, r9, r10, r11, r12⟩, ?_, r13, ?_, ?_, ?_, ?_, ?_, ?_⟩
  · obtain ⟨a, b, c, d, e, f, -⟩ := hports p
    exact ⟨a, b, c, d, e, by rw [f]⟩
  · intro v
    have hbase : ∀ w, (State.setIntentCount { s with
        intents := place s.intents slot (some i)
        assignments := markOvertaken s.assignments i.volume i.touches } i.port
          ((s.port i.port).intents + 1)).volume? w = s.volume? w := fun w => State.volume?_of_volumes (by simp) w
    have hcount : ((State.port { s with
        intents := place s.intents slot (some i)
        assignments := markOvertaken s.assignments i.volume i.touches } i.port).intents) = (s.port i.port).intents := by
      cases i.port <;> rfl
    simp only [State.grant, State.modVolume, hcount, hbase]
    cases hv : s.volume? i.volume with
    | none => simp only [hbase]; exact ⟨id, fun x hx => ⟨x, hx, .refl x⟩⟩
    | some y =>
      dsimp only
      rw [State.volume?_setVolume (by rw [hbase]; exact hv)]
      split
      · rename_i he; subst he
        refine ⟨fun hn => (by rw [hv] at hn; cases hn), fun x hx => ?_⟩
        rw [hv] at hx
        obtain rfl := Option.some.inj hx
        exact ⟨_, rfl, rfl, mapExtents_states (grantExtent_state i) _⟩
      · rw [hbase]; exact ⟨id, fun x hx => ⟨x, hx, .refl x⟩⟩
  · intro k x hx ho
    rw [r15]
    by_cases hk : k = slot
    · subst hk
      simp only [heldAt, hx] at hn
      rw [hn] at ho; cases ho
    · rw [place_getElem?_ne _ hk]; exact hx
  · rw [r15, place_length]
  · rw [r14]
  · intro p k sub val h; rw [(hports p).2.2.2.2.2.1]; exact h
  · intro p _; exact (hports p).2.2.2.2.2.1
  · intro p; exact (hports p).2.2.2.2.2.2

theorem waiterLeaves_grantsOnly (t : State) (w : Nat) (e : WaiterEntry) :
    GrantsOnly t { t with waiters := hold t.waiters w e, arrival := t.arrival.filter (· ≠ w) } := by
  refine ⟨⟨fun p => ?_, rfl, rfl, rfl, rfl, rfl, rfl, rfl, rfl, rfl, rfl, rfl, rfl⟩,
    fun v => ⟨id, fun x hx => ⟨x, hx, .refl x⟩⟩, rfl, fun _ _ h _ => h, rfl, List.filter_sublist, ?_, ?_, ?_⟩
  · cases p <;> exact ⟨rfl, rfl, rfl, rfl, rfl, rfl⟩
  · intro p; cases p <;> exact fun _ _ _ h => h
  · intro p; cases p <;> exact fun _ => rfl
  · intro p; cases p <;> rfl

theorem grantable_free {s : State} {w slot : Nat} {x : Waiter} (h : s.grantable w x = some slot) :
    lowestFree s.intents = some slot := by
  unfold State.grantable at h
  split at h
  · cases h
  · split at h
    · cases h
    · split at h
      · cases h
      · exact h

@[simp] theorem grant_waiters (s : State) (slot : Nat) (i : Intent) : (s.grant slot i).waiters = s.waiters := by
  simp only [State.grant, State.modVolume]
  split <;> simp

@[simp] theorem grant_arrival (s : State) (slot : Nat) (i : Intent) : (s.grant slot i).arrival = s.arrival := by
  simp only [State.grant, State.modVolume]
  split <;> simp

@[simp] theorem grant_intents (s : State) (slot : Nat) (i : Intent) :
    (s.grant slot i).intents = place s.intents slot (some i) := by
  simp only [State.grant, State.modVolume]
  split <;> simp

/-- The visit of a waiter whose four conditions hold: the grant, its slot GRANTED, and WAIT_GRANTED (R75). -/
theorem visit_grants {s : State} {w slot : Nat} {x : Waiter} {vol : Volume} (hw : s.waiter? w = some x)
    (hg : s.grantable w x = some slot) (hv : s.volume? x.volume = some vol) :
    s.visit w = State.raise { s.grant slot (s.newIntent x.port x.epoch x.volume vol x.firstBlock x.blockCount) with
        waiters := hold s.waiters w (.granted x.port x.epoch (s.nextIntentTag slot))
        arrival := s.arrival.filter (· ≠ w) } x.port .waitGranted (.ticket ⟨w, genAt s.waiters w⟩)
      (.intent (s.nextIntentTag slot)) := by
  simp only [State.visit, hw, hg, hv, grant_waiters, grant_arrival, genAt, hold_getElem?_self (State.waiter?_lt hw)]

/-- A visit grants the waiter or changes nothing (R75). -/
theorem visit_cases (s : State) (w : Nat) : s.visit w = s ∨ ∃ x slot vol, s.waiter? w = some x
    ∧ s.grantable w x = some slot ∧ s.volume? x.volume = some vol := by
  cases hx : s.waiter? w with
  | none => exact .inl (by simp only [State.visit, hx])
  | some x =>
    cases hg : s.grantable w x with
    | none => exact .inl (by simp only [State.visit, hx, hg])
    | some slot =>
      cases hv : s.volume? x.volume with
      | none => exact .inl (by simp only [State.visit, hx, hg, hv])
      | some vol => exact .inr ⟨x, slot, vol, rfl, hg, hv⟩

/-- All that the visit of one waiter can do (R75). -/
theorem visit_grantsOnly (s : State) (w : Nat) : GrantsOnly s (s.visit w) := by
  unfold State.visit
  split
  · exact .refl s
  · split
    · rename_i hg _
      exact ((grant_grantsOnly (grantable_free hg) _).trans (waiterLeaves_grantsOnly _ w _)).trans
        (raise_onlyEvents _ _ _ _ _).grantsOnly
    · exact .refl s

/-- All that one pass of the wait list can do (R74, R75). -/
theorem pass_grantsOnly (s : State) : GrantsOnly s s.pass :=
  foldl_keeps .refl (fun _ _ _ h k => h.trans k) visit_grantsOnly _ _

/-! ## The end of an intent -/

theorem freeIntent_elsewhere (s : State) (slot : Nat) (i : Intent) : SameElsewhere s (s.freeIntent slot i) := by
  simp only [State.freeIntent, State.modVolume, SameElsewhere]
  split <;> (refine ⟨fun p => ?_, ?_⟩ <;> [cases p <;> cases i.port <;> exact ⟨rfl, rfl, rfl, rfl, rfl, rfl⟩; simp])

theorem freeIntent_volumes {t : State} {i : Intent} {x : Volume} (h : t.volume? i.volume = some x) (slot : Nat) :
    (t.freeIntent slot i).volumes
      = (t.setVolume i.volume (some { x with openIntents := x.openIntents - 1 })).volumes := by
  simp [State.freeIntent, State.modVolume, h]

/-- All that the end of an intent by a rule can do, its rebuilds not yet completed (R56, R57): its volume's extents by the
rule with the counts in step and every health kept, the volume's count and the port's count lower by 1, its slot FREE under
its generation, and events. -/
theorem settleIntent_does {s : State} {slot : Nat} {i : Intent} {x : Volume} (hi : s.intent? slot = some i)
    (hv : s.volume? i.volume = some x) (rule : Volume → Intent → Nat → Extent → Extent) :
    let t := s.settleIntent slot rule
    SameElsewhere s t ∧ OthersSame s t i.volume
    ∧ t.volume? i.volume = some { Volume.recount { x with extents := mapExtents (rule x i) x.extents } with
        openIntents := x.openIntents - 1 }
    ∧ t.intents = hold s.intents slot none ∧ t.waiters = s.waiters ∧ t.arrival = s.arrival
    ∧ t.assignments = s.assignments ∧ t.pointer = s.pointer
    ∧ (t.port i.port).intents = (s.port i.port).intents - 1
    ∧ (∀ p, (t.port p).events
        = (((s.changeExtents i.volume (rule x i)).raiseRepairPending i.volume (s.repairNeeded i.volume)).port p).events)
    ∧ ∀ p k sub val, (s.port p).events.tells k sub val → (t.port p).events.tells k sub val := by
  have o1 := (changeExtents_does hv (rule x i)).trans
    (raiseRepairPending_onlyEvents (s.changeExtents i.volume (rule x i)) i.volume (s.repairNeeded i.volume))
  have he := (setVolume_sameElsewhere s _ _).trans o1.sameElsewhere
  have ho := (setVolume_othersSame s _ _).trans (o1.othersSame i.volume)
  have hv' := o1.volume? i.volume
  rw [State.volume?_setVolume hv, if_pos rfl] at hv'
  have hin := o1.intents
  have hwa := o1.waiters
  have har := o1.arrival
  have has := o1.assignments
  have hpt := o1.pointer
  have hp : ∀ p, _ := fun p => congrArg PortRecord.intents (o1.port p)
  have ht := o1.told
  simp only [State.setVolume_intents, State.setVolume_waiters, State.setVolume_arrival, State.setVolume_assignments,
    State.setVolume_pointer, State.setVolume_port] at hin hwa har has hpt hp ht
  dsimp only
  rw [State.settleIntent, hi]
  dsimp only
  rw [hv]
  dsimp only
  revert he ho hv' hin hwa har has hpt hp ht
  clear o1
  generalize (s.changeExtents i.volume (rule x i)).raiseRepairPending i.volume (s.repairNeeded i.volume) = t
  intro he ho hv' hin hwa har has hpt hp ht
  have hev : ∀ p, ((t.freeIntent slot i).port p).events = (t.port p).events := by
    intro p
    simp only [State.freeIntent, State.modVolume, hv']
    cases p <;> cases i.port <;> rfl
  refine ⟨he.trans (freeIntent_elsewhere t slot i), ?_, ?_, ?_, ?_, ?_, ?_, ?_, ?_, hev, ?_⟩
  · intro w hw
    rw [← ho w hw, State.volume?_of_volumes (freeIntent_volumes hv' slot) w, State.volume?_setVolume_ne t hw]
  · rw [State.volume?_of_volumes (freeIntent_volumes hv' slot), State.volume?_setVolume hv', if_pos rfl]
    rfl
  · simp [State.freeIntent, State.modVolume, hv', hin]
  · simp [State.freeIntent, State.modVolume, hv', hwa]
  · simp [State.freeIntent, State.modVolume, hv', har]
  · simp [State.freeIntent, State.modVolume, hv', has]
  · simp [State.freeIntent, State.modVolume, hv', hpt]
  · rw [← hp i.port]
    simp only [State.freeIntent, State.modVolume, hv']
    cases i.port <;> rfl
  · intro p k sub val h
    rw [hev]
    exact ht p k sub val h

theorem endIntent_settles {s : State} {slot : Nat} {i : Intent} (hi : s.intent? slot = some i)
    (rule : Volume → Intent → Nat → Extent → Extent) :
    s.endIntent slot rule = (s.settleIntent slot rule).completeRebuilds i.volume := by
  rw [State.endIntent, hi]

/-- All that the end of an intent by a rule can do (R56, R57): its volume's extents by the rule with the consequences, the
volume's count and the port's count lower by 1, its slot FREE under its generation. -/
theorem endIntent_does {s : State} {slot : Nat} {i : Intent} {x : Volume} (hi : s.intent? slot = some i)
    (hv : s.volume? i.volume = some x) (rule : Volume → Intent → Nat → Extent → Extent) :
    let t := s.endIntent slot rule
    SameElsewhere s t ∧ OthersSame s t i.volume
    ∧ (∃ x', t.volume? i.volume = some x' ∧ x'.extents = mapExtents (rule x i) x.extents ∧ x'.fixed = x.fixed
        ∧ x'.copyA.errors = x.copyA.errors ∧ x'.copyB.errors = x.copyB.errors ∧ x'.openIntents = x.openIntents - 1)
    ∧ t.intents = hold s.intents slot none ∧ t.waiters = s.waiters ∧ t.arrival = s.arrival
    ∧ t.assignments = s.assignments ∧ t.pointer = s.pointer
    ∧ (t.port i.port).intents = (s.port i.port).intents - 1
    ∧ ∀ p k sub val, (s.port p).events.tells k sub val → (t.port p).events.tells k sub val := by
  obtain ⟨he, ho, hx, hin, hwa, har, has, hpt, hp, -, ht⟩ := settleIntent_does hi hv rule
  obtain ⟨x', sx, ex, -, ox⟩ := completeRebuilds_does hx
  dsimp only
  rw [endIntent_settles hi]
  refine ⟨he.trans (completeRebuilds_sameElsewhere _ _), ho.trans ((setVolume_othersSame _ _ _).trans (ox.othersSame _)),
    ⟨x', ?_, ex, sx.fixed, sx.errorsA, sx.errorsB, sx.openIntents⟩, ?_, ?_, ?_, ?_, ?_, ?_, ?_⟩
  · rw [ox.volume? _, State.volume?_setVolume hx, if_pos rfl]
  · rw [ox.intents, State.setVolume_intents, hin]
  · rw [ox.waiters, State.setVolume_waiters, hwa]
  · rw [ox.arrival, State.setVolume_arrival, har]
  · rw [ox.assignments, State.setVolume_assignments, has]
  · rw [ox.pointer, State.setVolume_pointer, hpt]
  · rw [ox.port, State.setVolume_port, hp]
  · intro p k sub val h
    exact ox.told p k sub val (by rw [State.setVolume_port]; exact ht p k sub val h)

theorem settleIntent_elsewhere (s : State) (slot : Nat) (rule : Volume → Intent → Nat → Extent → Extent) :
    SameElsewhere s (s.settleIntent slot rule) := by
  unfold State.settleIntent
  split
  · exact .refl s
  · split
    · exact freeIntent_elsewhere s slot _
    · exact ((changeExtents_sameElsewhere s _ _).trans (raiseRepairPending_onlyEvents _ _ _).sameElsewhere).trans
        (freeIntent_elsewhere _ slot _)

theorem endIntent_elsewhere (s : State) (slot : Nat) (rule : Volume → Intent → Nat → Extent → Extent) :
    SameElsewhere s (s.endIntent slot rule) := by
  unfold State.endIntent
  split
  · exact .refl s
  · exact (settleIntent_elsewhere s slot rule).trans (completeRebuilds_sameElsewhere _ _)

theorem abandonAll_elsewhere (s : State) (p : Port) : SameElsewhere s (s.abandonAll p) := by
  refine foldl_keeps .refl (fun _ _ _ h k => h.trans k) (fun s slot => ?_) _ _
  split
  · split
    · exact settleIntent_elsewhere s slot _
    · exact .refl s
  · exact .refl s

theorem dropReports_elsewhere (s : State) (v : Nat) (c : Copy) : SameElsewhere s (s.dropReports v c) := by
  refine ⟨fun p => ?_, rfl, rfl, rfl, rfl, rfl, rfl, rfl, rfl, rfl, rfl, rfl, rfl⟩
  cases p <;> exact ⟨rfl, rfl, rfl, rfl, rfl, rfl⟩

theorem closeComplete_elsewhere (s : State) (v : Nat) (except : Option Nat) : SameElsewhere s (s.closeComplete v except) := by
  refine foldl_keeps .refl (fun _ _ _ h k => h.trans k) (fun s slot => ?_) _ _
  split
  · split
    · exact endIntent_elsewhere s slot _
    · exact .refl s
  · exact .refl s

/-! ## The removals of waiters -/

theorem removeWaiter_elsewhere (s : State) (w : Nat) : SameElsewhere s (s.removeWaiter w) := by
  refine ⟨fun p => ?_, rfl, rfl, rfl, rfl, rfl, rfl, rfl, rfl, rfl, rfl, rfl, rfl⟩
  cases p <;> exact ⟨rfl, rfl, rfl, rfl, rfl, rfl⟩

theorem removeOffline_elsewhere (s : State) (v : Nat) : SameElsewhere s (s.removeOffline v) := by
  refine foldl_keeps .refl (fun _ _ _ h k => h.trans k) (fun s w => ?_) _ _
  split
  · split
    · exact (removeWaiter_elsewhere s w).trans (raise_onlyEvents _ _ _ _ _).sameElsewhere
    · exact .refl s
  · exact .refl s

theorem removeWaitersOf_elsewhere (s : State) (p : Port) : SameElsewhere s (s.removeWaitersOf p) := by
  refine ⟨fun q => ?_, rfl, rfl, rfl, rfl, rfl, rfl, rfl, rfl, rfl, rfl, rfl, rfl⟩
  cases q <;> exact ⟨rfl, rfl, rfl, rfl, rfl, rfl⟩

/-- The port's waiters are gone, WAITING and GRANTED (R82). -/
theorem removeWaitersOf_owns_none (s : State) (p : Port) (w : Nat) :
    ((s.removeWaitersOf p).waiterEntry w).ownedBy p = false := by
  simp only [State.waiterEntry, State.removeWaitersOf, List.getElem?_map]
  cases s.waiters[w]? with
  | none => rfl
  | some x =>
    simp only [Option.map_some]
    split
    · rfl
    · rename_i h; simpa using h

end Sys2Proof.Machine
end

