-- ==== Sys2Proof/Laws/PerInstr.lean ====
section
/-! SUPPORT. The per-command family CodeSpellsCommand: the request code that a command's frame carries spells that command
and no other (Table 9-3, R156), and a command without a frame carries no code. -/

namespace Sys2Proof.Laws.CodeSpellsCommand

/-- Whatever code and request the frame of a well-formed command holds, the catalogue reads the command back from them; for
BAD_CODE the catalogue has no command of that code. -/
def Statement (i : Instr) : Prop :=
  ∀ code r, i.frame? = some (code, r) → i.wf = true →
    requestOf code r = some i ∨ (requestOf code r = none ∧ i = .badCode r code)

/-- A request row of the catalogue. -/
theorem of_row {i : Instr} {code : Byte} {r : Request} (hf : i.frame? = some (code, r)) (h : requestOf code r = some i) :
    Statement i := by
  intro code' r' hf' _
  rw [hf] at hf'
  cases hf'
  exact .inl h

/-- A command that no frame carries. -/
theorem of_none {i : Instr} (hf : i.frame? = none) : Statement i := by
  intro code r h _
  rw [hf] at h
  cases h

/-- A code outside the catalogue names no request. -/
theorem requestOf_unknown : ∀ (code : Byte) (r : Request), Machine.knownCode code = false → requestOf code r = none := by
  intro code r h
  have key : ∀ code : Byte, Machine.knownCode code = false → requestOf code ⟨⟨.p0, false⟩, 0, 0, []⟩ = none := by decide
  have same : (requestOf code r).isNone = (requestOf code ⟨⟨.p0, false⟩, 0, 0, []⟩).isNone := by
    unfold requestOf
    split <;> rfl
  rw [key code h] at same
  simpa using same

theorem identify (r : Request) : Statement (.identify r) := of_row rfl rfl

theorem openSession (r : Request) : Statement (.openSession r) := of_row rfl rfl

theorem renew (r : Request) : Statement (.renew r) := of_row rfl rfl

theorem closeSession (r : Request) : Statement (.closeSession r) := of_row rfl rfl

theorem portConfig (r : Request) : Statement (.portConfig r) := of_row rfl rfl

theorem fetchEvent (r : Request) : Statement (.fetchEvent r) := of_row rfl rfl

theorem ackEvent (r : Request) : Statement (.ackEvent r) := of_row rfl rfl

theorem eventConfig (r : Request) : Statement (.eventConfig r) := of_row rfl rfl

theorem createVolume (r : Request) : Statement (.createVolume r) := of_row rfl rfl

theorem deleteVolume (r : Request) : Statement (.deleteVolume r) := of_row rfl rfl

theorem volumeStatus (r : Request) : Statement (.volumeStatus r) := of_row rfl rfl

theorem setVolume (r : Request) : Statement (.setVolume r) := of_row rfl rfl

theorem route (r : Request) : Statement (.route r) := of_row rfl rfl

theorem extentStates (r : Request) : Statement (.extentStates r) := of_row rfl rfl

theorem retireRange (r : Request) : Statement (.retireRange r) := of_row rfl rfl

theorem reportReadFailure (r : Request) : Statement (.reportReadFailure r) := of_row rfl rfl

theorem openIntent (r : Request) : Statement (.openIntent r) := of_row rfl rfl

theorem reportWrite (r : Request) : Statement (.reportWrite r) := of_row rfl rfl

theorem abandonIntent (r : Request) : Statement (.abandonIntent r) := of_row rfl rfl

theorem intentStatus (r : Request) : Statement (.intentStatus r) := of_row rfl rfl

theorem cancelWait (r : Request) : Statement (.cancelWait r) := of_row rfl rfl

theorem takeRepair (r : Request) : Statement (.takeRepair r) := of_row rfl rfl

theorem repairDone (r : Request) : Statement (.repairDone r) := of_row rfl rfl

theorem releaseRepair (r : Request) : Statement (.releaseRepair r) := of_row rfl rfl

theorem failCopy (r : Request) : Statement (.failCopy r) := of_row rfl rfl

theorem replaceCopy (r : Request) : Statement (.replaceCopy r) := of_row rfl rfl

theorem clearErrors (r : Request) : Statement (.clearErrors r) := of_row rfl rfl

theorem format (r : Request) : Statement (.format r) := of_row rfl rfl

theorem readBurst (b : Select) (n : Nat) : Statement (.readBurst b n) := of_none rfl

theorem frameError (b : Select) (bytes : List Byte) : Statement (.frameError b bytes) := of_none rfl

theorem badCode (r : Request) (code : Byte) : Statement (.badCode r code) := by
  intro code' r' hf hwf
  cases hf
  have hk : Machine.knownCode code = false := by
    simp only [Instr.wf, Bool.and_eq_true, Bool.not_eq_true'] at hwf
    exact hwf.2
  exact .inr ⟨requestOf_unknown code r hk, rfl⟩

theorem prst (p : Port) (sel : Bool) : Statement (.prst p sel) := of_none rfl

theorem quiesce (pin : HoldPin) (sel0 sel1 : Bool) : Statement (.quiesce pin sel0 sel1) := of_none rfl

theorem mainSupplyArrives : Statement .mainSupplyArrives := of_none rfl

theorem mainSupplyLost : Statement .mainSupplyLost := of_none rfl

theorem vbakBelowThreshold (e : VbakEvent) : Statement (.vbakBelowThreshold e) := of_none rfl

theorem start (pfail sel0 sel1 : Bool) : Statement (.start pfail sel0 sel1) := of_none rfl

theorem startComplete : Statement .startComplete := of_none rfl

theorem leaseExpiry (p : Port) : Statement (.leaseExpiry p) := of_none rfl

theorem intentExpiry (slot : Nat) : Statement (.intentExpiry slot) := of_none rfl

theorem waiterExpiry (slot : Nat) : Statement (.waiterExpiry slot) := of_none rfl

theorem assignmentExpiry (slot : Nat) : Statement (.assignmentExpiry slot) := of_none rfl

theorem prstRelease (p : Port) (sel : Bool) : Statement (.prstRelease p sel) := of_none rfl

end Sys2Proof.Laws.CodeSpellsCommand
end

