-- ==== Sys2Proof/Laws/Repairs.lean ====
section
/-! SUPPORT. What the shared operations of the repair scheduler, of copy health and of a session's end can do. -/

namespace Sys2Proof.Machine

/-! ## The end of an assignment -/

theorem freeAssignment_fields (s : State) (slot : Nat) (a : Assignment) :
    (s.freeAssignment slot a).volumes = s.volumes ∧ (s.freeAssignment slot a).intents = s.intents
    ∧ (s.freeAssignment slot a).waiters = s.waiters ∧ (s.freeAssignment slot a).arrival = s.arrival
    ∧ (s.freeAssignment slot a).assignments = hold s.assignments slot none
    ∧ (s.freeAssignment slot a).pointer = s.pointer
    ∧ ∀ p, ((s.freeAssignment slot a).port p).events = (s.port p).events := by
  refine ⟨?_, ?_, ?_, ?_, ?_, ?_, ?_⟩
  case refine_7 => intro p; cases p <;> cases h : a.port <;> simp [State.freeAssignment, h, State.port, State.setAssignmentCount, State.setPort]
  all_goals simp [State.freeAssignment]

theorem freeAssignment_elsewhere (s : State) (slot : Nat) (a : Assignment) : SameElsewhere s (s.freeAssignment slot a) := by
  simp only [State.freeAssignment, SameElsewhere]
  refine ⟨fun p => ?_, ?_⟩
  · cases p <;> cases a.port <;> exact ⟨rfl, rfl, rfl, rfl, rfl, rfl⟩
  · simp

theorem freeAssignment_count (s : State) (slot : Nat) (a : Assignment) :
    ((s.freeAssignment slot a).port a.port).assignments = (s.port a.port).assignments - 1 := by
  simp only [State.freeAssignment]
  cases a.port <;> rfl

/-- All that the end of an assignment by a rule can do, its rebuilds not yet completed (R94, R95): its extent's state by the
rule with its link cleared, the counts in step and every health kept, its slot FREE under its generation, its port's count
lower by 1, and events. -/
theorem settleAssignment_does {s : State} {a : Assignment} {x : Volume} (slot : Nat) (hv : s.volume? a.volume = some x)
    (rule : Coherence → Coherence) :
    let t := s.settleAssignment slot a rule
    SameElsewhere s t ∧ OthersSame s t a.volume
    ∧ t.volume? a.volume = some (Volume.recount { x with extents := mapExtents (endExtent a rule) x.extents })
    ∧ t.intents = s.intents ∧ t.waiters = s.waiters ∧ t.arrival = s.arrival
    ∧ t.assignments = hold s.assignments slot none ∧ t.pointer = s.pointer
    ∧ (t.port a.port).assignments = (s.port a.port).assignments - 1
    ∧ ∀ p k sub val, (s.port p).events.tells k sub val → (t.port p).events.tells k sub val := by
  have o1 := changeExtents_does hv (endExtent a rule)
  obtain ⟨f1, f2, f3, f4, f5, f6, f7⟩ := freeAssignment_fields (s.changeExtents a.volume (endExtent a rule)) slot a
  have ox := raiseRepairPending_onlyEvents ((s.changeExtents a.volume (endExtent a rule)).freeAssignment slot a) a.volume
    (s.repairNeeded a.volume)
  refine ⟨((changeExtents_sameElsewhere s _ _).trans (freeAssignment_elsewhere _ slot a)).trans ox.sameElsewhere,
    ?_, ?_, ?_, ?_, ?_, ?_, ?_, ?_, ?_⟩
  · intro w hw
    rw [State.settleAssignment, ox.volume?, State.volume?_of_volumes f1, o1.volume?, State.volume?_setVolume_ne _ hw]
  · rw [State.settleAssignment, ox.volume?, State.volume?_of_volumes f1, o1.volume?, State.volume?_setVolume hv, if_pos rfl]
  · rw [State.settleAssignment, ox.intents, f2, o1.intents, State.setVolume_intents]
  · rw [State.settleAssignment, ox.waiters, f3, o1.waiters, State.setVolume_waiters]
  · rw [State.settleAssignment, ox.arrival, f4, o1.arrival, State.setVolume_arrival]
  · rw [State.settleAssignment, ox.assignments, f5, o1.assignments, State.setVolume_assignments]
  · rw [State.settleAssignment, ox.pointer, f6, o1.pointer, State.setVolume_pointer]
  · rw [State.settleAssignment, ox.port, freeAssignment_count, o1.port, State.setVolume_port]
  · intro p k sub val h
    refine ox.told p k sub val ?_
    rw [f7]
    exact o1.told p k sub val (by rwa [State.setVolume_port])

/-- All that the end of an assignment by a rule can do (R94, R95): its extent's state by the rule with its link cleared, the
consequences of the counts, its slot FREE under its generation, its port's count lower by 1. -/
theorem endAssignment_does {s : State} {a : Assignment} {x : Volume} (slot : Nat) (hv : s.volume? a.volume = some x)
    (rule : Coherence → Coherence) :
    let t := s.endAssignment slot a rule
    SameElsewhere s t ∧ OthersSame s t a.volume
    ∧ (∃ x', t.volume? a.volume = some x' ∧ x.Settled x' ∧ x'.extents = mapExtents (endExtent a rule) x.extents
        ∧ ∀ c, x'.health c = x.health c ∨ (x.health c = .rebuilding ∧ x'.health c = .online))
    ∧ t.intents = s.intents ∧ t.waiters = s.waiters ∧ t.arrival = s.arrival
    ∧ t.assignments = hold s.assignments slot none ∧ t.pointer = s.pointer
    ∧ (t.port a.port).assignments = (s.port a.port).assignments - 1
    ∧ ∀ p k sub val, (s.port p).events.tells k sub val → (t.port p).events.tells k sub val := by
  obtain ⟨he, ho, hx, hin, hwa, har, has, hpt, hp, ht⟩ := settleAssignment_does slot hv rule
  obtain ⟨x', sx, ex, hh, ox⟩ := completeRebuilds_does hx
  have s0 : x.Settled (Volume.recount { x with extents := mapExtents (endExtent a rule) x.extents }) := ⟨rfl, rfl, rfl, rfl⟩
  dsimp only
  rw [State.endAssignment]
  refine ⟨he.trans (completeRebuilds_sameElsewhere _ _), ho.trans ((setVolume_othersSame _ _ _).trans (ox.othersSame _)),
    ⟨x', ?_, s0.trans sx, ex, ?_⟩, ?_, ?_, ?_, ?_, ?_, ?_, ?_⟩
  · rw [ox.volume? _, State.volume?_setVolume hx, if_pos rfl]
  · intro c
    have := hh c
    rw [recount_health] at this
    cases c <;> exact this
  · rw [ox.intents, State.setVolume_intents, hin]
  · rw [ox.waiters, State.setVolume_waiters, hwa]
  · rw [ox.arrival, State.setVolume_arrival, har]
  · rw [ox.assignments, State.setVolume_assignments, has]
  · rw [ox.pointer, State.setVolume_pointer, hpt]
  · rw [ox.port, State.setVolume_port, hp]
  · intro p k sub val h
    exact ox.told p k sub val (by rw [State.setVolume_port]; exact ht p k sub val h)

theorem settleAssignment_elsewhere (s : State) (slot : Nat) (a : Assignment) (rule : Coherence → Coherence) :
    SameElsewhere s (s.settleAssignment slot a rule) :=
  ((changeExtents_sameElsewhere s _ _).trans (freeAssignment_elsewhere _ slot a)).trans
    (raiseRepairPending_onlyEvents _ _ _).sameElsewhere

theorem endAssignment_elsewhere (s : State) (slot : Nat) (a : Assignment) (rule : Coherence → Coherence) :
    SameElsewhere s (s.endAssignment slot a rule) :=
  (settleAssignment_elsewhere s slot a rule).trans (completeRebuilds_sameElsewhere _ _)

/-- A revocation is the end of the assignment by R29 or R30, then at most one event to its holder (R95). -/
theorem revoke_does {s : State} {slot : Nat} {a : Assignment} (h : s.assignment? slot = some a) (reason : Option EventValue) :
    OnlyEvents (s.endAssignment slot a (s.revokedState a)) (s.revoke slot reason) := by
  rw [State.revoke, h]
  dsimp only
  cases reason with
  | none => exact OnlyEvents.refl _
  | some r => exact raise_onlyEvents _ _ _ _ _

theorem revoke_elsewhere (s : State) (slot : Nat) (reason : Option EventValue) : SameElsewhere s (s.revoke slot reason) := by
  cases h : s.assignment? slot with
  | none => rw [State.revoke, h]; exact .refl s
  | some a => exact (endAssignment_elsewhere s slot a _).trans (revoke_does h reason).sameElsewhere

theorem revokeVolume_elsewhere (s : State) (v : Nat) : SameElsewhere s (s.revokeVolume v) := by
  refine foldl_keeps .refl (fun _ _ _ h k => h.trans k) (fun s slot => ?_) _ _
  split
  · split
    · exact revoke_elsewhere s slot _
    · exact .refl s
  · exact .refl s

theorem revokePort_elsewhere (s : State) (p : Port) : SameElsewhere s (s.revokePort p) := by
  refine foldl_keeps .refl (fun _ _ _ h k => h.trans k) (fun s slot => ?_) _ _
  split
  · split
    · exact settleAssignment_elsewhere s slot _ _
    · exact .refl s
  · exact .refl s

/-! ## The search (R88, R89) -/

/-- The order of the search holds the extents of the volume, each once, the cursor within the volume. -/
theorem mem_searchOrder {x : Volume} (h : x.cursor < x.extentCount) (e : Nat) : e ∈ x.searchOrder ↔ e < x.extentCount := by
  simp only [Volume.searchOrder, List.mem_append, List.mem_map, List.mem_range]
  constructor
  · rintro (⟨k, hk, rfl⟩ | hk) <;> omega
  · intro he
    by_cases hc : x.cursor ≤ e
    · exact .inl ⟨e - x.cursor, by omega, by omega⟩
    · exact .inr (by omega)

theorem mem_anyOrder {pointer : Nat} (v : Nat) : v ∈ anyOrder pointer ↔ v < 16 := by
  simp only [anyOrder, Config.volumes, List.mem_map, List.mem_range]
  constructor
  · rintro ⟨i, -, rfl⟩; exact Nat.mod_lt _ (by decide)
  · intro hv
    exact ⟨(v + 16 * (pointer + 1) - (pointer + 1)) % 16, Nat.mod_lt _ (by decide), by omega⟩

/-! ## Copy health -/

theorem setHealth_elsewhere (s : State) (v : Nat) (c : Copy) (h : Health) : SameElsewhere s (s.setHealth v c h) :=
  modVolume_sameElsewhere s v _

theorem failExtents_elsewhere (s : State) (v : Nat) (c : Copy) : SameElsewhere s (s.failExtents v c) := by
  unfold State.failExtents
  have h := (changeExtents_sameElsewhere s v (loseIn (fun _ => true) c)).trans (setHealth_elsewhere _ v c .failed)
  dsimp only
  split
  · exact h.trans (setHealth_elsewhere _ _ _ _)
  · exact h

theorem failWork_elsewhere (s : State) (v : Nat) (c : Copy) (except : Option Nat) :
    SameElsewhere s (s.failWork v c except) := by
  unfold State.failWork
  have h := ((dropReports_elsewhere s v c).trans (closeComplete_elsewhere _ v except)).trans
    (revokeVolume_elsewhere _ v)
  dsimp only
  split
  · exact (h.trans (removeOffline_elsewhere _ v)).trans (pass_grantsOnly _).elsewhere
  · exact h.trans (pass_grantsOnly _).elsewhere

/-- The failure procedure reaches no session, no link, no pin, no in-service stack and nothing of the supply or the
timebase (R111, R112). -/
theorem failProcedure_elsewhere (s : State) (v : Nat) (c : Copy) (cause : EventValue) (except : Option Nat) :
    SameElsewhere s (s.failProcedure v c cause except) := by
  unfold State.failProcedure
  have h := ((failExtents_elsewhere s v c).trans (failWork_elsewhere _ v c except)).trans
    (raiseAll_onlyEvents _ .copyFailed (.copy v c) cause).sameElsewhere
  dsimp only
  split
  · exact h.trans (raiseAll_onlyEvents _ _ _ _).sameElsewhere
  · exact h

theorem charge_absent {s : State} {v : Nat} (h : s.volume? v = none) (c : Copy) (except : Option Nat) :
    s.charge v c except = s := by
  rw [State.charge, h]

/-- A charge is the counter raised and, where R108 says so, the failure procedure (R107, R108). -/
theorem charge_does {s : State} {v : Nat} {x : Volume} (h : s.volume? v = some x) (c : Copy) (except : Option Nat) :
    s.charge v c except
      = if (x.charge c).failsAt c then (s.setVolume v (some (x.charge c))).failProcedure v c .failThreshold except
        else s.setVolume v (some (x.charge c)) := by
  rw [State.charge, h]

@[simp] theorem charge_errors_self (x : Volume) (c : Copy) :
    ((x.charge c).copy c).errors = min 255 ((x.copy c).errors + 1) := by cases c <;> rfl

@[simp] theorem charge_errors_other (x : Volume) (c : Copy) :
    ((x.charge c).copy (other c)).errors = (x.copy (other c)).errors := by cases c <;> rfl

@[simp] theorem charge_fixed (x : Volume) (c : Copy) : (x.charge c).fixed = x.fixed := by cases c <;> rfl

@[simp] theorem charge_extents (x : Volume) (c : Copy) : (x.charge c).extents = x.extents := by cases c <;> rfl

@[simp] theorem charge_health (x : Volume) (c d : Copy) : (x.charge c).health d = x.health d := by
  cases c <;> cases d <;> rfl

theorem charge_elsewhere (s : State) (v : Nat) (c : Copy) (except : Option Nat) : SameElsewhere s (s.charge v c except) := by
  cases h : s.volume? v with
  | none => rw [charge_absent h]; exact .refl s
  | some x =>
    rw [charge_does h]
    split
    · exact (setVolume_sameElsewhere s v _).trans (failProcedure_elsewhere _ _ _ _ _)
    · exact setVolume_sameElsewhere s v _

/-! ## The end of a session -/

/-- What completing rebuilds can do to a state: copies that were REBUILDING become ONLINE, and events (R116). -/
structure RebuildsOnly (s t : State) : Prop where
  elsewhere : SameElsewhere s t
  volumes : ∀ v, (s.volume? v = none → t.volume? v = none)
    ∧ ∀ x, s.volume? v = some x → ∃ x', t.volume? v = some x' ∧ x.Settled x' ∧ x'.extents = x.extents
      ∧ ∀ c, x'.health c = x.health c ∨ (x.health c = .rebuilding ∧ x'.health c = .online)
  tables : t.intents = s.intents ∧ t.waiters = s.waiters ∧ t.arrival = s.arrival ∧ t.assignments = s.assignments
    ∧ t.pointer = s.pointer
  ports : ∀ p, t.port p = { s.port p with events := (t.port p).events }
  told : ∀ p k sub val, (s.port p).events.tells k sub val → (t.port p).events.tells k sub val

theorem RebuildsOnly.refl (s : State) : RebuildsOnly s s :=
  ⟨.refl s, fun _ => ⟨id, fun x h => ⟨x, h, .refl x, rfl, fun _ => .inl rfl⟩⟩, ⟨rfl, rfl, rfl, rfl, rfl⟩, fun _ => rfl,
    fun _ _ _ _ h => h⟩

theorem RebuildsOnly.trans {s t u : State} (h : RebuildsOnly s t) (k : RebuildsOnly t u) : RebuildsOnly s u where
  elsewhere := h.elsewhere.trans k.elsewhere
  volumes v := by
    refine ⟨fun hn => (k.volumes v).1 ((h.volumes v).1 hn), fun x hx => ?_⟩
    obtain ⟨y, hy, sy, ey, cy⟩ := (h.volumes v).2 x hx
    obtain ⟨z, hz, sz, ez, cz⟩ := (k.volumes v).2 y hy
    refine ⟨z, hz, sy.trans sz, ez.trans ey, fun c => ?_⟩
    rcases cz c with e | ⟨e1, e2⟩
    · rw [e]; exact cy c
    · rcases cy c with f | ⟨-, f2⟩
      · exact .inr ⟨f ▸ e1, e2⟩
      · rw [f2] at e1; cases e1
  tables := by
    obtain ⟨a1, a2, a3, a4, a5⟩ := h.tables
    obtain ⟨b1, b2, b3, b4, b5⟩ := k.tables
    exact ⟨b1.trans a1, b2.trans a2, b3.trans a3, b4.trans a4, b5.trans a5⟩
  ports p := by rw [k.ports p, h.ports p]
  told p a b c x := k.told p a b c (h.told p a b c x)

theorem completeRebuilds_rebuildsOnly (s : State) (v : Nat) : RebuildsOnly s (s.completeRebuilds v) := by
  cases h : s.volume? v with
  | none => rw [completeRebuilds_absent h]; exact .refl s
  | some x =>
    obtain ⟨x', sx, ex, hx, o⟩ := completeRebuilds_does h
    refine ⟨completeRebuilds_sameElsewhere s v, fun w => ?_, ⟨?_, ?_, ?_, ?_, ?_⟩, fun p => ?_, fun p a b c t => ?_⟩
    · rw [o.volume? w, State.volume?_setVolume h]
      split
      · rename_i e; subst e
        refine ⟨fun hn => (by rw [h] at hn; cases hn), fun y hy => ?_⟩
        rw [h] at hy
        obtain rfl := Option.some.inj hy
        exact ⟨x', rfl, sx, ex, hx⟩
      · exact ⟨id, fun y hy => ⟨y, hy, .refl y, rfl, fun _ => .inl rfl⟩⟩
    · rw [o.intents, State.setVolume_intents]
    · rw [o.waiters, State.setVolume_waiters]
    · rw [o.arrival, State.setVolume_arrival]
    · rw [o.assignments, State.setVolume_assignments]
    · rw [o.pointer, State.setVolume_pointer]
    · simpa using o.port p
    · exact o.told p a b c (by simpa using t)

/-- All that completing the rebuilds of every volume can do (R116). -/
theorem completeAll_does (s : State) : RebuildsOnly s s.completeAll :=
  foldl_keeps .refl (fun _ _ _ h k => h.trans k) completeRebuilds_rebuildsOnly _ _

/-- After the port's queue and stack are cleared, the rest of the teardown reaches no session, link, pin or stack, and
nothing of the supply or the timebase (R127). -/
theorem teardown_elsewhere (s : State) (p : Port) (reason : EventValue) :
    SameElsewhere (s.clearEvents p) (s.teardown p reason) := by
  unfold State.teardown
  exact (((((abandonAll_elsewhere _ p).trans (removeWaitersOf_elsewhere _ p)).trans (revokePort_elsewhere _ p)).trans
    (completeAll_does _).elsewhere).trans (pass_grantsOnly _).elsewhere).trans (raise_onlyEvents _ _ _ _ _).sameElsewhere

end Sys2Proof.Machine
end

