-- ==== Sys2Proof/Laws/Requests.lean ====
section
/-! SUPPORT. What the path of a request through its port can do, once for all requests: `State.serve` in each of its
outcomes. Proofs about a request cite these and look at its owner alone. -/

namespace Sys2Proof.Machine

/-! ## The words of Safety.lean -/

theorem shifted_eq (s : State) (r : Request) (h : s.supply ≠ .off) :
    s.shiftOnes r.port (7 + r.params.length) = shifted s r := by
  simp [State.shiftOnes, h, shifted, State.endBurst]

theorem begun_eq (s : State) (r : Request) : begun s r = (shifted s r).renewLease r := by
  simp [begun, State.renewLease, shifted, State.setSession, State.deadlineIn, State.moment, Config.cyclesPerTick]

theorem tookFrame_eq (s : State) (r : Request) (code : Byte) (st : Status) (results : List Byte) :
    s.answer r code ⟨st, results⟩ = tookFrame s r code st results := rfl

theorem begun_of_open {s : State} {r : Request} (h : (s.port r.port).session.state = .opened)
    (he : r.epoch = (s.port r.port).session.epoch) :
    begun s r = (shifted s r).setPort r.port { (shifted s r).port r.port with
      session := { (s.port r.port).session with
        deadline := some (s.moment + (s.port r.port).session.lease * 25000) } } := by
  simp [begun, h, he]

/-! ## Bursts at a pin change -/

/-- At a pin change that finds or leaves the port taking no bursts, a burst under way is to be discarded (R129, R147, R163). -/
@[simp] theorem burstAt_unaccepted (b : Burst) (sel : Bool) :
    burstAt b sel false = if sel then .discarded else .none := by
  cases sel <;> rfl

@[simp] theorem noteBurst_port_self (t s : State) (p : Port) (sel : Bool) :
    (t.noteBurst s p sel).port p
      = { t.port p with burst := burstAt (s.port p).burst sel (s.accepts p && t.accepts p) } := by
  simp [State.noteBurst]

@[simp] theorem noteBurst_port_peer (t s : State) (p : Port) (sel : Bool) :
    (t.noteBurst s p sel).port (peer p) = t.port (peer p) := by simp [State.noteBurst]

/-! ## Which bursts a link hears -/

theorem Heard.supply_ne_off {b : Select} {s : State} (h : Heard b s) : s.supply ≠ .off := by
  rcases h.1 with h | h <;> simp [h]

theorem Heard.hears {b : Select} {s : State} (h : Heard b s) : s.hears b = true := by
  obtain ⟨h1 | h1, h2, h3, h4⟩ := h <;> simp [State.hears, State.accepts, h1, h2, h3, h4]

/-- A discarded burst is not heard (R129, R147, R163). -/
theorem Discarded.hears {b : Select} {s : State} (h : Discarded b s) : s.hears b = false := by
  rcases h.2 with h | h | h | h <;> simp [State.hears, State.accepts, h]

/-- With main supply present a burst is heard or discarded, whatever else holds (R147). -/
theorem heard_or_discarded (b : Select) (s : State) (h : s.supply ≠ .off) : Heard b s ∨ Discarded b s := by
  simp only [Heard, Discarded]
  cases hs : s.supply <;> cases hp : (s.port b.port).prst <;> cases he : b.early <;>
    by_cases hb : (s.port b.port).burst = .discarded <;> simp_all

/-! ## The outcomes of a request burst -/

theorem serve_off {s : State} {r : Request} (code : Byte) (own : Owner) (h : s.supply = .off) :
    s.serve r code own = s.endBurst r.port [] := by
  simp [State.serve, State.shiftOnes, h, State.hears, State.accepts]

/-- A discarded burst is not acted on (R129, R147, R163). -/
theorem serve_unheard {s : State} {r : Request} (code : Byte) (own : Owner)
    (h : Discarded r.toSelect s) : s.serve r code own = shifted s r := by
  rw [State.serve, shifted_eq s r h.1]
  simp [h.hears]

theorem serve_heard {s : State} {r : Request} {code : Byte} {row : CatalogueRow} (own : Owner)
    (h : Heard r.toSelect s) (hrow : catalogueRow code = some row) :
    s.serve r code own = (shifted s r).receive r code (row.lengthOk r.params.length) row.needsSession own := by
  rw [State.serve, shifted_eq s r h.supply_ne_off]
  simp [h.hears, hrow]

@[simp] theorem shifted_link (s : State) (r : Request) (p : Port) : ((shifted s r).port p).link = (s.port p).link := by
  by_cases hp : p = r.port
  · subst hp; simp [shifted]
  · have := eq_peer_of_ne hp; subst this; simp [shifted]

@[simp] theorem shifted_session (s : State) (r : Request) (p : Port) :
    ((shifted s r).port p).session = (s.port p).session := by
  by_cases hp : p = r.port
  · subst hp; simp [shifted]
  · have := eq_peer_of_ne hp; subst this; simp [shifted]

@[simp] theorem shifted_supply (s : State) (r : Request) : (shifted s r).supply = s.supply := by simp [shifted]

theorem shifted_retransmission (s : State) (r : Request) (code : Byte) :
    (shifted s r).retransmission r code = s.retransmission r code := by
  simp [State.retransmission]

/-- A repetition of the last taken frame shows its response again and is not carried out (R154). -/
theorem serve_repeated {s : State} {r : Request} {code : Byte} {row : CatalogueRow} (own : Owner)
    (h : Heard r.toSelect s) (hrow : catalogueRow code = some row)
    (hl : (s.port r.port).link.lastTaken = some (r.seq, code)) :
    s.serve r code own = (shifted s r).setPort r.port { (shifted s r).port r.port with
      link := { (s.port r.port).link with refusal := none } } := by
  rw [serve_heard own h hrow]
  simp [State.receive, State.retransmission, hl, State.setLink]

/-- A length that Table 9-3 does not give is refused BAD_LENGTH (R156). -/
theorem serve_badLength {s : State} {r : Request} {code : Byte} {row : CatalogueRow} (own : Owner)
    (h : Heard r.toSelect s) (hrow : catalogueRow code = some row)
    (hl : (s.port r.port).link.lastTaken ≠ some (r.seq, code)) (hlen : row.lengthOk r.params.length = false) :
    s.serve r code own = refusedEarly s r code .badLength := by
  rw [serve_heard own h hrow]
  simp [State.receive, State.retransmission, hl, hlen, refusedEarly, Reply.bare, tookFrame_eq]

/-- In STARTING a request of the catalogue becomes the link refusal (R157). -/
theorem serve_starting {s : State} {r : Request} {code : Byte} {row : CatalogueRow} (own : Owner)
    (h : Heard r.toSelect s) (hrow : catalogueRow code = some row)
    (hl : (s.port r.port).link.lastTaken ≠ some (r.seq, code)) (hlen : row.lengthOk r.params.length = true)
    (hs : s.supply = .starting) :
    s.serve r code own = (shifted s r).setPort r.port { (shifted s r).port r.port with
      link := { (s.port r.port).link with refusal := some (responseFrame ⟨.starting, []⟩ r.seq) } } := by
  rw [serve_heard own h hrow]
  simp [State.receive, State.retransmission, hl, hlen, hs, State.refuse, State.setLink, Reply.bare]

theorem Taken.heard {code : Byte} {r : Request} {s : State} (h : Taken code r s) : Heard r.toSelect s :=
  ⟨.inr h.1, h.2.1, h.2.2.1, h.2.2.2.1⟩

theorem Admitted.taken {code : Byte} {r : Request} {s : State} (h : Admitted code r s) : Taken code r s := h.1

/-- A taken frame of the right length in RUN goes to the session unit (R125). -/
theorem serve_process {s : State} {r : Request} {code : Byte} {row : CatalogueRow} (own : Owner)
    (h : Taken code r s) (hrow : catalogueRow code = some row) (hlen : row.lengthOk r.params.length = true) :
    s.serve r code own = (shifted s r).process r code row.needsSession own := by
  rw [serve_heard own h.heard hrow]
  simp [State.receive, State.retransmission, h.2.2.2.2, hlen, h.1]

/-- The session unit refuses a request that needs a session and has none of its epoch (R125). -/
theorem serve_sessionRefused {s : State} {r : Request} {code : Byte} {row : CatalogueRow} {st : Status} (own : Owner)
    (h : Taken code r s) (hrow : catalogueRow code = some row) (hlen : row.lengthOk r.params.length = true)
    (hc : sessionCheck (s.port r.port).session row.needsSession r.epoch = some st) :
    s.serve r code own = refusedEarly s r code st := by
  rw [serve_process own h hrow hlen]
  simp [State.process, hc, refusedEarly, Reply.bare, tookFrame_eq]

/-- A request that passes every check: its owner acts on `begun s r` and its reply is saved (R123, R125, R155, R158). -/
theorem serve_passes {s : State} {r : Request} {code : Byte} {row : CatalogueRow} (own : Owner)
    (h : Taken code r s) (hrow : catalogueRow code = some row) (hlen : row.lengthOk r.params.length = true)
    (hc : sessionCheck (s.port r.port).session row.needsSession r.epoch = none) :
    s.serve r code own = concluded (own r.port r.params (begun s r)).1 r code
      (own r.port r.params (begun s r)).2.status (own r.port r.params (begun s r)).2.results := by
  rw [serve_process own h hrow hlen]
  simp only [State.process, shifted_session, hc, begun_eq, concluded]
  rfl

/-- A request that needs no session. -/
theorem serve_taken {s : State} {r : Request} {code : Byte} {row : CatalogueRow} (own : Owner)
    (h : Taken code r s) (hrow : catalogueRow code = some row) (hlen : row.lengthOk r.params.length = true)
    (hn : row.needsSession = false) :
    s.serve r code own = concluded (own r.port r.params (begun s r)).1 r code
      (own r.port r.params (begun s r)).2.status (own r.port r.params (begun s r)).2.results :=
  serve_passes own h hrow hlen (by simp [sessionCheck, hn])

/-- A request of an OPEN port with its current epoch. -/
theorem serve_admitted {s : State} {r : Request} {code : Byte} {row : CatalogueRow} (own : Owner)
    (h : Admitted code r s) (hrow : catalogueRow code = some row) (hlen : row.lengthOk r.params.length = true) :
    s.serve r code own = concluded (own r.port r.params (begun s r)).1 r code
      (own r.port r.params (begun s r)).2.status (own r.port r.params (begun s r)).2.results :=
  serve_passes own h.1 hrow hlen (by simp [sessionCheck, h.2.1, h.2.2])

/-! ## What `begun` keeps -/

theorem begun_fields (s : State) (r : Request) :
    (begun s r).volumes = s.volumes ∧ (begun s r).intents = s.intents ∧ (begun s r).waiters = s.waiters
    ∧ (begun s r).arrival = s.arrival ∧ (begun s r).assignments = s.assignments ∧ (begun s r).pointer = s.pointer
    ∧ (begun s r).supply = s.supply ∧ (begun s r).startKind = s.startKind
    ∧ (begun s r).startDecided = s.startDecided ∧ (begun s r).warmStarts = s.warmStarts
    ∧ (begun s r).retentionValid = s.retentionValid ∧ (begun s r).pfail = s.pfail ∧ (begun s r).resetn = s.resetn
    ∧ (begun s r).ticks = s.ticks ∧ (begun s r).phase = s.phase ∧ (begun s r).refclk = s.refclk
    ∧ (begun s r).choices = s.choices ∧ (begun s r).pending = s.pending := by
  rw [begun_eq, State.renewLease]; split <;> simp [shifted]

@[simp] theorem begun_volumes (s : State) (r : Request) : (begun s r).volumes = s.volumes := (begun_fields s r).1
@[simp] theorem begun_intents (s : State) (r : Request) : (begun s r).intents = s.intents := (begun_fields s r).2.1
@[simp] theorem begun_waiters (s : State) (r : Request) : (begun s r).waiters = s.waiters := (begun_fields s r).2.2.1
@[simp] theorem begun_arrival (s : State) (r : Request) : (begun s r).arrival = s.arrival := (begun_fields s r).2.2.2.1
@[simp] theorem begun_assignments (s : State) (r : Request) : (begun s r).assignments = s.assignments :=
  (begun_fields s r).2.2.2.2.1
@[simp] theorem begun_pointer (s : State) (r : Request) : (begun s r).pointer = s.pointer :=
  (begun_fields s r).2.2.2.2.2.1
@[simp] theorem begun_supply (s : State) (r : Request) : (begun s r).supply = s.supply := by
  rw [begun_eq, State.renewLease]; split <;> simp [shifted]
@[simp] theorem begun_startKind (s : State) (r : Request) : (begun s r).startKind = s.startKind := by
  rw [begun_eq, State.renewLease]; split <;> simp [shifted]
@[simp] theorem begun_warmStarts (s : State) (r : Request) : (begun s r).warmStarts = s.warmStarts := by
  rw [begun_eq, State.renewLease]; split <;> simp [shifted]
@[simp] theorem begun_ticks (s : State) (r : Request) : (begun s r).ticks = s.ticks := by
  rw [begun_eq, State.renewLease]; split <;> simp [shifted]
@[simp] theorem begun_phase (s : State) (r : Request) : (begun s r).phase = s.phase := by
  rw [begun_eq, State.renewLease]; split <;> simp [shifted]
@[simp] theorem begun_moment (s : State) (r : Request) : (begun s r).moment = s.moment := by
  simp [State.moment]

@[simp] theorem begun_volume? (s : State) (r : Request) (v : Nat) : (begun s r).volume? v = s.volume? v :=
  State.volume?_of_volumes (by simp) v
@[simp] theorem begun_intent? (s : State) (r : Request) (k : Nat) : (begun s r).intent? k = s.intent? k :=
  State.intent?_of_intents (by simp) k
@[simp] theorem begun_assignment? (s : State) (r : Request) (k : Nat) : (begun s r).assignment? k = s.assignment? k :=
  State.assignment?_of_assignments (by simp) k
@[simp] theorem begun_waiterEntry (s : State) (r : Request) (k : Nat) : (begun s r).waiterEntry k = s.waiterEntry k :=
  State.waiterEntry_of_waiters (by simp) k
@[simp] theorem begun_waiter? (s : State) (r : Request) (k : Nat) : (begun s r).waiter? k = s.waiter? k :=
  State.waiter?_of_waiters (by simp) k

theorem begun_port_parts (s : State) (r : Request) (p : Port) :
    ((begun s r).port p).events = (s.port p).events ∧ ((begun s r).port p).link = (s.port p).link
    ∧ ((begun s r).port p).intents = (s.port p).intents ∧ ((begun s r).port p).assignments = (s.port p).assignments
    ∧ ((begun s r).port p).prst = (s.port p).prst ∧ ((begun s r).port p).attn = (s.port p).attn
    ∧ ((begun s r).port p).session.state = (s.port p).session.state
    ∧ ((begun s r).port p).session.epoch = (s.port p).session.epoch
    ∧ ((begun s r).port p).session.lease = (s.port p).session.lease
    ∧ ((begun s r).port p).session.config = (s.port p).session.config
    ∧ ((begun s r).port p).session.events = (s.port p).session.events := by
  rw [begun_eq, State.renewLease]
  by_cases hp : p = r.port
  · subst hp; split <;> simp [shifted]
  · have := eq_peer_of_ne hp; subst this; split <;> simp [shifted]

@[simp] theorem begun_events (s : State) (r : Request) (p : Port) :
    ((begun s r).port p).events = (s.port p).events := (begun_port_parts s r p).1
@[simp] theorem begun_link (s : State) (r : Request) (p : Port) :
    ((begun s r).port p).link = (s.port p).link := (begun_port_parts s r p).2.1
@[simp] theorem begun_intentCount (s : State) (r : Request) (p : Port) :
    ((begun s r).port p).intents = (s.port p).intents := (begun_port_parts s r p).2.2.1
@[simp] theorem begun_assignmentCount (s : State) (r : Request) (p : Port) :
    ((begun s r).port p).assignments = (s.port p).assignments := (begun_port_parts s r p).2.2.2.1
@[simp] theorem begun_prst (s : State) (r : Request) (p : Port) :
    ((begun s r).port p).prst = (s.port p).prst := (begun_port_parts s r p).2.2.2.2.1
@[simp] theorem begun_sessionState (s : State) (r : Request) (p : Port) :
    ((begun s r).port p).session.state = (s.port p).session.state := (begun_port_parts s r p).2.2.2.2.2.2.1
@[simp] theorem begun_epoch (s : State) (r : Request) (p : Port) :
    ((begun s r).port p).session.epoch = (s.port p).session.epoch := (begun_port_parts s r p).2.2.2.2.2.2.2.1
@[simp] theorem begun_lease (s : State) (r : Request) (p : Port) :
    ((begun s r).port p).session.lease = (s.port p).session.lease := (begun_port_parts s r p).2.2.2.2.2.2.2.2.1
@[simp] theorem begun_config (s : State) (r : Request) (p : Port) :
    ((begun s r).port p).session.config = (s.port p).session.config := (begun_port_parts s r p).2.2.2.2.2.2.2.2.2.1
@[simp] theorem begun_eventConfig (s : State) (r : Request) (p : Port) :
    ((begun s r).port p).session.events = (s.port p).session.events := (begun_port_parts s r p).2.2.2.2.2.2.2.2.2.2

/-- `concluded` changes the requester's link and the two ATTN lines and nothing else. -/
theorem concluded_sameTables (t : State) (r : Request) (code : Byte) (st : Status) (res : List Byte) :
    (concluded t r code st res).volumes = t.volumes ∧ (concluded t r code st res).intents = t.intents
    ∧ (concluded t r code st res).waiters = t.waiters ∧ (concluded t r code st res).arrival = t.arrival
    ∧ (concluded t r code st res).assignments = t.assignments ∧ (concluded t r code st res).pointer = t.pointer := by
  simp [concluded, tookFrame]

theorem withVolume_badParam {s : State} {v : Nat} (k : Volume → State × Reply) (h : 15 < v) :
    s.withVolume v k = (s, .bare .badParam) := by
  have : Config.volumes ≤ v := h
  simp [State.withVolume, this]

theorem withVolume_absent {s : State} {v : Nat} (k : Volume → State × Reply) (h : v ≤ 15) (hv : s.volume? v = none) :
    s.withVolume v k = (s, .bare .noVolume) := by
  have : ¬ Config.volumes ≤ v := by simp only [Config.volumes]; omega
  simp [State.withVolume, this, hv]

theorem withVolume_present {s : State} {v : Nat} {x : Volume} (k : Volume → State × Reply) (h : v ≤ 15)
    (hv : s.volume? v = some x) : s.withVolume v k = k x := by
  have : ¬ Config.volumes ≤ v := by simp only [Config.volumes]; omega
  simp [State.withVolume, this, hv]

end Sys2Proof.Machine
end

