-- ==== Sys2Proof/Laws/Timebase.lean ====
section
/-! SUPPORT. What the tick of an empty queue puts into the queue: which entries of a table are due, and what an order of
the lines of expiries can be. -/

namespace Sys2Proof.Machine

/-- The commands of a table's due entries are those of the entries that `due` picks, by their slots. -/
theorem mem_dueFrom {α : Type} {due : α → Bool} {cmd : Nat → Instr} {c : Instr} {k : Nat} {xs : List α} :
    c ∈ dueFrom due cmd k xs ↔ ∃ j x, xs[j]? = some x ∧ due x = true ∧ c = cmd (k + j) := by
  induction xs generalizing k with
  | nil => simp [dueFrom]
  | cons x xs ih =>
    have e (n : Nat) : k + 1 + n = k + (n + 1) := by omega
    have h : (∃ j y, (x :: xs)[j]? = some y ∧ due y = true ∧ c = cmd (k + j)) ↔
        (due x = true ∧ c = cmd k) ∨ ∃ j y, xs[j]? = some y ∧ due y = true ∧ c = cmd (k + 1 + j) := by
      constructor
      · rintro ⟨_ | j, y, hy, hd, rfl⟩
        · obtain rfl : x = y := by simpa using hy
          exact .inl ⟨hd, rfl⟩
        · exact .inr ⟨j, y, by simpa using hy, hd, by rw [e]⟩
      · rintro (⟨hd, rfl⟩ | ⟨j, y, hy, hd, rfl⟩)
        · exact ⟨0, x, rfl, hd, rfl⟩
        · exact ⟨j + 1, y, by simpa using hy, hd, by rw [e]⟩
    rw [h, ← ih, dueFrom]
    split <;> simp_all

/-- They stand in slot order, each once. -/
theorem dueFrom_sorted {α : Type} (due : α → Bool) (k : Nat) (xs : List α) :
    ∃ slots : List Nat, slots.Pairwise (· < ·) ∧ (∀ j ∈ slots, k ≤ j) ∧ ∀ cmd, dueFrom due cmd k xs = slots.map cmd := by
  induction xs generalizing k with
  | nil => exact ⟨[], .nil, by simp, fun _ => rfl⟩
  | cons x xs ih =>
    obtain ⟨slots, h1, h2, h3⟩ := ih (k + 1)
    cases h : due x with
    | true =>
      refine ⟨k :: slots, .cons (fun j hj => h2 j hj) h1, fun j hj => ?_, fun cmd => by simp [dueFrom, h, h3]⟩
      rcases List.mem_cons.1 hj with rfl | hj
      · exact Nat.le_refl _
      · exact Nat.le_of_succ_le (h2 j hj)
    | false => exact ⟨slots, h1, fun j hj => Nat.le_of_succ_le (h2 j hj), fun cmd => by simp [dueFrom, h, h3]⟩

/-- The lines after the first expiry of one of them is taken, that expiry in front, hold just what they held. -/
theorem perm_flatten_take {lines : List (List Instr)} {k : Nat} {c : Instr} {cs : List Instr} (h : lines[k]? = some (c :: cs)) :
    (c :: (if cs = [] then lines.eraseIdx k else lines.set k cs).flatten).Perm lines.flatten := by
  induction lines generalizing k with
  | nil => simp at h
  | cons l ls ih =>
    cases k with
    | zero =>
      obtain rfl : l = c :: cs := by simpa using h
      by_cases e : cs = [] <;> simp [e]
    | succ k =>
      have p := ih (k := k) (by simpa using h)
      by_cases e : cs = []
      · simp only [if_pos e, List.eraseIdx_cons_succ, List.flatten_cons] at p ⊢
        exact (List.perm_middle.symm).trans (p.append_left l)
      · simp only [if_neg e, List.set_cons_succ, List.flatten_cons] at p ⊢
        exact (List.perm_middle.symm).trans (p.append_left l)

/-- An order of the lines holds just their expiries, each as often as they do (R170). -/
theorem interleave_perm (fuel n : Nat) (lines : List (List Instr)) :
    (interleave fuel n lines).1.Perm lines.flatten := by
  induction fuel generalizing n lines with
  | zero => exact .refl _
  | succ fuel ih =>
    match lines with
    | [] => exact .refl _
    | [line] => simp [interleave]
    | a :: b :: rest =>
      rw [interleave]
      split
      · rename_i c cs h
        exact ((ih _ _).cons c).trans (perm_flatten_take h)
      · exact .refl _

/-- Every line keeps its own order (R58). -/
theorem interleave_sublist (fuel n : Nat) (lines : List (List Instr)) {line : List Instr} (h : line ∈ lines) :
    line.Sublist (interleave fuel n lines).1 := by
  induction fuel generalizing n lines line with
  | zero => exact List.sublist_flatten_of_mem h
  | succ fuel ih =>
    match lines with
    | [] => cases h
    | [l] =>
      obtain rfl := List.mem_singleton.1 h
      exact .refl _
    | a :: b :: rest =>
      rw [interleave]
      split
      · rename_i c cs hk
        generalize hl : (a :: b :: rest) = lines at h hk ⊢
        generalize hm : Config.freeChoice n % lines.length = k at hk ⊢
        obtain ⟨j, hj, rfl⟩ := List.mem_iff_getElem.1 h
        obtain ⟨hk', ek⟩ := List.getElem?_eq_some_iff.1 hk
        by_cases e : j = k
        · subst e
          rw [ek]
          refine .cons_cons c ?_
          by_cases n : cs = []
          · subst n; exact List.nil_sublist _
          · refine ih _ _ ?_
            rw [if_neg n]
            exact List.mem_iff_getElem?.2 ⟨j, by simp [hk']⟩
        · refine .cons c (ih _ _ ?_)
          split
          · exact List.mem_eraseIdx_iff_getElem.2 ⟨j, hj, e, rfl⟩
          · exact List.mem_iff_getElem?.2 ⟨j, by rw [List.getElem?_set_ne (Ne.symm e), List.getElem?_eq_getElem hj]⟩
      · exact List.sublist_flatten_of_mem h

/-! ## The intents due -/

/-- A list with its later repeats erased has none. -/
theorem eraseDups_nodup {α : Type} [BEq α] [LawfulBEq α] (l : List α) : l.eraseDups.Nodup := by
  induction h : l.length using Nat.strong_induction_on generalizing l with
  | _ n ih =>
    cases l with
    | nil => simp
    | cons a as =>
      rw [List.eraseDups_cons]
      refine .cons (fun hb => ?_) (ih _ (by
        rw [← h, List.length_cons]
        exact Nat.lt_succ_of_le (List.length_filter_le _ _)) _ rfl)
      simp [List.mem_eraseDups] at hb

/-- The expired deadlines are those of open intents. -/
theorem mem_dueDeadlines {s : State} {d : Nat} :
    d ∈ s.dueDeadlines ↔ s.expired d = true ∧ ∃ slot i, s.intent? slot = some i ∧ i.deadline = d := by
  simp only [State.dueDeadlines, List.mem_eraseDups, List.mem_filterMap, State.intent?, heldAt]
  constructor
  · rintro ⟨x, hx, h⟩
    obtain ⟨slot, hs⟩ := List.mem_iff_getElem?.1 hx
    split at h
    · rename_i i hi
      split at h
      · rename_i he
        cases h
        exact ⟨he, slot, i, by simp [hs, hi], rfl⟩
      · cases h
    · cases h
  · rintro ⟨he, slot, i, hi, rfl⟩
    split at hi
    · rename_i x hs
      exact ⟨x, List.mem_of_getElem? hs, by simp [hi, he]⟩
    · cases hi

/-- The intents due are those whose deadline has expired (R58). -/
theorem mem_dueIntents {s : State} {c : Instr} : c ∈ s.dueIntents.flatten ↔
    ∃ slot i, c = .intentExpiry slot ∧ s.intent? slot = some i ∧ s.expired i.deadline = true := by
  simp only [State.dueIntents, List.mem_flatten, List.mem_map]
  constructor
  · rintro ⟨_, ⟨d, hd, rfl⟩, hc⟩
    obtain ⟨j, x, hx, hi, rfl⟩ := mem_dueFrom.1 hc
    split at hi
    · rename_i i hh
      obtain rfl := of_decide_eq_true hi
      exact ⟨j, i, by rw [Nat.zero_add], by simp [State.intent?, heldAt, hx, hh], (mem_dueDeadlines.1 hd).1⟩
    · cases hi
  · rintro ⟨slot, i, rfl, hi, he⟩
    refine ⟨_, ⟨i.deadline, mem_dueDeadlines.2 ⟨he, slot, i, hi, rfl⟩, rfl⟩, mem_dueFrom.2 ?_⟩
    simp only [State.intent?, heldAt] at hi
    split at hi
    · rename_i x hx
      exact ⟨slot, x, hx, by simp [hi], by rw [Nat.zero_add]⟩
    · cases hi

end Sys2Proof.Machine
end

