-- ==== Sys2Proof/Laws/Told.lean ====
section
/-! SUPPORT. Which events a cause, a pass and the end of an intent or an assignment raise to each port, and in which
order. -/

namespace Sys2Proof.Machine

/-! ## Lists of events -/

@[simp] theorem EventUnit.takes_nil (u : EventUnit) : u.takes [] = u := rfl

theorem EventUnit.takes_append (u : EventUnit) (es fs : List Event) : u.takes (es ++ fs) = (u.takes es).takes fs := by
  simp [EventUnit.takes]

/-- What is told stays told. -/
theorem EventUnit.tells_takes_of_tells {u : EventUnit} {k : Kind} {sub : Subject} {val : EventValue} (h : u.tells k sub val)
    (es : List Event) : (u.takes es).tells k sub val := by
  induction es generalizing u with
  | nil => exact h
  | cons e es ih => exact ih (EventUnit.tells_take_of_tells h e.1 e.2.1 e.2.2)

/-- Every event of the list is told. -/
theorem EventUnit.tells_takes {es : List Event} {k : Kind} {sub : Subject} {val : EventValue} (h : (k, sub, val) ∈ es)
    (u : EventUnit) : (u.takes es).tells k sub val := by
  induction es generalizing u with
  | nil => cases h
  | cons e es ih =>
    rcases List.mem_cons.1 h with rfl | h
    · exact EventUnit.tells_takes_of_tells (EventUnit.tells_take u k sub val) es
    · exact ih h _

/-! ## Told -/

theorem Told.nil {s t : State} {p : Port} (h : (t.port p).events = (s.port p).events) : Told s t p [] := by
  simp [Told, h]

theorem Told.refl (s : State) (p : Port) : Told s s p [] := .nil rfl

theorem Told.of_events {s t u : State} {p : Port} {es : List Event} (h : Told s t p es)
    (he : (u.port p).events = (t.port p).events) : Told s u p es := by rw [Told, he]; exact h

theorem Told.trans {s t u : State} {p : Port} {es fs : List Event} (hs : (t.port p).session = (s.port p).session)
    (h : Told s t p es) (k : Told t u p fs) : Told s u p (es ++ fs) := by
  unfold Told at *
  rw [k, hs, h, EventUnit.takes_append]
  split <;> rfl

/-- An OPEN port is told every event of the list. -/
theorem Told.tells {s t : State} {p : Port} {es : List Event} {k : Kind} {sub : Subject} {val : EventValue}
    (h : Told s t p es) (ho : (s.port p).session.state = .opened) (he : (k, sub, val) ∈ es) :
    (t.port p).events.tells k sub val := by
  rw [h, if_pos ho]
  exact EventUnit.tells_takes he _

/-! ## Raising -/

theorem raise_told (s : State) (p q : Port) (k : Kind) (sub : Subject) (val : EventValue) :
    Told s (s.raise p k sub val) q (if q = p then [(k, sub, val)] else []) := by
  unfold State.raise
  by_cases hq : q = p
  · subst hq
    rw [if_pos rfl, Told]
    split <;> simp [EventUnit.takes]
  · rw [if_neg hq]
    refine .nil ?_
    have := eq_peer_of_ne hq
    subst this
    split <;> simp

theorem raiseAll_told (s : State) (p : Port) (k : Kind) (sub : Subject) (val : EventValue) :
    Told s (s.raiseAll k sub val) p [(k, sub, val)] := by
  have h := (raise_told s .p0 p k sub val).trans ((raise_onlyEvents s .p0 k sub val).session p)
    (raise_told (s.raise .p0 k sub val) .p1 p k sub val)
  cases p <;> exact h

theorem raiseTimes_told (s : State) (p : Port) (n : Nat) (k : Kind) (sub : Subject) (val : EventValue) :
    Told s (s.raiseTimes n k sub val) p (List.replicate n (k, sub, val)) := by
  induction n generalizing s with
  | zero => exact .refl s p
  | succ n ih => exact (raiseAll_told s p k sub val).trans ((raiseAll_onlyEvents s k sub val).session p) (ih _)

/-! ## A cause (R23, R24, R102, R116) -/

theorem enteringLost_eq (xs ys : List Extent) (h : ys.length = xs.length) :
    enteringLost xs ys = (List.range xs.length).countP fun e =>
      decide ((xs.getD e ⟨.void, 0, none⟩).state ≠ .lost ∧ (ys.getD e ⟨.void, 0, none⟩).state = .lost) := by
  induction xs generalizing ys with
  | nil => cases ys <;> rfl
  | cons x xs ih =>
    cases ys with
    | nil => cases h
    | cons y ys =>
      have := ih ys (by simpa using h)
      rw [enteringLost, this, List.length_cons, List.range_succ_eq_map, List.countP_cons, List.countP_map, Nat.add_comm]
      congr 1
      simp

/-- A change of extents raises EXTENT_LOST once for each extent that enters LOST, and nothing else (R24). -/
theorem changeExtents_told {s : State} {v : Nat} {x : Volume} (h : s.volume? v = some x) (f : Nat → Extent → Extent)
    (p : Port) : Told s (s.changeExtents v f) p (List.replicate
      (entersLost x (stateAt { x with extents := mapExtents f x.extents })) (.extentLost, .volume v, .zero)) := by
  have hn : enteringLost x.extents (mapExtents f x.extents)
      = entersLost x (stateAt { x with extents := mapExtents f x.extents }) := enteringLost_eq _ _ (mapExtents_length f _)
  rw [State.changeExtents, h]
  dsimp only
  rw [hn]
  exact raiseTimes_told (s.setVolume v (some (Volume.recount { x with extents := mapExtents f x.extents }))) p _ _ _ _

/-- A rebuilt copy ONLINE moves no count (R15, R16). -/
theorem setHealth_online_counts {x : Volume} {c : Copy} (hc : x.recount = x) (hr : x.health c = .rebuilding) :
    (∀ d, ((x.setHealth c .online).copy d).stale = (x.copy d).stale)
      ∧ (x.setHealth c .online).repairNeeded = x.repairNeeded := by
  have hn (st : Coherence) (h : Health) : needsRepair st .online h = needsRepair st .rebuilding h
      ∧ needsRepair st h .online = needsRepair st h .rebuilding := by
    cases st <;> cases h <;> exact ⟨rfl, rfl⟩
  refine ⟨fun d => ?_, ?_⟩
  · conv_rhs => rw [← hc]
    cases c <;> cases d <;> rfl
  · conv_rhs => rw [← hc]
    cases c
    · have hr : x.copyA.health = .rebuilding := hr
      show repairNeededOf x.extents .online x.copyB.health = repairNeededOf x.extents x.copyA.health x.copyB.health
      simp only [repairNeededOf, hr, hn]
    · have hr : x.copyB.health = .rebuilding := hr
      show repairNeededOf x.extents x.copyA.health .online = repairNeededOf x.extents x.copyA.health x.copyB.health
      simp only [repairNeededOf, hr, hn]

/-- The volume with copy `c` ONLINE if it was REBUILDING with nothing stale left (R116). -/
def Volume.rebuiltIn (x : Volume) (c : Copy) : Volume :=
  if x.health c = .rebuilding ∧ (x.copy c).stale = 0 then x.setHealth c .online else x

theorem rebuiltIn_does {x : Volume} (hc : x.recount = x) (c : Copy) :
    x.Settled (x.rebuiltIn c) ∧ (x.rebuiltIn c).extents = x.extents
      ∧ (∀ d, ((x.rebuiltIn c).copy d).stale = (x.copy d).stale) ∧ (x.rebuiltIn c).repairNeeded = x.repairNeeded
      ∧ (x.rebuiltIn c).recount = x.rebuiltIn c ∧ (x.rebuiltIn c).health (other c) = x.health (other c)
      ∧ (x.rebuiltIn c).health c = if x.health c = .rebuilding ∧ (x.copy c).stale = 0 then .online else x.health c := by
  unfold Volume.rebuiltIn
  split
  · rename_i h
    have := setHealth_online_counts hc h.1
    exact ⟨setHealth_settled x c _, setHealth_extents x c _, this.1, this.2, recount_recount _,
      setHealth_health_other x c _, setHealth_health_self x c _⟩
  · exact ⟨.refl x, rfl, fun _ => rfl, rfl, hc, rfl, rfl⟩

theorem completeRebuild_told {s : State} {v : Nat} {x : Volume} (h : s.volume? v = some x) (c : Copy) (p : Port) :
    Told s (s.completeRebuild v c) p
      (if x.health c = .rebuilding ∧ (x.copy c).stale = 0 then [(.copyOnline, .copy v c, .zero)] else []) := by
  rw [State.completeRebuild, h]
  dsimp only
  split
  · exact raiseAll_told (s.setVolume v (some (x.setHealth c .online))) p _ _ _
  · exact .refl s p

theorem completeRebuild_volume {s : State} {v : Nat} {x : Volume} (h : s.volume? v = some x) (c : Copy) :
    (s.completeRebuild v c).volume? v = some (x.rebuiltIn c) := by
  rw [State.completeRebuild, h]
  unfold Volume.rebuiltIn
  dsimp only
  split
  · rw [(raiseAll_onlyEvents _ _ _ _).volume? v, State.volume?_setVolume h, if_pos rfl]
  · exact h

theorem completeRebuild_session (s : State) (v : Nat) (c : Copy) (p : Port) :
    ((s.completeRebuild v c).port p).session = (s.port p).session := by
  cases h : s.volume? v with
  | none => rw [completeRebuild_absent h]
  | some x =>
    obtain ⟨x', -, -, -, o⟩ := completeRebuild_does h c
    rw [o.session p, State.setVolume_port]

theorem raiseRepairPending_told {s : State} {v : Nat} {x : Volume} (h : s.volume? v = some x) (before : Nat) (p : Port) :
    Told s (s.raiseRepairPending v before) p
      (if before = 0 ∧ 0 < x.repairNeeded then [(.repairPending, .volume v, .zero)] else []) := by
  simp only [State.raiseRepairPending, State.repairNeeded, h]
  split
  · exact raiseAll_told s p _ _ _
  · exact .refl s p

theorem completeRebuilds_session (s : State) (v : Nat) (p : Port) :
    ((s.completeRebuilds v).port p).session = (s.port p).session := ((completeRebuilds_sameElsewhere s v).1 p).1

/-- What completing the rebuilds leaves of a volume whose counts agree, and what it raises: COPY_ONLINE for each REBUILDING
copy with nothing stale (R116). -/
theorem completeRebuilds_told {s : State} {v : Nat} {x : Volume} (h : s.volume? v = some x) (hc : x.recount = x) :
    ∃ x', (s.completeRebuilds v).volume? v = some x' ∧ x.Settled x' ∧ x'.extents = x.extents ∧ HealthsSettled x x'
      ∧ (∀ c, (x'.copy c).stale = (x.copy c).stale) ∧ x'.repairNeeded = x.repairNeeded ∧ x'.recount = x'
      ∧ ∀ p, Told s (s.completeRebuilds v) p
          (([Copy.a, .b].filter fun c => decide (x.health c = .rebuilding ∧ (x'.copy c).stale = 0)).map
              fun c => (.copyOnline, .copy v c, .zero)) := by
  obtain ⟨sa, ea, ta, na, ca, oa, ha⟩ := rebuiltIn_does hc .a
  obtain ⟨sb, eb, tb, nb, cb, ob, hb⟩ := rebuiltIn_does ca .b
  have oa : (x.rebuiltIn .a).health .b = x.health .b := oa
  have ob : ((x.rebuiltIn .a).rebuiltIn .b).health .a = (x.rebuiltIn .a).health .a := ob
  have h2 := completeRebuild_volume h .a
  refine ⟨(x.rebuiltIn .a).rebuiltIn .b, completeRebuild_volume h2 .b, sa.trans sb, eb.trans ea, fun c => ?_,
    fun c => (tb c).trans (ta c), nb.trans na, cb, fun p => ?_⟩
  · cases c with
    | a => rw [ob, ha, tb, ta]
    | b => rw [hb, tb, ta, oa]
  · have r := (completeRebuild_told h .a p).trans (completeRebuild_session _ v .a p) (completeRebuild_told h2 .b p)
    rw [oa, ta] at r
    have e : ([Copy.a, .b].filter fun c => decide (x.health c = .rebuilding ∧
        (((x.rebuiltIn .a).rebuiltIn .b).copy c).stale = 0)).map (fun c => ((.copyOnline, .copy v c, .zero) : Event))
        = (if x.health .a = .rebuilding ∧ (x.copy .a).stale = 0 then [(.copyOnline, .copy v .a, .zero)] else [])
          ++ if x.health .b = .rebuilding ∧ (x.copy .b).stale = 0 then [(.copyOnline, .copy v .b, .zero)] else [] := by
      simp only [tb, ta, List.filter_cons, List.filter_nil]
      split <;> split <;> simp_all
    rw [e]
    exact r

theorem stateAt_extents {x y : Volume} (h : y.extents = x.extents) : stateAt y = stateAt x := by
  funext e; simp [stateAt, h]

/-- What one cause raises before the rebuilds are completed: EXTENT_LOST for each extent that enters LOST, then
REPAIR_PENDING on a rise of the repair-needed count from 0 (R24, R102). -/
def settledEvents (v : Nat) (x x' : Volume) : List Event :=
  List.replicate (entersLost x (stateAt x')) (.extentLost, .volume v, .zero)
    ++ if x.repairNeeded = 0 ∧ 0 < x'.repairNeeded then [(.repairPending, .volume v, .zero)] else []

/-- A change of extents, then in any state `u` that still holds the changed volume the test for REPAIR_PENDING (R24, R102). -/
theorem settle_told {s u : State} {v : Nat} {x : Volume} (h : s.volume? v = some x) (f : Nat → Extent → Extent)
    (hu : u.volume? v = some { x with extents := mapExtents f x.extents }.recount)
    (he : ∀ p, (u.port p).events = ((s.changeExtents v f).port p).events)
    (hp : ∀ p, (u.port p).session = (s.port p).session) (p : Port) :
    Told s (u.raiseRepairPending v (s.repairNeeded v)) p
      (settledEvents v x { x with extents := mapExtents f x.extents }.recount) := by
  have r := ((changeExtents_told h f p).of_events (he p)).trans (hp p) (raiseRepairPending_told hu (s.repairNeeded v) p)
  simp only [State.repairNeeded, h] at r ⊢
  exact r

/-- Completing the rebuilds after a cause: together they raise what `consequencesOf` lists (R23, R24, R102, R116). -/
theorem cause_told {s t : State} {v n : Nat} {x : Volume} (f : Nat → Extent → Extent)
    (hx : t.volume? v = some { Volume.recount { x with extents := mapExtents f x.extents } with openIntents := n })
    (hp : ∀ p, (t.port p).session = (s.port p).session)
    (ht : ∀ p, Told s t p (settledEvents v x { x with extents := mapExtents f x.extents }.recount)) :
    ∃ x', (t.completeRebuilds v).volume? v = some x' ∧ x'.extents = mapExtents f x.extents ∧ x'.fixed = x.fixed
      ∧ x'.copyA.errors = x.copyA.errors ∧ x'.copyB.errors = x.copyB.errors ∧ x'.openIntents = n
      ∧ HealthsSettled x x' ∧ ∀ p, Told s (t.completeRebuilds v) p (consequencesOf v x x') := by
  have hh (c : Copy) : ({ Volume.recount { x with extents := mapExtents f x.extents } with openIntents := n } :
      Volume).health c = x.health c := by cases c <;> rfl
  obtain ⟨x', hv, sx, ex, hs, -, hn, -, hto⟩ := completeRebuilds_told hx rfl
  refine ⟨x', hv, ex, sx.fixed, sx.errorsA, sx.errorsB, sx.openIntents, fun c => by rw [hs, hh], fun p => ?_⟩
  have r := (ht p).trans (hp p) (hto p)
  simp only [hh] at r
  rw [consequencesOf, show stateAt x' = stateAt { x with extents := mapExtents f x.extents } from stateAt_extents ex,
    show x'.repairNeeded = (Volume.recount { x with extents := mapExtents f x.extents }).repairNeeded from hn]
  exact r

/-- All that a cause with its consequences raises, and the healths it leaves (R23, R24, R102, R116). -/
theorem applyCause_told {s : State} {v : Nat} {x : Volume} (h : s.volume? v = some x) (f : Nat → Extent → Extent) :
    ∃ x', (s.applyCause v f).volume? v = some x' ∧ x'.extents = mapExtents f x.extents ∧ x.Settled x' ∧ HealthsSettled x x'
      ∧ ∀ p, Told s (s.applyCause v f) p (consequencesOf v x x') := by
  have o := changeExtents_does h f
  have hu : (s.changeExtents v f).volume? v = some { x with extents := mapExtents f x.extents }.recount := by
    rw [o.volume? v, State.volume?_setVolume h, if_pos rfl]
  have hp (p : Port) : ((s.changeExtents v f).port p).session = (s.port p).session := by
    rw [o.session p, State.setVolume_port]
  have r := raiseRepairPending_onlyEvents (s.changeExtents v f) v (s.repairNeeded v)
  obtain ⟨x', hx, ex, a, b, c, d, hs, ht⟩ := cause_told (s := s) (n := x.openIntents)
    (t := (s.changeExtents v f).raiseRepairPending v (s.repairNeeded v)) f ((r.volume? v).trans hu)
    (fun p => (r.session p).trans (hp p)) (settle_told h f hu (fun _ => rfl) hp)
  exact ⟨x', hx, ex, ⟨a, b, c, d⟩, hs, ht⟩

/-! ## A pass (R75), the end of an intent (R56, R57) and of an assignment (R94, R95) -/

@[simp] theorem grant_events (s : State) (slot : Nat) (i : Intent) (p : Port) :
    ((s.grant slot i).port p).events = (s.port p).events := by
  simp only [State.grant, State.modVolume]
  split <;> cases p <;> cases i.port <;> rfl

/-- Every other waiter slot is as it was after a visit. -/
theorem visit_slot_ne (s : State) {w k : Nat} (h : k ≠ w) : (s.visit w).waiters[k]? = s.waiters[k]? := by
  rcases visit_cases s w with e | ⟨x, slot, vol, hx, hg, hv⟩
  · rw [e]
  · rw [visit_grants hx hg hv, (raise_onlyEvents _ _ _ _ _).waiters]
    exact hold_getElem?_ne _ h _

/-- A waiter that still waits after a visit is just where it was. -/
theorem visit_waits {s : State} {w k : Nat} {x : Waiter} (h : (s.visit w).waiter? k = some x) :
    (s.visit w).waiters[k]? = s.waiters[k]? ∧ (k ∈ s.arrival → k ∈ (s.visit w).arrival) := by
  rcases visit_cases s w with e | ⟨y, slot, vol, hy, hg, hv⟩
  · rw [e]; exact ⟨rfl, id⟩
  · have hk : k ≠ w := by
      rintro rfl
      rw [visit_grants hy hg hv, (raise_onlyEvents _ _ _ _ _).waiter? k] at h
      simp only [State.waiter?, State.waiterEntry, hold_getElem?_self (State.waiter?_lt hy), reduceCtorEq] at h
    refine ⟨visit_slot_ne s hk, fun ha => ?_⟩
    rw [visit_grants hy hg hv, (raise_onlyEvents _ _ _ _ _).arrival]
    exact List.mem_filter.2 ⟨ha, by simpa using hk⟩

/-- A grant told of stays so through a later visit. -/
theorem GrantTold.visit {s t : State} {p : Port} {g : Event} (h : GrantTold s t p g) (w : Nat) : GrantTold s (t.visit w) p g := by
  obtain ⟨k, x, tag, i, ha, hx, hp, he, hi, hg, rest⟩ := h
  obtain ⟨y, hy, hh⟩ := heldAt_some hi
  have hy' := (visit_grantsOnly t w).intents tag.slot y hy (by rw [hh]; rfl)
  refine ⟨k, x, tag, i, ha, hx, hp, ?_, ?_, ?_, rest⟩
  · by_cases hw : k = w
    · subst hw
      have : t.visit k = t := by simp only [State.visit, State.waiter?, he]
      rw [this, he]
    · rw [← he, State.waiterEntry, State.waiterEntry, visit_slot_ne t hw]
  · rw [State.intent?, heldAt, hy']; exact hh
  · rw [genAt, hy']
    rw [genAt, hy] at hg
    exact hg

/-- What later grants tell, seen from before a visit. -/
theorem GrantTold.of_visit {s t : State} {p : Port} {g : Event} {w : Nat} (h : GrantTold (s.visit w) t p g) :
    GrantTold s t p g := by
  obtain ⟨k, x, tag, i, ha, hx, hp, he, hi, hg, h1, h2, h3, h4, h5, rfl⟩ := h
  have hk := (visit_waits hx).1
  refine ⟨k, x, tag, i, (visit_grantsOnly s w).arrival.subset ha, ?_, hp, he, hi, hg, h1, h2, h3, h4, h5, ?_⟩
  · rw [← hx, State.waiter?, State.waiter?, State.waiterEntry, State.waiterEntry, hk]
  · rw [genAt, genAt, hk]

/-- One visit of a pass tells of the grant it makes, or raises nothing (R75). -/
theorem visit_told {s : State} {w : Nat} (hw : (s.waiter? w).isSome → w ∈ s.arrival) (p : Port) :
    ∃ es : List Event, (∀ e ∈ es, GrantTold s (s.visit w) p e) ∧ Told s (s.visit w) p es := by
  rcases visit_cases s w with e | ⟨x, slot, vol, hx, hg, hv⟩
  · rw [e]; exact ⟨[], by simp, .refl s p⟩
  · have hf := grantable_free hg
    obtain ⟨hl, -, -⟩ := lowestFree_spec hf
    rw [visit_grants hx hg hv]
    generalize hi : s.newIntent x.port x.epoch x.volume vol x.firstBlock x.blockCount = i
    have g := (grant_grantsOnly hf i).elsewhere
    let t : State := { s.grant slot i with
      waiters := hold s.waiters w (.granted x.port x.epoch (s.nextIntentTag slot))
      arrival := s.arrival.filter (· ≠ w) }
    have he : (t.port p).events = (s.port p).events := by
      rw [← grant_events s slot i p]; cases p <;> rfl
    have hs : (t.port p).session = (s.port p).session := by
      rw [← (g.1 p).1]; cases p <;> rfl
    refine ⟨[] ++ _, ?_, (Told.nil he).trans hs (raise_told t x.port p _ _ _)⟩
    have o := raise_onlyEvents t x.port .waitGranted (.ticket ⟨w, genAt s.waiters w⟩) (.intent (s.nextIntentTag slot))
    rw [List.nil_append]
    intro e he
    split at he
    · rename_i hp
      obtain rfl := List.mem_singleton.1 he
      refine ⟨w, x, s.nextIntentTag slot, i, hw (by rw [hx]; rfl), hx, hp.symm, ?_, ?_, ?_, ?_, ?_, ?_, ?_, ?_, rfl⟩
      · rw [o.waiterEntry]
        simp only [State.waiterEntry, hold_getElem?_self (State.waiter?_lt hx), t, hp]
      · rw [o.intent?]
        simp only [State.intent?, heldAt, t, grant_intents, State.nextIntentTag, place_getElem?_self hl]
      · rw [o.intents]
        simp only [genAt, t, grant_intents, State.nextIntentTag, place_getElem?_self hl]
      · subst hi hp; rfl
      all_goals subst hi; rfl
    · cases he

theorem foldl_visit_told (l : List Nat) (s : State) (p : Port)
    (hl : ∀ w ∈ l, (s.waiter? w).isSome → w ∈ s.arrival) :
    ∃ es : List Event, (∀ e ∈ es, GrantTold s (l.foldl State.visit s) p e) ∧ Told s (l.foldl State.visit s) p es := by
  induction l generalizing s with
  | nil => exact ⟨[], by simp, .refl s p⟩
  | cons w l ih =>
    obtain ⟨es, h1, h2⟩ := visit_told (hl w List.mem_cons_self) p
    obtain ⟨fs, k1, k2⟩ := ih (s.visit w) fun k hk hx => by
      obtain ⟨x, hx⟩ := Option.isSome_iff_exists.1 hx
      obtain ⟨e, ha⟩ := visit_waits hx
      refine ha (hl k (List.mem_cons_of_mem _ hk) ?_)
      rw [State.waiter?, State.waiterEntry, ← e]
      exact Option.isSome_iff_exists.2 ⟨x, hx⟩
    refine ⟨es ++ fs, fun e he => ?_, h2.trans ((visit_grantsOnly s w).elsewhere.1 p).1 k2⟩
    rcases List.mem_append.1 he with he | he
    · exact List.foldlRecOn (motive := fun t => GrantTold s t p e) l State.visit (h1 e he) fun t ht k _ => ht.visit k
    · exact (k1 e he).of_visit

/-- A pass raises WAIT_GRANTED alone, one for each of its grants (R75). -/
theorem pass_told (s : State) (p : Port) : ∃ es : List Event, (∀ e ∈ es, GrantTold s s.pass p e) ∧ Told s s.pass p es :=
  foldl_visit_told s.arrival s p fun _ h _ => h

/-- The end of an intent, its rebuilds not yet completed, raises EXTENT_LOST and REPAIR_PENDING and nothing else (R24, R56,
R57, R102). -/
theorem settleIntent_told {s : State} {slot : Nat} {i : Intent} {x : Volume} (hi : s.intent? slot = some i)
    (hv : s.volume? i.volume = some x) (rule : Volume → Intent → Nat → Extent → Extent) (p : Port) :
    Told s (s.settleIntent slot rule) p
      (settledEvents i.volume x (Volume.recount { x with extents := mapExtents (rule x i) x.extents })) := by
  obtain ⟨-, -, -, -, -, -, -, -, -, he, -⟩ := settleIntent_does hi hv rule
  have o := changeExtents_does hv (rule x i)
  exact (settle_told hv (rule x i) (by rw [o.volume?, State.volume?_setVolume hv, if_pos rfl]) (fun _ => rfl)
    (fun p => by rw [o.session p, State.setVolume_port]) p).of_events (he p)

/-- The end of an intent raises the consequences of its extent changes, and nothing else (R23, R56, R57). -/
theorem endIntent_told {s : State} {slot : Nat} {i : Intent} {x : Volume} (hi : s.intent? slot = some i)
    (hv : s.volume? i.volume = some x) (rule : Volume → Intent → Nat → Extent → Extent) :
    ∃ x', (s.endIntent slot rule).volume? i.volume = some x' ∧ x'.extents = mapExtents (rule x i) x.extents
      ∧ HealthsSettled x x' ∧ ∀ p, Told s (s.endIntent slot rule) p (consequencesOf i.volume x x') := by
  obtain ⟨he, -, hx, -⟩ := settleIntent_does hi hv rule
  obtain ⟨x', hv', ex, -, -, -, -, hs, ht⟩ := cause_told (rule x i) hx (fun p => (he.1 p).1) (settleIntent_told hi hv rule)
  rw [endIntent_settles hi]
  exact ⟨x', hv', ex, hs, ht⟩

/-- The end of an assignment, its rebuilds not yet completed, raises EXTENT_LOST and REPAIR_PENDING and nothing else (R24,
R94, R95, R102). -/
theorem settleAssignment_told {s : State} {a : Assignment} {x : Volume} (slot : Nat) (hv : s.volume? a.volume = some x)
    (rule : Coherence → Coherence) (p : Port) : Told s (s.settleAssignment slot a rule) p
      (settledEvents a.volume x (Volume.recount { x with extents := mapExtents (endExtent a rule) x.extents })) := by
  have o := changeExtents_does hv (endExtent a rule)
  obtain ⟨f1, -, -, -, -, -, f7⟩ := freeAssignment_fields (s.changeExtents a.volume (endExtent a rule)) slot a
  exact settle_told (u := (s.changeExtents a.volume (endExtent a rule)).freeAssignment slot a) hv (endExtent a rule)
    (by rw [State.volume?_of_volumes f1, o.volume?, State.volume?_setVolume hv, if_pos rfl]) f7
    (fun p => by rw [((freeAssignment_elsewhere _ slot a).1 p).1, o.session p, State.setVolume_port]) p

/-- The end of an assignment raises the consequences of its extent's change, and nothing else (R23, R94, R95). -/
theorem endAssignment_told {s : State} {a : Assignment} {x : Volume} (slot : Nat) (hv : s.volume? a.volume = some x)
    (rule : Coherence → Coherence) :
    ∃ x', (s.endAssignment slot a rule).volume? a.volume = some x' ∧ x'.extents = mapExtents (endExtent a rule) x.extents
      ∧ HealthsSettled x x' ∧ ∀ p, Told s (s.endAssignment slot a rule) p (consequencesOf a.volume x x') := by
  obtain ⟨he, -, hx, -⟩ := settleAssignment_does slot hv rule
  obtain ⟨x', hv', ex, -, -, -, -, hs, ht⟩ := cause_told (n := x.openIntents) (endExtent a rule) hx (fun p => (he.1 p).1)
    (settleAssignment_told slot hv rule)
  exact ⟨x', hv', ex, hs, ht⟩

end Sys2Proof.Machine
end

