-- ==== Sys2Proof/Tests/Slice0.lean ====
section
/-! SUPPORT. Tests on small states, the expected values from the manual's worked examples and tables (each section names
its source), the ill-formed term of every well-formedness check, and one witness per statement that has hypotheses. -/

namespace Sys2Proof.Tests

open Sys2Proof.Machine

set_option maxRecDepth 100000

/-! ## Small states -/

/-- An OPEN session with the defaults and epoch 1, opened at moment 0 with a lease of 1,000 ms. -/
def session : Session :=
  { state := .opened, epoch := 1, lease := 1000, deadline := some 25000000, config := PortConfig.reset
    events := eventConfigReset }

/-- Both ports OPEN, nothing else. -/
def base : State :=
  { State.reset with
    port0 := { PortRecord.reset with session := session }, port1 := { PortRecord.reset with session := session } }

/-- A volume of the given geometry and extent states, as CREATE_VOLUME sets the rest. -/
def record (shift blocks : Nat) (states : List Coherence) : Volume :=
  Volume.recount
    { condition := .normal, blockCount := blocks, shift := shift, extentCount := states.length, slotBase := 0
      copyA := ⟨.online, 0, 0⟩, copyB := ⟨.online, 0, 0⟩, threshold := 8, policy := .alternate, authority := .a, toggle := .a
      counts := ⟨0, 0, 0, 0, 0, 0⟩, repairNeeded := 0, cursor := 0, openIntents := 0
      extents := states.map fun st => ⟨st, 0, none⟩ }

/-- `base` with a volume. -/
def withVol (v : Nat) (x : Volume) : State := base.setVolume v (some x)

/-- A burst begun after the port finished with its previous request frame. -/
def on (p : Port) : Select := ⟨p, false⟩

/-- A burst begun while the port still acts on its previous request frame. -/
def early (p : Port) : Select := ⟨p, true⟩

/-- A request of a port with sequence 5 and epoch 1. -/
def req (p : Port) (ps : List Byte) : Request := ⟨on p, 5, 1, ps⟩

/-- An intent of a port over blocks and extents with its two reports, deadline 5,000 ms after moment 0. -/
def intent (p : Port) (v first count lo n : Nat) (a b : Report) : Intent :=
  ⟨p, 1, v, first, count, lo, n, 125000000, a, b⟩

/-- The state a command leaves, `State.reset` where it answers none. -/
def after (c : Instr) (s : State) : State :=
  match exec c s with
  | .next t => t
  | _ => State.reset

/-- Status, echo, length and results of the saved response of a port. -/
def said (s : State) (p : Port) : List Byte := ((s.port p).link.saved.getD []).dropLast.dropLast

/-- The extent states of a volume. -/
def states (s : State) (v : Nat) : List Coherence :=
  match s.volume? v with
  | some x => x.extents.map Extent.state
  | none => []

/-- The kinds in a port's queue, in arrival order. -/
def kinds (s : State) (p : Port) : List Kind := (s.port p).events.records.map EventRecord.kind

/-! ## Well-formedness: each check refuses its ill-formed term -/

theorem test_wf_params_41 :
    (Instr.identify (req .p0 (List.replicate 41 0))).wf = false ∧ (Instr.openSession (req .p0 (List.replicate 41 0))).wf = false
    ∧ (Instr.renew (req .p0 (List.replicate 41 0))).wf = false ∧ (Instr.closeSession (req .p0 (List.replicate 41 0))).wf = false
    ∧ (Instr.portConfig (req .p0 (List.replicate 41 0))).wf = false ∧ (Instr.fetchEvent (req .p0 (List.replicate 41 0))).wf = false
    ∧ (Instr.ackEvent (req .p0 (List.replicate 41 0))).wf = false ∧ (Instr.eventConfig (req .p0 (List.replicate 41 0))).wf = false
    ∧ (Instr.createVolume (req .p0 (List.replicate 41 0))).wf = false ∧ (Instr.deleteVolume (req .p0 (List.replicate 41 0))).wf = false
    ∧ (Instr.volumeStatus (req .p0 (List.replicate 41 0))).wf = false ∧ (Instr.setVolume (req .p0 (List.replicate 41 0))).wf = false
    ∧ (Instr.route (req .p0 (List.replicate 41 0))).wf = false ∧ (Instr.extentStates (req .p0 (List.replicate 41 0))).wf = false
    ∧ (Instr.retireRange (req .p0 (List.replicate 41 0))).wf = false
    ∧ (Instr.reportReadFailure (req .p0 (List.replicate 41 0))).wf = false := by decide

theorem test_wf_params_41_rest :
    (Instr.openIntent (req .p0 (List.replicate 41 0))).wf = false ∧ (Instr.reportWrite (req .p0 (List.replicate 41 0))).wf = false
    ∧ (Instr.abandonIntent (req .p0 (List.replicate 41 0))).wf = false ∧ (Instr.intentStatus (req .p0 (List.replicate 41 0))).wf = false
    ∧ (Instr.cancelWait (req .p0 (List.replicate 41 0))).wf = false ∧ (Instr.takeRepair (req .p0 (List.replicate 41 0))).wf = false
    ∧ (Instr.repairDone (req .p0 (List.replicate 41 0))).wf = false ∧ (Instr.releaseRepair (req .p0 (List.replicate 41 0))).wf = false
    ∧ (Instr.failCopy (req .p0 (List.replicate 41 0))).wf = false ∧ (Instr.replaceCopy (req .p0 (List.replicate 41 0))).wf = false
    ∧ (Instr.clearErrors (req .p0 (List.replicate 41 0))).wf = false ∧ (Instr.format (req .p0 (List.replicate 41 0))).wf = false
    ∧ (Instr.identify (req .p0 (List.replicate 40 0))).wf = true := by decide

theorem test_wf_bursts :
    (Instr.readBurst (on .p0) 0).wf = false ∧ (Instr.readBurst (on .p0) 1).wf = true ∧ (Instr.frameError (on .p0) []).wf = false
    ∧ (Instr.frameError (on .p0) [0, 5]).wf = false
    ∧ (Instr.frameError (on .p0) [0x01, 0x05, 0x00, 0x00, 0x00, 0x07, 0x18]).wf = false
    ∧ (Instr.badCode (req .p0 []) 0).wf = false ∧ (Instr.badCode (req .p0 []) 0x21).wf = false
    ∧ (Instr.badCode (req .p0 (List.replicate 41 0)) 0x77).wf = false ∧ (Instr.badCode (req .p0 []) 0x77).wf = true := by
  decide

theorem test_wf_slots :
    (Instr.intentExpiry 192).wf = false ∧ (Instr.intentExpiry 191).wf = true ∧ (Instr.waiterExpiry 32).wf = false
    ∧ (Instr.waiterExpiry 31).wf = true ∧ (Instr.assignmentExpiry 32).wf = false ∧ (Instr.assignmentExpiry 31).wf = true := by
  decide

/-! ## Frames: the check value of R152; bursts written out byte by byte from Tables 9-3 and 9-5, their CRCs computed by hand
from R152 outside the model -/

theorem test_crc_check_value : crc16 [0x31, 0x32, 0x33, 0x34, 0x35, 0x36, 0x37, 0x38, 0x39] = 0x29B1 := by decide

theorem test_burst_identify :
    decodeBurst (on .p0) [0x01, 0x05, 0x00, 0x00, 0x00, 0x07, 0x18] = some (.identify ⟨on .p0, 5, 0, []⟩) := by decide

theorem test_burst_renew :
    decodeBurst (on .p1) [0x03, 0x42, 0x00, 0x0C, 0x00, 0x39, 0x47] = some (.renew ⟨on .p1, 0x42, 12, []⟩) := by decide

theorem test_burst_eventConfig :
    decodeBurst (on .p0) [0x0A, 0x05, 0x00, 0x01, 0x03, 0x06, 0x00, 0x01, 0x4A, 0xE9]
      = some (.eventConfig (req .p0 [6, 0, 1])) := by decide

theorem test_burst_createVolume :
    decodeBurst (on .p0) [0x10, 0x06, 0x00, 0x01, 0x0A, 0x00, 0x08, 0x00, 0x00, 0x00, 0x03, 0xE8, 0x00, 0x00, 0x00, 0xCC, 0x62]
      = some (.createVolume ⟨on .p0, 6, 1, [0, 8, 0, 0, 0, 3, 0xE8, 0, 0, 0]⟩) := by decide

theorem test_burst_openIntent :
    decodeBurst (on .p1) [0x20, 0x11, 0x00, 0x07, 0x0C, 0x05, 0x00, 0x00, 0x00, 0x00, 0x64, 0x00, 0x00, 0x01, 0x2C, 0x00, 0x00,
      0xF7, 0x5F] = some (.openIntent ⟨on .p1, 0x11, 7, [5, 0, 0, 0, 0, 100, 0, 0, 1, 44, 0, 0]⟩) := by decide

theorem test_burst_takeRepair :
    decodeBurst (on .p0) [0x28, 0x05, 0x00, 0x01, 0x01, 0xFF, 0x0F, 0xFC] = some (.takeRepair (req .p0 [0xFF])) := by decide

theorem test_burst_failCopy :
    decodeBurst (on .p0) [0x30, 0x05, 0x00, 0x01, 0x02, 0x06, 0x02, 0x79, 0x72] = some (.failCopy (req .p0 [6, 2])) := by decide

theorem test_burst_badCode :
    decodeBurst (on .p0) [0x77, 0x05, 0x00, 0x01, 0x00, 0xE4, 0x2A] = some (.badCode (req .p0 []) 0x77) := by decide

theorem test_burst_read : decodeBurst (on .p0) [0, 9, 9] = some (.readBurst (on .p0) 3) := by decide

/-- 9.5, step 3: the RENEW frame with a bit of its CRC damaged. -/
theorem test_burst_damaged :
    decodeBurst (on .p0) [0x03, 0x42, 0x00, 0x0C, 0x00, 0x39, 0x46]
      = some (.frameError (on .p0) [0x03, 0x42, 0x00, 0x0C, 0x00, 0x39, 0x46]) := by decide

/-! ## The link (9.5, R150) -/

/-- 9.5, step 3: FRAME_ERROR, echo 0x42, reason CRC, is the link refusal; the saved response is kept. -/
theorem test_frameError :
    ((after (.frameError (on .p0) [0x03, 0x42, 0x00, 0x0C, 0x00, 0x39, 0x46]) base).port .p0).link.refusal
      = some [0x10, 0x42, 0x01, 0x03, 0xEF, 0xF8] := by decide

/-- R150: before any request a read burst returns 0xFF and the IDLE frame. -/
theorem test_readBurst_idle :
    ((after (.readBurst (on .p0) 7) base).port .p0).sdo = [0xFF, 0x7F, 0x00, 0x00, 0x38, 0xA5, 0xFF] := by decide

/-- R147: begun while the port still acts on its previous request frame, a read burst, a bad frame and a good one are each
discarded whole, with 0xFF in every byte. -/
theorem test_early_burst :
    let s := base.setLink .p0 ⟨some (4, 1), some [1], some [2]⟩
    let gone (n : Nat) : PortRecord := { s.port .p0 with sdo := List.replicate n 0xFF }
    (after (.readBurst (early .p0) 7) s).port .p0 = gone 7
    ∧ (after (.frameError (early .p0) [0x03, 0x42, 0x00, 0x0C, 0x00, 0x39, 0x46]) s).port .p0 = gone 7
    ∧ (after (.closeSession ⟨early .p0, 5, 1, []⟩) s).port .p0 = gone 7
    ∧ (after (.badCode ⟨early .p0, 5, 1, []⟩ 0x77) s).port .p0 = gone 7 := by decide

/-- R156. -/
theorem test_badCode :
    ((after (.badCode (req .p0 []) 0x77) base).port .p0).link.saved = some [0x11, 0x05, 0x00, 0x47, 0x3A] := by decide

/-- R154: the same sequence and code again is not carried out. -/
theorem test_retransmission :
    (after (.abandonIntent (req .p0 [0, 1])) (base.setLink .p0 ⟨some (5, 0x22), some [1], some [2]⟩)).port .p0
      = { (base.setLink .p0 ⟨some (5, 0x22), some [1], none⟩).port .p0 with sdo := List.replicate 9 0xFF } := by decide

/-! ## Sessions (Chapter 7) -/

/-- 7.9, step 5: epoch 42 is followed by 43; the lease 500 is 0x01F4; the peer is OPEN. -/
theorem test_openSession :
    said (after (.openSession (req .p0 [0x01, 0xF4]))
      { base with port0 := { PortRecord.reset with session := { session with state := .fenced, epoch := 42 } } }) .p0
      = [0x00, 5, 5, 0, 43, 0x01, 0xF4, 0x01] := by decide

/-- R121: a lease below 100 ms is refused BAD_PARAM. -/
theorem test_openSession_short : said (after (.openSession (req .p0 [0, 99])) State.reset) .p0 = [0x30, 5, 0] := by decide

/-- R124: the deadline is the moment plus the lease; here 10 ms have passed. -/
theorem test_renew :
    ((after (.renew (req .p0 [])) { base with ticks := 10 }).port .p0).session.deadline = some 25250000 := by decide

/-- R130. -/
theorem test_closeSession :
    ((after (.closeSession (req .p0 [])) base).port .p0).session.state = .closed
    ∧ kinds (after (.closeSession (req .p0 [])) base) .p1 = [.peerLost] := by decide

/-- R132: quota 2 alone is named; the answer is 5,000, 2, 20,000 and 1,000. -/
theorem test_portConfig :
    said (after (.portConfig (req .p0 [2, 0, 0, 2, 0, 0, 0, 0])) base) .p0
      = [0x00, 5, 7, 0x13, 0x88, 2, 0x4E, 0x20, 0x03, 0xE8] := by decide

/-- 7.9: the state before step 4, port 0's lease expired, intent 0/1 with A WRITTEN, waiter 0/1 of port 1. -/
def fencing : State :=
  let s := { withVol 2 (record 8 1024 [.synced, .synced, .synced, .synced]) with ticks := 1000 }
  (s.grant 0 (intent .p0 2 0 512 0 2 .written .pending)).queueWaiter 0 ⟨.p1, 1, 2, 300, 100, 53000000⟩

/-- 7.9, step 4: extents 0 and 1 A_ONLY; port 1's queue in order; port 0's ATTN up; intent 0/2 granted to port 1. -/
theorem test_leaseExpiry :
    states (after (.leaseExpiry .p0) fencing) 2 = [.aOnly, .aOnly, .synced, .synced]
    ∧ kinds (after (.leaseExpiry .p0) fencing) .p1 = [.repairPending, .waitGranted, .peerLost]
    ∧ ((after (.leaseExpiry .p0) fencing).port .p0).attn = true
    ∧ genAt (after (.leaseExpiry .p0) fencing).intents 0 = 2 := by decide

/-- Volume 2 with copy B REBUILDING and extent 0 stale for it; port 0, its lease expired, holds an intent that makes extent 0
B_ONLY when abandoned and, if `second`, one that makes extent 1 A_ONLY. -/
def rebuilding (second : Bool) : State :=
  let x := Volume.recount { record 8 512 [.aOnly, .synced] with copyB := ⟨.rebuilding, 0, 0⟩ }
  let s := { withVol 2 x with ticks := 1000 }.grant 0 (intent .p0 2 0 256 0 1 .pending .written)
  if second then s.grant 1 (intent .p0 2 256 256 1 1 .written .pending) else s

/-- R116, R127: copy B is ONLINE, with COPY_ONLINE, where nothing is stale after the whole teardown; it stays REBUILDING where
the second abandon makes extent 1 stale again (the model's choice: log entry 18). -/
theorem test_leaseExpiry_rebuild :
    states (after (.leaseExpiry .p0) (rebuilding false)) 2 = [.bOnly, .synced]
    ∧ (after (.leaseExpiry .p0) (rebuilding false)).health 2 .b = .online
    ∧ kinds (after (.leaseExpiry .p0) (rebuilding false)) .p1 = [.copyOnline, .peerLost]
    ∧ states (after (.leaseExpiry .p0) (rebuilding true)) 2 = [.bOnly, .aOnly]
    ∧ (after (.leaseExpiry .p0) (rebuilding true)).health 2 .b = .rebuilding
    ∧ kinds (after (.leaseExpiry .p0) (rebuilding true)) .p1 = [.peerLost] := by decide

/-- R129: PRST closes the session and clears the link; the release changes neither. -/
theorem test_prst :
    ((after (.prst .p0 false) (base.setLink .p0 ⟨some (5, 1), some [1], none⟩)).port .p0).session.state = .closed
    ∧ ((after (.prst .p0 false) (base.setLink .p0 ⟨some (5, 1), some [1], none⟩)).port .p0).link = ⟨none, none, none⟩ := by decide

theorem test_prstRelease : ((after (.prstRelease .p0 false) (base.setPrst .p0 true)).port .p0).prst = false := by decide

/-- R147, R129: a burst under way when PRST is asserted is discarded, though PRST falls before its chip select is released;
the next burst is acted on. -/
theorem test_prst_cuts_burst :
    let s := after (.prstRelease .p0 true) (after (.prst .p0 true) State.reset)
    said (after (.identify (req .p0 [])) s) .p0 = []
    ∧ (said (after (.identify (req .p0 [])) (after (.identify (req .p0 [])) s)) .p0).take 1 = [0x00] := by decide

/-- R148, R161: SDO is driven during chip select alone. -/
theorem test_sdoPin :
    base.sdoPin .p0 = .highImpedance ∧ (after (.prst .p0 true) base).sdoPin .p0 = .driven
    ∧ (after (.readBurst (on .p0) 3) (after (.prst .p0 true) base)).sdoPin .p0 = .highImpedance := by decide

/-! ## Events (8.8) -/

/-- 8.8 after 3: COPY_ONLINE held by its mask. -/
def three : State :=
  (base.setSession .p0 { session with events := eventConfigReset.set 5 ⟨.low, true⟩ }).setEvents .p0
    { records := [⟨.repairPending, .volume 2, .zero, 1, 1, 0⟩, ⟨.extentLost, .volume 2, .zero, 2, 2, 0⟩,
        ⟨.copyOnline, .copy 2 .b, .zero, 1, 3, 0⟩], stack := [], counter := 3 }

/-- 8.8, step 4: EXTENT_LOST (8), volume 2, value 0, count 2, sequence 2, HIGH, no kind set, depth 2; ATTN falls. -/
theorem test_fetchEvent :
    said (after (.fetchEvent (req .p0 [])) three) .p0 = [0x00, 5, 12, 8, 0, 2, 0, 0, 2, 0, 2, 1, 0, 0, 2]
    ∧ ((after (.fetchEvent (req .p0 [])) three).port .p0).attn = false := by decide

/-- 8.8, step 6: the stack is empty and ATTN rises; R143: the answer is the level removed and 0 left. -/
theorem test_ackEvent :
    said (after (.ackEvent (req .p0 [])) (after (.fetchEvent (req .p0 [])) three)) .p0 = [0x00, 5, 2, 1, 0]
    ∧ ((after (.ackEvent (req .p0 [])) (after (.fetchEvent (req .p0 [])) three)).port .p0).attn = true := by decide

/-- R140: COPY_ONLINE masked at LOW, every other kind at its default. -/
theorem test_eventConfig :
    said (after (.eventConfig (req .p0 [6, 0, 1])) base) .p0
      = [0x00, 5, 22, 1, 0, 1, 0, 1, 0, 0, 0, 1, 0, 0, 1, 0, 0, 1, 0, 1, 0, 0, 0, 0, 0] := by decide

/-- 8.8, an overflow: with 24 records and counter 30 three events make one overflow record, sequence 31, count 3, kind set
EXTENT_LOST (bit 7) and WAIT_ENDED (bit 1), and the counter 33. -/
theorem test_overflow :
    let full : EventUnit :=
      { records := (List.range 24).map fun n => ⟨.volumeChanged, .volume n, .created, 1, BitVec.ofNat 16 n, 0⟩
        stack := [], counter := 30 }
    let u := ((full.take .extentLost (.volume 9) .zero).take .waitEnded (.ticket ⟨2, 3⟩) .waitExpired).take .extentLost
      (.volume 9) .zero
    u.records.getLast? = some ⟨.overflow, .none, .zero, 3, 31, 0x0082⟩ ∧ u.counter = 33 := by decide

/-! ## Volumes (1.10) -/

/-- 1.10, step 1: volume 0 of 1,000 blocks at shift 8 takes slot 0 and 4 extents. -/
theorem test_createVolume :
    said (after (.createVolume (req .p0 [0, 8, 0, 0, 0, 3, 0xE8, 0, 0, 0])) base) .p0 = [0x00, 5, 6, 0, 0, 0, 0, 0, 4] := by
  decide

/-- 1.10, step 2: between runs 0 to 3 and 12 to 111 a run of 10 goes to slot 112 and a run of 6 to slot 4; step 3: 130,951
slots fit nowhere beside the runs of Table 1-3, and 2 fit at slot 10. -/
theorem test_firstFit :
    firstGap 10 0 [(0, 4), (12, 100)] = some 112 ∧ firstGap 6 0 [(0, 4), (12, 100), (112, 10)] = some 4
    ∧ firstGap 130951 0 [(0, 4), (4, 6), (12, 100), (112, 10)] = none
    ∧ firstGap 130950 0 [(0, 4), (4, 6), (12, 100), (112, 10)] = some 122
    ∧ firstGap 2 0 [(0, 4), (4, 6), (12, 100), (112, 10)] = some 10 := by decide

theorem test_deleteVolume :
    (after (.deleteVolume (req .p0 [0])) (withVol 0 (record 8 512 [.synced, .synced]))).volume? 0 = none := by decide

/-- R18 at a few offsets of Table 9-7: number, condition NORMAL, block count 1,000, shift 8, extent count 4. -/
theorem test_volumeStatus :
    (said (after (.volumeStatus (req .p0 [0])) (withVol 0 (record 8 1000 [.synced, .synced, .synced, .synced]))) .p0).take 14
      = [0x00, 5, 53, 0, 1, 0, 0, 0, 3, 0xE8, 8, 0, 0, 4] := by decide

/-- R13: the threshold alone is named. -/
theorem test_setVolume :
    ((after (.setVolume (req .p0 [5, 4, 0, 0, 1])) (withVol 5 (record 8 1536 (List.replicate 6 .synced)))).volume? 5).map
      (fun x => (x.threshold, x.policy, x.authority)) = some (1, .alternate, .a) := by decide

/-! ## Extents (2.13) -/

/-- R37, R38: SYNCED under ALTERNATE reads the toggle's copy and flips it. -/
theorem test_route :
    said (after (.route (req .p0 [0, 0, 0, 0, 3, 0x84])) (withVol 0 (record 8 1000 (List.replicate 4 .synced)))) .p0
      = [0x00, 5, 7, 0, 0, 3, 0, 3, 1, 0]
    ∧ ((after (.route (req .p0 [0, 0, 0, 0, 3, 0x84])) (withVol 0 (record 8 1000 (List.replicate 4 .synced)))).volume? 0).map
      Volume.toggle = some .b := by decide

theorem test_extentStates :
    said (after (.extentStates (req .p0 [7, 0, 0, 0, 2])) (withVol 7 (record 8 1024 [.aOnly, .synced, .aOnly, .synced]))) .p0
      = [0x00, 5, 7, 2, 1, 0, 0, 0, 0, 0] := by decide

/-- R42: blocks 200 to 600 cover extent 1 alone wholly. -/
theorem test_retireRange :
    states (after (.retireRange (req .p0 [7, 0, 0, 0, 0, 200, 0, 0, 0, 1, 0x90]))
      (withVol 7 (record 8 1024 (List.replicate 4 .synced)))) 7 = [.synced, .void, .synced, .synced] := by decide

/-- 2.13, step 4: block 100 in A_ONLY extent 0, copy A: LOST; error count A 1; EXTENT_LOST to both ports. -/
theorem test_reportReadFailure :
    states (after (.reportReadFailure (req .p1 [7, 0, 0, 0, 0, 100, 1]))
      (withVol 7 (record 8 1024 [.aOnly, .synced, .aOnly, .synced]))) 7 = [.lost, .synced, .aOnly, .synced]
    ∧ kinds (after (.reportReadFailure (req .p1 [7, 0, 0, 0, 0, 100, 1]))
      (withVol 7 (record 8 1024 [.aOnly, .synced, .aOnly, .synced]))) .p0 = [.extentLost] := by decide

/-! ## Intents (3.12) and the wait list (4.7) -/

/-- 3.12 after step 4. -/
def inFlight : State :=
  ((withVol 5 { record 8 1536 (List.replicate 6 .synced) with threshold := 1 }).grant 0
    (intent .p0 5 100 300 0 2 .written .pending)).grant 1 (intent .p1 5 400 112 1 1 .written .pending)

/-- 3.12, step 1: tag 0/1, first extent 0, 2 extents, both PENDING, lifetime 5,000. -/
theorem test_openIntent :
    said (after (.openIntent (req .p0 [5, 0, 0, 0, 0, 100, 0, 0, 1, 44, 0, 0])) (withVol 5 (record 8 1536
      (List.replicate 6 .synced)))) .p0 = [0x00, 5, 10, 0, 1, 0, 0, 0, 2, 0, 0, 0x13, 0x88] := by decide

/-- 3.12, step 3: blocks 300 to 349 with wait time 0 are refused CONFLICT. -/
theorem test_openIntent_conflict :
    said (after (.openIntent (req .p1 [5, 0, 0, 0, 1, 44, 0, 0, 0, 50, 0, 0])) inFlight) .p1 = [0x37, 5, 0] := by decide

/-- 3.12, step 5: OK with CLOSED, WRITTEN, FAILED, health FAILED; all six extents A_ONLY; both slots FREE. -/
theorem test_reportWrite_failed :
    said (after (.reportWrite (req .p0 [0, 1, 2, 2])) inFlight) .p0 = [0x00, 5, 4, 1, 1, 2, 2]
    ∧ states (after (.reportWrite (req .p0 [0, 1, 2, 2])) inFlight) 5 = List.replicate 6 .aOnly
    ∧ (after (.reportWrite (req .p0 [0, 1, 2, 2])) inFlight).intent? 1 = none := by decide

/-- 2.13, step 2: both WRITTEN over a whole cover make an A_ONLY extent SYNCED. -/
theorem test_reportWrite_written :
    states (after (.reportWrite (req .p1 [0, 1, 2, 1]))
      ((withVol 7 (record 8 1024 [.aOnly, .aOnly, .aOnly, .synced])).grant 0 (intent .p1 7 256 256 1 1 .written .pending))) 7
      = [.aOnly, .synced, .aOnly, .synced] := by decide

/-- 2.13, step 3: B WRITTEN, A PENDING, partial cover of an A_ONLY extent: unchanged. -/
theorem test_abandonIntent :
    states (after (.abandonIntent (req .p0 [0, 1]))
      ((withVol 7 (record 8 1024 [.aOnly, .synced, .aOnly, .synced])).grant 0 (intent .p0 7 600 101 2 1 .pending .written))) 7
      = [.aOnly, .synced, .aOnly, .synced] := by decide

/-- R66: volume 5, blocks 100 and 300, extents 0 and 2, WRITTEN and PENDING, 4,990 ms left at 10 ms. -/
theorem test_intentStatus :
    said (after (.intentStatus (req .p0 [0, 1])) { inFlight with ticks := 10 }) .p0
      = [0x00, 5, 18, 5, 0, 0, 0, 0, 100, 0, 0, 1, 44, 0, 0, 0, 2, 1, 0, 0x13, 0x7E] := by decide

/-- 3.12, step 8: A_ONLY extents stay A_ONLY, the slot is FREE, INTENT_EXPIRED with the tag 0/1. -/
theorem test_intentExpiry :
    let s := { (withVol 5 (record 8 512 [.aOnly, .aOnly])).grant 0 (intent .p0 5 0 512 0 2 .pending .notRequired) with
      ticks := 5000 }
    states (after (.intentExpiry 0) s) 5 = [.aOnly, .aOnly]
    ∧ (((after (.intentExpiry 0) s).port .p0).events.records.map fun r => (r.kind, r.subject))
      = [(.intentExpired, .intent ⟨0, 1⟩)] := by decide

/-- R58: before its deadline an intent does not expire. -/
theorem test_intentExpiry_early : (after (.intentExpiry 0) { inFlight with ticks := 4999 }).intent? 0 ≠ none := by decide

/-- 4.7 after step 1, less the other intents: waiter 2/1 of port 1 behind nothing, its deadline at 535 ms. -/
def waiting : State :=
  (withVol 3 (record 8 1024 (List.replicate 4 .synced))).queueWaiter 2 ⟨.p1, 1, 3, 750, 11, 13375000⟩

/-- R79: OK, and the slot keeps its generation. -/
theorem test_cancelWait :
    said (after (.cancelWait (req .p1 [2, 1])) waiting) .p1 = [0x00, 5, 0]
    ∧ (after (.cancelWait (req .p1 [2, 1])) waiting).waiterEntry 2 = .vacant := by decide

/-- 4.7, step 4: waiter slot 2 EMPTY with generation 1, WAIT_ENDED with EXPIRED to port 1. -/
theorem test_waiterExpiry :
    (after (.waiterExpiry 2) { waiting with ticks := 535 }).waiters[2]? = some ⟨1, .vacant⟩
    ∧ ((after (.waiterExpiry 2) { waiting with ticks := 535 }).port .p1).events.records
      = [⟨.waitEnded, .ticket ⟨2, 1⟩, .waitExpired, 1, 1, 0⟩] := by decide

/-- 4.7, step 2: the close of intent 0/1 grants the waiter as intent 0/2. -/
theorem test_pass :
    let s := (((withVol 3 (record 8 1024 (List.replicate 4 .synced))).grant 0 (intent .p0 3 0 100 0 1 .written .pending))
      ).queueWaiter 0 ⟨.p1, 1, 3, 50, 100, 25500000⟩
    (after (.reportWrite (req .p0 [0, 1, 2, 1])) s).waiterEntry 0 = .granted .p1 1 ⟨0, 2⟩ := by decide

/-! ## Repairs (5.8, 5.9) -/

/-- Table 5-2. -/
def scheduler : State :=
  ((base.setVolume 0 (some (record 8 512 [.synced, .synced]))).setVolume 2
    (some (record 10 4096 [.synced, .aOnly, .synced, .bOnly]))).setVolume 5 (some (record 8 400 [.suspect, .synced]))

/-- 5.8, step 1: tag 0/1, volume 2, extent 1, A_ONLY, first block 1,024, 1,024 blocks, A to B, lease 20,000. -/
theorem test_takeRepair :
    said (after (.takeRepair (req .p0 [0xFF])) scheduler) .p0
      = [0x00, 5, 19, 0, 1, 2, 0, 0, 1, 1, 0, 0, 0, 4, 0, 0, 4, 0, 1, 2, 0x4E, 0x20]
    ∧ (after (.takeRepair (req .p0 [0xFF])) scheduler).pointer = 2 := by decide

/-- 5.8, step 3: from pointer 5 and cursor 2, extent 3 from B to A; the cursor wraps to 0. -/
theorem test_takeRepair_turns :
    let s := { scheduler.setVolume 2 (some { record 10 4096 [.synced, .aOnly, .synced, .bOnly] with cursor := 2 }) with
      pointer := 5 }
    ((after (.takeRepair (req .p0 [0xFF])) s).volume? 2).map Volume.cursor = some 0
    ∧ ((after (.takeRepair (req .p0 [0xFF])) s).assignment? 0).map (fun a => (a.extent, a.source, a.target))
      = some (3, .b, .a) := by decide

/-- 5.8 after step 1. -/
def repairing : State := { after (.takeRepair (req .p0 [0xFF])) scheduler with port0 := { base.port0 with assignments := 1 } }

/-- 5.8, step 5: OK with volume 2, extent 1, SYNCED; slot 0 FREE with generation 1; repair-needed 1. -/
theorem test_repairDone :
    said (after (.repairDone (req .p0 [0, 1, 0])) repairing) .p0 = [0x00, 5, 7, 2, 0, 0, 1, 0, 0, 0]
    ∧ (after (.repairDone (req .p0 [0, 1, 0])) repairing).assignments[0]? = some ⟨1, none⟩
    ∧ ((after (.repairDone (req .p0 [0, 1, 0])) repairing).volume? 2).map Volume.repairNeeded = some 1 := by decide

/-- 5.9, step 1c: overtaken, its extent SYNCED again by a whole-cover intent: STALE, A_ONLY, REPAIR_PENDING. -/
theorem test_repairDone_stale :
    let x := record 8 1024 (List.replicate 4 .synced)
    let s := (withVol 4 x).createAssignment 0 ⟨.p1, 1, 4, 1, .a, .b, true, 500000000⟩ x
    (said (after (.repairDone (req .p1 [0, 1, 0])) s) .p1).take 1 = [0x03]
    ∧ states (after (.repairDone (req .p1 [0, 1, 0])) s) 4 = [.synced, .aOnly, .synced, .synced]
    ∧ kinds (after (.repairDone (req .p1 [0, 1, 0])) s) .p0 = [.repairPending] := by decide

/-- R96: not overtaken, the state stays. -/
theorem test_releaseRepair :
    said (after (.releaseRepair (req .p0 [0, 1])) repairing) .p0 = [0x00, 5, 2, 0, 1] := by decide

/-- 5.8, the end: revoked by C5 with ASSIGN_ENDED; the extent keeps its state. -/
theorem test_assignmentExpiry :
    states (after (.assignmentExpiry 0) { repairing with ticks := 20000 }) 2 = [.synced, .aOnly, .synced, .bOnly]
    ∧ (((after (.assignmentExpiry 0) { repairing with ticks := 20000 }).port .p0).events.records.map fun r =>
      (r.kind, r.subject, r.value)) = [(.assignEnded, .assignment ⟨0, 1⟩, .assignExpired)] := by decide

/-! ## Copy health (6.7) -/

/-- 6.7 at the start. -/
def failing : State :=
  let x := record 8 1024 [.synced, .suspect, .aOnly, .bOnly]
  (((withVol 6 x).createAssignment 0 ⟨.p1, 1, 6, 3, .b, .a, false, 500000000⟩ x).grant 0
    (intent .p0 6 0 256 0 1 .written .pending)).queueWaiter 0 ⟨.p1, 1, 6, 100, 100, 25000000⟩

/-- 6.7, step 1: the extents, the answer, and port 1's queue in order. -/
theorem test_failCopy :
    states (after (.failCopy (req .p1 [6, 2])) failing) 6 = [.aOnly, .aOnly, .aOnly, .lost]
    ∧ said (after (.failCopy (req .p1 [6, 2])) failing) .p1 = [0x00, 5, 3, 0, 2, 2]
    ∧ kinds (after (.failCopy (req .p1 [6, 2])) failing) .p1 = [.extentLost, .assignEnded, .waitGranted, .copyFailed]
    ∧ kinds (after (.failCopy (req .p1 [6, 2])) failing) .p0 = [.extentLost, .copyFailed] := by decide

/-- Volume 6 after step 2 of 6.7. -/
def degraded : Volume :=
  Volume.recount { record 8 1024 [.aOnly, .aOnly, .aOnly, .lost] with copyB := ⟨.failed, 3, 0⟩ }

/-- 6.7, step 3: OK with REBUILDING, stale count 3 and repair-needed 3; REPAIR_PENDING. -/
theorem test_replaceCopy :
    said (after (.replaceCopy (req .p0 [6, 2])) (withVol 6 degraded)) .p0 = [0x00, 5, 7, 1, 0, 0, 3, 0, 0, 3]
    ∧ kinds (after (.replaceCopy (req .p0 [6, 2])) (withVol 6 degraded)) .p1 = [.repairPending] := by decide

/-- R117. -/
theorem test_clearErrors :
    said (after (.clearErrors (req .p0 [6, 2])) (withVol 6 degraded)) .p0 = [0x00, 5, 1, 3]
    ∧ ((after (.clearErrors (req .p0 [6, 2])) (withVol 6 degraded)).volume? 6).map (fun x => x.copyB.errors) = some 0 := by
  decide

/-! ## Retention and start-up (Chapter 10) -/

/-- R169: part code 0x2240, revision 1, 16 volumes, 131,072 slots, 192, 32, 32, 24, COLD, 0. -/
theorem test_identify :
    said (after (.identify (req .p0 [])) State.reset) .p0
      = [0x00, 5, 14, 0x22, 0x40, 1, 16, 2, 0, 0, 192, 32, 32, 24, 0, 0, 0] := by decide

/-- R168: refused BUSY while the peer is OPEN; otherwise the volume goes. -/
theorem test_format :
    said (after (.format (req .p0 [])) (withVol 6 degraded)) .p0 = [0x3F, 5, 0]
    ∧ (after (.format (req .p0 [])) { withVol 6 degraded with port1 := PortRecord.reset }).volume? 6 = none := by decide

theorem test_quiesce :
    (after (.quiesce .pfail false false) base).supply = .hold
    ∧ (after (.quiesce .resetn false false) base).supply = .hold := by decide

theorem test_mainSupplyArrives : (after .mainSupplyArrives { base with supply := .off }).supply = .hold := by decide

theorem test_mainSupplyLost : (after .mainSupplyLost base).supply = .off := by decide

theorem test_vbak :
    (after (.vbakBelowThreshold .falls) { base with supply := .off }).retentionValid = false
    ∧ (after (.vbakBelowThreshold .falls) base).retentionValid = true := by decide

/-- R164: the mark is invalid when VBAK is first applied, with main supply present too. -/
theorem test_vbak_first : (after (.vbakBelowThreshold .firstApplied) base).retentionValid = false := by decide

/-- R27, R166: an open SYNCED extent becomes SUSPECT; epochs are kept; sessions are CLOSED. -/
theorem test_start_warm :
    let t := after (.start false false false) { inFlight with supply := .hold, resetn := true }
    t.supply = .starting ∧ states t 5 = [.suspect, .suspect, .synced, .synced, .synced, .synced]
    ∧ t.port0.session.state = .closed ∧ t.port0.session.epoch = 1 := by decide

/-- R167: a cold start leaves no volume and epoch 0. -/
theorem test_start_cold :
    let t := after (.start false false false) { inFlight with supply := .hold, retentionValid := false }
    t.volume? 5 = none ∧ t.port0.session.epoch = 0 := by decide

theorem test_startComplete :
    (after .startComplete { base with supply := .starting, startDecided := .warm, warmStarts := 65535 }).warmStarts = 65535
    ∧ (after .startComplete { base with supply := .starting, startDecided := .warm }).startKind = .warm := by decide

/-! ## One step -/

theorem test_step_front :
    (match step { base with pending := [.quiesce .pfail false false, .startComplete] } with
      | .next t => (t.supply, t.pending)
      | _ => (.run, [])) = (.hold, [.startComplete]) := by decide

/-- R170: the tick of an empty queue. -/
theorem test_step_tick :
    (match step base with
      | .next t => (t.ticks, t.phase, t.pending)
      | _ => (0, 0, [])) = (1, 0, []) := by decide

/-- R58: at tick 5,000 the intents of slots 0 and 2, with one deadline, are due in slot order, and that of slot 1, with an
earlier deadline of the same millisecond, in a line of its own. -/
theorem test_dueIntents :
    let held (slot : Nat) (d : Nat) (t : List (Slot (Option Intent))) : List (Slot (Option Intent)) :=
      t.set slot ⟨1, some { intent .p0 5 100 300 0 2 .written .pending with deadline := d }⟩
    let s : State := { base with
      intents := held 0 125000000 (held 2 125000000 (held 1 124990000 base.intents)), ticks := 5000 }
    s.dueIntents = [[.intentExpiry 0, .intentExpiry 2], [.intentExpiry 1]] := by decide


/-! ## Witnesses: for each statement with hypotheses, states and operands that meet them, clause by clause at the edges of
their ranges -/

/-- A decidable reading of `TableSizes`. -/
theorem sizes_of {s : State} (h : s.volumes.length = 16 ∧ s.intents.length = 192 ∧ s.waiters.length = 32
    ∧ s.assignments.length = 32 ∧ s.port0.session.events.length = 11 ∧ s.port1.session.events.length = 11
    ∧ s.pointer < 16) : TableSizes s := by
  obtain ⟨a, b, c, d, e, f, g⟩ := h
  exact ⟨a, b, c, d, fun p => by cases p <;> assumption, g⟩

/-- What is checked of the present volumes below 16 holds of every present volume. -/
theorem volumes_all {s : State} (hl : s.volumes.length = 16) {q : Nat → Volume → Prop}
    (h : ∀ v, v < 16 → ∀ x, s.volume? v = some x → q v x) : ∀ v x, s.volume? v = some x → q v x := by
  intro v x hx
  exact h v (by have := State.volume?_lt hx; omega) x hx

theorem option_all {α : Type} {o : Option α} {q : α → Prop} (dec : ∀ x, Decidable (q x))
    (h : o.all (fun x => decide (q x)) = true) : ∀ x, o = some x → q x := by
  rintro x rfl
  simpa using h

/-- A decidable reading of `CountsAgree`. -/
theorem counts_of {s : State} (hl : s.volumes.length = 16)
    (h : ∀ v, v < 16 → (s.volume? v).all (fun x => decide (x.recount = x ∧ x.extents.length = x.extentCount
      ∧ x.extentCount = extentCountOf x.blockCount x.shift)) = true) : CountsAgree s :=
  volumes_all hl fun v hv => option_all (fun _ => inferInstance) (h v hv)

theorem base_sizes : TableSizes base := sizes_of (by decide)

theorem witness_StepRunsFrontCommand :
    ({ base with pending := [.startComplete, .mainSupplyLost] } : State).pending = .startComplete :: [.mainSupplyLost] := rfl

/-- The lease of 1,000 ms is due at tick 1,000. -/
theorem witness_EmptyQueueTicks :
    base.pending = [] ∧ base.supply = .run ∧ base.refclk = true ∧ DueNext { base with ticks := 999 } (.leaseExpiry .p0)
    ∧ ({ base with supply := .hold } : State).supply ≠ .run ∧ ({ base with refclk := false } : State).refclk = false :=
  ⟨rfl, rfl, rfl, .inl ⟨.p0, 25000000, rfl, rfl, rfl, by decide⟩, by decide, rfl⟩

theorem witness_GoodFramesAreSealedRequests :
    frameCheck [0x01, 0x05, 0x00, 0x00, 0x00, 0x07, 0x18] = none
    ∧ [0x01, 0x05, 0x00, 0x00, 0x00, 0x07, 0x18] = requestFrame 0x01 ⟨on .p0, 5, 0, []⟩
    ∧ (req .p0 (List.replicate 40 0)).params.length ≤ 40 := by decide

theorem witness_OneByteErrorsAreCaught :
    let f : List Byte := [0x03, 0x42, 0x00, 0x0C, 0x00, 0x39, 0x47]
    frameCheck f = none ∧ 0 < f.length ∧ f[0]? ≠ some 0x02 ∧ 6 < f.length ∧ f[6]? ≠ some 0x46 := by decide

theorem witness_BurstDecodesToItsCommand :
    (Instr.identify (req .p0 (List.replicate 40 1))).wf = true ∧ (encodeBurst (.identify (req .p0 (List.replicate 40 1)))).isSome
    ∧ (Instr.readBurst (on .p1) 1).wf = true ∧ (encodeBurst (.readBurst (on .p1) 1)).isSome
    ∧ (Instr.frameError (on .p0) [1]).wf = true ∧ (encodeBurst (.frameError (on .p0) [1])).isSome
    ∧ (Instr.readBurst (early .p0) 2).wf = true ∧ (encodeBurst (.readBurst (early .p0) 2)).isSome
    ∧ (Instr.badCode (req .p0 []) 0xFF).wf = true ∧ (encodeBurst (.badCode (req .p0 []) 0xFF)).isSome := by decide

/-- A port that hears bursts; HOLD, PRST asserted, a burst that a PRST has fallen into, and an early burst; OFF. -/
theorem witness_ReadBurstShowsResponse :
    1 ≤ 1 ∧ Heard (on .p0) base ∧ Discarded (on .p0) { base with supply := .hold } ∧ Discarded (on .p0) (base.setPrst .p0 true)
    ∧ Discarded (on .p0) (base.setBurst .p0 .discarded) ∧ Discarded (early .p0) base
    ∧ ({ base with supply := .off } : State).supply = .off := by
  simp only [Heard, Discarded]; decide

/-- The five checks of R151 in order, each with a burst that it is the first to refuse; the four ways to be discarded; OFF. -/
theorem witness_BadFramesAndUnknownCodesAreRefused :
    ([1, 2, 3, 4] : List Byte) ≠ [] ∧ Heard (on .p0) base ∧ reasonOf [1, 2, 3, 4] = some 0x01 ∧ reasonOf [1, 2, 3, 4, 41] = some 0x02
    ∧ reasonOf [1, 2, 3, 4, 0, 6] = some 0x01 ∧ reasonOf [1, 2, 3, 4, 0, 6, 7, 8] = some 0x02
    ∧ reasonOf [0x03, 0x42, 0x00, 0x0C, 0x00, 0x39, 0x46] = some 0x03
    ∧ Discarded (on .p0) { base with supply := .hold } ∧ Discarded (on .p0) (base.setPrst .p0 true)
    ∧ Discarded (on .p0) (base.setBurst .p0 .discarded) ∧ Discarded (early .p0) base
    ∧ ({ base with supply := .off } : State).supply = .off
    ∧ knownCode 0x77 = false ∧ Heard (on .p0) { base with supply := .starting }
    ∧ (base.port .p0).link.lastTaken ≠ some (5, 0x77) := by
  simp only [Heard, Discarded]; decide

theorem witness_LinkAndSessionChecksInOrder :
    let r := req .p0 []
    (Instr.renew r).frame? = some (0x03, r) ∧ (Instr.renew r).wf = true
    ∧ Discarded (on .p0) { base with supply := .hold } ∧ Discarded (on .p0) (base.setPrst .p0 true)
    ∧ Discarded (on .p0) (base.setBurst .p0 .discarded)
    ∧ (Instr.renew ⟨early .p0, 5, 1, []⟩).frame? = some (0x03, ⟨early .p0, 5, 1, []⟩) ∧ Discarded (early .p0) base
    ∧ ({ base with supply := .off } : State).supply = .off
    ∧ (Heard (on .p0) (base.setLink .p0 ⟨some (5, 0x03), none, none⟩)
        ∧ ((base.setLink .p0 ⟨some (5, 0x03), none, none⟩).port .p0).link.lastTaken = some (5, 0x03))
    ∧ Heard (on .p0) base ∧ (base.port .p0).link.lastTaken ≠ some (5, 0x03)
    ∧ (row 0x03 0 true).lengthOk (req .p0 [1]).params.length = false ∧ (row 0x03 0 true).lengthOk r.params.length = true
    ∧ ({ base with supply := .starting } : State).supply = .starting ∧ (row 0x03 0 true).needsSession = true
    ∧ (State.reset.port .p0).session.state = .closed
    ∧ ((base.setSession .p0 { session with state := .fenced }).port .p0).session.state = .fenced
    ∧ (base.port .p0).session.state = .opened ∧ (⟨on .p0, 5, 2, []⟩ : Request).epoch ≠ (base.port .p0).session.epoch := by
  simp only [Heard, Discarded]; decide

theorem witness_OpenSessionOpens :
    Taken 0x02 (req .p0 [0, 99]) base ∧ field [0, 99] 0 2 < 100
    ∧ 100 ≤ field [0, 100] 0 2 ∧ (base.port .p0).session.state = .opened
    ∧ Taken 0x02 (req .p0 [0xFF, 0xFF]) State.reset ∧ 100 ≤ field [0xFF, 0xFF] 0 2
    ∧ (State.reset.port .p0).session.state ≠ .opened
    ∧ ((base.setSession .p0 { session with state := .fenced, epoch := 0xFFFF }).port .p0).session.state ≠ .opened := by
  simp only [Taken]; decide

theorem witness_RenewRenewsLease :
    Taken 0x03 (req .p0 []) base ∧ (base.port .p0).session.state = .opened
    ∧ (req .p0 []).epoch = (base.port .p0).session.epoch
    ∧ Taken 0x03 (req .p0 []) State.reset ∧ (State.reset.port .p0).session.state = .closed
    ∧ Taken 0x03 (req .p0 []) (base.setSession .p0 { session with state := .fenced })
    ∧ ((base.setSession .p0 { session with state := .fenced }).port .p0).session.state = .fenced
    ∧ (⟨on .p0, 5, 2, []⟩ : Request).epoch ≠ (base.port .p0).session.epoch := by
  simp only [Taken]; decide

theorem witness_CloseSessionCloses :
    Admitted 0x04 (req .p0 []) inFlight ∧ 0 < (inFlight.port .p0).intents
    ∧ Admitted 0x04 (req .p0 []) base ∧ (base.port .p0).intents = 0 ∧ (base.port .p0).assignments = 0
    ∧ (base.port (peer .p0)).session.state = .opened := by
  simp only [Admitted, Taken]; decide

/-- Each refused field one below or above its range, and a request with all four fields at a bound. -/
theorem witness_PortConfigSetsNamedFields :
    Admitted 0x05 (req .p0 [16, 0, 0, 0, 0, 0, 0, 0]) base ∧ 16 ≤ (byteAt [16, 0, 0, 0, 0, 0, 0, 0] 0).toNat
    ∧ field [1, 0, 9, 0, 0, 0, 0, 0] 1 2 < 10 ∧ field [2, 0, 0, 193, 0, 0, 0, 0] 3 1 = 193
    ∧ field [2, 0, 0, 0, 0, 0, 0, 0] 3 1 = 0 ∧ field [4, 0, 0, 0, 0, 99, 0, 0] 4 2 < 100
    ∧ field [8, 0, 0, 0, 0, 0, 0xFF, 0xFF] 6 2 = 65535
    ∧ (let ps : List Byte := [15, 0, 10, 192, 0, 100, 0xFF, 0xFE]
       Admitted 0x05 (req .p0 ps) base ∧ ps.length = 8 ∧ ¬ 16 ≤ (byteAt ps 0).toNat ∧ field ps 1 2 = 10 ∧ field ps 3 1 = 192
        ∧ field ps 4 2 = 100 ∧ field ps 6 2 = 65534) := by
  simp only [Admitted, Taken]; decide

theorem fencing_sizes : TableSizes fencing := sizes_of (by decide)

/-- The teardown's own premise: the counts agree in the states in which the session of port 0 has just ended. -/
theorem witness_TornDown :
    CountsAgree (fencing.setPort .p0 (endedPort (fencing.port .p0) .fenced))
    ∧ CountsAgree ((rebuilding true).setPort .p0 (endedPort ((rebuilding true).port .p0) .fenced))
    ∧ CountsAgree (base.setPort .p0 (endedPort { base.port .p0 with prst := true } .closed)) :=
  ⟨counts_of (by decide) (by decide), counts_of (by decide) (by decide), counts_of (by decide) (by decide)⟩

/-- At tick 1,000 the deadline is reached, at tick 999 it is not; the port holds an intent of two extents, and its peer is
OPEN. -/
theorem witness_LeaseExpiryFences :
    TableSizes fencing ∧ fencing.supply = .run ∧ (fencing.port .p0).session.state = .opened
    ∧ (fencing.port .p0).session.deadline = some 25000000 ∧ 25000000 ≤ fencing.ticks * 25000
    ∧ (fencing.port .p0).prst = false
    ∧ TableSizes { fencing with ticks := 999 } ∧ ({ fencing with ticks := 999 } : State).ticks * 25000 < 25000000 :=
  ⟨fencing_sizes, by decide, by decide, by decide, by decide, by decide, sizes_of (by decide), by decide⟩

theorem witness_PrstResetsPort :
    TableSizes base ∧ base.supply = .run ∧ (base.port .p0).session.state = .opened
    ∧ TableSizes (base.setSession .p0 { session with state := .fenced })
    ∧ ((base.setSession .p0 { session with state := .fenced }).port .p0).session.state = .fenced
    ∧ TableSizes { base with supply := .off } ∧ ({ base with supply := .off } : State).supply ≠ .run
    ∧ TableSizes State.reset ∧ (State.reset.port .p0).session.state = .closed
    ∧ ((base.setPrst .p0 true).port .p0).prst = true ∧ (base.port .p0).prst = false ∧ base.supply ≠ .off
    ∧ (∃ t u, exec (.prst .p0 true) base = .next t ∧ exec (.prstRelease .p0 true) t = .next u) :=
  ⟨base_sizes, rfl, rfl, sizes_of (by decide), rfl, sizes_of (by decide), by decide, sizes_of (by decide), rfl, rfl, rfl,
    by decide, _, _, rfl, rfl⟩

/-- A queue of `n` distinct VOLUME_CHANGED records, with or without an overflow record at its end. -/
def queueOf (n : Nat) (dropped : Bool) : EventUnit :=
  { records := ((List.range n).map fun k => ⟨.volumeChanged, .volume k, .created, 1, BitVec.ofNat 16 (k + 1), 0⟩)
      ++ (if dropped then [⟨.overflow, .none, .zero, 255, 31, 2⟩] else [])
    stack := [], counter := 30 }

theorem witness_EventIsMergedQueuedOrDropped :
    (queueOf 24 true).bounded ∧ Kind.extentLost ≠ .overflow
    ∧ (queueOf 24 true).records = [] ++ ⟨.volumeChanged, .volume 0, .created, 1, 1, 0⟩ :: (queueOf 24 true).records.tail
    ∧ (∀ r ∈ (queueOf 23 false).records, ¬ (r.kind = .extentLost ∧ r.subject = .volume 0 ∧ r.value = .zero))
    ∧ (queueOf 23 false).bounded ∧ ((queueOf 23 false).records.filter (fun r => r.kind ≠ .overflow)).length < 24
    ∧ (queueOf 24 false).bounded ∧ 24 ≤ ((queueOf 24 false).records.filter (fun r => r.kind ≠ .overflow)).length
    ∧ (∀ r ∈ (queueOf 24 false).records, r.kind ≠ .overflow)
    ∧ 24 ≤ ((queueOf 24 true).records.filter (fun r => r.kind ≠ .overflow)).length
    ∧ (queueOf 24 true).records = (queueOf 24 false).records ++ ⟨.overflow, .none, .zero, 255, 31, 2⟩ :: [] := by
  simp only [EventUnit.bounded]; decide

/-- 8.8, step 4, and an empty queue. -/
theorem witness_FetchTakesEarliestHighest :
    Admitted 0x08 (req .p0 []) base ∧ (∀ q ∈ (base.port .p0).events.records, False)
    ∧ Admitted 0x08 (req .p0 []) three
    ∧ (let cfg := (three.port .p0).session.events
       let pre : List EventRecord := [⟨.repairPending, .volume 2, .zero, 1, 1, 0⟩]
       let q : EventRecord := ⟨.extentLost, .volume 2, .zero, 2, 2, 0⟩
       let post : List EventRecord := [⟨.copyOnline, .copy 2 .b, .zero, 1, 3, 0⟩]
       (three.port .p0).events.records = pre ++ q :: post ∧ eligible cfg [] q = true
        ∧ (∀ o ∈ pre, eligible cfg [] o = true → (kindConfig cfg o.kind).level.rank < (kindConfig cfg q.kind).level.rank)
        ∧ ∀ o ∈ post, eligible cfg [] o = true → (kindConfig cfg o.kind).level.rank ≤ (kindConfig cfg q.kind).level.rank) := by
  simp only [Admitted, Taken]; decide

theorem witness_AckEventPopsStack :
    Taken 0x09 (req .p0 []) State.reset ∧ (State.reset.port .p0).session.state = .closed
    ∧ Taken 0x09 (req .p0 []) (base.setSession .p0 { session with state := .fenced })
    ∧ Taken 0x09 (req .p0 []) base ∧ (base.port .p0).session.state = .opened
    ∧ (⟨on .p0, 5, 2, []⟩ : Request).epoch ≠ (base.port .p0).session.epoch
    ∧ (base.port .p0).events.stack = []
    ∧ (let s := base.setEvents .p0 ⟨[], [.high, .low], 0⟩
       Taken 0x09 (req .p0 []) s ∧ (s.port .p0).events.stack = .high :: [.low]) := by
  simp only [Taken]; decide

/-- No entry, and one entry for each of the eleven kinds; an entry for kind 0, for kind 12, with level 2 and with mask 2, and
two entries for one kind. -/
theorem witness_EventConfigSetsNamedKinds :
    Admitted 0x0A (req .p0 []) base ∧ TableSizes base
    ∧ (let es : List (Nat × KindConfig) := (List.range 11).map fun k => (k, ⟨.high, true⟩)
       let ps : List Byte := es.flatMap fun e => [BitVec.ofNat 8 (e.1 + 1), e.2.level.code, flagCode e.2.masked]
       Admitted 0x0A (req .p0 ps) base ∧ es.length ≤ 11 ∧ (∀ e ∈ es, e.1 < 11) ∧ (es.map Prod.fst).Nodup ∧ ps.length = 33)
    ∧ (let bad (es : List (Byte × Byte × Byte)) : Prop :=
         (∃ e ∈ es, e.1 = 0 ∨ 11 < e.1.toNat ∨ 1 < e.2.1.toNat ∨ 1 < e.2.2.toNat) ∨ ¬ (es.map Prod.fst).Nodup
       bad [(0, 0, 0)] ∧ bad [(12, 0, 0)] ∧ bad [(11, 2, 0)] ∧ bad [(1, 1, 2)] ∧ bad [(1, 1, 1), (1, 1, 1)]
        ∧ Admitted 0x0A (req .p0 ([(1, 1, 1), (1, 1, 1)].flatMap fun e : Byte × Byte × Byte => [e.1, e.2.1, e.2.2])) base) :=
  ⟨by simp only [Admitted, Taken]; decide, base_sizes, by simp only [Admitted, Taken]; decide,
    by simp only [Admitted, Taken]; decide⟩

theorem witness_VolumeNameIsCheckedFirst :
    Admitted 0x11 (req .p0 [16]) base ∧ 15 < field [16] 0 1 ∧ Admitted 0x11 (req .p0 [15]) base ∧ field [15] 0 1 ≤ 15
    ∧ base.volume? 15 = none
    ∧ Taken 0x18 (req .p0 [15, 0, 0, 0, 0, 0]) State.reset ∧ Taken 0x19 (req .p0 [16, 0, 0, 0, 1]) State.reset
    ∧ State.reset.volume? 15 = none := by
  simp only [Admitted, Taken]; decide

/-- A shift of 7 and of 21, a block count of 0, more extents than the store has, a present volume, a store with no gap of
131,072 slots, and the whole store to volume 15. -/
theorem witness_CreateVolumeMakesRecord :
    Admitted 0x10 (req .p0 [0, 7, 0, 0, 0, 3, 0xE8, 0, 0, 0]) base ∧ field [0, 7] 1 1 < 8 ∧ 20 < field [0, 21] 1 1
    ∧ field [0, 8, 0, 0, 0, 0, 0, 0, 0, 0] 2 5 = 0 ∧ 131072 < (33554433 + (2 ^ 8 - 1)) / 2 ^ 8
    ∧ ((withVol 0 (record 8 512 [.synced, .synced])).volume? 0).isSome
    ∧ firstGap 131072 0 (withVol 0 (record 8 512 [.synced, .synced])).runs = none
    ∧ (let ps : List Byte := [15, 8, 0, 2, 0, 0, 0, 5, 2, 0]
       Admitted 0x10 (req .p0 ps) base ∧ field ps 0 1 = 15 ∧ field ps 2 5 = 33554432
        ∧ (33554432 + (2 ^ 8 - 1)) / 2 ^ 8 = 131072 ∧ base.volume? 15 = none ∧ firstGap 131072 0 base.runs = some 0
        ∧ byteAt ps 7 = Coherence.void.code ∧ byteAt ps 8 = Health.failed.code ∧ byteAt ps 9 = Health.online.code) := by
  simp only [Admitted, Taken]; decide

/-- Two runs share no slot, as a test on their numbers. -/
def apart (v w : Nat) (x y : Volume) : Bool :=
  v == w || x.slotBase + x.extentCount ≤ y.slotBase || y.slotBase + y.extentCount ≤ x.slotBase

/-- A decidable reading of `RunsDisjoint`. -/
theorem runs_of {s : State} (hl : s.volumes.length = 16)
    (h1 : ∀ v, v < 16 → (s.volume? v).all (fun x => decide (0 < x.extentCount ∧ x.slotBase + x.extentCount ≤ 131072)) = true)
    (h2 : ∀ v, v < 16 → ∀ w, w < 16 → (s.volume? v).all (fun x => (s.volume? w).all (fun y => apart v w x y)) = true) :
    RunsDisjoint s := by
  refine ⟨volumes_all hl fun v hv => option_all (fun _ => inferInstance) (h1 v hv), ?_⟩
  intro v w x y hne hx hy
  have hv : v < 16 := by have := State.volume?_lt hx; omega
  have hw : w < 16 := by have := State.volume?_lt hy; omega
  have h := h2 v hv w hw
  rw [hx, hy] at h
  simpa [apart, hne] using h

/-- Runs 0 to 3 and 12 to 111 as in Table 1-3. -/
def twoRuns : State :=
  (withVol 0 (record 8 1000 (List.replicate 4 .synced))).setVolume 2
    (some { record 8 512 [.synced, .synced] with slotBase := 12, extentCount := 100 })

theorem witness_PlacementIsFirstFit :
    RunsDisjoint twoRuns ∧ firstGap 8 0 twoRuns.runs = some 4 ∧ firstGap 9 0 twoRuns.runs = some 112
    ∧ firstGap 130961 0 twoRuns.runs = none :=
  ⟨runs_of (by decide) (by decide) (by decide), by decide, by decide, by decide⟩

/-- DELETE_VOLUME with an intent open, with a waiter, with an assignment, and with none; SET_VOLUME refused and taken. -/
theorem witness_DeleteAndSetVolumeChangeRecord :
    (Admitted 0x11 (req .p0 [5]) inFlight ∧ (inFlight.volume? 5).map Volume.openIntents = some 2)
    ∧ (Admitted 0x11 (req .p0 [3]) waiting ∧ 2 ∈ waiting.arrival ∧ (waiting.waiter? 2).map Waiter.volume = some 3)
    ∧ (Admitted 0x11 (req .p0 [2]) repairing ∧ (repairing.assignment? 0).map Assignment.volume = some 2)
    ∧ (Admitted 0x11 (req .p0 [0]) (withVol 0 (record 8 512 [.synced, .synced]))
        ∧ (withVol 0 (record 8 512 [.synced, .synced])).arrival = [])
    ∧ Admitted 0x13 (req .p0 [6, 8, 0, 0, 0]) (withVol 6 degraded) ∧ 8 ≤ (byteAt [6, 8, 0, 0, 0] 1).toNat
    ∧ policyParam (byteAt [6, 1, 3, 0, 0] 2) = none ∧ copyParam (byteAt [6, 2, 0, 0, 0] 3) = none
    ∧ copyParam (byteAt [6, 2, 0, 2, 0] 3) = some .b ∧ degraded.health .b = .failed
    ∧ (¬ 8 ≤ (byteAt [6, 7, 2, 1, 255] 1).toNat ∧ policyParam (byteAt [6, 7, 2, 1, 255] 2) = some .alternate
        ∧ copyParam (byteAt [6, 7, 2, 1, 255] 3) = some .a ∧ degraded.health .a ≠ .failed) := by
  simp only [Admitted, Taken]
  refine ⟨?_, ?_, ?_, ?_, ?_⟩ <;> decide

theorem witness_VolumeStatusReportsRecord :
    Taken 0x12 (req .p0 [16]) State.reset ∧ 15 < field [16] 0 1 ∧ field [15] 0 1 ≤ 15 ∧ State.reset.volume? 15 = none
    ∧ Taken 0x12 (req .p0 [6]) (withVol 6 degraded) ∧ (withVol 6 degraded).volume? 6 = some degraded := by
  simp only [Taken]; decide

theorem witness_LossOfCurrencyTable :
    Coherence.lost.current .a = false ∧ Coherence.void.current .b = false ∧ Coherence.bOnly.current .a = false
    ∧ (∀ y, ([⟨.bOnly, 0, none⟩, ⟨.synced, 1, none⟩] : List Extent)[0]? = some y → y.state.current .a = false) := by
  refine ⟨rfl, rfl, rfl, fun y h => ?_⟩
  cases h; rfl

theorem witness_IntentCloseTable :
    Report.failed ≠ .written ∧ Report.dropped ≠ .written ∧ Report.notRequired ≠ .written ∧ Report.failed ≠ .pending
    ∧ Report.dropped ≠ .pending ∧ Report.notRequired ≠ .pending := by decide

/-- The first block beyond the volume, an OFFLINE volume, the last block. -/
theorem witness_RouteNamesCopyToRead :
    let x := record 8 1000 (List.replicate 4 .synced)
    let off := Volume.recount { x with copyA := ⟨.failed, 0, 0⟩, copyB := ⟨.failed, 0, 0⟩ }
    Taken 0x18 (req .p0 [0, 0, 0, 0, 3, 0xE8]) (withVol 0 x) ∧ x.blockCount ≤ field [0, 0, 0, 0, 3, 0xE8] 1 5
    ∧ off.condition = .offline ∧ (withVol 0 off).volume? 0 = some off
    ∧ field [0, 0, 0, 0, 3, 0xE7] 1 5 < x.blockCount ∧ x.condition ≠ .offline
    ∧ x.extents[field [0, 0, 0, 0, 3, 0xE7] 1 5 / 2 ^ x.shift]? = some ⟨.synced, 0, none⟩ := by
  simp only [Taken]; decide

/-- Counts of 0 and 17, a range one too long, and the whole volume. -/
theorem witness_ExtentStatesReportsExtents :
    let x := record 8 1000 [.synced, .aOnly, .lost, .void]
    Taken 0x19 (req .p0 [16, 0, 0, 0, 1]) base ∧ 15 < field [16, 0, 0, 0, 1] 0 1
    ∧ field [15, 0, 0, 0, 1] 0 1 ≤ 15 ∧ base.volume? 15 = none
    ∧ Taken 0x19 (req .p0 [0, 0, 0, 0, 0]) (withVol 0 x) ∧ field [0, 0, 0, 0, 0] 4 1 = 0 ∧ 16 < field [0, 0, 0, 0, 17] 4 1
    ∧ x.extentCount < field [0, 0, 0, 1, 4] 1 3 + field [0, 0, 0, 1, 4] 4 1
    ∧ field [0, 0, 0, 0, 4] 1 3 + field [0, 0, 0, 0, 4] 4 1 ≤ x.extentCount ∧ x.extents.length = 4
    ∧ ∀ j < 4, x.extents[0 + j]? = x.extents[j]? := by
  simp only [Taken]; decide

/-- A count of 0, a range one block too long, a range over an open intent, and one that ends at the last block of a last
extent shorter than the others and covers it wholly. -/
theorem witness_RetireMakesWholeExtentsVoid :
    let x := record 8 1000 (List.replicate 4 .synced)
    let ps : List Byte := [0, 0, 0, 0, 3, 0, 0, 0, 0, 0, 232]
    Admitted 0x1A (req .p0 ps) (withVol 0 x) ∧ field ps 6 5 ≠ 0 ∧ field ps 1 5 + field ps 6 5 ≤ x.blockCount
    ∧ Covers x (field ps 1 5) (field ps 6 5) 3 ∧ ¬ Covers x (field ps 1 5) (field ps 6 5) 2
    ∧ x.blockCount < 768 + 233 ∧ inFlight.intent? 0 = some (intent .p0 5 100 300 0 2 .written .pending)
    ∧ (0 < 100 + 300 ∧ 100 < 0 + 101) := by
  simp only [Admitted, Taken, Covers]; decide

/-- The first block beyond the volume and a copy byte of 0; the last block with a charge below the threshold 8, with the
threshold 0, with one that reaches the threshold 1, and with one that reaches it beside a FAILED copy. -/
theorem witness_ReadFailureTakesCurrency :
    let x := record 8 1024 (List.replicate 4 .synced)
    let ps : List Byte := [7, 0, 0, 0, 3, 0xFF, 2]
    x.blockCount ≤ field [7, 0, 0, 0, 4, 0, 2] 1 5 ∧ byteAt [7, 0, 0, 0, 0, 0, 0] 6 ≠ 1
    ∧ Admitted 0x1B (req .p0 ps) (withVol 7 x) ∧ (withVol 7 x).volume? 7 = some x ∧ field ps 1 5 < x.blockCount
    ∧ byteAt ps 6 = Copy.b.code ∧ ¬ ChargeFails x .b ∧ ¬ ChargeFails { x with threshold := 0 } .b
    ∧ ¬ ChargeFails { degraded with threshold := 1 } .a ∧ (withVol 6 { degraded with threshold := 1 }).volume? 6
      = some { degraded with threshold := 1 }
    ∧ (let y : Volume := { x with threshold := 1 }
       (withVol 7 y).volume? 7 = some y ∧ ChargeFails y .b) := by
  simp only [Admitted, Taken, ChargeFails]; decide

theorem witness_ReadFailureTakesCurrency_sizes :
    TableSizes (withVol 7 { record 8 1024 (List.replicate 4 .synced) with threshold := 1 }) := sizes_of (by decide)

/-- 3.12, step 1, and a range to the last block. -/
theorem witness_OpenIntentIsGranted :
    let x := record 8 1536 (List.replicate 6 .synced)
    let s := withVol 5 x
    let ps : List Byte := [5, 0, 0, 0, 4, 0, 0, 0, 2, 0, 0, 0]
    Admitted 0x20 (req .p0 ps) s ∧ s.volume? 5 = some x ∧ x.condition ≠ .offline ∧ field ps 6 4 = 512
    ∧ field ps 1 5 + field ps 6 4 ≤ x.blockCount
    ∧ (field ps 1 5 + field ps 6 4 - 1) / 2 ^ x.shift - field ps 1 5 / 2 ^ x.shift + 1 ≤ 32
    ∧ s.overlapsIntent 5 1024 512 = false ∧ s.overlapsWaiter s.arrival 5 1024 512 = false
    ∧ (s.port .p0).intents < (s.port .p0).session.config.quota ∧ lowestFree s.intents = some 0 := by
  simp only [Admitted, Taken]; decide

theorem witness_GrantTouchesItsExtents :
    let x := record 8 1536 (List.replicate 6 .synced)
    lowestFree (withVol 5 x).intents = some 0 ∧ (withVol 5 x).volume? (intent .p0 5 0 256 0 1 .pending .pending).volume = some x
    ∧ lowestFree inFlight.intents = some 2 ∧ (repairing.assignment? 0).isSome := by decide

/-- An OFFLINE volume; counts of 0, 16,777,217 and one block too many; a span of 33; a conflict with wait 0 and with a wait;
a quota reached; a full table; a full list. -/
theorem witness_OpenIntentWaitsOrIsRefused :
    let x := record 8 1000 (List.replicate 4 .synced)
    let off := Volume.recount { x with copyA := ⟨.failed, 0, 0⟩, copyB := ⟨.failed, 0, 0⟩ }
    let ps : List Byte := [5, 0, 0, 0, 1, 44, 0, 0, 0, 50, 0, 0]
    Admitted 0x20 (req .p1 ps) inFlight ∧ off.condition = .offline ∧ 16777216 < 16777217 ∧ x.blockCount < 0 + 1001
    ∧ 32 < (0 + 8193 - 1) / 2 ^ 8 - 0 / 2 ^ 8 + 1 ∧ (0 + 8192 - 1) / 2 ^ 8 - 0 / 2 ^ 8 + 1 ≤ 32
    ∧ inFlight.overlapsIntent 5 (field ps 1 5) (field ps 6 4) = true
    ∧ (let s := inFlight.setSession .p1 { session with config := { PortConfig.reset with quota := 1 } }
       s.overlapsIntent 5 600 1 = false ∧ (s.port .p1).session.config.quota ≤ (s.port .p1).intents)
    ∧ (let s : State := { base with intents := List.replicate 192 ⟨0, some (intent .p0 1 0 1 0 1 .pending .pending)⟩ }
       lowestFree s.intents = none ∧ s.overlapsIntent 5 0 1 = false)
    ∧ 32 ≤ ({ inFlight with arrival := List.range 32 } : State).arrival.length
    ∧ (inFlight.arrival.length < 32 ∧ 0 < inFlight.waiters.length ∧ inFlight.waiterEntry 0 = .vacant)
    ∧ (let s : State := { inFlight with waiters := List.replicate 32 ⟨1, .granted .p0 1 ⟨0, 1⟩⟩ }
       (∀ k < s.waiters.length, s.waiterEntry k ≠ .vacant) ∧ (s.waiterEntry 0).isGranted = true) := by
  simp only [Admitted, Taken]; decide

/-- 3.12: intent 0/1 with its other report WRITTEN closes; with both PENDING it stays open. -/
theorem witness_WrittenReportRecordsOrCloses :
    let ps : List Byte := [0, 1, 2, 1]
    Admitted 0x21 (req .p0 ps) inFlight ∧ byteAt ps 2 = Copy.b.code ∧ byteAt ps 3 = 1
    ∧ inFlight.findIntent .p0 (tagParam ps 0) = some (intent .p0 5 100 300 0 2 .written .pending)
    ∧ (inFlight.volume? 5).isSome
    ∧ (let i := intent .p0 7 0 256 0 1 .pending .pending
       let s := (withVol 7 (record 8 1024 (List.replicate 4 .synced))).grant 0 i
       Admitted 0x21 (req .p0 ps) s ∧ s.findIntent .p0 (tagParam ps 0) = some i ∧ (s.volume? 7).isSome
        ∧ i.report (other .b) = .pending) := by
  simp only [Admitted, Taken]; decide

/-- Volume 7 with the given record and an intent on its extent 0 with the given report of copy A. -/
def reporting (x : Volume) (a : Report) : State := (withVol 7 x).grant 0 (intent .p0 7 0 256 0 1 a .pending)

/-- 3.12, step 5, where the charge fails copy B; with A PENDING, the intent that waits on, the charge failing B and not;
and one that closes on a charge beside a FAILED copy A, which is protected. -/
theorem witness_FailedReportChargesCopy :
    let ps : List Byte := [0, 1, 2, 2]
    let x := record 8 1024 (List.replicate 4 .synced)
    let one : Volume := { x with threshold := 1 }
    let last := Volume.recount { one with copyA := ⟨.failed, 0, 0⟩ }
    Admitted 0x21 (req .p0 ps) inFlight ∧ byteAt ps 2 = Copy.b.code ∧ byteAt ps 3 = 2
    ∧ inFlight.findIntent .p0 (tagParam ps 0) = some (intent .p0 5 100 300 0 2 .written .pending)
    ∧ (intent .p0 5 100 300 0 2 .written .pending).report .b = .pending
    ∧ ((inFlight.volume? 5).map fun y => decide (y.threshold = 1 ∧ y.health .a = .online ∧ y.health .b = .online)) = some true
    ∧ (Admitted 0x21 (req .p0 ps) (reporting x .pending) ∧ ((reporting x .pending).volume? 7).isSome ∧ ¬ ChargeFails x .b
        ∧ (reporting x .pending).findIntent .p0 (tagParam ps 0) = some (intent .p0 7 0 256 0 1 .pending .pending))
    ∧ (((reporting one .pending).volume? 7).map (fun y => y.threshold) = some 1 ∧ ChargeFails one .b)
    ∧ (Admitted 0x21 (req .p0 ps) (reporting last .notRequired) ∧ ¬ ChargeFails last .b
        ∧ ((reporting last .notRequired).volume? 7).isSome
        ∧ (reporting last .notRequired).findIntent .p0 (tagParam ps 0) = some (intent .p0 7 0 256 0 1 .notRequired .pending)) := by
  simp only [Admitted, Taken, ChargeFails]; decide

theorem witness_FailedReportChargesCopy_sizes :
    TableSizes inFlight ∧ TableSizes (reporting { record 8 1024 (List.replicate 4 .synced) with threshold := 1 } .pending) :=
  ⟨sizes_of (by decide), sizes_of (by decide)⟩

theorem witness_DeadTagsAreRefused :
    base.findIntent .p0 (tagParam [0, 1, 1, 1] 0) = none ∧ Admitted 0x21 (req .p0 [0, 1, 1, 1]) base
    ∧ Admitted 0x22 (req .p0 [0, 1]) base ∧ Admitted 0x23 (req .p0 [0, 1]) base
    ∧ Admitted 0x21 (req .p0 [0, 1, 1, 1]) inFlight
    ∧ inFlight.findIntent .p0 (tagParam [0, 1, 1, 1] 0) = some (intent .p0 5 100 300 0 2 .written .pending)
    ∧ (intent .p0 5 100 300 0 2 .written .pending).report .a = .written
    ∧ (let i := intent .p0 7 0 256 0 1 .pending .notRequired
       ((withVol 7 (record 8 1024 (List.replicate 4 .synced))).grant 0 i).findIntent .p0 ⟨0, 1⟩ = some i
        ∧ i.report .b = .notRequired) := by
  simp only [Admitted, Taken]; decide

theorem witness_DeadTagsAreRefused_others :
    base.findAssignment .p0 (tagParam [31, 255, 2] 0) = none ∧ Admitted 0x29 (req .p0 [31, 255, 2]) base
    ∧ (byteAt [31, 255, 2] 2).toNat ≤ 2 ∧ Admitted 0x2A (req .p0 [31, 255]) base
    ∧ base.findTicket .p0 (tagParam [31, 255] 0) = .vacant ∧ Admitted 0x24 (req .p0 [31, 255]) base := by
  simp only [Admitted, Taken]; decide

/-- A copy byte of 3, an outcome byte of 0, and an outcome byte of 3. -/
theorem witness_DeadTagsAreRefused_bytes :
    (byteAt [0, 1, 3, 1] 2 ≠ 1 ∧ byteAt [0, 1, 3, 1] 2 ≠ 2) ∧ (byteAt [0, 1, 1, 0] 3 ≠ 1 ∧ byteAt [0, 1, 1, 0] 3 ≠ 2)
    ∧ Admitted 0x21 (req .p0 [0, 1, 3, 1]) base ∧ 2 < (byteAt [31, 255, 3] 2).toNat
    ∧ Admitted 0x29 (req .p0 [31, 255, 3]) base := by
  simp only [Admitted, Taken]; decide

/-- An abandon, an expiry at its deadline, and one a tick early. -/
theorem witness_AbandonAndExpirySettleExtents :
    Admitted 0x22 (req .p0 [0, 1]) inFlight
    ∧ inFlight.findIntent .p0 (tagParam [0, 1] 0) = some (intent .p0 5 100 300 0 2 .written .pending)
    ∧ (inFlight.volume? 5).isSome
    ∧ (let s : State := { inFlight with ticks := 5000 }
       s.supply = .run ∧ s.intent? 0 = some (intent .p0 5 100 300 0 2 .written .pending)
        ∧ (intent .p0 5 100 300 0 2 .written .pending).deadline ≤ s.ticks * 25000)
    ∧ ({ inFlight with ticks := 4999 } : State).ticks * 25000 < (intent .p0 5 100 300 0 2 .written .pending).deadline := by
  simp only [Admitted, Taken]; decide

theorem witness_IntentStatusReportsIntent :
    Admitted 0x23 (req .p0 [0, 1]) inFlight
    ∧ inFlight.findIntent .p0 (tagParam [0, 1] 0) = some (intent .p0 5 100 300 0 2 .written .pending) := by
  simp only [Admitted, Taken]; decide

/-- A decidable reading of `ArrivalAgrees`. -/
theorem arrival_of {s : State} (hl : s.waiters.length = 32) (h1 : s.arrival.Nodup) (h2 : ∀ w ∈ s.arrival, w < 32)
    (h3 : ∀ w, w < 32 → (w ∈ s.arrival ↔ (s.waiter? w).isSome = true))
    (h4 : ∀ w, w < 32 → (s.waiter? w).all (fun x => (s.volume? x.volume).isSome) = true) : ArrivalAgrees s := by
  have hbig : ∀ w, (s.waiter? w).isSome = true → w < 32 := by
    intro w hw
    by_contra hn
    have : s.waiters[w]? = none := List.getElem?_eq_none (by omega)
    simp [State.waiter?, State.waiterEntry, this] at hw
  refine ⟨h1, fun w => ⟨fun h => (h3 w (h2 w h)).1 h, fun h => (h3 w (hbig w h)).2 h⟩, fun w x hx => ?_⟩
  have := h4 w (hbig w (by rw [hx]; rfl))
  rw [hx] at this
  exact this

theorem failing_arrival : ArrivalAgrees failing :=
  arrival_of (by decide) (by decide) (by decide) (by decide) (by decide)

/-- 6.7: the waiter stays behind intent 0/1. -/
theorem witness_PassLeavesOnlyBlockedWaiters :
    ArrivalAgrees failing ∧ 0 ∈ failing.pass.arrival ∧ failing.pass.waiter? 0 = some ⟨.p1, 1, 6, 100, 100, 25000000⟩ :=
  ⟨failing_arrival, by decide, by decide⟩

/-- Waiter 2/1 of `waiting`, at block 750, with an intent of the same volume that ends at block 749. -/
def beside : State := waiting.grant 0 (intent .p0 3 0 750 0 3 .pending .pending)

/-- The one open intent of `beside` is in slot 0. -/
theorem beside_intent {k : Nat} {i : Intent} (h : beside.intent? k = some i) :
    i = intent .p0 3 0 750 0 3 .pending .pending := by
  by_cases hk : k = 0
  · subst hk
    have h0 : beside.intent? 0 = some (intent .p0 3 0 750 0 3 .pending .pending) := by decide
    rw [h0] at h; exact (Option.some.inj h).symm
  · have hn : ∀ k, k < 192 → k ≠ 0 → beside.intent? k = none := by decide
    by_cases hb : k < 192
    · rw [hn k hb hk] at h; cases h
    · have hl : beside.intents.length = 192 := by decide
      have : beside.intents[k]? = none := List.getElem?_eq_none (by omega)
      simp [State.intent?, heldAt, this] at h

/-- A waiter one block behind an open intent is granted; one blocked by an intent, one at its port's quota and one before a
full table are not, and an EMPTY slot is no waiter. -/
theorem witness_PassLeavesOnlyBlockedWaiters_visits :
    (beside.waiter? 2 = some ⟨.p1, 1, 3, 750, 11, 13375000⟩ ∧ (beside.volume? 3).isSome
      ∧ Unblocked beside 2 ⟨.p1, 1, 3, 750, 11, 13375000⟩ ∧ lowestFree beside.intents = some 1)
    ∧ ¬ Unblocked failing 0 ⟨.p1, 1, 6, 100, 100, 25000000⟩
    ∧ (let s := waiting.setSession .p1 { session with config := { PortConfig.reset with quota := 0 } }
       ¬ Unblocked s 2 ⟨.p1, 1, 3, 750, 11, 13375000⟩)
    ∧ lowestFree (List.replicate 192 (⟨0, some (intent .p0 1 0 1 0 1 .pending .pending)⟩ : Slot (Option Intent))) = none
    ∧ waiting.waiter? 0 = none := by
  refine ⟨⟨by decide, by decide, ⟨fun k i h _ => ?_, fun k y h => ?_, by decide⟩, by decide⟩, fun h => ?_, fun h => ?_,
    by decide, by decide⟩
  · rw [beside_intent h]; decide
  · have : beside.arrival.takeWhile (fun k => k ≠ 2) = [] := by decide
    rw [this] at h; cases h
  · exact h.1 0 (intent .p0 6 0 256 0 1 .written .pending) (by decide) rfl (by decide)
  · exact absurd h.2.2 (by decide)

theorem witness_CancelAndExpiryEndWaits :
    Admitted 0x24 (req .p1 [2, 1]) waiting
    ∧ waiting.findTicket .p1 (tagParam [2, 1] 0) = .waiting ⟨.p1, 1, 3, 750, 11, 13375000⟩
    ∧ (let s : State := { waiting with waiters := waiting.waiters.set 2 ⟨1, .granted .p1 1 ⟨0, 2⟩⟩ }
       Admitted 0x24 (req .p1 [2, 1]) s ∧ s.findTicket .p1 (tagParam [2, 1] 0) = .granted .p1 1 ⟨0, 2⟩)
    ∧ waiting.waiter? 2 = some ⟨.p1, 1, 3, 750, 11, 13375000⟩
    ∧ 13375000 ≤ ({ waiting with ticks := 535 } : State).ticks * 25000
    ∧ ({ waiting with ticks := 534 } : State).ticks * 25000 < 13375000 := by
  simp only [Admitted, Taken]; decide

theorem scheduler_counts : CountsAgree scheduler := counts_of (by decide) (by decide)

theorem chosen_volume2 : Chosen (record 10 4096 [.synced, .aOnly, .synced, .bOnly]) 1 := by
  refine ⟨by decide, ⟨⟨.aOnly, 0, none⟩, by decide⟩, ?_⟩
  rw [if_pos (by decide)]
  intro k _ hk
  have : k = 0 := by omega
  subst this
  rintro ⟨y, hy, -, -, h⟩
  have : y = ⟨.synced, 0, none⟩ := by
    have hr : (record 10 4096 [.synced, .aOnly, .synced, .bOnly]).extents[0]? = some ⟨.synced, 0, none⟩ := by decide
    rw [hr] at hy; exact (Option.some.inj hy).symm
  subst this
  simp at h

theorem not_qualifies_synced (e : Nat) : ¬ Qualifies (record 8 512 [.synced, .synced]) e := by
  rintro ⟨y, hy, -, -, h⟩
  have hr : (record 8 512 [.synced, .synced]).extents = [⟨.synced, 0, none⟩, ⟨.synced, 0, none⟩] := by decide
  rw [hr] at hy
  have : y = ⟨.synced, 0, none⟩ := by
    match e, hy with
    | 0, hy => exact (Option.some.inj hy).symm
    | 1, hy => exact (Option.some.inj hy).symm
  subst this
  simp at h

/-- 5.8: volume numbers 16 and 254, an ABSENT volume, a port with 16 assignments, a full table, volume 2 with work and
volume 0 with none. -/
theorem witness_TakeRepairOfVolume :
    (Admitted 0x28 (req .p0 [16]) scheduler ∧ 15 < field [16] 0 1 ∧ field [254] 0 1 ≠ 255)
    ∧ (scheduler.volume? 15 = none ∧ field [15] 0 1 ≤ 15)
    ∧ 16 ≤ (({ scheduler with port0 := { scheduler.port0 with assignments := 16 } } : State).port .p0).assignments
    ∧ lowestFree (List.replicate 32 (⟨0, some ⟨.p0, 1, 2, 1, .a, .b, false, 1⟩⟩ : Slot (Option Assignment))) = none
    ∧ (Admitted 0x28 (req .p0 [2]) scheduler ∧ CountsAgree scheduler ∧ (scheduler.port .p0).assignments < 16
        ∧ lowestFree scheduler.assignments = some 0
        ∧ scheduler.volume? 2 = some (record 10 4096 [.synced, .aOnly, .synced, .bOnly])
        ∧ Chosen (record 10 4096 [.synced, .aOnly, .synced, .bOnly]) 1)
    ∧ (scheduler.volume? 0 = some (record 8 512 [.synced, .synced]) ∧ ∀ e, ¬ Qualifies (record 8 512 [.synced, .synced]) e) := by
  refine ⟨?_, by decide, by decide, by decide, ⟨?_, scheduler_counts, by decide, by decide, by decide, chosen_volume2⟩,
    by decide, not_qualifies_synced⟩
  · simp only [Admitted, Taken]; decide
  · simp only [Admitted, Taken]; decide

/-- 5.8, step 1: from pointer 15 volume 0 comes before volume 2 and has no work; a part with volume 0 alone has none. -/
theorem witness_TakeRepairOfAnyTakesTurns :
    Admitted 0x28 (req .p0 [0xFF]) scheduler ∧ CountsAgree scheduler ∧ TableSizes scheduler
    ∧ lowestFree scheduler.assignments = some 0
    ∧ scheduler.volume? 2 = some (record 10 4096 [.synced, .aOnly, .synced, .bOnly])
    ∧ Chosen (record 10 4096 [.synced, .aOnly, .synced, .bOnly]) 1
    ∧ (∀ w z, w ≤ 15 → (w + 15 - scheduler.pointer) % 16 < (2 + 15 - scheduler.pointer) % 16 → scheduler.volume? w = some z →
        ∀ k, ¬ Qualifies z k)
    ∧ ∀ v x, v ≤ 15 → (withVol 0 (record 8 512 [.synced, .synced])).volume? v = some x → ∀ e, ¬ Qualifies x e := by
  refine ⟨?_, scheduler_counts, sizes_of (by decide), by decide, by decide, chosen_volume2, ?_, ?_⟩
  · simp only [Admitted, Taken]; decide
  · intro w z hw ht hz
    have hp : scheduler.pointer = 15 := by decide
    rw [hp] at ht
    have h01 : w = 0 ∨ w = 1 := by omega
    rcases h01 with rfl | rfl
    · have : scheduler.volume? 0 = some (record 8 512 [.synced, .synced]) := by decide
      rw [this] at hz
      obtain rfl := Option.some.inj hz
      exact not_qualifies_synced
    · have : scheduler.volume? 1 = none := by decide
      rw [this] at hz; cases hz
  · intro v x hv hx
    by_cases h0 : v = 0
    · subst h0
      have : (withVol 0 (record 8 512 [.synced, .synced])).volume? 0 = some (record 8 512 [.synced, .synced]) := by decide
      rw [this] at hx
      obtain rfl := Option.some.inj hx
      exact not_qualifies_synced
    · have : ∀ v, v < 16 → v ≠ 0 → (withVol 0 (record 8 512 [.synced, .synced])).volume? v = none := by decide
      rw [this v (by omega) h0] at hx; cases hx

/-- The three outcomes on an assignment not overtaken, whose charge fails no copy; an overtaken one; a charge of its source
that fails it, and one of its target beside a FAILED source, where the source is protected. -/
theorem witness_RepairDoneEndsAssignment :
    Admitted 0x29 (req .p0 [0, 1, 0]) repairing
    ∧ repairing.findAssignment .p0 (tagParam [0, 1, 0] 0) = some ⟨.p0, 1, 2, 1, .a, .b, false, 500000000⟩
    ∧ ((repairing.volume? 2).map fun y => y.threshold) = some 8
    ∧ ¬ ChargeFails (record 10 4096 [.synced, .aOnly, .synced, .bOnly]) .a
    ∧ byteAt [0, 1, 0] 2 = 0 ∧ byteAt [0, 1, 1] 2 = 1 ∧ byteAt [0, 1, 2] 2 = 2
    ∧ (let x : Volume := { record 8 1024 (List.replicate 4 .synced) with threshold := 1 }
       let a : Assignment := ⟨.p0, 1, 4, 1, .a, .b, true, 500000000⟩
       let s := (withVol 4 x).createAssignment 0 a x
       s.findAssignment .p0 (tagParam [0, 1, 0] 0) = some a
        ∧ (s.volume? 4).map (fun y => decide (y.threshold = 1 ∧ y.health .a = .online ∧ y.health .b = .online)) = some true
        ∧ ChargeFails x .a ∧ ChargeFails x .b ∧ ¬ ChargeFails { degraded with threshold := 1 } .a) := by
  simp only [Admitted, Taken, ChargeFails]; decide

theorem repairing_sizes : TableSizes repairing := sizes_of (by decide)

theorem witness_ReleaseAndExpiryRevoke :
    Admitted 0x2A (req .p0 [0, 1]) repairing
    ∧ repairing.findAssignment .p0 (tagParam [0, 1] 0) = some ⟨.p0, 1, 2, 1, .a, .b, false, 500000000⟩
    ∧ repairing.assignment? 0 = some ⟨.p0, 1, 2, 1, .a, .b, false, 500000000⟩ ∧ (repairing.volume? 2).isSome
    ∧ 500000000 ≤ ({ repairing with ticks := 20000 } : State).ticks * 25000
    ∧ ({ repairing with ticks := 19999 } : State).ticks * 25000 < 500000000 := by
  simp only [Admitted, Taken]; decide

theorem failing_sizes : TableSizes failing := sizes_of (by decide)

theorem witness_FailCopyTakesCopyOut :
    Admitted 0x30 (req .p1 [6, 2]) failing ∧ TableSizes failing ∧ (failing.volume? 6).isSome
    ∧ byteAt [6, 3] 1 ≠ 1 ∧ byteAt [6, 3] 1 ≠ 2
    ∧ byteAt [6, 2] 1 = Copy.b.code ∧ (failing.volume? 6).map (fun x => x.health .b) = some .online
    ∧ (intent .p0 6 0 256 0 1 .written .pending).firstExtent = 0 ∧ failing.assignment? 0
      = some ⟨.p1, 1, 6, 3, .b, .a, false, 500000000⟩ ∧ (failing.volume? 6).map (fun x => stateAt x 3) = some .bOnly
    ∧ Admitted 0x30 (req .p1 [6, 2]) (withVol 6 degraded) ∧ TableSizes (withVol 6 degraded) ∧ degraded.health .b = .failed := by
  refine ⟨?_, failing_sizes, by decide, by decide, by decide, by decide, by decide, by decide, by decide, by decide, ?_,
    sizes_of (by decide), by decide⟩
  · simp only [Admitted, Taken]; decide
  · simp only [Admitted, Taken]; decide

/-- A FAILED copy with stale extents, one with none, and a copy that is not FAILED. -/
theorem witness_ReplaceCopyStartsRebuild :
    Admitted 0x31 (req .p0 [6, 2]) (withVol 6 degraded) ∧ (withVol 6 degraded).volume? 6 = some degraded
    ∧ byteAt [6, 0] 1 ≠ 1 ∧ byteAt [6, 0] 1 ≠ 2
    ∧ byteAt [6, 2] 1 = Copy.b.code ∧ degraded.health .b = .failed ∧ degraded.health (other .b) ≠ .failed
    ∧ CountsAgree (withVol 6 degraded) ∧ (degraded.copy .b).stale = 3
    ∧ byteAt [6, 1] 1 = Copy.a.code ∧ degraded.health .a ≠ .failed
    ∧ (let x := Volume.recount { record 8 1024 (List.replicate 4 .lost) with copyB := ⟨.failed, 3, 0⟩ }
       CountsAgree (withVol 6 x) ∧ (x.copy .b).stale = 0 ∧ x.health .b = .failed) := by
  refine ⟨?_, by decide, by decide, by decide, by decide, by decide, by decide, counts_of (by decide) (by decide), by decide,
    by decide, by decide, counts_of (by decide) (by decide), by decide, by decide⟩
  simp only [Admitted, Taken]; decide

theorem witness_ClearErrorsZeroesCounter :
    Admitted 0x32 (req .p0 [16, 1]) (withVol 6 degraded) ∧ 15 < field [16, 1] 0 1 ∧ (withVol 6 degraded).volume? 15 = none
    ∧ (withVol 6 degraded).volume? 6 = some degraded ∧ byteAt [6, 0] 1 ≠ 1 ∧ byteAt [6, 3] 1 ≠ 2 ∧ byteAt [6, 1] 1 = 1
    ∧ byteAt [6, 2] 1 = 2 := by
  simp only [Admitted, Taken]; decide

theorem witness_IdentifyAnswers :
    Taken 0x01 (req .p0 []) State.reset ∧ (req .p0 []).params = []
    ∧ (let s : State := { State.reset with supply := .starting }
       s.supply = .starting ∧ Heard (on .p0) s ∧ (s.port .p0).link.lastTaken ≠ some (5, 0x01)) := by
  simp only [Taken, Heard]; decide

/-- BUSY for each of the four reasons, and a part with one OPEN port and a volume. -/
theorem witness_FormatEmptiesVolumes :
    Admitted 0x38 (req .p0 []) base ∧ (base.port (peer .p0)).session.state = .opened ∧ (inFlight.intent? 0).isSome
    ∧ waiting.arrival ≠ [] ∧ (repairing.assignment? 0).isSome
    ∧ (let s : State := { withVol 6 degraded with port1 := PortRecord.reset }
       Admitted 0x38 (req .p0 []) s ∧ (∀ k < 192, s.intent? k = none) ∧ s.arrival = [] ∧ (∀ k < 32, s.assignment? k = none)
        ∧ (s.port (peer .p0)).session.state ≠ .opened ∧ (s.volume? 6).isSome) := by
  simp only [Admitted, Taken]; decide

theorem witness_SupplyEventsFollowTable :
    base.supply = .run ∧ ({ base with supply := .starting } : State).supply = .starting
    ∧ ({ base with supply := .hold } : State).supply = .hold ∧ ({ base with supply := .off } : State).supply = .off := by decide

/-- STARTING with a frame refused STARTING on port 0 (10.7), and PRST asserted on port 1. -/
def polled (kind : StartKind) : State :=
  let s := after (.identify (req .p0 [])) { State.reset with supply := .starting, startDecided := kind }
  s.setPrst .p1 true

/-- 10.7: the link refusal stands when the start completes, and IDENTIFY is then answered. -/
theorem test_startComplete_polled :
    let t := after .startComplete (polled .warm)
    t.supply = .run ∧ t.warmStarts = 1 ∧ t.port0.link.refusal.isSome ∧ t.port1.prst = true
    ∧ (said (after (.identify (req .p0 [])) t) .p0).take 1 = [0x00] := by decide

theorem witness_ColdStartEmptiesPart :
    (let s : State := { inFlight with supply := .hold, retentionValid := false }
     s.supply = .hold ∧ s.retentionValid = false)
    ∧ (polled .cold).supply = .starting ∧ (polled .cold).startDecided = .cold := by decide

/-- A part in HOLD, its volume 4 with copy B REBUILDING, an open extent (0, VOID) and an overtaken assignment of extent 1. -/
def restarting : State :=
  let x := Volume.recount { record 8 1024 [.void, .synced, .aOnly, .synced] with copyB := ⟨.rebuilding, 0, 0⟩ }
  let s := ((withVol 4 x).createAssignment 0 ⟨.p1, 1, 4, 1, .a, .b, true, 500000000⟩ x).grant 0
    (intent .p0 4 0 100 0 1 .pending .pending)
  { s with supply := .hold }

/-- R27, R43, R166: the open VOID extent becomes SUSPECT, the overtaken assignment's A_ONLY; copy B stays REBUILDING. -/
theorem test_start_warm_rebuilding :
    let t := after (.start false false false) restarting
    states t 4 = [.suspect, .aOnly, .aOnly, .synced] ∧ (t.volume? 4).map (fun y => y.health .b) = some .rebuilding := by decide

/-- A present volume with a REBUILDING copy, an open extent and an overtaken assignment, and an ABSENT volume. -/
theorem witness_WarmStartConvertsExtents :
    (polled .warm).supply = .starting ∧ (polled .warm).startDecided = .warm
    ∧ restarting.supply = .hold ∧ restarting.retentionValid = true ∧ restarting.volume? 5 = none
    ∧ (∃ x y z l, restarting.volume? 4 = some x ∧ x.health .b = .rebuilding ∧ x.extents[0]? = some y ∧ y.openCount = 1
        ∧ x.extents[1]? = some z ∧ z.link = some l ∧ l.overtaken = true) :=
  ⟨by decide, by decide, rfl, rfl, by decide, _, _, _, _, rfl, by decide, rfl, by decide, rfl, rfl, by decide⟩

/-! ### A state with work of every kind (6.7), for the statements about every step -/

/-- 6.7 with FAIL_COPY at the front of the queue. -/
def failingNow : State := { failing with pending := [.failCopy (req .p1 [6, 2])] }

theorem failingNow_steps : ∃ t, step failingNow = .next t := ⟨_, rfl⟩

theorem failingNow_counts : CountsAgree failingNow := counts_of (by decide) (by decide)

theorem failingNow_attn : AttnAgrees failingNow := by intro p; cases p <;> decide

theorem failingNow_pins : PinsReleased failingNow := by intro _; exact ⟨by decide, by decide⟩

theorem failingNow_queues : QueuesBounded failingNow := by intro p; cases p <;> (simp only [EventUnit.bounded]; decide)

theorem failingNow_closed : ClosedPortsIdle failingNow := by intro p; cases p <;> decide

theorem failingNow_runs : RunsDisjoint failingNow := runs_of (by decide) (by decide) (by decide)

theorem failingNow_arrival : ArrivalAgrees failingNow :=
  arrival_of (by decide) (by decide) (by decide) (by decide) (by decide)

theorem failingNow_sizes : TableSizes failingNow := sizes_of (by decide)

/-- The one open intent of `failingNow` is in slot 0. -/
theorem failingNow_intent {k : Nat} {i : Intent} (h : failingNow.intent? k = some i) :
    k = 0 ∧ i = intent .p0 6 0 256 0 1 .written .pending := by
  have h0 : failingNow.intent? 0 = some (intent .p0 6 0 256 0 1 .written .pending) := by decide
  have hn : ∀ k, k < 192 → k ≠ 0 → failingNow.intent? k = none := by decide
  by_cases hk : k = 0
  · subst hk; rw [h0] at h; exact ⟨rfl, (Option.some.inj h).symm⟩
  · by_cases hb : k < 192
    · rw [hn k hb hk] at h; cases h
    · have hl : failingNow.intents.length = 192 := by decide
      have : failingNow.intents[k]? = none := List.getElem?_eq_none (by omega)
      simp [State.intent?, heldAt, this] at h

theorem failingNow_disjoint : IntentsDisjoint failingNow := by
  intro a b i j hne ha hb
  exact absurd ((failingNow_intent ha).1.trans (failingNow_intent hb).1.symm) hne

theorem failingNow_openCounts : OpenCountsAgree failingNow := by
  refine ⟨fun p => by cases p <;> decide, fun k i h => ?_, ?_⟩
  · rw [(failingNow_intent h).2]; decide
  · refine volumes_all (by decide) fun v hv => ?_
    have h : ∀ v, v < 16 → (failingNow.volume? v).all (fun x => decide (x.openIntents = failingNow.countIntents
        (fun i => i.volume = v) ∧ x.extents.length ≤ 4 ∧ ∀ e, e < 4 → (x.extents[e]?).all (fun y => decide (y.openCount
          = failingNow.countIntents (fun i => i.volume = v && i.touches e))) = true)) = true := by decide
    intro x hx
    obtain ⟨h1, h2, h3⟩ := option_all (fun _ => inferInstance) (h v hv) x hx
    refine ⟨h1, fun e y hy => ?_⟩
    have he : e < 4 := by
      by_contra hn
      rw [List.getElem?_eq_none (by omega)] at hy; cases hy
    exact option_all (fun _ => inferInstance) (h3 e he) y hy

theorem failingNow_assignments : AssignmentsAgree failingNow := by
  have h0 : failingNow.assignment? 0 = some ⟨.p1, 1, 6, 3, .b, .a, false, 500000000⟩ := by decide
  refine ⟨fun p => by cases p <;> decide, fun k a h => ?_, ?_⟩
  · have hn : ∀ k, k < 32 → k ≠ 0 → failingNow.assignment? k = none := by decide
    have hk : k = 0 := by
      by_contra hk
      by_cases hb : k < 32
      · rw [hn k hb hk] at h; cases h
      · have hl : failingNow.assignments.length = 32 := by decide
        have : failingNow.assignments[k]? = none := List.getElem?_eq_none (by omega)
        simp [State.assignment?, heldAt, this] at h
    subst hk
    rw [h0] at h
    obtain rfl := Option.some.inj h
    refine ⟨by decide, ?_⟩
    have hx : ∃ x, failingNow.volume? 6 = some x ∧ x.extents[3]? = some ⟨.bOnly, 0, some ⟨0, .a, false⟩⟩ := ⟨_, rfl, rfl⟩
    obtain ⟨x, hx, hy⟩ := hx
    exact ⟨x, _, hx, hy, rfl⟩
  · intro v x e y l hx hy hl
    have h : ∀ v, v < 16 → (failingNow.volume? v).all (fun x => decide (x.extents.length ≤ 4 ∧ ∀ e, e < 4 →
        (x.extents[e]?).all (fun y => decide (y.link = none ∨ (v = 6 ∧ e = 3 ∧ y.link = some ⟨0, .a, false⟩))) = true))
        = true := by decide
    have hv : v < 16 := by have := State.volume?_lt hx; exact this
    obtain ⟨h2, h3⟩ := option_all (fun _ => inferInstance) (h v hv) x hx
    have he : e < 4 := by
      by_contra hn
      rw [List.getElem?_eq_none (by omega)] at hy; cases hy
    rcases option_all (fun _ => inferInstance) (h3 e he) y hy with h4 | ⟨rfl, rfl, h4⟩
    · rw [hl] at h4; cases h4
    · rw [hl] at h4
      obtain rfl := Option.some.inj h4
      exact ⟨_, h0, rfl, rfl⟩

theorem witness_StepKeepsCountsAgreeing : CountsAgree failingNow ∧ ∃ t, step failingNow = .next t :=
  ⟨failingNow_counts, failingNow_steps⟩

theorem witness_StepKeepsPinsSettled : AttnAgrees failingNow ∧ PinsReleased failingNow ∧ ∃ t, step failingNow = .next t :=
  ⟨failingNow_attn, failingNow_pins, failingNow_steps⟩

theorem witness_StepKeepsQueuesBounded : QueuesBounded failingNow ∧ ClosedPortsIdle failingNow ∧ ∃ t, step failingNow = .next t :=
  ⟨failingNow_queues, failingNow_closed, failingNow_steps⟩

theorem witness_StepKeepsIntentsAgreeing : IntentsDisjoint failingNow ∧ OpenCountsAgree failingNow ∧ ∃ t, step failingNow = .next t :=
  ⟨failingNow_disjoint, failingNow_openCounts, failingNow_steps⟩

theorem witness_StepKeepsAssignmentsAgreeing : AssignmentsAgree failingNow ∧ ∃ t, step failingNow = .next t :=
  ⟨failingNow_assignments, failingNow_steps⟩

theorem witness_StepKeepsTablesAgreeing :
    RunsDisjoint failingNow ∧ ArrivalAgrees failingNow ∧ TableSizes failingNow ∧ ∃ t, step failingNow = .next t :=
  ⟨failingNow_runs, failingNow_arrival, failingNow_sizes, failingNow_steps⟩

theorem witness_GeometryIsFixedWhilePresent :
    ∃ t x y, step failingNow = .next t ∧ failingNow.volume? 6 = some x ∧ t.volume? 6 = some y := ⟨_, _, _, rfl, rfl, rfl⟩

theorem witness_PortsKeepTheirOwnSessions :
    (∃ t, exec (.openSession (req .p1 [0, 100])) base = .next t) ∧ (req .p1 [0, 100]).port ≠ .p0
    ∧ (∃ t, exec (.start false false false) { base with supply := .hold } = .next t)
    ∧ ({ base with supply := .hold } : State).retentionValid = true
    ∧ (Instr.openSession (req .p1 [0, 100])).frame? = some (0x02, req .p1 [0, 100]) :=
  ⟨⟨_, rfl⟩, by decide, ⟨_, rfl⟩, rfl, rfl⟩

end Sys2Proof.Tests
end

section
/-! PROOF. The loss of currency (R22) and EXTENT_STATES (R39). -/

namespace Sys2Proof.Machine

/-! ## The loss of currency (R22) -/

/-- VOID keeps VOID, and elsewhere a copy that is not current has nothing to lose (R22). -/
theorem loseCurrency_of_not_current {c : Copy} {st : Coherence} (h : st.current c = false) : loseCurrency c st = st := by
  cases st with
  | void => rfl
  | synced | suspect | aOnly | bOnly | lost => simp only [loseCurrency, h, Bool.false_eq_true, if_false]

/-- A copy that is not the only current one leaves currency to the other (R22). -/
theorem loseCurrency_of_both {c : Copy} {st : Coherence} (hc : st.current c = true) (ho : st.current (other c) = true) :
    loseCurrency c st = onlyState (other c) := by
  cases st with
  | void => cases hc
  | synced | suspect | aOnly | bOnly | lost => simp only [loseCurrency, hc, ho, if_true]

/-- The only current copy leaves no current copy (R22). -/
theorem loseCurrency_of_last {c : Copy} {st : Coherence} (hc : st.current c = true) (ho : st.current (other c) = false) :
    loseCurrency c st = .lost := by
  cases st with
  | void => cases hc
  | synced | suspect | aOnly | bOnly | lost => simp only [loseCurrency, hc, ho, if_true, Bool.false_eq_true, if_false]

/-- In a copy's _ONLY state that copy is current (Table 2-2). -/
@[simp] theorem current_onlyState_self (c : Copy) : (onlyState c).current c = true := by cases c <;> rfl

/-- In the other copy's _ONLY state a copy is not current (Table 2-2). -/
@[simp] theorem current_onlyState_other (c : Copy) : (onlyState (other c)).current c = false := by cases c <;> rfl

/-- In a copy's _ONLY state the other copy is not current (Table 2-2). -/
@[simp] theorem other_current_onlyState (c : Copy) : (onlyState c).current (other c) = false := by cases c <;> rfl

/-- A rule that leaves each extent of the list as it is leaves the list as it is. -/
theorem mapExtents_eq_self {f : Nat → Extent → Extent} {xs : List Extent} (h : ∀ e y, xs[e]? = some y → f e y = y) :
    mapExtents f xs = xs := by
  apply List.ext_getElem?
  intro e
  rw [mapExtents_getElem?]
  cases hy : xs[e]? with
  | none => rfl
  | some y => rw [Option.map_some, h e y hy]

/-- A loss of currency leaves an extent as it is that is not picked or in which the copy is not current (R22). -/
theorem loseIn_eq_self {sel : Nat → Bool} {c : Copy} {e : Nat} {y : Extent}
    (h : sel e = true → y.state.current c = false) : loseIn sel c e y = y := by
  rw [loseIn]
  split
  next hsel => rw [loseCurrency_of_not_current (h hsel)]
  next => rfl

/-- Settles O24: a row of R22 is decided by whether each of the two copies is current in the state. -/
theorem lossOfCurrencyTable : Obligations.LossOfCurrencyTable := by
  intro c
  refine ⟨?synced, ?suspect, ?ownOnly, ?otherOnly, ?lost, ?void, ?notCurrent, ?noneCurrent⟩
  case synced => exact loseCurrency_of_both rfl rfl
  case suspect => exact loseCurrency_of_both rfl rfl
  case ownOnly => exact loseCurrency_of_last (current_onlyState_self c) (other_current_onlyState c)
  case otherOnly => exact loseCurrency_of_not_current (current_onlyState_other c)
  case lost => exact loseCurrency_of_not_current rfl
  case void => exact loseCurrency_of_not_current rfl
  case notCurrent => exact fun st => loseCurrency_of_not_current
  case noneCurrent => exact fun sel xs h => mapExtents_eq_self fun e y hy => loseIn_eq_self (h e y hy)

/-! ## EXTENT_STATES (R39) -/

/-- A list that agrees place by place with a stretch of another is that stretch. -/
theorem take_drop_eq_of_getElem? {α : Type} {xs ys : List α} {first n : Nat} (hlen : ys.length = n)
    (h : ∀ j < n, xs[first + j]? = ys[j]?) : (xs.drop first).take n = ys := by
  apply List.ext_getElem?
  intro j
  rw [List.getElem?_take]
  split
  next hj => rw [List.getElem?_drop, h j hj]
  next hj => rw [List.getElem?_eq_none (by omega)]

/-- One byte holds a number cut to its width (R160). -/
theorem bytesOf_one (n : Nat) : bytesOf 1 n = [BitVec.ofNat 8 n] := by
  simp [bytesOf]

/-- The state, the open count and the assignment flag of an extent (2.9). -/
theorem Extent.bytes_eq (y : Extent) :
    y.bytes = [y.state.code, BitVec.ofNat 8 y.openCount, if y.link.isSome then 1 else 0] := by
  rw [Extent.bytes, bytesOf_one]
  rfl

/-- A count or a range that R39 does not allow is refused BAD_PARAM. -/
theorem ownExtentStates_badRange {p : Port} {ps : List Byte} {s : State} {x : Volume} (hv : field ps 0 1 ≤ 15)
    (hx : s.volume? (field ps 0 1) = some x)
    (hbad : field ps 4 1 = 0 ∨ 16 < field ps 4 1 ∨ x.extentCount < field ps 1 3 + field ps 4 1) :
    ownExtentStates p ps s = (s, .bare .badParam) := by
  rw [ownExtentStates, withVolume_present _ hv hx, if_pos hbad]

/-- Of a range that R39 allows, the count and the bytes of each of its extents are answered. -/
theorem ownExtentStates_goodRange {p : Port} {ps : List Byte} {s : State} {x : Volume} {ys : List Extent}
    (hv : field ps 0 1 ≤ 15) (hx : s.volume? (field ps 0 1) = some x)
    (hgood : ¬ (field ps 4 1 = 0 ∨ 16 < field ps 4 1 ∨ x.extentCount < field ps 1 3 + field ps 4 1))
    (hys : (x.extents.drop (field ps 1 3)).take (field ps 4 1) = ys) :
    ownExtentStates p ps s = (s, ⟨.ok, BitVec.ofNat 8 (field ps 4 1) :: ys.flatMap fun y =>
      [y.state.code, BitVec.ofNat 8 y.openCount, if y.link.isSome then 1 else 0]⟩) := by
  rw [ownExtentStates, withVolume_present _ hv hx, if_neg hgood, hys, bytesOf_one, funext Extent.bytes_eq,
    List.singleton_append]

/-- The meaning of EXTENT_STATES: its row of the catalogue, served by its owner. -/
theorem exec_extentStates (r : Request) (s : State) :
    exec (.extentStates r) s = .next (s.serve r 0x19 ownExtentStates) := rfl

/-- EXTENT_STATES needs no session: a taken frame of 5 parameters is concluded with what its owner leaves and replies. -/
theorem exec_extentStates_of_own {r : Request} {s t : State} {reply : Reply} (h : Taken 0x19 r s)
    (hlen : r.params.length = 5) (hown : ownExtentStates r.port r.params (begun s r) = (t, reply)) :
    exec (.extentStates r) s = .next (concluded t r 0x19 reply.status reply.results) := by
  rw [exec_extentStates, serve_taken ownExtentStates h rfl (by rw [hlen]; rfl) rfl, hown]

/-- Settles O27: the checks of the volume's name (R5), then those of R39, each with the reply of the request's owner. -/
theorem extentStatesReportsExtents : Obligations.ExtentStatesReportsExtents := by
  intro r s htaken hlen v first n
  refine ⟨fun hv => ?badNumber, fun hv habsent => ?absent, fun x hv hx => ⟨fun hbad => ?badRange, ?reported⟩⟩
  case badNumber => exact exec_extentStates_of_own htaken hlen (withVolume_badParam _ hv)
  case absent =>
    exact exec_extentStates_of_own htaken hlen (withVolume_absent _ hv ((begun_volume? s r v).trans habsent))
  case badRange =>
    exact exec_extentStates_of_own htaken hlen
      (ownExtentStates_badRange hv ((begun_volume? s r v).trans hx) hbad)
  case reported =>
    intro ys hzero hmax hend hys hagree
    have hgood : ¬ (n = 0 ∨ 16 < n ∨ x.extentCount < first + n) := by omega
    have hrange : (x.extents.drop first).take n = ys := take_drop_eq_of_getElem? hys hagree
    exact exec_extentStates_of_own htaken hlen
      (ownExtentStates_goodRange hv ((begun_volume? s r v).trans hx) hgood hrange)

end Sys2Proof.Machine
end

section
/-! PROOF. CLEAR_ERRORS (R117). -/

namespace Sys2Proof.Machine

/-! ## The checks of a request that names a copy (R5, R110, R115, R117) -/

/-- A copy byte that names neither A nor B names no copy. -/
theorem copyParam_none {b : Byte} (ha : b ≠ 1) (hb : b ≠ 2) : copyParam b = none := by
  rw [copyParam, if_neg ha, if_neg hb]

/-- A copy's code names that copy. -/
@[simp] theorem copyParam_code (c : Copy) : copyParam c.code = some c := by cases c <;> rfl

/-- The volume's number is checked before the copy byte. -/
theorem withCopy_badNumber {s : State} {ps : List Byte} (k : Nat → Volume → Copy → State × Reply)
    (hv : 15 < field ps 0 1) : s.withCopy ps k = (s, .bare .badParam) :=
  withVolume_badParam _ hv

/-- The volume's presence is checked before the copy byte. -/
theorem withCopy_absent {s : State} {ps : List Byte} (k : Nat → Volume → Copy → State × Reply)
    (hv : field ps 0 1 ≤ 15) (habsent : s.volume? (field ps 0 1) = none) : s.withCopy ps k = (s, .bare .noVolume) :=
  withVolume_absent _ hv habsent

/-- A copy byte that names neither A nor B is refused BAD_PARAM. -/
theorem withCopy_badCopy {s : State} {ps : List Byte} {x : Volume} (k : Nat → Volume → Copy → State × Reply)
    (hv : field ps 0 1 ≤ 15) (hx : s.volume? (field ps 0 1) = some x) (ha : byteAt ps 1 ≠ 1) (hb : byteAt ps 1 ≠ 2) :
    s.withCopy ps k = (s, .bare .badParam) := by
  rw [State.withCopy, withVolume_present _ hv hx, copyParam_none ha hb]

/-- With both names good, the request's rest has the record and the copy they name. -/
theorem withCopy_named {s : State} {ps : List Byte} {x : Volume} {c : Copy} (k : Nat → Volume → Copy → State × Reply)
    (hv : field ps 0 1 ≤ 15) (hx : s.volume? (field ps 0 1) = some x) (hc : byteAt ps 1 = c.code) :
    s.withCopy ps k = k (field ps 0 1) x c := by
  rw [State.withCopy, withVolume_present _ hv hx, hc, copyParam_code]

/-! ## CLEAR_ERRORS (R117) -/

/-- The meaning of CLEAR_ERRORS: its row of the catalogue, served by its owner. -/
theorem exec_clearErrors (r : Request) (s : State) :
    exec (.clearErrors r) s = .next (s.serve r 0x32 ownClearErrors) := rfl

/-- An admitted CLEAR_ERRORS of 2 parameters is concluded with what its owner leaves and replies. -/
theorem exec_clearErrors_of_own {r : Request} {s t : State} {reply : Reply} (h : Admitted 0x32 r s)
    (hlen : r.params.length = 2) (hown : ownClearErrors r.port r.params (begun s r) = (t, reply)) :
    exec (.clearErrors r) s = .next (concluded t r 0x32 reply.status reply.results) := by
  rw [exec_clearErrors, serve_admitted ownClearErrors h rfl (by rw [hlen]; rfl), hown]

/-- The named copy's counter becomes 0 whatever its health, and the value it held is answered. -/
theorem ownClearErrors_named {p : Port} {ps : List Byte} {s : State} {x : Volume} {c : Copy} (hv : field ps 0 1 ≤ 15)
    (hx : s.volume? (field ps 0 1) = some x) (hc : byteAt ps 1 = c.code) :
    ownClearErrors p ps s = (s.setVolume (field ps 0 1) (some (x.setCopy c { x.copy c with errors := 0 })),
      ⟨.ok, [BitVec.ofNat 8 (x.copy c).errors]⟩) := by
  rw [ownClearErrors, withCopy_named _ hv hx hc, bytesOf_one]

/-- Settles O46: the checks of the volume's name (R5), then of the copy byte, each with the reply of the request's owner;
a byte that passes is the code of the copy whose counter is cleared. -/
theorem clearErrorsZeroesCounter : Obligations.ClearErrorsZeroesCounter := by
  intro r s hadmitted hlen v
  refine ⟨fun hv => ?badNumber, fun hv habsent => ?absent, fun x hv hx => ?present⟩
  case badNumber => exact exec_clearErrors_of_own hadmitted hlen (withCopy_badNumber _ hv)
  case absent =>
    exact exec_clearErrors_of_own hadmitted hlen (withCopy_absent _ hv ((begun_volume? s r v).trans habsent))
  case present =>
    have hbegun : (begun s r).volume? v = some x := (begun_volume? s r v).trans hx
    refine ⟨fun ha hb => ?badCopy, fun ha => ?copyA, fun hb => ?copyB⟩
    case badCopy => exact exec_clearErrors_of_own hadmitted hlen (withCopy_badCopy _ hv hbegun ha hb)
    case copyA => exact exec_clearErrors_of_own hadmitted hlen (ownClearErrors_named (c := .a) hv hbegun ha)
    case copyB => exact exec_clearErrors_of_own hadmitted hlen (ownClearErrors_named (c := .b) hv hbegun hb)

end Sys2Proof.Machine
end

section
/-! PROOF. RENEW (R124). -/

namespace Sys2Proof.Machine

/-! ## The refusals of the session unit (R125) -/

/-- On a CLOSED port a request that needs a session is refused NO_SESSION, whatever its epoch (R125). -/
theorem sessionCheck_closed {x : Session} (epoch : Word16) (h : x.state = .closed) :
    sessionCheck x true epoch = some .noSession := by
  simp [sessionCheck, h]

/-- On a FENCED port a request that needs a session is refused FENCED, whatever its epoch (R125). -/
theorem sessionCheck_fenced {x : Session} (epoch : Word16) (h : x.state = .fenced) :
    sessionCheck x true epoch = some .fenced := by
  simp [sessionCheck, h]

/-- On an OPEN port a request that needs a session and carries another epoch is refused STALE_EPOCH (R125). -/
theorem sessionCheck_stale {x : Session} {epoch : Word16} (h : x.state = .opened) (hepoch : epoch ≠ x.epoch) :
    sessionCheck x true epoch = some .staleEpoch := by
  simp [sessionCheck, h, hepoch]

/-! ## RENEW (R124) -/

/-- The meaning of RENEW: its row of the catalogue, served by its owner. -/
theorem exec_renew (r : Request) (s : State) : exec (.renew r) s = .next (s.serve r 0x03 ownRenew) := rfl

/-- A taken RENEW that the session unit refuses never reaches its owner (R125). -/
theorem exec_renew_refused {r : Request} {s : State} {st : Status} (h : Taken 0x03 r s) (hparams : r.params = [])
    (hcheck : sessionCheck (s.port r.port).session true r.epoch = some st) :
    exec (.renew r) s = .next (refusedEarly s r 0x03 st) := by
  rw [exec_renew, serve_sessionRefused ownRenew h rfl (by rw [hparams]; rfl) hcheck]

/-- RENEW's owner leaves the state as it finds it: the renewal of R123 precedes it and keeps the lease and the peer's
session state that it answers. -/
theorem ownRenew_begun (r : Request) (s : State) : ownRenew r.port r.params (begun s r) = (begun s r,
    ⟨.ok, bytesOf 2 (s.port r.port).session.lease ++ [(s.port (peer r.port)).session.state.code]⟩) := by
  rw [ownRenew, begun_lease, begun_sessionState]

/-- An admitted RENEW leaves the renewal of R123 and its answer, and nothing else (R124). -/
theorem exec_renew_admitted {r : Request} {s : State} (h : Admitted 0x03 r s) (hparams : r.params = []) :
    exec (.renew r) s = .next (concluded (begun s r) r 0x03 .ok
      (bytesOf 2 (s.port r.port).session.lease ++ [(s.port (peer r.port)).session.state.code])) := by
  rw [exec_renew, serve_admitted ownRenew h rfl (by rw [hparams]; rfl), ownRenew_begun]

/-- Settles O10: the session unit's check decides between its three refusals (R125) and the owner's answer, and on an
OPEN port with its current epoch the state the owner finds is the one with the deadline renewed (R123). -/
theorem renewRenewsLease : Obligations.RenewRenewsLease := by
  intro r s htaken hparams x
  refine ⟨fun hopen hepoch => ?renewed, fun hclosed => ?closed, fun hfenced => ?fenced, fun hopen hepoch => ?stale⟩
  case renewed => rw [exec_renew_admitted ⟨htaken, hopen, hepoch⟩ hparams, begun_of_open hopen hepoch]
  case closed => exact exec_renew_refused htaken hparams (sessionCheck_closed r.epoch hclosed)
  case fenced => exact exec_renew_refused htaken hparams (sessionCheck_fenced r.epoch hfenced)
  case stale => exact exec_renew_refused htaken hparams (sessionCheck_stale hopen hepoch)

end Sys2Proof.Machine
end

section
/-! PROOF. ACK_EVENT (R143). -/

namespace Sys2Proof.Machine

/-! ## ACK_EVENT (R143) -/

/-- The meaning of ACK_EVENT: its row of the catalogue, served by its owner. -/
theorem exec_ackEvent (r : Request) (s : State) : exec (.ackEvent r) s = .next (s.serve r 0x09 ownAckEvent) := rfl

/-- A taken ACK_EVENT that the session unit refuses never reaches its owner (R125). -/
theorem exec_ackEvent_refused {r : Request} {s : State} {st : Status} (h : Taken 0x09 r s) (hparams : r.params = [])
    (hcheck : sessionCheck (s.port r.port).session true r.epoch = some st) :
    exec (.ackEvent r) s = .next (refusedEarly s r 0x09 st) := by
  rw [exec_ackEvent, serve_sessionRefused ownAckEvent h rfl (by rw [hparams]; rfl) hcheck]

/-- An admitted ACK_EVENT is concluded with what its owner leaves and replies. -/
theorem exec_ackEvent_of_own {r : Request} {s t : State} {reply : Reply} (h : Admitted 0x09 r s) (hparams : r.params = [])
    (hown : ownAckEvent r.port r.params (begun s r) = (t, reply)) :
    exec (.ackEvent r) s = .next (concluded t r 0x09 reply.status reply.results) := by
  rw [exec_ackEvent, serve_admitted ownAckEvent h rfl (by rw [hparams]; rfl), hown]

/-- With nothing in service there is nothing to acknowledge, and the state stays. -/
theorem ownAckEvent_empty {p : Port} {ps : List Byte} {s : State} (hstack : (s.port p).events.stack = []) :
    ownAckEvent p ps s = (s, .bare .notInService) := by
  simp only [ownAckEvent, hstack]

/-- The top entry leaves the stack, and the reply is its level and the number of entries below it. -/
theorem ownAckEvent_pops {p : Port} {ps : List Byte} {s : State} {l : Level} {rest : List Level}
    (hstack : (s.port p).events.stack = l :: rest) :
    ownAckEvent p ps s = (s.setEvents p { (s.port p).events with stack := rest },
      ⟨.ok, [l.code, BitVec.ofNat 8 rest.length]⟩) := by
  simp only [ownAckEvent, hstack, bytesOf_one]

/-- Settles O17: the session unit's check decides between its three refusals (R125) and the owner, which finds the stack
as the request found it, the renewal of R123 leaving the event unit alone. -/
theorem ackEventPopsStack : Obligations.AckEventPopsStack := by
  intro r s htaken hparams p x u
  have hevents : ((begun s r).port p).events = u := begun_events s r p
  refine ⟨fun hclosed => ?closed, fun hfenced => ?fenced, fun hopen hepoch => ?stale, fun hopen hepoch hempty => ?empty,
    fun l rest hopen hepoch hstack => ?pops⟩
  case closed => exact exec_ackEvent_refused htaken hparams (sessionCheck_closed r.epoch hclosed)
  case fenced => exact exec_ackEvent_refused htaken hparams (sessionCheck_fenced r.epoch hfenced)
  case stale => exact exec_ackEvent_refused htaken hparams (sessionCheck_stale hopen hepoch)
  case empty =>
    exact exec_ackEvent_of_own ⟨htaken, hopen, hepoch⟩ hparams (ownAckEvent_empty (by rw [hevents, hempty]))
  case pops =>
    rw [exec_ackEvent_of_own ⟨htaken, hopen, hepoch⟩ hparams (ownAckEvent_pops (by rw [hevents, hstack])), hevents]
    rfl

end Sys2Proof.Machine
end

section
/-! PROOF. IDENTIFY (R169). -/

namespace Sys2Proof.Machine

/-! ## IDENTIFY (R169) -/

/-- The meaning of IDENTIFY: its row of the catalogue, served by its owner. -/
theorem exec_identify (r : Request) (s : State) : exec (.identify r) s = .next (s.serve r 0x01 ownIdentify) := rfl

/-- The 14 bytes of Table 9-7: the part code and the capacities are constants, the start kind and the warm-start count
are the state's. -/
theorem identifyBytes_eq (s : State) : identifyBytes s =
    [0x22, 0x40, 0x01, 16, 0x02, 0x00, 0x00, 192, 32, 32, 24, s.startKind.code] ++ bytesOf 2 s.warmStarts := by
  have hpartCode : bytesOf 2 0x2240 = [0x22, 0x40] := by decide
  have hextentSlots : bytesOf 3 131072 = [0x02, 0x00, 0x00] := by decide
  rw [identifyBytes, hpartCode, hextentSlots]
  rfl

/-- The answer is read from the start record, which the renewal of R123 leaves alone. -/
theorem identifyBytes_begun (r : Request) (s : State) : identifyBytes (begun s r) = identifyBytes s := by
  rw [identifyBytes_eq, identifyBytes_eq, begun_startKind, begun_warmStarts]

/-- IDENTIFY needs no session: a taken frame without parameters, of whatever epoch, is answered the part's identity and
leaves the renewal of R123 and nothing else of its owner's. -/
theorem exec_identify_taken {r : Request} {s : State} (h : Taken 0x01 r s) (hparams : r.params = []) :
    exec (.identify r) s = .next (concluded (begun s r) r 0x01 .ok (identifyBytes s)) := by
  rw [exec_identify, serve_taken ownIdentify h rfl (by rw [hparams]; rfl) rfl, ownIdentify, identifyBytes_begun]

/-- Settles O47: in RUN the owner answers from the state the renewal leaves; in STARTING the link refuses the frame before
an owner is reached (R157). -/
theorem identifyAnswers : Obligations.IdentifyAnswers := by
  intro r s hparams
  refine ⟨fun htaken => ?answered, fun hstarting hheard hfresh => ?refused⟩
  case answered => rw [exec_identify_taken htaken hparams, identifyBytes_eq]
  case refused =>
    rw [exec_identify, serve_starting ownIdentify hheard rfl hfresh (by rw [hparams]; rfl) hstarting]

end Sys2Proof.Machine
end

section
/-! PROOF. What one step can do: a sequence of moves, each one named operation with the checks that precede it. Every
invariant of the machine is proved over the moves, once each, and holds of every step by `step_moves`. -/

namespace Sys2Proof.Machine

/-! ## Moves -/

/-- What a command may do beyond the work that every command may do. -/
structure Permit where
  /-- it may make a volume; a command that may not may delete volumes -/
  creates : Bool
  /-- the ports whose session, link, burst and PRST input it may change -/
  front : Port → Bool
  /-- the ports whose epoch it may change -/
  epoch : Port → Bool
  /-- it may change the supply state and the level inputs -/
  supply : Bool

/-- What an extent keeps when only its state changes. -/
def Extent.marks (y : Extent) : Nat × Option AssignmentLink := (y.openCount, y.link)

/-- What an intent keeps when only its reports change. -/
def Intent.claim (i : Intent) : Port × Nat × Nat × Nat × Nat × Nat :=
  (i.port, i.volume, i.firstBlock, i.blockCount, i.firstExtent, i.extentCount)

/-- A volume record after a change of its settings, healths, error counts or extent states: its geometry, its open-intent
count, the open counts and links of its extents are as they were, and counts that agreed still do. -/
structure Volume.Kept (x y : Volume) : Prop where
  geometry : y.geometry = x.geometry
  openIntents : y.openIntents = x.openIntents
  marks : y.extents.map Extent.marks = x.extents.map Extent.marks
  counts : x.recount = x → y.recount = y

/-- One named operation of the machine, with the checks that the commands make before it. -/
inductive Move (m : Permit) (s : State) : State → Prop where
  /-- the link side of a port: link, PRST input, ATTN, burst, SDO -/
  | front {p : Port} {r : PortRecord} : m.front p = true → r.session = (s.port p).session → r.events = (s.port p).events →
      r.intents = (s.port p).intents → r.assignments = (s.port p).assignments → Move m s (s.setPort p r)
  /-- both ATTN lines settle (R144) -/
  | settle : Move m s s.settleAttn
  /-- a renewal of the lease or a new configuration (R123, R132, R140) -/
  | session {p : Port} {x : Session} : m.front p = true → x.state = (s.port p).session.state →
      x.epoch = (s.port p).session.epoch → x.events.length = (s.port p).session.events.length →
      (x.deadline = (s.port p).session.deadline ∨ (x.state = .opened ∧ x.deadline.isSome)) → Move m s (s.setSession p x)
  /-- a session opens (R121) -/
  | opened {p : Port} {x : Session} : m.front p = true → m.epoch p = true → x.state = .opened → x.deadline.isSome →
      x.events.length = 11 → Move m s ((s.setSession p x).setEvents p { records := [], stack := [], counter := 0 })
  /-- a session ends and its queue and stack are cleared (R127, R130) -/
  | ended {p : Port} {st : SessionState} : m.front p = true → st ≠ .opened →
      Move m s ((s.endSession p st).clearEvents p)
  /-- a session that is not OPEN becomes another that is not (R129) -/
  | unfenced {p : Port} {st : SessionState} : m.front p = true → (s.port p).session.state ≠ .opened → st ≠ .opened →
      Move m s (s.endSession p st)
  /-- an OPEN port's event unit is served (R142, R143) -/
  | served {p : Port} {u : EventUnit} : (s.port p).session.state = .opened → ((s.port p).events.bounded → u.bounded) →
      Move m s (s.setEvents p u)
  /-- an event is raised (R135) -/
  | raised (p : Port) {k : Kind} (sub : Subject) (val : EventValue) : k ≠ .overflow → Move m s (s.raise p k sub val)
  /-- a waiter joins the list (R72) -/
  | queued {w : Nat} {x : Waiter} : s.waiter? w = none → w < s.waiters.length → (s.volume? x.volume).isSome →
      Move m s (s.queueWaiter w x)
  /-- a waiter slot is no longer WAITING (R70) -/
  | left {w : Nat} {e : WaiterEntry} : (∀ x, e ≠ .waiting x) →
      Move m s { s with waiters := hold s.waiters w e, arrival := s.arrival.filter (· ≠ w) }
  /-- a port's waiters go (R82) -/
  | leftOf (p : Port) : Move m s (s.removeWaitersOf p)
  /-- a volume record changes outside its geometry and the marks of its extents -/
  | record {v : Nat} {x y : Volume} : s.volume? v = some x → x.Kept y → Move m s (s.setVolume v (some y))
  /-- reports of intents change (R54, R61) -/
  | reports {ts : List (Slot (Option Intent))} :
      ts.map (fun z => z.held.map Intent.claim) = s.intents.map (fun z => z.held.map Intent.claim) →
      Move m s { s with intents := ts }
  /-- an intent is granted (R50) -/
  | granted {slot : Nat} {i : Intent} {x : Volume} : lowestFree s.intents = some slot → s.volume? i.volume = some x →
      s.overlapsIntent i.volume i.firstBlock i.blockCount = false → Move m s (s.grant slot i)
  /-- an intent ends (R56, R57) -/
  | settled {slot : Nat} {rule : Volume → Intent → Nat → Extent → Extent} :
      (∀ x i e y, (rule x i e y).marks = (if i.touches e then y.openCount - 1 else y.openCount, y.link)) →
      Move m s (s.settleIntent slot rule)
  /-- an assignment ends (R94, R95) -/
  | revoked {slot : Nat} {a : Assignment} (rule : Coherence → Coherence) : s.assignment? slot = some a →
      Move m s (s.settleAssignment slot a rule)
  /-- an assignment is made (R90) -/
  | assigned {slot : Nat} {a : Assignment} {x : Volume} {y : Extent} : lowestFree s.assignments = some slot →
      s.volume? a.volume = some x → x.extents[a.extent]? = some y → y.link = none → a.source = other a.target →
      Move m s (s.createAssignment slot a x)
  /-- the rotating pointer moves (R89) -/
  | pointed {v : Nat} : v < 16 → Move m s { s with pointer := v }
  /-- extents are retired, with their assignments overtaken (R36, R42) -/
  | retired {v : Nat} {x : Volume} {sel : Nat → Bool} {f : Nat → Extent → Extent} : s.volume? v = some x →
      (∀ e y, (f e y).marks = (y.openCount, if sel e then y.link.map (fun l => { l with overtaken := true }) else y.link)) →
      Move m s (({ s with assignments := markOvertaken s.assignments v sel } : State).setVolume v
        (some (Volume.recount { x with extents := mapExtents f x.extents })))
  /-- a volume is made in the first gap (R7, R8) -/
  | made {v base n k : Nat} {st : Coherence} {ha hb : Health} : m.creates = true → s.volume? v = none → n ≠ 0 →
      firstGap (extentCountOf n k) 0 s.runs = some base → Move m s (s.setVolume v (some (newVolume base n k st ha hb)))
  /-- a volume without work is deleted (R12) -/
  | deleted {v : Nat} {x : Volume} : m.creates = false → s.volume? v = some x → x.openIntents = 0 → s.hasWaiter v = false →
      s.hasAssignment v = false → Move m s (s.setVolume v none)
  /-- every volume is deleted, with no work about (R168) -/
  | formatted : m.creates = false → (∀ k, s.intent? k = none) → s.arrival = [] → (∀ k, s.assignment? k = none) →
      Move m s { s with volumes := List.replicate Config.volumes none, pointer := 15 }
  /-- the supply state, the level inputs and the start record change (R162 to R165) -/
  | powered {t : State} : m.supply = true →
      t = { s with supply := t.supply, startKind := t.startKind, startDecided := t.startDecided, warmStarts := t.warmStarts
                   retentionValid := t.retentionValid, pfail := t.pfail, resetn := t.resetn } → Move m s t
  /-- a start does its work (R165 to R167) -/
  | started : m.supply = true → m.creates = false → (∀ p, m.front p = true) →
      (s.retentionValid = false → ∀ p, m.epoch p = true) → Move m s s.clearVolatile.restoreArray
  /-- the timebase and the queue of commands move (R170) -/
  | timed (ticks phase choices : Nat) (pending : List Instr) :
      Move m s { s with ticks := ticks, phase := phase, choices := choices, pending := pending }

/-- A sequence of moves. -/
abbrev Moves (m : Permit) : State → State → Prop := Relation.ReflTransGen (Move m)

theorem Move.moves {m : Permit} {s t : State} (h : Move m s t) : Moves m s t := .single h

/-- A relation that every move keeps, and that is a preorder, holds along every sequence of moves. -/
theorem Moves.keeps {m : Permit} {R : State → State → Prop} (refl : ∀ s, R s s) (trans : ∀ s t u, R s t → R t u → R s u)
    (h : ∀ s t, Move m s t → R s t) {s t : State} (k : Moves m s t) : R s t := by
  induction k with
  | refl => exact refl s
  | tail _ b ih => exact trans _ _ _ ih (h _ _ b)

/-- A predicate that every move keeps is kept along every sequence of moves. -/
theorem Moves.invariant {m : Permit} {P : State → Prop} (h : ∀ s t, Move m s t → P s → P t) {s t : State} (k : Moves m s t)
    (hs : P s) : P t :=
  k.keeps (R := fun s t => P s → P t) (fun _ => id) (fun _ _ _ a b => b ∘ a) h hs

/-- A fold of moves is a sequence of moves. -/
theorem foldl_moves {α : Type} {m : Permit} {f : State → α → State} (h : ∀ s a, Moves m s (f s a)) (l : List α) (s : State) :
    Moves m s (l.foldl f s) :=
  foldl_keeps (fun _ => .refl) (fun _ _ _ a b => a.trans b) h l s

/-! ## Events and causes -/

variable {m : Permit}

theorem raiseAll_moves (s : State) {k : Kind} (sub : Subject) (val : EventValue) (h : k ≠ .overflow) :
    Moves m s (s.raiseAll k sub val) :=
  (Move.raised .p0 sub val h).moves.tail (.raised .p1 sub val h)

theorem raiseTimes_moves (s : State) (n : Nat) {k : Kind} (sub : Subject) (val : EventValue) (h : k ≠ .overflow) :
    Moves m s (s.raiseTimes n k sub val) := by
  induction n generalizing s with
  | zero => exact .refl
  | succ n ih => exact (raiseAll_moves s sub val h).trans (ih _)

theorem Volume.Kept.refl (x : Volume) : x.Kept x := ⟨rfl, rfl, rfl, id⟩

/-- A change of extent states keeps a record's marks. -/
theorem kept_recount_mapExtents {x : Volume} {f : Nat → Extent → Extent} (h : ∀ e y, (f e y).marks = y.marks) :
    x.Kept (Volume.recount { x with extents := mapExtents f x.extents }) := by
  refine ⟨rfl, rfl, List.ext_getElem? fun e => ?_, fun _ => rfl⟩
  simp only [recount_extents, List.getElem?_map, mapExtents_getElem?, Option.map_map]
  congr 1
  funext y
  exact h e y

/-- A change of extent states (R23, R24). -/
theorem changeExtents_moves (s : State) (v : Nat) {f : Nat → Extent → Extent} (h : ∀ e y, (f e y).marks = y.marks) :
    Moves m s (s.changeExtents v f) := by
  unfold State.changeExtents
  split
  next => exact .refl
  next x hx =>
    exact (Move.record hx (kept_recount_mapExtents h)).moves.trans (raiseTimes_moves _ _ _ _ (by decide))

theorem raiseRepairPending_moves (s : State) (v before : Nat) : Moves m s (s.raiseRepairPending v before) := by
  unfold State.raiseRepairPending
  split
  next => exact raiseAll_moves _ _ _ (by decide)
  next => exact .refl

theorem kept_setHealth (x : Volume) (c : Copy) (h : Health) : x.Kept (x.setHealth c h) := by
  cases c <;> exact ⟨rfl, rfl, rfl, fun _ => rfl⟩

theorem completeRebuild_moves (s : State) (v : Nat) (c : Copy) : Moves m s (s.completeRebuild v c) := by
  unfold State.completeRebuild
  split
  next => exact .refl
  next x hx =>
    split
    next => exact (Move.record hx (kept_setHealth x c _)).moves.trans (raiseAll_moves _ _ _ (by decide))
    next => exact .refl

theorem completeRebuilds_moves (s : State) (v : Nat) : Moves m s (s.completeRebuilds v) :=
  (completeRebuild_moves s v .a).trans (completeRebuild_moves _ v .b)

theorem completeAll_moves (s : State) : Moves m s s.completeAll := foldl_moves completeRebuilds_moves _ s

theorem applyCause_moves (s : State) (v : Nat) {f : Nat → Extent → Extent} (h : ∀ e y, (f e y).marks = y.marks) :
    Moves m s (s.applyCause v f) :=
  ((changeExtents_moves s v h).trans (raiseRepairPending_moves _ v _)).trans (completeRebuilds_moves _ v)

theorem loseIn_marks (sel : Nat → Bool) (c : Copy) (e : Nat) (y : Extent) : (loseIn sel c e y).marks = y.marks := by
  unfold loseIn
  split <;> rfl

/-! ## Intents and waiters -/

theorem grantable_clear {s : State} {w slot : Nat} {x : Waiter} (h : s.grantable w x = some slot) :
    s.overlapsIntent x.volume x.firstBlock x.blockCount = false := by
  by_contra hn
  rw [State.grantable, if_pos (by simpa using hn)] at h
  cases h

/-- One visit of a pass (R75). -/
theorem visit_moves (s : State) (w : Nat) : Moves m s (s.visit w) := by
  rcases visit_cases s w with e | ⟨x, slot, vol, hx, hg, hv⟩
  · rw [e]
  · rw [visit_grants hx hg hv]
    have grant : Move m s (s.grant slot (s.newIntent x.port x.epoch x.volume vol x.firstBlock x.blockCount)) :=
      .granted (grantable_free hg) hv (grantable_clear hg)
    have leave := Move.left (m := m) (s := s.grant slot (s.newIntent x.port x.epoch x.volume vol x.firstBlock x.blockCount))
      (w := w) (e := .granted x.port x.epoch (s.nextIntentTag slot)) (fun _ h => by cases h)
    rw [grant_waiters, grant_arrival] at leave
    exact (grant.moves.tail leave).tail (.raised _ _ _ (by decide))

theorem pass_moves (s : State) : Moves m s s.pass := foldl_moves visit_moves _ s

theorem closeExtent_marks (x : Volume) (i : Intent) (e : Nat) (y : Extent) :
    (closeExtent x i e y).marks = (if i.touches e then y.openCount - 1 else y.openCount, y.link) := by
  unfold closeExtent
  split <;> simp_all [Extent.marks]

theorem abandonExtent_marks (x : Volume) (i : Intent) (e : Nat) (y : Extent) :
    (abandonExtent x i e y).marks = (if i.touches e then y.openCount - 1 else y.openCount, y.link) := by
  unfold abandonExtent
  split <;> simp_all [Extent.marks]

/-- The end of an intent by a rule that lowers the open counts of the extents it touches (R56, R57). -/
theorem endIntent_moves (s : State) (slot : Nat) {rule : Volume → Intent → Nat → Extent → Extent}
    (h : ∀ x i e y, (rule x i e y).marks = (if i.touches e then y.openCount - 1 else y.openCount, y.link)) :
    Moves m s (s.endIntent slot rule) := by
  unfold State.endIntent
  split
  next => exact .refl
  next => exact (Move.settled h).moves.trans (completeRebuilds_moves _ _)

theorem closeIntent_moves (s : State) (slot : Nat) : Moves m s (s.closeIntent slot) :=
  endIntent_moves s slot closeExtent_marks

theorem abandonIntent_moves (s : State) (slot : Nat) : Moves m s (s.abandonIntent slot) :=
  endIntent_moves s slot abandonExtent_marks

theorem abandonAll_moves (s : State) (p : Port) : Moves m s (s.abandonAll p) := by
  refine foldl_moves (fun s slot => ?_) _ s
  split
  next =>
    split
    next => exact (Move.settled abandonExtent_marks).moves
    next => exact .refl
  next => exact .refl

theorem closeComplete_moves (s : State) (v : Nat) (except : Option Nat) : Moves m s (s.closeComplete v except) := by
  refine foldl_moves (fun s slot => ?_) _ s
  split
  next =>
    split
    next => exact closeIntent_moves s slot
    next => exact .refl
  next => exact .refl

theorem withReport_claim (i : Intent) (r : Report) (c : Copy) : (i.withReport r c).claim = i.claim := by
  cases c <;> rfl

theorem dropReport_claim (v : Nat) (c : Copy) (i : Intent) : (dropReport v c i).claim = i.claim := by
  unfold dropReport
  split
  next => exact withReport_claim i _ c
  next => rfl

theorem dropReports_moves (s : State) (v : Nat) (c : Copy) : Moves m s (s.dropReports v c) := by
  refine (Move.reports ?_).moves
  rw [List.map_map]
  refine List.map_congr_left fun z _ => ?_
  simp only [Function.comp_apply, Option.map_map]
  congr 1
  funext i
  exact dropReport_claim v c i

theorem removeWaiter_move (s : State) (w : Nat) : Move m s (s.removeWaiter w) :=
  .left (e := .vacant) fun _ h => by cases h

theorem removeOffline_moves (s : State) (v : Nat) : Moves m s (s.removeOffline v) := by
  refine foldl_moves (fun s w => ?_) _ s
  split
  next =>
    split
    next => exact (removeWaiter_move s w).moves.tail (.raised _ _ _ (by decide))
    next => exact .refl
  next => exact .refl

/-! ## Assignments -/

theorem endAssignment_moves {s : State} {slot : Nat} {a : Assignment} (h : s.assignment? slot = some a)
    (rule : Coherence → Coherence) : Moves m s (s.endAssignment slot a rule) :=
  (Move.revoked rule h).moves.trans (completeRebuilds_moves _ _)

theorem revoke_moves (s : State) (slot : Nat) (reason : Option EventValue) : Moves m s (s.revoke slot reason) := by
  unfold State.revoke
  split
  next => exact .refl
  next a ha =>
    cases reason with
    | none => exact endAssignment_moves ha _
    | some r => exact (endAssignment_moves ha _).tail (.raised _ _ _ (by decide))

theorem revokeVolume_moves (s : State) (v : Nat) : Moves m s (s.revokeVolume v) := by
  refine foldl_moves (fun s slot => ?_) _ s
  split
  next =>
    split
    next => exact revoke_moves s slot _
    next => exact .refl
  next => exact .refl

theorem revokePort_moves (s : State) (p : Port) : Moves m s (s.revokePort p) := by
  refine foldl_moves (fun s slot => ?_) _ s
  split
  next a ha =>
    split
    next => exact (Move.revoked _ ha).moves
    next => exact .refl
  next => exact .refl

/-! ## Copy health -/

theorem setHealth_moves (s : State) (v : Nat) (c : Copy) (h : Health) : Moves m s (s.setHealth v c h) := by
  unfold State.setHealth State.modVolume
  split
  next => exact .refl
  next x hx => exact (Move.record hx (kept_setHealth x c h)).moves

theorem failExtents_moves (s : State) (v : Nat) (c : Copy) : Moves m s (s.failExtents v c) := by
  have h : Moves m s ((s.changeExtents v (loseIn (fun _ => true) c)).setHealth v c .failed) :=
    (changeExtents_moves s v (loseIn_marks _ c)).trans (setHealth_moves _ v c _)
  unfold State.failExtents
  dsimp only
  split
  next => exact h.trans (setHealth_moves _ v _ _)
  next => exact h

theorem failWork_moves (s : State) (v : Nat) (c : Copy) (except : Option Nat) : Moves m s (s.failWork v c except) := by
  have h : Moves m s (((s.dropReports v c).closeComplete v except).revokeVolume v) :=
    ((dropReports_moves s v c).trans (closeComplete_moves _ v except)).trans (revokeVolume_moves _ v)
  unfold State.failWork
  dsimp only
  split
  next => exact (h.trans (removeOffline_moves _ v)).trans (pass_moves _)
  next => exact h.trans (pass_moves _)

theorem failProcedure_moves (s : State) (v : Nat) (c : Copy) {cause : EventValue} (except : Option Nat) :
    Moves m s (s.failProcedure v c cause except) := by
  have h : Moves m s (((s.failExtents v c).failWork v c except).raiseAll .copyFailed (.copy v c) cause) :=
    ((failExtents_moves s v c).trans (failWork_moves _ v c except)).trans (raiseAll_moves _ _ _ (by decide))
  unfold State.failProcedure
  dsimp only
  split
  next => exact h.trans (raiseAll_moves _ _ _ (by decide))
  next => exact h

/-- Replacing the error count of a copy keeps the counts in step (R107, R117). -/
theorem kept_setErrors (x : Volume) (c : Copy) (n : Nat) : x.Kept (x.setCopy c { x.copy c with errors := n }) := by
  cases c <;> refine ⟨rfl, rfl, rfl, fun h => ?_⟩
  · have h := congrArg (fun y : Volume => y.setCopy .a { y.copy .a with errors := n }) h
    exact h
  · have h := congrArg (fun y : Volume => y.setCopy .b { y.copy .b with errors := n }) h
    exact h

theorem charge_moves (s : State) (v : Nat) (c : Copy) (except : Option Nat) : Moves m s (s.charge v c except) := by
  unfold State.charge
  split
  next => exact .refl
  next x hx =>
    have h : Moves m s (s.setVolume v (some (x.charge c))) := (Move.record hx (kept_setErrors x c _)).moves
    dsimp only
    split
    next => exact h.trans (failProcedure_moves _ v c except)
    next => exact h

/-! ## The end of a session -/

/-- The teardown of a port whose session has just ended (R127). -/
theorem teardown_moves {s : State} {p : Port} {st : SessionState} (hp : m.front p = true) (hst : st ≠ .opened)
    (reason : EventValue) : Moves m s ((s.endSession p st).teardown p reason) :=
  ((((((Move.ended hp hst).moves.trans (abandonAll_moves _ p)).tail (.leftOf p)).trans (revokePort_moves _ p)).trans
    (completeAll_moves _)).trans (pass_moves _)).tail (.raised _ _ _ (by decide))

end Sys2Proof.Machine
end

section
/-! PROOF. Every command is a sequence of moves, within the permit of the command. -/

namespace Sys2Proof.Machine

variable {m : Permit}

/-! ## The path of a request through its port (R147, R154 to R158) -/

theorem setLink_move {p : Port} (hp : m.front p = true) (s : State) (x : Link) : Move m s (s.setLink p x) :=
  .front hp rfl rfl rfl rfl

theorem setBurst_move {p : Port} (hp : m.front p = true) (s : State) (x : Burst) : Move m s (s.setBurst p x) :=
  .front hp rfl rfl rfl rfl

theorem endBurst_move {p : Port} (hp : m.front p = true) (s : State) (x : List Byte) : Move m s (s.endBurst p x) :=
  .front hp rfl rfl rfl rfl

theorem setPrst_move {p : Port} (hp : m.front p = true) (s : State) (x : Bool) : Move m s (s.setPrst p x) :=
  .front hp rfl rfl rfl rfl

theorem renewLease_moves (s : State) {r : Request} (hp : m.front r.port = true) : Moves m s (s.renewLease r) := by
  unfold State.renewLease
  dsimp only
  split
  next h => exact (Move.session hp (by rfl) (by rfl) (by rfl) (.inr ⟨by exact h.1, by rfl⟩)).moves
  next => exact .refl

theorem renewLease_state (s : State) (r : Request) (p : Port) :
    ((s.renewLease r).port p).session.state = (s.port p).session.state := by
  unfold State.renewLease
  dsimp only
  split
  next =>
    by_cases hp : p = r.port
    · subst hp; simp
    · obtain rfl := eq_peer_of_ne hp; simp
  next => rfl

/-- A request whose session check passes comes from an OPEN port where the request needs a session (R125). -/
theorem opened_of_sessionCheck {x : Session} {needs : Bool} {epoch : Word16} (h : sessionCheck x needs epoch = none)
    (hn : needs = true) : x.state = .opened := by
  cases hx : x.state with
  | opened => rfl
  | closed => rw [hn, sessionCheck, hx] at h; cases h
  | fenced => rw [hn, sessionCheck, hx] at h; cases h

/-- A request burst is a sequence of moves when its owner's work is one, from every state in which the port is OPEN where the
request needs a session. -/
theorem serve_moves (s : State) {r : Request} (code : Byte) {own : Owner} (hp : m.front r.port = true)
    (h : ∀ u : State, (∀ row, catalogueRow code = some row → row.needsSession = true → (u.port r.port).session.state = .opened) →
      Moves m u (own r.port r.params u).1) : Moves m s (s.serve r code own) := by
  have ones : Moves m s (s.shiftOnes r.port (7 + r.params.length)) := (endBurst_move hp s _).moves
  unfold State.serve
  dsimp only
  split
  next =>
    split
    next row hrow =>
      refine ones.trans ?_
      unfold State.receive
      split
      next => exact (setLink_move hp _ _).moves
      next =>
        split
        next => exact (setLink_move hp _ _).moves
        next =>
          split
          next => exact (setLink_move hp _ _).moves
          next =>
            unfold State.process
            split
            next => exact (setLink_move hp _ _).moves
            next hcheck =>
              have served := h (State.renewLease _ r) fun row' hrow' hn => by
                obtain rfl := Option.some.inj (hrow.symm.trans hrow')
                rw [renewLease_state]
                exact opened_of_sessionCheck hcheck hn
              exact (((renewLease_moves _ hp).trans served).tail (setLink_move hp _ _)).tail .settle
    next => exact ones
  next => exact ones

/-- An owner that works on the volume that it names leaves the state as it was, or does its work on the present record. -/
theorem withVolume_moves {s : State} {v : Nat} {k : Volume → State × Reply}
    (h : ∀ x, s.volume? v = some x → Moves m s (k x).1) : Moves m s (s.withVolume v k).1 := by
  unfold State.withVolume
  split
  next => exact .refl
  next =>
    split
    next => exact .refl
    next x hx => exact h x hx

theorem withCopy_moves {s : State} {ps : List Byte} {k : Nat → Volume → Copy → State × Reply}
    (h : ∀ v x c, s.volume? v = some x → Moves m s (k v x c).1) : Moves m s (s.withCopy ps k).1 := by
  refine withVolume_moves fun x hx => ?_
  split
  next => exact .refl
  next c _ => exact h _ x c hx

/-! ## Sessions (Chapter 7) -/

theorem ownOpenSession_moves (s : State) {p : Port} (ps : List Byte) (hp : m.front p = true) (he : m.epoch p = true) :
    Moves m s (ownOpenSession p ps s).1 := by
  unfold ownOpenSession
  dsimp only
  split
  next => exact .refl
  next =>
    split
    next => exact .refl
    next => exact (Move.opened hp he rfl rfl rfl).moves.tail (.raised _ _ _ (by decide))

theorem ownCloseSession_moves (s : State) {p : Port} (ps : List Byte) (hp : m.front p = true) :
    Moves m s (ownCloseSession p ps s).1 := by
  unfold ownCloseSession
  split
  next => exact .refl
  next =>
    exact (((Move.ended hp (by decide)).moves.tail (.leftOf p)).trans (pass_moves _)).tail (.raised _ _ _ (by decide))

theorem ownPortConfig_moves (s : State) {p : Port} (ps : List Byte) (hp : m.front p = true) :
    Moves m s (ownPortConfig p ps s).1 := by
  unfold ownPortConfig
  split
  next => exact .refl
  next =>
    have h : Moves m s (s.setSession p { (s.port p).session with config := (s.port p).session.config.update ps }) :=
      (Move.session hp (by rfl) (by rfl) (by rfl) (.inl (by rfl))).moves
    dsimp only
    split
    next => exact h.trans (pass_moves _)
    next => exact h

/-! ## Events (Chapter 8) -/

theorem chooseRecord_mem {cfg : List KindConfig} {u : EventUnit} {r : EventRecord} (h : chooseRecord cfg u = some r) :
    r ∈ u.records ∧ eligible cfg u.stack r = true := by
  unfold chooseRecord at h
  split at h
  next q hq =>
    cases h
    have := List.find?_some hq
    simp only [Bool.and_eq_true] at this
    exact ⟨List.mem_of_find?_eq_some hq, this.1⟩
  next => exact ⟨List.mem_of_find?_eq_some h, List.find?_some h⟩

/-- A stack with a level above all of its levels on top is one of the shapes of R141. -/
theorem stack_push {stack : List Level} {l : Level} (h : stackRank stack < l.rank)
    (hs : stack = [] ∨ stack = [.low] ∨ stack = [.high] ∨ stack = [.high, .low]) :
    l :: stack = [] ∨ l :: stack = [.low] ∨ l :: stack = [.high] ∨ l :: stack = [.high, .low] := by
  rcases hs with rfl | rfl | rfl | rfl <;> cases l <;> revert h <;> simp [stackRank, Level.rank]

theorem ownFetchEvent_moves {s : State} {p : Port} (ps : List Byte) (ho : (s.port p).session.state = .opened) :
    Moves m s (ownFetchEvent p ps s).1 := by
  unfold ownFetchEvent
  dsimp only
  split
  next => exact .refl
  next r hr =>
    obtain ⟨-, he⟩ := chooseRecord_mem hr
    refine (Move.served ho ?_).moves
    rintro ⟨hsize, hover, hdistinct, hcounts, hstack⟩
    have sub : ((s.port p).events.records.erase r).Sublist (s.port p).events.records := List.erase_sublist
    refine ⟨(sub.countP_le).trans hsize, (sub.countP_le).trans hover, hdistinct.sublist sub,
      fun q hq => hcounts q (sub.subset hq), stack_push ?_ hstack⟩
    simp only [eligible, Bool.and_eq_true, decide_eq_true_eq] at he
    exact he.2

theorem ownAckEvent_moves {s : State} {p : Port} (ps : List Byte) (ho : (s.port p).session.state = .opened) :
    Moves m s (ownAckEvent p ps s).1 := by
  unfold ownAckEvent
  dsimp only
  split
  next => exact .refl
  next l rest hstack =>
    refine (Move.served ho ?_).moves
    rintro ⟨hsize, hover, hdistinct, hcounts, hs⟩
    refine ⟨hsize, hover, hdistinct, hcounts, ?_⟩
    rw [hstack] at hs
    rcases hs with h | h | h | h <;> cases h <;> simp

theorem applyEntries_length (cfg : List KindConfig) (es : List (Nat × KindConfig)) :
    (applyEntries cfg es).length = cfg.length := by
  induction es generalizing cfg with
  | nil => rfl
  | cons e es ih => exact (ih (cfg.set e.1 e.2)).trans List.length_set

theorem ownEventConfig_moves (s : State) {p : Port} (ps : List Byte) (hp : m.front p = true) :
    Moves m s (ownEventConfig p ps s).1 := by
  unfold ownEventConfig
  split
  next => exact .refl
  next es _ =>
    split
    next => exact .refl
    next => exact (Move.session hp (by rfl) (by rfl) (by exact applyEntries_length _ es) (.inl (by rfl))).moves

/-! ## Volumes and extents (Chapters 1, 2 and 6) -/

theorem createParams_blocks {ps : List Byte} {v k n : Nat} {st : Coherence} {ha hb : Health}
    (h : createParams ps = some (v, k, n, st, ha, hb)) : n ≠ 0 := by
  unfold createParams at h
  dsimp only at h
  split at h
  next =>
    split at h
    next => cases h
    next hgood =>
      cases h
      exact fun hn => hgood (.inr (.inr (.inr (.inl hn))))
  next => cases h

theorem ownCreateVolume_moves (s : State) (p : Port) (ps : List Byte) (hc : m.creates = true) :
    Moves m s (ownCreateVolume p ps s).1 := by
  unfold ownCreateVolume
  split
  next => exact .refl
  next v k n st ha hb hparams =>
    split
    next => exact .refl
    next habsent =>
      split
      next => exact .refl
      next base hgap =>
        have made : Move m s (s.setVolume v (some (newVolume base n k st ha hb))) :=
          .made hc (by simpa using habsent) (createParams_blocks hparams) hgap
        exact (made.moves.trans (raiseAll_moves _ _ _ (by decide))).trans (raiseRepairPending_moves _ v 0)

theorem ownDeleteVolume_moves (s : State) (p : Port) (ps : List Byte) (hc : m.creates = false) :
    Moves m s (ownDeleteVolume p ps s).1 := by
  refine withVolume_moves fun x hx => ?_
  split
  next => exact .refl
  next hbusy =>
    simp only [not_or, Bool.not_eq_true] at hbusy
    obtain ⟨hopen, hwait, hassigned⟩ := hbusy
    exact (Move.deleted hc hx (by omega) hwait hassigned).moves.trans (raiseAll_moves _ _ _ (by decide))

theorem ownVolumeStatus_state (p : Port) (ps : List Byte) (s : State) : (ownVolumeStatus p ps s).1 = s := by
  unfold ownVolumeStatus
  dsimp only
  split
  next => rfl
  next => split <;> rfl

/-- A record that differs in its settings, its toggle or its cursor alone keeps its marks and counts. -/
theorem kept_settings (x : Volume) (threshold cursor : Nat) (policy : ReadPolicy) (authority toggle : Copy) :
    x.Kept { x with
      threshold := threshold, policy := policy, authority := authority, toggle := toggle, cursor := cursor } :=
  ⟨rfl, rfl, rfl, fun h => congrArg (fun y : Volume => { y with
    threshold := threshold, policy := policy, authority := authority, toggle := toggle, cursor := cursor }) h⟩

theorem ownSetVolume_moves (s : State) (p : Port) (ps : List Byte) : Moves m s (ownSetVolume p ps s).1 := by
  refine withVolume_moves fun x hx => ?_
  split
  next => exact .refl
  next =>
    split
    next => exact .refl
    next => exact (Move.record hx (kept_settings x _ x.cursor _ _ x.toggle)).moves

theorem ownRoute_moves (s : State) (p : Port) (ps : List Byte) : Moves m s (ownRoute p ps s).1 := by
  refine withVolume_moves fun x hx => ?_
  split
  next => exact .refl
  next =>
    split
    next => exact .refl
    next => exact (Move.record hx (kept_settings x x.threshold x.cursor x.policy x.authority _)).moves

theorem ownExtentStates_moves (s : State) (p : Port) (ps : List Byte) : Moves m s (ownExtentStates p ps s).1 := by
  refine withVolume_moves fun x _ => ?_
  split <;> exact .refl

theorem retireExtent_marks (x : Volume) (first count e : Nat) (y : Extent) :
    (retireExtent x first count e y).marks = (y.openCount, if coversWhole x.shift x.blockCount first count e then
      y.link.map (fun l => { l with overtaken := true }) else y.link) := by
  unfold retireExtent
  split <;> rfl

theorem ownRetireRange_moves (s : State) (p : Port) (ps : List Byte) : Moves m s (ownRetireRange p ps s).1 := by
  refine withVolume_moves fun x hx => ?_
  split
  next => exact .refl
  next =>
    split
    next => exact .refl
    next =>
      have retired := Move.retired (m := m) hx (retireExtent_marks x (field ps 1 5) (field ps 6 5))
      dsimp only
      unfold State.applyCause State.consequences State.changeExtents
      rw [show ∀ marks, ({ s with assignments := marks } : State).volume? (field ps 0 1) = some x from fun _ => hx]
      exact ((retired.moves.trans (raiseTimes_moves _ _ _ _ (by decide))).trans (raiseRepairPending_moves _ _ _)).trans
        (completeRebuilds_moves _ _)

theorem ownReportReadFailure_moves (s : State) (p : Port) (ps : List Byte) :
    Moves m s (ownReportReadFailure p ps s).1 := by
  refine withVolume_moves fun x _ => ?_
  split
  next => exact .refl
  next =>
    split
    next => exact .refl
    next c _ => exact (applyCause_moves s _ (loseIn_marks _ c)).trans (charge_moves _ _ c none)

theorem ownFailCopy_moves (s : State) (p : Port) (ps : List Byte) : Moves m s (ownFailCopy p ps s).1 := by
  refine withCopy_moves fun v x c _ => ?_
  split
  next => exact .refl
  next => exact failProcedure_moves s v c none

theorem kept_replaced (x : Volume) (c : Copy) : x.Kept (x.replaced c) := by
  cases c <;> exact ⟨rfl, rfl, rfl, fun _ => rfl⟩

theorem ownReplaceCopy_moves (s : State) (p : Port) (ps : List Byte) : Moves m s (ownReplaceCopy p ps s).1 := by
  refine withCopy_moves fun v x c hx => ?_
  split
  next => exact .refl
  next =>
    have h : Moves m s (s.setVolume v (some (x.replaced c))) := (Move.record hx (kept_replaced x c)).moves
    dsimp only
    split
    next => exact (h.trans (raiseAll_moves _ _ _ (by decide))).trans (raiseRepairPending_moves _ v _)
    next => exact h.trans (raiseRepairPending_moves _ v _)

theorem ownClearErrors_moves (s : State) (p : Port) (ps : List Byte) : Moves m s (ownClearErrors p ps s).1 :=
  withCopy_moves fun _ x c hx => (Move.record hx (kept_setErrors x c 0)).moves

/-! ## Intents and waiters (Chapters 3 and 4) -/

/-- The slot a new waiter takes is in the table and not WAITING (R70). -/
theorem waiterSlot_free {s : State} {w : Nat} (h : s.waiterSlot = some w) : w < s.waiters.length ∧ s.waiter? w = none := by
  have slot {q : Slot WaiterEntry → Bool} (hq : s.waiters.findIdx? q = some w) :
      ∃ hw : w < s.waiters.length, q s.waiters[w] = true := by
    obtain ⟨hw, hp, -⟩ := List.findIdx?_eq_some_iff_getElem.1 hq
    exact ⟨hw, hp⟩
  unfold State.waiterSlot at h
  split at h
  next w' hv =>
    cases h
    obtain ⟨hw, hp⟩ := slot hv
    simp only [WaiterEntry.isVacant, decide_eq_true_eq] at hp
    exact ⟨hw, by simp [State.waiter?, State.waiterEntry, hw, hp]⟩
  next =>
    obtain ⟨hw, hp⟩ := slot h
    refine ⟨hw, ?_⟩
    simp only [State.waiter?, State.waiterEntry, List.getElem?_eq_getElem hw]
    revert hp
    cases s.waiters[w].held <;> simp [WaiterEntry.isGranted]

theorem joinWaitList_moves {s : State} {v : Nat} {x : Volume} (hx : s.volume? v = some x) (p : Port)
    (first count wait : Nat) : Moves m s (s.joinWaitList p v first count wait).1 := by
  unfold State.joinWaitList
  split
  next => exact .refl
  next =>
    split
    next => exact .refl
    next w hw =>
      obtain ⟨hl, hn⟩ := waiterSlot_free hw
      exact (Move.queued hn hl (by rw [hx]; rfl)).moves

theorem admission_moves {s : State} {v : Nat} {x : Volume} (hx : s.volume? v = some x) (p : Port)
    (first count wait : Nat) : Moves m s (s.admission p v x first count wait).1 := by
  have join : Moves m s (s.joinWaitList p v first count wait).1 := joinWaitList_moves hx p first count wait
  unfold State.admission
  split
  next =>
    split
    next => exact .refl
    next => exact join
  next hclear =>
    split
    next =>
      split
      next => exact .refl
      next => exact join
    next =>
      split
      next =>
        split
        next => exact .refl
        next => exact join
      next slot hfree =>
        simp only [not_or, Bool.not_eq_true] at hclear
        exact (Move.granted hfree hx hclear.1).moves

theorem ownOpenIntent_moves (s : State) (p : Port) (ps : List Byte) : Moves m s (ownOpenIntent p ps s).1 := by
  refine withVolume_moves fun x hx => ?_
  split
  next => exact .refl
  next =>
    split
    next => exact .refl
    next =>
      split
      next => exact .refl
      next => exact admission_moves hx p _ _ _

theorem findIntent_intent? {s : State} {p : Port} {t : Tag} {i : Intent} (h : s.findIntent p t = some i) :
    s.intent? t.slot = some i := by
  unfold State.findIntent at h
  split at h
  next j hj =>
    split at h
    next => cases h; exact hj
    next => cases h
  next => cases h

/-- A table after a record of a slot is replaced, seen through what the two records share. -/
theorem map_hold_of_held {α β : Type} {t : List (Slot (Option α))} {k : Nat} {a b : α} (g : α → β) (h : heldAt t k = some a)
    (hg : g b = g a) : (hold t k (some b)).map (fun z => z.held.map g) = t.map (fun z => z.held.map g) := by
  obtain ⟨z, hz, ha⟩ := heldAt_some h
  refine List.ext_getElem? fun j => ?_
  simp only [List.getElem?_map]
  by_cases hj : j = k
  · subst hj
    rw [hold_getElem?_self (List.getElem?_eq_some_iff.1 hz).1, hz]
    simp [ha, hg]
  · rw [hold_getElem?_ne t hj]

theorem recordReport_moves {s : State} {slot : Nat} {i : Intent} (hi : s.intent? slot = some i) (c : Copy) (o : Report) :
    Moves m s (s.recordReport slot i c o) := by
  have report : Moves m s { s with intents := hold s.intents slot (some (i.withReport o c)) } :=
    (Move.reports (map_hold_of_held Intent.claim hi (withReport_claim i o c))).moves
  have charged : Moves m s (if o = .failed then
      State.charge { s with intents := hold s.intents slot (some (i.withReport o c)) } i.volume c (some slot)
      else { s with intents := hold s.intents slot (some (i.withReport o c)) }) := by
    split
    next => exact report.trans (charge_moves _ _ _ _)
    next => exact report
  unfold State.recordReport
  dsimp only
  split
  next => exact (charged.trans (closeIntent_moves _ slot)).trans (pass_moves _)
  next => exact charged

theorem ownReportWrite_moves (s : State) (p : Port) (ps : List Byte) : Moves m s (ownReportWrite p ps s).1 := by
  unfold ownReportWrite
  dsimp only
  split
  next =>
    split
    next => exact .refl
    next i hi =>
      split
      next => exact .refl
      next =>
        split
        next => exact .refl
        next => exact recordReport_moves (findIntent_intent? hi) _ _
  next => exact .refl

theorem ownAbandonIntent_moves (s : State) (p : Port) (ps : List Byte) : Moves m s (ownAbandonIntent p ps s).1 := by
  unfold ownAbandonIntent
  dsimp only
  split
  next => exact .refl
  next => exact (abandonIntent_moves s _).trans (pass_moves _)

theorem ownIntentStatus_state (p : Port) (ps : List Byte) (s : State) : (ownIntentStatus p ps s).1 = s := by
  unfold ownIntentStatus
  split <;> rfl

theorem ownCancelWait_moves (s : State) (p : Port) (ps : List Byte) : Moves m s (ownCancelWait p ps s).1 := by
  unfold ownCancelWait
  dsimp only
  split
  next => exact (removeWaiter_move s _).moves.trans (pass_moves _)
  next => exact .refl
  next => exact .refl

theorem intentExpiry_moves {s t : State} {slot : Nat} (h : execIntentExpiry slot s = .next t) : Moves m s t := by
  cases h
  split
  next =>
    split
    next =>
      exact (((abandonIntent_moves s slot).trans (pass_moves _)).tail (.raised _ _ _ (by decide))).tail .settle
    next => exact .refl
  next => exact .refl

theorem waiterExpiry_moves {s t : State} {slot : Nat} (h : execWaiterExpiry slot s = .next t) : Moves m s t := by
  cases h
  split
  next =>
    split
    next =>
      exact (((removeWaiter_move s slot).moves.tail (.raised _ _ _ (by decide))).trans (pass_moves _)).tail .settle
    next => exact .refl
  next => exact .refl

/-! ## Repairs (Chapter 5) -/

/-- The extent a search chooses is there, needs a repair and has no assignment (R87, R88). -/
theorem search_unlinked {x : Volume} {e : Nat} (h : x.search = some e) :
    ∃ y, x.extents[e]? = some y ∧ x.qualifies y = true ∧ y.link = none := by
  unfold Volume.search at h
  split at h
  next => cases h
  next =>
    have hq := List.find?_some h
    unfold Volume.extentQualifies at hq
    split at hq
    next y hy =>
      refine ⟨y, hy, hq, ?_⟩
      simp only [Volume.qualifies, Bool.and_eq_true, Option.isNone_iff_eq_none] at hq
      exact hq.2
    next => cases hq

theorem searchVolume_some {s : State} {b v e : Nat} (h : s.searchVolume b = some (v, e)) :
    v = b ∧ ∃ x, s.volume? v = some x ∧ x.search = some e := by
  unfold State.searchVolume at h
  split at h
  next x hx =>
    obtain ⟨e', he, heq⟩ := Option.map_eq_some_iff.1 h
    cases heq
    exact ⟨rfl, x, hx, he⟩
  next => cases h

theorem serveRepair_moves {s : State} {slot : Nat} {found : Option (Nat × Nat)} (p : Port) (any : Bool)
    (hfree : lowestFree s.assignments = some slot)
    (h : ∀ v e, found = some (v, e) → v < 16 ∨ any = false)
    (hs : ∀ v e, found = some (v, e) → ∃ x, s.volume? v = some x ∧ x.search = some e) :
    Moves m s (s.serveRepair p slot found any).1 := by
  unfold State.serveRepair
  split
  next => exact .refl
  next v e =>
    obtain ⟨x, hx, hsearch⟩ := hs v e rfl
    obtain ⟨y, hy, -, hlink⟩ := search_unlinked hsearch
    rw [hx]
    have assigned : Moves m s (s.createAssignment slot (s.newAssignment p v e x) x) :=
      (Move.assigned (y := y) hfree hx hy hlink (by simp [State.newAssignment])).moves
    dsimp only
    split
    next hany => exact assigned.tail (.pointed ((h v e rfl).resolve_right (by simp [hany])))
    next => exact assigned

theorem ownTakeRepair_moves (s : State) (p : Port) (ps : List Byte) : Moves m s (ownTakeRepair p ps s).1 := by
  unfold ownTakeRepair
  dsimp only
  split
  next => exact .refl
  next =>
    split
    next => exact .refl
    next =>
      split
      next => exact .refl
      next =>
        split
        next => exact .refl
        next slot hfree =>
          split
          next =>
            have found {v e : Nat} (h : s.searchAny = some (v, e)) : v < 16 ∧ ∃ x, s.volume? v = some x ∧ x.search = some e := by
              obtain ⟨b, hb, hv⟩ := List.exists_of_findSome?_eq_some h
              obtain ⟨rfl, hx⟩ := searchVolume_some hv
              exact ⟨(mem_anyOrder v).1 hb, hx⟩
            exact serveRepair_moves p true hfree (fun v e h => .inl (found h).1) fun v e h => (found h).2
          next =>
            exact serveRepair_moves p false hfree (fun _ _ _ => .inr rfl) fun v e h => (searchVolume_some h).2

theorem findAssignment_assignment? {s : State} {p : Port} {t : Tag} {a : Assignment} (h : s.findAssignment p t = some a) :
    s.assignment? t.slot = some a := by
  unfold State.findAssignment at h
  split at h
  next j hj =>
    split at h
    next => cases h; exact hj
    next => cases h
  next => cases h

theorem ownRepairDone_moves (s : State) (p : Port) (ps : List Byte) : Moves m s (ownRepairDone p ps s).1 := by
  unfold ownRepairDone
  dsimp only
  split
  next => exact .refl
  next o _ =>
    split
    next => exact .refl
    next a ha =>
      have ended (rule : Coherence → Coherence) : Moves m s (s.endAssignment (tagParam ps 0).slot a rule) :=
        endAssignment_moves (findAssignment_assignment? ha) rule
      unfold State.finishRepair
      dsimp only
      split
      next => exact (ended _).trans (charge_moves _ _ _ _)
      next => exact ended _

theorem ownReleaseRepair_moves (s : State) (p : Port) (ps : List Byte) : Moves m s (ownReleaseRepair p ps s).1 := by
  unfold ownReleaseRepair
  dsimp only
  split
  next => exact .refl
  next => exact revoke_moves s _ none

theorem assignmentExpiry_moves {s t : State} {slot : Nat} (h : execAssignmentExpiry slot s = .next t) : Moves m s t := by
  cases h
  split
  next =>
    split
    next => exact (revoke_moves s slot _).tail .settle
    next => exact .refl
  next => exact .refl

/-! ## FORMAT (R168) -/

/-- A table none of whose slots holds a record has no record in any slot. -/
theorem heldAt_none_of_any {α : Type} {t : List (Slot (Option α))} (h : t.any (fun x => x.held.isSome) = false) (k : Nat) :
    heldAt t k = none := by
  unfold heldAt
  split
  next x hx => simpa using List.any_eq_false.1 h x (List.mem_of_getElem? hx)
  next => rfl

theorem ownFormat_moves (s : State) (p : Port) (ps : List Byte) (hc : m.creates = false) :
    Moves m s (ownFormat p ps s).1 := by
  unfold ownFormat
  split
  next => exact .refl
  next hbusy =>
    simp only [State.formatBusy, Bool.or_eq_true, not_or, Bool.not_eq_true, Bool.not_eq_false', List.isEmpty_iff] at hbusy
    obtain ⟨⟨⟨hintents, harrival⟩, hassignments⟩, -⟩ := hbusy
    exact (Move.formatted hc (heldAt_none_of_any hintents) harrival (heldAt_none_of_any hassignments)).moves.trans
      (foldl_moves (fun u v => (Move.raised p _ _ (by decide)).moves) _ _)

end Sys2Proof.Machine
end

section
/-! PROOF. Every step is a sequence of moves, within the permit of its command. -/

namespace Sys2Proof.Machine

/-! ## The permit of a command -/

/-- The port whose link, session or PRST input a command works on; none for one that reaches both ports or neither. -/
def portOf (c : Instr) : Option Port :=
  match c with
  | .readBurst b _ => some b.port
  | .frameError b _ => some b.port
  | .prst p _ => some p
  | .leaseExpiry p => some p
  | .prstRelease p _ => some p
  | _ => c.frame?.map fun f => f.2.port

/-- What a command may do: CREATE_VOLUME alone makes a volume, a command of a port reaches the front of that port alone,
OPEN_SESSION moves its port's epoch and a cold start both, and the supply events alone move the supply state. -/
def permitOf (c : Instr) (retentionValid : Bool) : Permit where
  creates := match c with
    | .createVolume _ => true
    | _ => false
  front p := match portOf c with
    | some q => p = q
    | none => true
  epoch p := match c with
    | .openSession r => p = r.port
    | .start _ _ _ => !retentionValid
    | _ => false
  supply := match c with
    | .quiesce _ _ _ => true
    | .mainSupplyArrives => true
    | .mainSupplyLost => true
    | .vbakBelowThreshold _ => true
    | .start _ _ _ => true
    | .startComplete => true
    | _ => false

variable {m : Permit}

/-! ## The commands that carry no request of the catalogue -/

theorem readBurst_moves {b : Select} {n : Nat} {s t : State} (hp : m.front b.port = true)
    (h : execReadBurst b n s = .next t) : Moves m s t := by
  cases h
  split
  next => exact (setBurst_move hp s _).moves
  next => split <;> exact (endBurst_move hp s _).moves

theorem frameError_moves {b : Select} {bytes : List Byte} {s t : State} (hp : m.front b.port = true)
    (h : execFrameError b bytes s = .next t) : Moves m s t := by
  unfold execFrameError at h
  split at h
  next => cases h; exact (setBurst_move hp s _).moves
  next =>
    split at h
    next => cases h
    next =>
      split at h
      next => cases h
      next =>
        cases h
        have ones : Moves m s (s.shiftOnes b.port bytes.length) := (endBurst_move hp s _).moves
        dsimp only
        split
        next => exact ones.tail (setLink_move hp _ _)
        next => exact ones

theorem badCode_moves {r : Request} {code : Byte} {s t : State} (hp : m.front r.port = true)
    (h : execBadCode r code s = .next t) : Moves m s t := by
  unfold execBadCode at h
  split at h
  next => cases h
  next =>
    cases h
    have ones : Moves m s (s.shiftOnes r.port (7 + r.params.length)) := (endBurst_move hp s _).moves
    dsimp only
    split
    next => split <;> exact ones.tail (setLink_move hp _ _)
    next => exact ones

/-! ## The ends of sessions and the PRST input (R126, R129) -/

theorem leaseExpiry_moves {p : Port} {s t : State} (hp : m.front p = true) (h : execLeaseExpiry p s = .next t) :
    Moves m s t := by
  cases h
  split
  next => exact (teardown_moves hp (by decide) _).tail .settle
  next => exact .refl

theorem resetSession_moves {p : Port} (hp : m.front p = true) (s : State) : Moves m s (s.resetSession p) := by
  unfold State.resetSession
  split
  next =>
    split
    next => exact teardown_moves hp (by decide) _
    next h => exact (Move.unfenced hp (by rw [h]; decide) (by decide)).moves
    next => exact .refl
  next => exact .refl

theorem prst_moves {p : Port} {sel : Bool} {s t : State} (hp : m.front p = true) (h : execPrst p s sel = .next t) :
    Moves m s t := by
  cases h
  exact ((((setPrst_move hp s true).moves.trans (resetSession_moves hp _)).tail (setLink_move hp _ _)).tail
    (setBurst_move hp _ _)).tail .settle

theorem prstRelease_moves {p : Port} {sel : Bool} {s t : State} (hp : m.front p = true)
    (h : execPrstRelease p s sel = .next t) : Moves m s t := by
  cases h
  exact ((setPrst_move hp s false).moves.tail (setBurst_move hp _ _)).tail .settle

/-! ## The supply events (R162 to R167) -/

theorem noteBursts_moves (hp : ∀ p, m.front p = true) (t s : State) (sel0 sel1 : Bool) :
    Moves m t (t.noteBursts s sel0 sel1) :=
  (setBurst_move (hp .p0) t _).moves.tail (setBurst_move (hp .p1) _ _)

theorem readPins_moves (hs : m.supply = true) (s : State) : Moves m s s.readPins := by
  unfold State.readPins
  split
  next => exact (Move.powered (t := { s with supply := .hold }) hs rfl).moves.tail .settle
  next => exact .refl

theorem quiesce_moves {pin : HoldPin} {sel0 sel1 : Bool} {s t : State} (hs : m.supply = true)
    (hp : ∀ p, m.front p = true) (h : execQuiesce pin s sel0 sel1 = .next t) : Moves m s t := by
  cases h
  have pins : Move m s (s.assertPin pin) := by cases pin <;> exact .powered hs rfl
  exact (pins.moves.trans (readPins_moves hs _)).trans (noteBursts_moves hp _ s _ _)

theorem mainSupplyArrives_moves {s t : State} (hs : m.supply = true) (h : execMainSupplyArrives s = .next t) :
    Moves m s t := by
  cases h
  split
  next => exact (Move.powered (t := { s with supply := .hold }) hs rfl).moves
  next => exact .refl

theorem mainSupplyLost_moves {s t : State} (hs : m.supply = true) (h : execMainSupplyLost s = .next t) : Moves m s t := by
  cases h
  exact (Move.powered (t := { s with supply := .off }) hs rfl).moves.tail .settle

theorem vbakBelowThreshold_moves {e : VbakEvent} {s t : State} (hs : m.supply = true)
    (h : execVbakBelowThreshold s e = .next t) : Moves m s t := by
  cases h
  split
  next => exact (Move.powered (t := { s with retentionValid := false }) hs rfl).moves
  next => exact .refl

theorem start_moves {pfail sel0 sel1 : Bool} {s t : State} (hs : m.supply = true) (hc : m.creates = false)
    (hp : ∀ p, m.front p = true) (he : s.retentionValid = false → ∀ p, m.epoch p = true)
    (h : execStart pfail s sel0 sel1 = .next t) : Moves m s t := by
  cases h
  have levels : Moves m s { s with resetn := false, pfail := pfail } := (Move.powered hs rfl).moves
  dsimp only
  split
  next =>
    have work := levels.tail (.started hs hc hp he)
    have starting := (work.tail (Move.powered (t := { (State.clearVolatile { s with
      resetn := false, pfail := pfail }).restoreArray with supply := .starting }) hs rfl)).tail .settle
    exact starting.trans (noteBursts_moves hp _ s _ _)
  next => exact (levels.trans (readPins_moves hs _)).trans (noteBursts_moves hp _ s _ _)

theorem startComplete_moves {s t : State} (hs : m.supply = true) (h : execStartComplete s = .next t) : Moves m s t := by
  cases h
  split
  next =>
    refine Relation.ReflTransGen.tail (Move.moves (.powered hs ?_)) .settle
    unfold State.recordStart
    split <;> rfl
  next => exact .refl

/-! ## Every command -/

theorem next_moves {s t u : State} (h : Moves m s t) (e : (Host.Outcome.next t : Host.Outcome State Fault Refusal) = .next u) :
    Moves m s u := by
  cases e
  exact h

/-- Every command that a state takes is a sequence of moves within its permit. -/
theorem exec_moves {c : Instr} {s t : State} (h : exec c s = .next t) : Moves (permitOf c s.retentionValid) s t := by
  have self {p q : Port} (e : p = q) : decide (q = p) = true := by simp [e]
  cases c with
  | identify r => exact next_moves (serve_moves s 0x01 (self rfl) fun u _ => .refl) h
  | openSession r => exact next_moves (serve_moves s 0x02 (self rfl) fun u _ => ownOpenSession_moves u _ (self rfl) (self rfl)) h
  | renew r => exact next_moves (serve_moves s 0x03 (self rfl) fun u _ => .refl) h
  | closeSession r => exact next_moves (serve_moves s 0x04 (self rfl) fun u _ => ownCloseSession_moves u _ (self rfl)) h
  | portConfig r => exact next_moves (serve_moves s 0x05 (self rfl) fun u _ => ownPortConfig_moves u _ (self rfl)) h
  | fetchEvent r => exact next_moves (serve_moves s 0x08 (self rfl) fun u ho => ownFetchEvent_moves _ (ho _ rfl rfl)) h
  | ackEvent r => exact next_moves (serve_moves s 0x09 (self rfl) fun u ho => ownAckEvent_moves _ (ho _ rfl rfl)) h
  | eventConfig r => exact next_moves (serve_moves s 0x0A (self rfl) fun u _ => ownEventConfig_moves u _ (self rfl)) h
  | createVolume r => exact next_moves (serve_moves s 0x10 (self rfl) fun u _ => ownCreateVolume_moves u _ _ rfl) h
  | deleteVolume r => exact next_moves (serve_moves s 0x11 (self rfl) fun u _ => ownDeleteVolume_moves u _ _ rfl) h
  | volumeStatus r =>
    exact next_moves (serve_moves s 0x12 (self rfl) fun u _ => by rw [ownVolumeStatus_state]) h
  | setVolume r => exact next_moves (serve_moves s 0x13 (self rfl) fun u _ => ownSetVolume_moves u _ _) h
  | route r => exact next_moves (serve_moves s 0x18 (self rfl) fun u _ => ownRoute_moves u _ _) h
  | extentStates r => exact next_moves (serve_moves s 0x19 (self rfl) fun u _ => ownExtentStates_moves u _ _) h
  | retireRange r => exact next_moves (serve_moves s 0x1A (self rfl) fun u _ => ownRetireRange_moves u _ _) h
  | reportReadFailure r => exact next_moves (serve_moves s 0x1B (self rfl) fun u _ => ownReportReadFailure_moves u _ _) h
  | openIntent r => exact next_moves (serve_moves s 0x20 (self rfl) fun u _ => ownOpenIntent_moves u _ _) h
  | reportWrite r => exact next_moves (serve_moves s 0x21 (self rfl) fun u _ => ownReportWrite_moves u _ _) h
  | abandonIntent r => exact next_moves (serve_moves s 0x22 (self rfl) fun u _ => ownAbandonIntent_moves u _ _) h
  | intentStatus r =>
    exact next_moves (serve_moves s 0x23 (self rfl) fun u _ => by rw [ownIntentStatus_state]) h
  | cancelWait r => exact next_moves (serve_moves s 0x24 (self rfl) fun u _ => ownCancelWait_moves u _ _) h
  | takeRepair r => exact next_moves (serve_moves s 0x28 (self rfl) fun u _ => ownTakeRepair_moves u _ _) h
  | repairDone r => exact next_moves (serve_moves s 0x29 (self rfl) fun u _ => ownRepairDone_moves u _ _) h
  | releaseRepair r => exact next_moves (serve_moves s 0x2A (self rfl) fun u _ => ownReleaseRepair_moves u _ _) h
  | failCopy r => exact next_moves (serve_moves s 0x30 (self rfl) fun u _ => ownFailCopy_moves u _ _) h
  | replaceCopy r => exact next_moves (serve_moves s 0x31 (self rfl) fun u _ => ownReplaceCopy_moves u _ _) h
  | clearErrors r => exact next_moves (serve_moves s 0x32 (self rfl) fun u _ => ownClearErrors_moves u _ _) h
  | format r => exact next_moves (serve_moves s 0x38 (self rfl) fun u _ => ownFormat_moves u _ _ rfl) h
  | readBurst b n => exact readBurst_moves (self rfl) h
  | frameError b bytes => exact frameError_moves (self rfl) h
  | badCode r code => exact badCode_moves (self rfl) h
  | prst p sel => exact prst_moves (self rfl) h
  | quiesce pin sel0 sel1 => exact quiesce_moves rfl (fun _ => rfl) h
  | mainSupplyArrives => exact mainSupplyArrives_moves rfl h
  | mainSupplyLost => exact mainSupplyLost_moves rfl h
  | vbakBelowThreshold e => exact vbakBelowThreshold_moves rfl h
  | start pfail sel0 sel1 => exact start_moves rfl rfl (fun _ => rfl) (fun hv _ => by simp [permitOf, hv]) h
  | startComplete => exact startComplete_moves rfl h
  | leaseExpiry p => exact leaseExpiry_moves (self rfl) h
  | intentExpiry slot => exact intentExpiry_moves h
  | waiterExpiry slot => exact waiterExpiry_moves h
  | assignmentExpiry slot => exact assignmentExpiry_moves h
  | prstRelease p sel => exact prstRelease_moves (self rfl) h

theorem idle_moves (s : State) : Moves m s s.idle := by
  unfold State.idle
  split
  next => exact (Move.timed _ _ _ _).moves
  next => exact .refl

/-- Every step is a sequence of moves, within the permit of some command. -/
theorem step_moves {s t : State} (h : step s = .next t) : ∃ m : Permit, Moves m s t := by
  unfold step at h
  split at h
  next => cases h; exact ⟨permitOf .startComplete true, idle_moves s⟩
  next c rest _ =>
    exact ⟨_, (Move.timed s.ticks s.phase s.choices rest).moves.trans (exec_moves h)⟩

/-- What every move keeps, every step keeps. -/
theorem step_keeps {P : State → Prop} (h : ∀ (m : Permit) (s t : State), Move m s t → P s → P t) {s t : State}
    (hs : P s) (hstep : step s = .next t) : P t := by
  obtain ⟨m, moves⟩ := step_moves hstep
  exact moves.invariant (h m) hs

end Sys2Proof.Machine
end

section
/-! PROOF. What a move can do to the volumes, and the invariants of their records: counts that agree, runs that are disjoint,
geometry that stays. -/

namespace Sys2Proof.Machine

variable {m : Permit} {s t : State}

/-! ## The volumes after a move -/

/-- A record of a present volume after a move that leaves it present. -/
structure Volume.Moved (x y : Volume) : Prop where
  geometry : y.geometry = x.geometry
  length : y.extents.length = x.extents.length
  counts : x.recount = x → y.recount = y

theorem Volume.Kept.moved {x y : Volume} (h : x.Kept y) : x.Moved y :=
  ⟨h.geometry, by simpa using congrArg List.length h.marks, h.counts⟩

/-- What a move can do to the volumes: nothing, one present record, one record made or deleted, all deleted, all warmed. -/
inductive VolumesMove (m : Permit) (s t : State) : Prop where
  | same : t.volumes = s.volumes → VolumesMove m s t
  | record {v : Nat} {x y : Volume} : s.volume? v = some x → x.Moved y → t.volumes = s.volumes.set v (some y) →
      VolumesMove m s t
  | made {v base n k : Nat} {st : Coherence} {ha hb : Health} : m.creates = true → s.volume? v = none → n ≠ 0 →
      firstGap (extentCountOf n k) 0 s.runs = some base → t.volumes = s.volumes.set v (some (newVolume base n k st ha hb)) →
      VolumesMove m s t
  | deleted {v : Nat} : m.creates = false → t.volumes = s.volumes.set v none → VolumesMove m s t
  | emptied : m.creates = false → t.volumes = List.replicate Config.volumes none → VolumesMove m s t
  | warmed : m.creates = false → t.volumes = s.volumes.map (Option.map Volume.warmed) → VolumesMove m s t

/-- The volumes after the end of an intent: those before, or one record with the rule applied to its extents. -/
theorem settleIntent_volumes (s : State) (slot : Nat) (rule : Volume → Intent → Nat → Extent → Extent) :
    (s.settleIntent slot rule).volumes = s.volumes ∨ ∃ i x, s.intent? slot = some i ∧ s.volume? i.volume = some x
      ∧ (s.settleIntent slot rule).volumes = s.volumes.set i.volume (some
          { Volume.recount { x with extents := mapExtents (rule x i) x.extents } with openIntents := x.openIntents - 1 }) := by
  unfold State.settleIntent
  split
  next => exact .inl rfl
  next i hi =>
    split
    next hv => exact .inl (by simp [State.freeIntent, State.modVolume, hv])
    next x hv =>
      have o := (changeExtents_does hv (rule x i)).trans
        (raiseRepairPending_onlyEvents (s.changeExtents i.volume (rule x i)) i.volume (s.repairNeeded i.volume))
      have hx := o.volume? i.volume
      rw [State.volume?_setVolume hv, if_pos rfl] at hx
      refine .inr ⟨i, x, hi, hv, ?_⟩
      rw [freeIntent_volumes hx, State.setVolume, o.volumes]
      exact List.set_set ..

theorem settleAssignment_volumes (s : State) (slot : Nat) (a : Assignment) (rule : Coherence → Coherence) :
    (s.settleAssignment slot a rule).volumes = (s.changeExtents a.volume (endExtent a rule)).volumes :=
  (raiseRepairPending_onlyEvents _ _ _).volumes.trans (freeAssignment_fields _ slot a).1

theorem changeExtents_volumes {v : Nat} {x : Volume} (h : s.volume? v = some x) (f : Nat → Extent → Extent) :
    (s.changeExtents v f).volumes
      = s.volumes.set v (some (Volume.recount { x with extents := mapExtents f x.extents })) :=
  (changeExtents_does h f).volumes

/-- A grant's volumes: the intent's volume with its counts raised. -/
theorem grant_volumes {slot : Nat} {i : Intent} {x : Volume} (h : s.volume? i.volume = some x) :
    (s.grant slot i).volumes = s.volumes.set i.volume (some
      { x with openIntents := x.openIntents + 1, extents := mapExtents (grantExtent i) x.extents }) := by
  have hx : ∀ marks counts, (State.setIntentCount { s with
      intents := place s.intents slot (some i), assignments := marks } i.port counts).volume? i.volume = some x :=
    fun _ _ => (State.volume?_of_volumes (by simp) _).trans h
  simp [State.grant, State.modVolume, hx, State.setVolume]

/-- Counts and derived fields follow the states of the extents and the healths alone. -/
theorem recount_of_states {x : Volume} {ys : List Extent} (hx : x.recount = x)
    (hstates : ys.map Extent.state = x.extents.map Extent.state) (openIntents cursor : Nat) :
    let y : Volume := { x with openIntents := openIntents, extents := ys, cursor := cursor }
    y.recount = y := by
  have hcount (st : Coherence) : countState ys st = countState x.extents st := by
    have e (xs : List Extent) : countState xs st = (xs.map Extent.state).countP (fun z => decide (z = st)) := by
      rw [List.countP_map]; rfl
    rw [e, e, hstates]
  have hneeded (ha hb : Health) : repairNeededOf ys ha hb = repairNeededOf x.extents ha hb := by
    have e (xs : List Extent) : repairNeededOf xs ha hb = (xs.map Extent.state).countP (fun z => needsRepair z ha hb) := by
      rw [List.countP_map]; rfl
    rw [e, e, hstates]
  have hcounts : countsOf ys = countsOf x.extents := by simp only [countsOf, hcount]
  simp only [Volume.recount, hcounts, hneeded]
  exact congrArg (fun z : Volume => { z with openIntents := openIntents, extents := ys, cursor := cursor }) hx

theorem moved_grant (x : Volume) (i : Intent) : x.Moved
    { x with openIntents := x.openIntents + 1, extents := mapExtents (grantExtent i) x.extents } :=
  ⟨rfl, mapExtents_length _ _, fun h => recount_of_states h (mapExtents_states (grantExtent_state i) _) _ x.cursor⟩

theorem linkExtent_state (slot : Nat) (a : Assignment) (e : Nat) (y : Extent) : (linkExtent slot a e y).state = y.state := by
  unfold linkExtent
  split <;> rfl

theorem moved_assign (x : Volume) (slot cursor : Nat) (a : Assignment) : x.Moved
    { x with extents := mapExtents (linkExtent slot a) x.extents, cursor := cursor } :=
  ⟨rfl, mapExtents_length _ _, fun h => recount_of_states h (mapExtents_states (linkExtent_state slot a) _) x.openIntents _⟩

theorem moved_recount (x : Volume) (f : Nat → Extent → Extent) :
    x.Moved (Volume.recount { x with extents := mapExtents f x.extents }) :=
  ⟨rfl, mapExtents_length _ _, fun _ => rfl⟩

theorem moved_settle (x : Volume) (f : Nat → Extent → Extent) (n : Nat) :
    x.Moved { Volume.recount { x with extents := mapExtents f x.extents } with openIntents := n } :=
  ⟨rfl, mapExtents_length _ _, fun _ => rfl⟩

theorem warmed_geometry (x : Volume) : x.warmed.geometry = x.geometry := rfl
theorem warmed_recount (x : Volume) : x.warmed.recount = x.warmed := rfl
theorem warmed_length (x : Volume) : x.warmed.extents.length = x.extents.length := List.length_map ..

/-- What a move can do to the volumes. -/
theorem Move.volumes (h : Move m s t) : VolumesMove m s t := by
  cases h with
  | front | settle | session | opened | ended | unfenced | served | timed =>
    exact .same (by simp [State.endSession, State.clearEvents])
  | raised p sub val => exact .same (raise_onlyEvents _ _ _ _ _).volumes
  | queued | left | leftOf | reports | pointed => exact .same rfl
  | record hx k => exact .record hx k.moved rfl
  | granted _ hx => exact .record hx (moved_grant _ _) (grant_volumes hx)
  | @settled slot rule _ =>
    rcases settleIntent_volumes s slot rule with e | ⟨i, x, -, hx, e⟩
    · exact .same e
    · exact .record hx (moved_settle x _ _) e
  | @revoked slot a rule _ =>
    cases hx : s.volume? a.volume with
    | none => exact .same (by rw [settleAssignment_volumes, changeExtents_absent hx])
    | some x => exact .record hx (moved_recount x _) (by rw [settleAssignment_volumes, changeExtents_volumes hx])
  | @assigned slot a x y _ hx =>
    exact .record hx (moved_assign x slot (cursorAfter x a.extent) a) (by simp [State.createAssignment, State.setVolume])
  | retired hx => exact .record hx (moved_recount _ _) rfl
  | made hc hv hn hgap => exact .made hc hv hn hgap rfl
  | deleted hc => exact .deleted hc rfl
  | formatted hc => exact .emptied hc rfl
  | powered _ e => exact .same (by rw [e])
  | started _ hc =>
    cases hv : s.retentionValid with
    | true => exact .warmed hc (by simp [State.restoreArray, State.clearVolatile, hv])
    | false => exact .emptied hc (by simp [State.restoreArray, State.clearVolatile, hv])

/-! ## Reading the volumes after a move -/

theorem volume?_set {v : Nat} {o : Option Volume} (h : t.volumes = s.volumes.set v o) (w : Nat) :
    t.volume? w = if w = v ∧ v < s.volumes.length then o else s.volume? w := by
  rw [show t.volume? w = (s.setVolume v o).volume? w from State.volume?_of_volumes h w]
  by_cases hw : w = v
  · subst hw
    by_cases hl : w < s.volumes.length
    · simp [hl, State.volume?_setVolume_self]
    · simp [hl, State.volume?, State.setVolume]
  · simp [hw, State.volume?_setVolume_ne]

theorem volume?_set_present {v : Nat} {x : Volume} {o : Option Volume} (hx : s.volume? v = some x)
    (h : t.volumes = s.volumes.set v o) (w : Nat) : t.volume? w = if w = v then o else s.volume? w := by
  rw [volume?_set h w]
  simp [State.volume?_lt hx]

theorem volume?_emptied (h : t.volumes = List.replicate Config.volumes none) (w : Nat) : t.volume? w = none := by
  rw [State.volume?, h, List.getElem?_replicate]
  split <;> rfl

theorem volume?_map {f : Volume → Volume} (h : t.volumes = s.volumes.map (Option.map f)) (w : Nat) :
    t.volume? w = (s.volume? w).map f := by
  rw [State.volume?, State.volume?, h, List.getElem?_map]
  cases s.volumes[w]? <;> rfl

/-! ## Counts (O52) -/

theorem newVolume_counts (base n k : Nat) (st : Coherence) (ha hb : Health) :
    let x := newVolume base n k st ha hb
    x.recount = x ∧ x.extents.length = x.extentCount ∧ x.extentCount = extentCountOf x.blockCount x.shift :=
  ⟨rfl, List.length_replicate, rfl⟩

/-- A record's counts agree as before when the record has moved. -/
theorem Volume.Moved.agree {x y : Volume} (h : x.Moved y) (hx : x.recount = x ∧ x.extents.length = x.extentCount
    ∧ x.extentCount = extentCountOf x.blockCount x.shift) :
    y.recount = y ∧ y.extents.length = y.extentCount ∧ y.extentCount = extentCountOf y.blockCount y.shift := by
  obtain ⟨hcounts, hlength, hextents⟩ := hx
  have hgeometry := h.geometry
  simp only [Volume.geometry, Prod.mk.injEq] at hgeometry
  obtain ⟨hblocks, hshift, hcount, -⟩ := hgeometry
  exact ⟨h.counts hcounts, by rw [h.length, hcount, hlength], by rw [hcount, hblocks, hshift, hextents]⟩

theorem Move.keeps_countsAgree (h : Move m s t) (hs : CountsAgree s) : CountsAgree t := by
  intro w y hy
  cases h.volumes with
  | same e => exact hs w y ((State.volume?_of_volumes e w).symm.trans hy)
  | record hx moved e =>
    rw [volume?_set_present hx e] at hy
    split at hy
    next => cases hy; exact moved.agree (hs _ _ hx)
    next => exact hs w y hy
  | made _ _ _ _ e =>
    rw [volume?_set e] at hy
    split at hy
    next => cases hy; exact newVolume_counts _ _ _ _ _ _
    next => exact hs w y hy
  | deleted _ e =>
    rw [volume?_set e] at hy
    split at hy
    next => cases hy
    next => exact hs w y hy
  | emptied _ e => rw [volume?_emptied e] at hy; cases hy
  | warmed _ e =>
    rw [volume?_map e] at hy
    obtain ⟨x, hx, rfl⟩ := Option.map_eq_some_iff.1 hy
    obtain ⟨-, hlength, hextents⟩ := hs w x hx
    exact ⟨warmed_recount x, (warmed_length x).trans hlength, hextents⟩

/-- Settles O52: every move keeps each record's counts in step, and every step is a sequence of moves. -/
theorem stepKeepsCountsAgreeing : Obligations.StepKeepsCountsAgreeing :=
  fun _ _ hs hstep => step_keeps (fun _ _ _ => Move.keeps_countsAgree) hs hstep

/-! ## Geometry (O59) -/

/-- No volume is lost and every present one keeps its geometry. -/
def KeepsVolumes (s t : State) : Prop := ∀ v x, s.volume? v = some x → ∃ y, t.volume? v = some y ∧ y.geometry = x.geometry

/-- No volume is new and every one left has its geometry from before. -/
def KeepsAbsence (s t : State) : Prop := ∀ v y, t.volume? v = some y → ∃ x, s.volume? v = some x ∧ y.geometry = x.geometry

theorem KeepsVolumes.trans {u : State} (h : KeepsVolumes s t) (k : KeepsVolumes t u) : KeepsVolumes s u := by
  intro v x hx
  obtain ⟨y, hy, ey⟩ := h v x hx
  obtain ⟨z, hz, ez⟩ := k v y hy
  exact ⟨z, hz, ez.trans ey⟩

theorem KeepsAbsence.trans {u : State} (h : KeepsAbsence s t) (k : KeepsAbsence t u) : KeepsAbsence s u := by
  intro v z hz
  obtain ⟨y, hy, ey⟩ := k v z hz
  obtain ⟨x, hx, ex⟩ := h v y hy
  exact ⟨x, hx, ey.trans ex⟩

/-- A command that may make volumes deletes none. -/
theorem Move.keepsVolumes (hc : m.creates = true) (h : Move m s t) : KeepsVolumes s t := by
  intro w x hx
  cases h.volumes with
  | same e => exact ⟨x, (State.volume?_of_volumes e w).trans hx, rfl⟩
  | record hv moved e =>
    rw [volume?_set_present hv e]
    split
    next hw => subst hw; cases hv.symm.trans hx; exact ⟨_, rfl, moved.geometry⟩
    next => exact ⟨x, hx, rfl⟩
  | made _ hv _ _ e =>
    rw [volume?_set e]
    split
    next hw => rw [hw.1, hv] at hx; cases hx
    next => exact ⟨x, hx, rfl⟩
  | deleted hn | emptied hn | warmed hn => rw [hc] at hn; cases hn

/-- Only a volume that a move makes is new. -/
theorem VolumesMove.absence (h : VolumesMove m s t) : KeepsAbsence s t ∨ ∃ v base n k st ha hb, m.creates = true
    ∧ s.volume? v = none ∧ n ≠ 0 ∧ firstGap (extentCountOf n k) 0 s.runs = some base
    ∧ t.volumes = s.volumes.set v (some (newVolume base n k st ha hb)) := by
  cases h with
  | made hc hv hn hgap e => exact .inr ⟨_, _, _, _, _, _, _, hc, hv, hn, hgap, e⟩
  | same e => exact .inl fun w y hy => ⟨y, (State.volume?_of_volumes e w).symm.trans hy, rfl⟩
  | record hx moved e =>
    refine .inl fun w y hy => ?_
    rw [volume?_set_present hx e] at hy
    split at hy
    next hw => subst hw; cases hy; exact ⟨_, hx, moved.geometry⟩
    next => exact ⟨y, hy, rfl⟩
  | deleted _ e =>
    refine .inl fun w y hy => ?_
    rw [volume?_set e] at hy
    split at hy
    next => cases hy
    next => exact ⟨y, hy, rfl⟩
  | emptied _ e => exact .inl fun w y hy => by rw [volume?_emptied e] at hy; cases hy
  | warmed _ e =>
    refine .inl fun w y hy => ?_
    rw [volume?_map e] at hy
    obtain ⟨x, hx, rfl⟩ := Option.map_eq_some_iff.1 hy
    exact ⟨x, hx, warmed_geometry x⟩

/-- A command that may not make volumes makes none. -/
theorem Move.keepsAbsence (hc : m.creates = false) (h : Move m s t) : KeepsAbsence s t := by
  rcases h.volumes.absence with k | ⟨_, _, _, _, _, _, _, hn, -⟩
  · exact k
  · rw [hc] at hn; cases hn

/-- Settles O59: a step either deletes no volume or makes none, and in each case every move keeps the geometry of a record
that stays. -/
theorem geometryIsFixedWhilePresent : Obligations.GeometryIsFixedWhilePresent := by
  intro s t v x y hstep hx hy
  obtain ⟨m, moves⟩ := step_moves hstep
  cases hc : m.creates with
  | true =>
    have keeps : KeepsVolumes s t :=
      moves.keeps (R := KeepsVolumes) (fun _ _ x hx => ⟨x, hx, rfl⟩) (fun _ _ _ => KeepsVolumes.trans) fun _ _ => Move.keepsVolumes hc
    obtain ⟨z, hz, ez⟩ := keeps v x hx
    cases hz.symm.trans hy
    exact ez
  | false =>
    have keeps : KeepsAbsence s t :=
      moves.keeps (R := KeepsAbsence) (fun _ _ x hx => ⟨x, hx, rfl⟩) (fun _ _ _ => KeepsAbsence.trans) fun _ _ => Move.keepsAbsence hc
    obtain ⟨z, hz, ez⟩ := keeps v y hy
    cases hz.symm.trans hx
    exact ez

end Sys2Proof.Machine
end

section
/-! PROOF. What a move can do to the ports, and the invariants of their sessions and event units. -/

namespace Sys2Proof.Machine

variable {m : Permit} {s t : State}

/-! ## Events keep an event unit within its bounds (R134 to R138) -/

/-- A change of counts and kind sets alone keeps the bounds, where the counts stay in theirs. -/
theorem EventUnit.bounded_map {u : EventUnit} (h : u.bounded) {g : EventRecord → EventRecord} (counter : Word16)
    (hg : ∀ r, (g r).kind = r.kind ∧ (g r).subject = r.subject ∧ (g r).value = r.value)
    (hcount : ∀ r, 1 ≤ r.count ∧ r.count ≤ 255 → 1 ≤ (g r).count ∧ (g r).count ≤ 255) :
    EventUnit.bounded { u with records := u.records.map g, counter := counter } := by
  obtain ⟨hsize, hover, hdistinct, hcounts, hstack⟩ := h
  have hkind : EventRecord.isOverflow ∘ g = EventRecord.isOverflow := by
    funext r
    simp [EventRecord.isOverflow, (hg r).1]
  refine ⟨?_, ?_, ?_, ?_, hstack⟩
  · have e : (fun r => !r.isOverflow) ∘ g = fun r : EventRecord => !r.isOverflow := by
      funext r
      exact congrArg (fun b => !b) (congrFun hkind r)
    rw [EventUnit.size, List.countP_map, e]
    exact hsize
  · rw [List.countP_map, hkind]; exact hover
  · refine List.pairwise_map.2 (hdistinct.imp fun {a b} hab => ?_)
    obtain ⟨a1, a2, a3⟩ := hg a
    obtain ⟨b1, b2, b3⟩ := hg b
    rw [a1, a2, a3, b1, b2, b3]
    exact hab
  · intro r hr
    obtain ⟨q, hq, rfl⟩ := List.mem_map.1 hr
    exact hcount q (hcounts q hq)

theorem bump255_bounds {n : Nat} : 1 ≤ bump255 n ∧ bump255 n ≤ 255 := by
  unfold bump255
  omega

/-- A new record, different from every record held, keeps the bounds where there is room for it. -/
theorem EventUnit.bounded_append {u : EventUnit} (h : u.bounded) {r : EventRecord} (counter : Word16)
    (hnew : ∀ q ∈ u.records, ¬ (q.kind = r.kind ∧ q.subject = r.subject ∧ q.value = r.value)) (hcount : r.count = 1)
    (hroom : if r.isOverflow then u.records.countP EventRecord.isOverflow = 0 else u.size < 24) :
    EventUnit.bounded { u with records := u.records ++ [r], counter := counter } := by
  obtain ⟨hsize, hover, hdistinct, hcounts, hstack⟩ := h
  refine ⟨?_, ?_, ?_, ?_, hstack⟩
  · simp only [EventUnit.size, List.countP_append, List.countP_singleton] at hsize hroom ⊢
    split at hroom
    next ho => simpa [ho] using hsize
    next ho => simp only [ho]; simpa using hroom
  · simp only [List.countP_append, List.countP_singleton]
    split at hroom
    next ho => simp [ho, hroom]
    next ho => simpa [ho] using hover
  · refine List.pairwise_append.2 ⟨hdistinct, List.pairwise_singleton _ _, fun q hq r' hr' => ?_⟩
    obtain rfl := List.mem_singleton.1 hr'
    exact hnew q hq
  · intro q hq
    rcases List.mem_append.1 hq with hq | hq
    · exact hcounts q hq
    · obtain rfl := List.mem_singleton.1 hq
      omega

/-- An event taken keeps the bounds (R136 to R138). -/
theorem EventUnit.bounded_take {u : EventUnit} (h : u.bounded) {k : Kind} (sub : Subject) (val : EventValue)
    (hk : k ≠ .overflow) : (u.take k sub val).bounded := by
  unfold EventUnit.take
  split
  next =>
    refine EventUnit.bounded_map h u.counter (fun r => ?_) fun r hr => ?_
    · split <;> exact ⟨rfl, rfl, rfl⟩
    · split
      next => exact bump255_bounds
      next => exact hr
  next hnew =>
    split
    next hroom =>
      refine EventUnit.bounded_append h _ (fun q hq hsame => hnew ?_) rfl ?_
      · exact List.any_eq_true.2 ⟨q, hq, by simpa [EventRecord.merges, and_assoc] using hsame⟩
      · simpa [EventRecord.isOverflow, hk, Config.eventRecords] using hroom
    next =>
      unfold EventUnit.drop
      split
      next =>
        refine EventUnit.bounded_map h _ (fun r => ?_) fun r hr => ?_
        · split <;> exact ⟨rfl, rfl, rfl⟩
        · split
          next => exact bump255_bounds
          next => exact hr
      next hnone =>
        have hover : ∀ q ∈ u.records, q.isOverflow = false := by simpa using hnone
        refine EventUnit.bounded_append h _ (fun q hq hsame => ?_) rfl ?_
        · have := hover q hq
          simp [EventRecord.isOverflow, hsame.1] at this
        · simpa [EventRecord.isOverflow] using hover

theorem EventUnit.bounded_takes {es : List Event} (hes : ∀ e ∈ es, e.1 ≠ .overflow) {u : EventUnit} (h : u.bounded) :
    (u.takes es).bounded := by
  induction es generalizing u with
  | nil => exact h
  | cons e es ih =>
    exact ih (fun f hf => hes f (List.mem_cons_of_mem _ hf)) (EventUnit.bounded_take h _ _ (hes e List.mem_cons_self))

/-! ## The ports after a move -/

/-- The ports' sessions and front sides are as they were, an event unit moves at an OPEN port alone and within its bounds. -/
structure PortsKept (s t : State) : Prop where
  session : ∀ p, (t.port p).session = (s.port p).session
  link : ∀ p, (t.port p).link = (s.port p).link
  prst : ∀ p, (t.port p).prst = (s.port p).prst
  burst : ∀ p, (t.port p).burst = (s.port p).burst
  sdo : ∀ p, (t.port p).sdo = (s.port p).sdo
  shut : ∀ p, (s.port p).session.state ≠ .opened → (t.port p).events = (s.port p).events
  bounded : ∀ p, (s.port p).events.bounded → (t.port p).events.bounded

/-- What a move can do to the ports. -/
inductive PortsMove (m : Permit) (s t : State) : Prop where
  | kept : PortsKept s t → PortsMove m s t
  | front {p : Port} : m.front p = true → t.port (peer p) = s.port (peer p) → (t.port p).session = (s.port p).session →
      (t.port p).events = (s.port p).events → PortsMove m s t
  | session {p : Port} {x : Session} : m.front p = true → x.state = (s.port p).session.state →
      x.epoch = (s.port p).session.epoch → x.events.length = (s.port p).session.events.length →
      (x.deadline = (s.port p).session.deadline ∨ (x.state = .opened ∧ x.deadline.isSome)) → t = s.setSession p x →
      PortsMove m s t
  | opened {p : Port} {x : Session} : m.front p = true → m.epoch p = true → x.state = .opened → x.deadline.isSome →
      x.events.length = 11 → t = (s.setSession p x).setEvents p { records := [], stack := [], counter := 0 } →
      PortsMove m s t
  | ended {p : Port} {st : SessionState} : m.front p = true → st ≠ .opened → t = (s.endSession p st).clearEvents p →
      PortsMove m s t
  | unfenced {p : Port} {st : SessionState} : m.front p = true → (s.port p).session.state ≠ .opened → st ≠ .opened →
      t = s.endSession p st → PortsMove m s t
  | started : (∀ p, m.front p = true) → (s.retentionValid = false → ∀ p, m.epoch p = true) →
      t = s.clearVolatile.restoreArray → PortsMove m s t

/-- Where nothing of the ports but counts and ATTN lines has moved. -/
theorem PortsKept.of_port (h : ∀ p, (t.port p).session = (s.port p).session ∧ (t.port p).link = (s.port p).link
    ∧ (t.port p).prst = (s.port p).prst ∧ (t.port p).burst = (s.port p).burst ∧ (t.port p).sdo = (s.port p).sdo
    ∧ (t.port p).events = (s.port p).events) : PortsKept s t where
  session p := (h p).1
  link p := (h p).2.1
  prst p := (h p).2.2.1
  burst p := (h p).2.2.2.1
  sdo p := (h p).2.2.2.2.1
  shut p _ := (h p).2.2.2.2.2
  bounded p hb := by rw [(h p).2.2.2.2.2]; exact hb

/-- Where only counts and events have moved. -/
theorem PortsKept.of_told (h : SameElsewhere s t) {es : Port → List Event} (ht : ∀ p, Told s t p (es p))
    (hes : ∀ p, ∀ e ∈ es p, e.1 ≠ .overflow) : PortsKept s t where
  session p := (h.1 p).1
  link p := (h.1 p).2.1
  prst p := (h.1 p).2.2.1
  burst p := (h.1 p).2.2.2.1
  sdo p := (h.1 p).2.2.2.2.1
  shut p hp := by rw [ht p, if_neg hp]
  bounded p hb := by
    rw [ht p]
    split
    next => exact EventUnit.bounded_takes (hes p) hb
    next => exact hb

theorem settledEvents_kinds {v : Nat} {x x' : Volume} {e : Event} (h : e ∈ settledEvents v x x') : e.1 ≠ .overflow := by
  unfold settledEvents at h
  rcases List.mem_append.1 h with h | h
  · rw [(List.mem_replicate.1 h).2]; exact (by decide : Kind.extentLost ≠ .overflow)
  · split at h
    next => rw [List.mem_singleton.1 h]; exact (by decide : Kind.repairPending ≠ .overflow)
    next => cases h

theorem freeIntent_events (s : State) (slot : Nat) (i : Intent) (p : Port) :
    ((s.freeIntent slot i).port p).events = (s.port p).events := by
  simp only [State.freeIntent, State.modVolume]
  split <;> cases p <;> cases i.port <;> rfl

theorem settleIntent_portsKept (s : State) (slot : Nat) (rule : Volume → Intent → Nat → Extent → Extent) :
    PortsKept s (s.settleIntent slot rule) := by
  cases hi : s.intent? slot with
  | none => rw [State.settleIntent, hi]; exact .of_port fun _ => ⟨rfl, rfl, rfl, rfl, rfl, rfl⟩
  | some i =>
    cases hv : s.volume? i.volume with
    | none =>
      refine .of_told (settleIntent_elsewhere s slot rule) (es := fun _ => []) (fun p => .nil ?_) (fun p e he => by cases he)
      rw [State.settleIntent, hi]
      dsimp only
      rw [hv]
      exact freeIntent_events s slot i p
    | some x =>
      exact .of_told (settleIntent_elsewhere s slot rule) (settleIntent_told hi hv rule) fun _ _ => settledEvents_kinds

theorem settleAssignment_portsKept (s : State) (slot : Nat) (a : Assignment) (rule : Coherence → Coherence) :
    PortsKept s (s.settleAssignment slot a rule) := by
  cases hv : s.volume? a.volume with
  | some x =>
    exact .of_told (settleAssignment_elsewhere s slot a rule) (settleAssignment_told slot hv rule) fun _ _ => settledEvents_kinds
  | none =>
    refine .of_told (settleAssignment_elsewhere s slot a rule) (es := fun _ => []) (fun p => .nil ?_) (fun p e he => by cases he)
    have hn : (s.freeAssignment slot a).volume? a.volume = none :=
      (State.volume?_of_volumes (freeAssignment_fields s slot a).1 _).trans hv
    simp [State.settleAssignment, changeExtents_absent hv, State.raiseRepairPending, State.repairNeeded, hn, hv,
      (freeAssignment_fields s slot a).2.2.2.2.2.2]

/-- What a move can do to the ports. -/
theorem Move.ports (h : Move m s t) : PortsMove m s t := by
  cases h with
  | @front p r hp hs he =>
    exact .front hp (State.port_setPort_peer s p r) (by rw [State.port_setPort_self, hs]) (by rw [State.port_setPort_self, he])
  | settle => exact .kept (.of_port fun p => by simp)
  | session hp h1 h2 h3 h4 => exact .session hp h1 h2 h3 h4 rfl
  | opened hp h1 h2 h3 h4 => exact .opened hp h1 h2 h3 h4 rfl
  | ended hp h1 => exact .ended hp h1 rfl
  | unfenced hp h1 h2 => exact .unfenced hp h1 h2 rfl
  | @served p u ho hu =>
    refine .kept ⟨?_, ?_, ?_, ?_, ?_, fun q hq => ?_, fun q hb => ?_⟩
    case refine_6 | refine_7 =>
      by_cases hqp : q = p
      · subst hqp; simp_all
      · obtain rfl := eq_peer_of_ne hqp; simp_all
    all_goals simp
  | @raised p k sub val hk =>
    refine .kept (.of_told (raise_onlyEvents s p k sub val).sameElsewhere (fun q => raise_told s p q k sub val) fun q e he => ?_)
    split at he
    next => rw [List.mem_singleton.1 he]; exact hk
    next => cases he
  | queued | left | leftOf | reports | pointed | timed | formatted =>
    exact .kept (.of_port fun p => by cases p <;> exact ⟨rfl, rfl, rfl, rfl, rfl, rfl⟩)
  | record | made | deleted => exact .kept (.of_port fun p => by simp)
  | retired => exact .kept (.of_port fun p => by cases p <;> exact ⟨rfl, rfl, rfl, rfl, rfl, rfl⟩)
  | @granted _ i _ hf =>
    obtain ⟨e, -⟩ := (grant_grantsOnly hf i).elsewhere
    refine .kept (.of_port fun p => ?_)
    obtain ⟨h1, h2, h3, h4, h5, -⟩ := e p
    exact ⟨h1, h2, h3, h4, h5, grant_events _ _ _ p⟩
  | settled => exact .kept (settleIntent_portsKept s _ _)
  | revoked => exact .kept (settleAssignment_portsKept s _ _ _)
  | @assigned slot a =>
    exact .kept (.of_port fun p => by
      simp only [State.createAssignment]
      cases p <;> cases a.port <;> exact ⟨rfl, rfl, rfl, rfl, rfl, rfl⟩)
  | powered _ e => exact .kept (.of_port fun p => by rw [e]; cases p <;> exact ⟨rfl, rfl, rfl, rfl, rfl, rfl⟩)
  | started _ _ hp he => exact .started hp he rfl

/-! ## Queues and sessions (O54) -/

theorem bounded_empty (counter : Word16) : EventUnit.bounded { records := [], stack := [], counter := counter } :=
  ⟨Nat.zero_le _, Nat.zero_le _, .nil, fun _ h => (by cases h), .inl rfl⟩

theorem started_port (s : State) (p : Port) : ∃ epoch, s.clearVolatile.restoreArray.port p
    = { s.port p with session := Session.reset epoch, events := EventUnit.reset, link := Link.reset
                      intents := 0, assignments := 0 }
      ∧ (s.retentionValid = true → epoch = (s.port p).session.epoch) := by
  unfold State.restoreArray
  cases hv : s.retentionValid with
  | true =>
    refine ⟨(s.port p).session.epoch, ?_, fun _ => rfl⟩
    rw [show s.clearVolatile.retentionValid = true from hv]
    cases p <;> rfl
  | false =>
    refine ⟨0, ?_, fun h => by cases h⟩
    rw [show s.clearVolatile.retentionValid = false from hv]
    cases p <;> rfl

theorem Move.keeps_queuesBounded (h : Move m s t) (hs : QueuesBounded s) : QueuesBounded t := by
  intro q
  cases h.ports with
  | kept k => exact k.bounded q (hs q)
  | @front p _ hpeer _ he =>
    by_cases hq : q = p
    · subst hq; rw [he]; exact hs q
    · obtain rfl := eq_peer_of_ne hq; rw [hpeer]; exact hs _
  | session _ _ _ _ _ e => subst e; simpa using hs q
  | @opened p x _ _ _ _ _ e =>
    subst e
    by_cases hq : q = p
    · subst hq; simpa using bounded_empty 0
    · obtain rfl := eq_peer_of_ne hq; simpa using hs (peer p)
  | @ended p st _ _ e =>
    subst e
    by_cases hq : q = p
    · subst hq; simpa [State.clearEvents] using bounded_empty _
    · obtain rfl := eq_peer_of_ne hq; simpa [State.clearEvents, State.endSession] using hs (peer p)
  | unfenced _ _ _ e => subst e; simpa [State.endSession] using hs q
  | started _ _ e =>
    subst e
    obtain ⟨epoch, hport, -⟩ := started_port s q
    rw [hport]
    exact bounded_empty 0

/-- A session that is OPEN has a deadline, and one that is not has none, and no records and no stack. -/
def PortIdle (x : PortRecord) : Prop :=
  (x.session.state = .opened → x.session.deadline.isSome) ∧
    (x.session.state ≠ .opened → x.session.deadline = none ∧ x.events.records = [] ∧ x.events.stack = [])

theorem Move.keeps_closedPortsIdle (h : Move m s t) (hs : ClosedPortsIdle s) : ClosedPortsIdle t := by
  intro q
  have hq : PortIdle (s.port q) := hs q
  change PortIdle (t.port q)
  cases h.ports with
  | kept k =>
    obtain ⟨hopen, hshut⟩ := hq
    refine ⟨fun ho => ?_, fun hn => ?_⟩
    · rw [k.session] at ho ⊢; exact hopen ho
    · rw [k.session] at hn
      rw [k.session, k.shut q hn]
      exact hshut hn
  | @front p _ hpeer hsession he =>
    by_cases hqp : q = p
    · subst hqp; unfold PortIdle; rw [hsession, he]; exact hq
    · obtain rfl := eq_peer_of_ne hqp; rw [hpeer]; exact hq
  | @session p x _ hstate _ _ hdeadline e =>
    subst e
    by_cases hqp : q = p
    · subst hqp
      obtain ⟨hopen, hshut⟩ := hq
      rw [State.setSession_port_self]
      rcases hdeadline with hd | ⟨ho, hd⟩
      · refine ⟨fun ho => ?_, fun hn => ?_⟩
        · rw [hd]; exact hopen (hstate ▸ ho)
        · rw [hd]; exact hshut (hstate ▸ hn)
      · exact ⟨fun _ => hd, fun hn => absurd ho hn⟩
    · obtain rfl := eq_peer_of_ne hqp; rw [State.setSession_port_peer]; exact hq
  | @opened p x _ _ ho hd _ e =>
    subst e
    by_cases hqp : q = p
    · subst hqp
      rw [State.setEvents_port_self, State.setSession_port_self]
      exact ⟨fun _ => hd, fun hn => absurd ho hn⟩
    · obtain rfl := eq_peer_of_ne hqp
      rw [State.setEvents_port_peer, State.setSession_port_peer]
      exact hq
  | @ended p st _ hst e =>
    subst e
    by_cases hqp : q = p
    · subst hqp
      simp only [State.clearEvents, State.endSession, State.setEvents_port_self, State.setSession_port_self]
      exact ⟨fun ho => absurd ho hst, fun _ => ⟨rfl, rfl, rfl⟩⟩
    · obtain rfl := eq_peer_of_ne hqp
      simpa [State.clearEvents, State.endSession] using hq
  | @unfenced p st _ hclosed hst e =>
    subst e
    by_cases hqp : q = p
    · subst hqp
      rw [State.endSession, State.setSession_port_self]
      exact ⟨fun ho => absurd ho hst, fun _ => ⟨rfl, (hq.2 hclosed).2⟩⟩
    · obtain rfl := eq_peer_of_ne hqp
      rw [State.endSession, State.setSession_port_peer]; exact hq
  | started _ _ e =>
    subst e
    obtain ⟨epoch, hport, -⟩ := started_port s q
    rw [hport]
    exact ⟨fun ho => (by cases ho), fun _ => ⟨rfl, rfl, rfl⟩⟩

/-- Settles O54: every move keeps the event units within their bounds and the ports without an OPEN session idle, and every
step is a sequence of moves. -/
theorem stepKeepsQueuesBounded : Obligations.StepKeepsQueuesBounded :=
  fun _ _ hstep => ⟨fun hs => step_keeps (fun _ _ _ => Move.keeps_queuesBounded) hs hstep,
    fun hs => step_keeps (fun _ _ _ => Move.keeps_closedPortsIdle) hs hstep⟩

/-! ## Epochs and the other port's front (O60) -/

/-- A command that may not move a port's epoch leaves it. -/
theorem Move.keeps_epoch {q : Port} (hq : m.epoch q = false) (h : Move m s t) :
    (t.port q).session.epoch = (s.port q).session.epoch := by
  cases h.ports with
  | kept k => rw [k.session]
  | @front p _ hpeer hsession _ =>
    by_cases hqp : q = p
    · subst hqp; rw [hsession]
    · obtain rfl := eq_peer_of_ne hqp; rw [hpeer]
  | @session p x _ _ hepoch _ _ e =>
    subst e
    by_cases hqp : q = p
    · subst hqp; rw [State.setSession_port_self]; exact hepoch
    · obtain rfl := eq_peer_of_ne hqp; rw [State.setSession_port_peer]
  | @opened p x _ hepoch _ _ _ e =>
    subst e
    by_cases hqp : q = p
    · subst hqp; rw [hq] at hepoch; cases hepoch
    · obtain rfl := eq_peer_of_ne hqp; rw [State.setEvents_port_peer, State.setSession_port_peer]
  | @ended p st _ _ e =>
    subst e
    by_cases hqp : q = p
    · subst hqp; simp [State.clearEvents, State.endSession]
    · obtain rfl := eq_peer_of_ne hqp; simp [State.clearEvents, State.endSession]
  | @unfenced p st _ _ _ e =>
    subst e
    by_cases hqp : q = p
    · subst hqp; simp [State.endSession]
    · obtain rfl := eq_peer_of_ne hqp; simp [State.endSession]
  | started _ hepoch e =>
    subst e
    obtain ⟨epoch, hport, hkept⟩ := started_port s q
    have hv : s.retentionValid = true := by
      by_contra hn
      rw [hepoch (by simpa using hn) q] at hq
      cases hq
    rw [hport]
    exact hkept hv

/-- The port's session, link state, PRST input, burst and SDO are as they were. -/
def SameFront (q : Port) (s t : State) : Prop :=
  (t.port q).session = (s.port q).session ∧ (t.port q).link = (s.port q).link
    ∧ (t.port q).prst = (s.port q).prst ∧ (t.port q).burst = (s.port q).burst ∧ (t.port q).sdo = (s.port q).sdo

theorem SameFront.of_port {q : Port} (h : t.port q = s.port q) : SameFront q s t := by
  rw [SameFront, h]
  exact ⟨rfl, rfl, rfl, rfl, rfl⟩

/-- A command that may not reach the front of a port leaves it. -/
theorem Move.keeps_front {q : Port} (hq : m.front q = false) (h : Move m s t) : SameFront q s t := by
  have away {p : Port} (hp : m.front p = true) : q = peer p :=
    eq_peer_of_ne fun e => by rw [e, hp] at hq; cases hq
  cases h.ports with
  | kept k => exact ⟨k.session q, k.link q, k.prst q, k.burst q, k.sdo q⟩
  | front hp hpeer => obtain rfl := away hp; exact .of_port hpeer
  | session hp _ _ _ _ e => obtain rfl := away hp; subst e; exact .of_port (by simp)
  | opened hp _ _ _ _ e => obtain rfl := away hp; subst e; exact .of_port (by simp)
  | ended hp _ e => obtain rfl := away hp; subst e; exact .of_port (by simp [State.clearEvents, State.endSession])
  | unfenced hp _ _ e => obtain rfl := away hp; subst e; exact .of_port (by simp [State.endSession])
  | started hp => rw [hp q] at hq; cases hq

theorem portOf_of_frame {c : Instr} {code : Byte} {r : Request} (h : c.frame? = some (code, r)) :
    portOf c = some r.port := by
  cases c <;> cases h <;> rfl

/-- Settles O60: the permit of a command names the ports whose epoch and front it may reach, and every move within the permit
leaves the others. -/
theorem portsKeepTheirOwnSessions : Obligations.PortsKeepTheirOwnSessions := by
  refine ⟨fun c s t p hexec hopen hstart => ?epochs, fun c s t code r hframe hexec => ?fronts⟩
  case epochs =>
    have hp : (permitOf c s.retentionValid).epoch p = false := by
      cases c with
      | openSession r => simpa [permitOf] using (hopen r rfl).symm
      | start pf a b => simp [permitOf, hstart pf a b rfl]
      | _ => rfl
    exact (exec_moves hexec).keeps (R := fun s t => (t.port p).session.epoch = (s.port p).session.epoch) (fun _ => rfl)
      (fun _ _ _ h k => k.trans h) fun _ _ => Move.keeps_epoch hp
  case fronts =>
    have hq : (permitOf c s.retentionValid).front (peer r.port) = false := by
      simp only [permitOf, portOf_of_frame hframe]
      simp
    refine (exec_moves hexec).keeps (R := SameFront (peer r.port)) (fun _ => ⟨rfl, rfl, rfl, rfl, rfl⟩) ?_
      fun _ _ => Move.keeps_front hq
    rintro _ _ _ ⟨a1, a2, a3, a4, a5⟩ ⟨b1, b2, b3, b4, b5⟩
    exact ⟨b1.trans a1, b2.trans a2, b3.trans a3, b4.trans a4, b5.trans a5⟩

end Sys2Proof.Machine
end

section
/-! PROOF. What the end of an intent or of an assignment leaves, whole but for the events. -/

namespace Sys2Proof.Machine

variable {s t : State}

/-! ## Changes that leave the difference in events as it is -/

theorem OnlyEvents.with_intents (h : OnlyEvents s t) (x : List (Slot (Option Intent))) :
    OnlyEvents { s with intents := x } { t with intents := x } where
  port := h.port
  stack := h.stack
  told := h.told
  shut := h.shut
  rest := congrArg (fun u : State => { u with intents := x }) h.rest

theorem OnlyEvents.with_assignments (h : OnlyEvents s t) (x : List (Slot (Option Assignment))) :
    OnlyEvents { s with assignments := x } { t with assignments := x } where
  port := h.port
  stack := h.stack
  told := h.told
  shut := h.shut
  rest := congrArg (fun u : State => { u with assignments := x }) h.rest

theorem OnlyEvents.setIntentCount (h : OnlyEvents s t) (p : Port) (n : Nat) :
    OnlyEvents (s.setIntentCount p n) (t.setIntentCount p n) where
  port q := by
    rw [State.setIntentCount, State.setIntentCount, State.port_setPort, State.port_setPort]
    split
    next => rw [h.port p]
    next => exact h.port q
  stack q := by
    rw [State.setIntentCount, State.setIntentCount, State.port_setPort, State.port_setPort]
    split
    next => exact h.stack p
    next => exact h.stack q
  told q := by
    rw [State.setIntentCount, State.setIntentCount, State.port_setPort, State.port_setPort]
    split
    next => exact h.told p
    next => exact h.told q
  shut q := by
    rw [State.setIntentCount, State.setIntentCount, State.port_setPort, State.port_setPort]
    split
    next => exact h.shut p
    next => exact h.shut q
  rest := by
    refine (congrArg (fun u : State => u.setIntentCount p n) h.rest).trans ?_
    cases p <;> rfl

theorem OnlyEvents.setAssignmentCount (h : OnlyEvents s t) (p : Port) (n : Nat) :
    OnlyEvents (s.setAssignmentCount p n) (t.setAssignmentCount p n) where
  port q := by
    rw [State.setAssignmentCount, State.setAssignmentCount, State.port_setPort, State.port_setPort]
    split
    next => rw [h.port p]
    next => exact h.port q
  stack q := by
    rw [State.setAssignmentCount, State.setAssignmentCount, State.port_setPort, State.port_setPort]
    split
    next => exact h.stack p
    next => exact h.stack q
  told q := by
    rw [State.setAssignmentCount, State.setAssignmentCount, State.port_setPort, State.port_setPort]
    split
    next => exact h.told p
    next => exact h.told q
  shut q := by
    rw [State.setAssignmentCount, State.setAssignmentCount, State.port_setPort, State.port_setPort]
    split
    next => exact h.shut p
    next => exact h.shut q
  rest := by
    refine (congrArg (fun u : State => u.setAssignmentCount p n) h.rest).trans ?_
    cases p <;> rfl

theorem OnlyEvents.intentCount (h : OnlyEvents s t) (p : Port) : (t.port p).intents = (s.port p).intents := by
  rw [h.port p]

theorem OnlyEvents.assignmentCount (h : OnlyEvents s t) (p : Port) : (t.port p).assignments = (s.port p).assignments := by
  rw [h.port p]

/-! ## The end of an intent (R56, R57) -/

/-- The state with an intent's slot FREE, its port's count lower by 1 and a record for its volume. -/
def State.intentGone (s : State) (slot : Nat) (i : Intent) (y : Volume) : State :=
  { (s.setVolume i.volume (some y)).setIntentCount i.port ((s.port i.port).intents - 1) with
    intents := hold s.intents slot none }

theorem OnlyEvents.freeIntent (h : OnlyEvents s t) {i : Intent} {x : Volume} (hx : s.volume? i.volume = some x) (slot : Nat) :
    OnlyEvents (s.intentGone slot i { x with openIntents := x.openIntents - 1 }) (t.freeIntent slot i) := by
  have hx' : t.volume? i.volume = some x := (h.volume? _).trans hx
  have o := ((h.setVolume i.volume (some { x with openIntents := x.openIntents - 1 })).setIntentCount i.port
    ((s.port i.port).intents - 1)).with_intents (hold s.intents slot none)
  simpa [State.intentGone, State.freeIntent, State.modVolume, hx', h.intentCount, h.intents] using o

theorem intentGone_setVolume (s : State) (slot : Nat) (i : Intent) (x y : Volume) :
    (s.setVolume i.volume (some x)).intentGone slot i y = s.intentGone slot i y := by
  simp [State.intentGone, setVolume_setVolume]

theorem setVolume_intentGone (s : State) (slot : Nat) (i : Intent) (x y : Volume) :
    (s.intentGone slot i x).setVolume i.volume (some y) = s.intentGone slot i y := by
  unfold State.intentGone State.setVolume State.setIntentCount
  cases i.port <;> simp [State.setPort, State.port]

/-- The record of a volume after the end of one of its intents by a rule, its rebuilds not yet completed. -/
def Volume.settledBy (x : Volume) (i : Intent) (rule : Volume → Intent → Nat → Extent → Extent) : Volume :=
  { Volume.recount { x with extents := mapExtents (rule x i) x.extents } with openIntents := x.openIntents - 1 }

/-- All that the end of an intent does before the rebuilds complete, and nothing else but events. -/
theorem settleIntent_gone {slot : Nat} {i : Intent} {x : Volume} (hi : s.intent? slot = some i)
    (hv : s.volume? i.volume = some x) (rule : Volume → Intent → Nat → Extent → Extent) :
    OnlyEvents (s.intentGone slot i (x.settledBy i rule)) (s.settleIntent slot rule) := by
  have o := (changeExtents_does hv (rule x i)).trans
    (raiseRepairPending_onlyEvents (s.changeExtents i.volume (rule x i)) i.volume (s.repairNeeded i.volume))
  have o := o.freeIntent (by rw [State.volume?_setVolume hv, if_pos rfl]) slot
  rw [intentGone_setVolume] at o
  rw [State.settleIntent, hi]
  dsimp only
  rw [hv]
  exact o

/-- Of an intent whose volume is ABSENT only the counts and the slot are left to settle. -/
theorem settleIntent_absent {slot : Nat} {i : Intent} (hi : s.intent? slot = some i) (hv : s.volume? i.volume = none)
    (rule : Volume → Intent → Nat → Extent → Extent) : s.settleIntent slot rule =
      { s.setIntentCount i.port ((s.port i.port).intents - 1) with intents := hold s.intents slot none } := by
  rw [State.settleIntent, hi]
  dsimp only
  rw [hv]
  simp [State.freeIntent, State.modVolume, hv]

theorem settleIntent_free {slot : Nat} (hi : s.intent? slot = none) (rule : Volume → Intent → Nat → Extent → Extent) :
    s.settleIntent slot rule = s := by
  rw [State.settleIntent, hi]

/-- All that the end of an intent does, and nothing else but events. -/
theorem endIntent_gone {slot : Nat} {i : Intent} {x : Volume} (hi : s.intent? slot = some i)
    (hv : s.volume? i.volume = some x) (rule : Volume → Intent → Nat → Extent → Extent) :
    ∃ y, (x.settledBy i rule).Settled y ∧ y.extents = (x.settledBy i rule).extents ∧
      OnlyEvents (s.intentGone slot i y) (s.endIntent slot rule) := by
  have o := settleIntent_gone hi hv rule
  have hx : (s.intentGone slot i (x.settledBy i rule)).volume? i.volume = some (x.settledBy i rule) := by
    rw [State.volume?_of_volumes (t := s.intentGone slot i (x.settledBy i rule))
      (s := s.setVolume i.volume (some (x.settledBy i rule))) (by simp [State.intentGone])]
    rw [State.volume?_setVolume hv, if_pos rfl]
  obtain ⟨y, settled, hextents, -, done⟩ := completeRebuilds_does ((o.volume? i.volume).trans hx)
  refine ⟨y, settled, hextents, ?_⟩
  rw [endIntent_settles hi]
  have o := o.setVolume i.volume (some y)
  rw [setVolume_intentGone] at o
  exact o.trans done

/-- The tables that the end of an intent leaves, and the sizes of the others. -/
theorem settleIntent_tables (s : State) (slot : Nat) (rule : Volume → Intent → Nat → Extent → Extent) :
    (s.settleIntent slot rule).waiters = s.waiters ∧ (s.settleIntent slot rule).arrival = s.arrival
    ∧ (s.settleIntent slot rule).assignments = s.assignments ∧ (s.settleIntent slot rule).pointer = s.pointer
    ∧ (s.settleIntent slot rule).intents.length = s.intents.length
    ∧ ∀ p, ((s.settleIntent slot rule).port p).assignments = (s.port p).assignments := by
  cases hi : s.intent? slot with
  | none => rw [settleIntent_free hi]; exact ⟨rfl, rfl, rfl, rfl, rfl, fun _ => rfl⟩
  | some i =>
    cases hv : s.volume? i.volume with
    | none =>
      rw [settleIntent_absent hi hv]
      exact ⟨by simp, by simp, by simp, by simp, by simp, fun p => by cases p <;> cases i.port <;> rfl⟩
    | some x =>
      have o := settleIntent_gone hi hv rule
      refine ⟨o.waiters.trans ?_, o.arrival.trans ?_, o.assignments.trans ?_, o.pointer.trans ?_,
        (congrArg List.length o.intents).trans ?_, fun p => (o.assignmentCount p).trans ?_⟩
      case refine_6 => cases p <;> cases hp : i.port <;> simp [State.intentGone, hp, State.setIntentCount, State.setPort,
        State.port]
      all_goals simp [State.intentGone]

/-! ## The end of an assignment (R94, R95) -/

/-- The state with an assignment's slot FREE, its port's count lower by 1 and a record for its volume. -/
def State.assignmentGone (s : State) (slot : Nat) (a : Assignment) (y : Volume) : State :=
  { (s.setVolume a.volume (some y)).setAssignmentCount a.port ((s.port a.port).assignments - 1) with
    assignments := hold s.assignments slot none }

theorem setVolume_assignmentGone (s : State) (slot : Nat) (a : Assignment) (x y : Volume) :
    (s.assignmentGone slot a x).setVolume a.volume (some y) = s.assignmentGone slot a y := by
  unfold State.assignmentGone State.setVolume State.setAssignmentCount
  cases a.port <;> simp [State.setPort, State.port]

/-- The record of a volume after the end of one of its assignments by a rule, its rebuilds not yet completed. -/
def Volume.repairedBy (x : Volume) (a : Assignment) (rule : Coherence → Coherence) : Volume :=
  Volume.recount { x with extents := mapExtents (endExtent a rule) x.extents }

/-- All that the end of an assignment does before the rebuilds complete, and nothing else but events. -/
theorem settleAssignment_gone {a : Assignment} {x : Volume} (slot : Nat) (hv : s.volume? a.volume = some x)
    (rule : Coherence → Coherence) :
    OnlyEvents (s.assignmentGone slot a (x.repairedBy a rule)) (s.settleAssignment slot a rule) := by
  have o := changeExtents_does hv (endExtent a rule)
  have freed := (o.setAssignmentCount a.port ((s.port a.port).assignments - 1)).with_assignments
    (hold s.assignments slot none)
  have e : ((s.changeExtents a.volume (endExtent a rule)).freeAssignment slot a) =
      { (s.changeExtents a.volume (endExtent a rule)).setAssignmentCount a.port ((s.port a.port).assignments - 1) with
        assignments := hold s.assignments slot none } := by
    simp [State.freeAssignment, o.assignmentCount, o.assignments]
  rw [← e] at freed
  exact freed.trans (raiseRepairPending_onlyEvents _ _ _)

/-- Of an assignment whose volume is ABSENT only the count and the slot are left to settle. -/
theorem settleAssignment_absent {a : Assignment} (slot : Nat) (hv : s.volume? a.volume = none)
    (rule : Coherence → Coherence) : s.settleAssignment slot a rule = s.freeAssignment slot a := by
  have hn : (s.freeAssignment slot a).volume? a.volume = none :=
    (State.volume?_of_volumes (freeAssignment_fields s slot a).1 _).trans hv
  simp [State.settleAssignment, changeExtents_absent hv, State.raiseRepairPending, State.repairNeeded, hn, hv]

/-- All that the end of an assignment does, and nothing else but events. -/
theorem endAssignment_gone {a : Assignment} {x : Volume} (slot : Nat) (hv : s.volume? a.volume = some x)
    (rule : Coherence → Coherence) :
    ∃ y, (x.repairedBy a rule).Settled y ∧ y.extents = (x.repairedBy a rule).extents ∧
      OnlyEvents (s.assignmentGone slot a y) (s.endAssignment slot a rule) := by
  have o := settleAssignment_gone slot hv rule
  have hx : (s.assignmentGone slot a (x.repairedBy a rule)).volume? a.volume = some (x.repairedBy a rule) := by
    rw [State.volume?_of_volumes (t := s.assignmentGone slot a (x.repairedBy a rule))
      (s := s.setVolume a.volume (some (x.repairedBy a rule))) (by simp [State.assignmentGone])]
    rw [State.volume?_setVolume hv, if_pos rfl]
  obtain ⟨y, settled, hextents, -, done⟩ := completeRebuilds_does ((o.volume? a.volume).trans hx)
  refine ⟨y, settled, hextents, ?_⟩
  have o := o.setVolume a.volume (some y)
  rw [setVolume_assignmentGone] at o
  exact o.trans done

/-- The tables that the end of an assignment leaves. -/
theorem settleAssignment_tables (s : State) (slot : Nat) (a : Assignment) (rule : Coherence → Coherence) :
    (s.settleAssignment slot a rule).intents = s.intents ∧ (s.settleAssignment slot a rule).waiters = s.waiters
    ∧ (s.settleAssignment slot a rule).arrival = s.arrival ∧ (s.settleAssignment slot a rule).pointer = s.pointer
    ∧ (s.settleAssignment slot a rule).assignments = hold s.assignments slot none
    ∧ (∀ p, ((s.settleAssignment slot a rule).port p).intents = (s.port p).intents)
    ∧ ∀ p, ((s.settleAssignment slot a rule).port p).assignments
        = if p = a.port then (s.port p).assignments - 1 else (s.port p).assignments := by
  cases hv : s.volume? a.volume with
  | none =>
    rw [settleAssignment_absent slot hv]
    refine ⟨?_, ?_, ?_, ?_, ?_, fun p => ?_, fun p => ?_⟩
    case refine_6 => cases p <;> cases hp : a.port <;> simp [State.freeAssignment, hp, State.setAssignmentCount,
      State.setPort, State.port]
    case refine_7 => cases p <;> cases hp : a.port <;> simp [State.freeAssignment, hp, State.setAssignmentCount,
      State.setPort, State.port]
    all_goals simp [State.freeAssignment]
  | some x =>
    have o := settleAssignment_gone slot hv rule
    refine ⟨o.intents.trans ?_, o.waiters.trans ?_, o.arrival.trans ?_, o.pointer.trans ?_, o.assignments.trans ?_,
      fun p => (o.intentCount p).trans ?_, fun p => (o.assignmentCount p).trans ?_⟩
    case refine_6 => cases p <;> cases hp : a.port <;> simp [State.assignmentGone, hp, State.setAssignmentCount,
      State.setPort, State.port]
    case refine_7 => cases p <;> cases hp : a.port <;> simp [State.assignmentGone, hp, State.setAssignmentCount,
      State.setPort, State.port]
    all_goals simp [State.assignmentGone]

/-- The ports' counts of intents after the end of an intent. -/
theorem settleIntent_counts {slot : Nat} {i : Intent} (hi : s.intent? slot = some i)
    (rule : Volume → Intent → Nat → Extent → Extent) (p : Port) : ((s.settleIntent slot rule).port p).intents
      = if p = i.port then (s.port p).intents - 1 else (s.port p).intents := by
  cases hv : s.volume? i.volume with
  | none =>
    rw [settleIntent_absent hi hv]
    cases p <;> cases hp : i.port <;> simp [State.setIntentCount, State.setPort, State.port]
  | some x =>
    rw [(settleIntent_gone hi hv rule).intentCount p]
    cases p <;> cases hp : i.port <;> simp [State.intentGone, hp, State.setIntentCount, State.setPort, State.port]

/-- The intent table after the end of an intent. -/
theorem settleIntent_intents {slot : Nat} {i : Intent} (hi : s.intent? slot = some i)
    (rule : Volume → Intent → Nat → Extent → Extent) : (s.settleIntent slot rule).intents = hold s.intents slot none := by
  cases hv : s.volume? i.volume with
  | none => rw [settleIntent_absent hi hv]
  | some x => rw [(settleIntent_gone hi hv rule).intents]; rfl

end Sys2Proof.Machine
end

section
/-! PROOF. Runs in the extent store (R7), the wait list's order and the sizes of the tables. -/

namespace Sys2Proof.Machine

variable {m : Permit} {s t : State}

/-! ## Runs in the order of their slots (R7) -/

theorem mem_insertRun {r q : Nat × Nat} {l : List (Nat × Nat)} : q ∈ insertRun r l ↔ q = r ∨ q ∈ l := by
  induction l with
  | nil => simp [insertRun]
  | cons a l ih =>
    rw [insertRun]
    split
    next => simp
    next => simp only [List.mem_cons, ih]; tauto

theorem insertRun_sorted {r : Nat × Nat} {l : List (Nat × Nat)} (h : l.Pairwise fun a b => a.1 ≤ b.1) :
    (insertRun r l).Pairwise fun a b => a.1 ≤ b.1 := by
  induction l with
  | nil => exact List.pairwise_singleton _ _
  | cons a l ih =>
    obtain ⟨hfirst, hrest⟩ := List.pairwise_cons.1 h
    rw [insertRun]
    split
    next hle =>
      refine List.pairwise_cons.2 ⟨fun b hb => ?_, h⟩
      rcases List.mem_cons.1 hb with rfl | hb
      · exact hle
      · exact hle.trans (hfirst b hb)
    next hlt =>
      refine List.pairwise_cons.2 ⟨fun b hb => ?_, ih hrest⟩
      rcases mem_insertRun.1 hb with rfl | hb
      · omega
      · exact hfirst b hb

theorem foldr_insertRun (l : List (Nat × Nat)) : (l.foldr insertRun []).Pairwise (fun a b => a.1 ≤ b.1)
    ∧ ∀ q, q ∈ l.foldr insertRun [] ↔ q ∈ l := by
  induction l with
  | nil => exact ⟨.nil, fun _ => Iff.rfl⟩
  | cons r l ih =>
    obtain ⟨hsorted, hmem⟩ := ih
    refine ⟨insertRun_sorted hsorted, fun q => ?_⟩
    rw [List.foldr_cons, mem_insertRun, hmem, List.mem_cons]

theorem runs_sorted (s : State) : s.runs.Pairwise fun a b => a.1 ≤ b.1 := (foldr_insertRun _).1

theorem mem_volumes {x : Volume} : some x ∈ s.volumes ↔ ∃ v, s.volume? v = some x := by
  rw [List.mem_iff_getElem?]
  refine exists_congr fun v => ?_
  rw [State.volume?]
  cases s.volumes[v]? with
  | none => simp
  | some o => simp

/-- The runs are those of the present volumes. -/
theorem mem_runs {q : Nat × Nat} : q ∈ s.runs ↔ ∃ v x, s.volume? v = some x ∧ x.run = q := by
  rw [State.runs, (foldr_insertRun _).2, List.mem_filterMap]
  constructor
  · rintro ⟨o, ho, hq⟩
    obtain ⟨x, rfl, rfl⟩ := Option.map_eq_some_iff.1 hq
    obtain ⟨v, hv⟩ := mem_volumes.1 ho
    exact ⟨v, x, hv, rfl⟩
  · rintro ⟨v, x, hv, rfl⟩
    exact ⟨some x, mem_volumes.2 ⟨v, hv⟩, rfl⟩

/-- A run of `n` slots at `base` meets none of the runs of a list. -/
def ClearOf (l : List (Nat × Nat)) (n base : Nat) : Prop := ∀ q ∈ l, base + n ≤ q.1 ∨ q.1 + q.2 ≤ base

/-- The search for a gap finds the lowest place from its start at which a run fits, and none only where none fits (R7). -/
theorem firstGap_spec (n : Nat) {l : List (Nat × Nat)} (hsorted : l.Pairwise fun a b => a.1 ≤ b.1)
    (hinside : ∀ q ∈ l, q.1 + q.2 ≤ 131072) (start : Nat) :
    match firstGap n start l with
    | some base => start ≤ base ∧ base + n ≤ 131072 ∧ ClearOf l n base
        ∧ ∀ b, start ≤ b → b < base → ¬ ClearOf l n b
    | none => ∀ b, start ≤ b → b + n ≤ 131072 → ¬ ClearOf l n b := by
  induction l generalizing start with
  | nil =>
    by_cases h : start + n ≤ Config.extentSlots
    · rw [firstGap, if_pos h]
      exact ⟨le_rfl, h, fun _ hq => (by cases hq), fun b h1 h2 => by omega⟩
    · rw [firstGap, if_neg h]
      have h : ¬ start + n ≤ 131072 := h
      exact fun b h1 h2 => by omega
  | cons r l ih =>
    obtain ⟨hfirst, hrest⟩ := List.pairwise_cons.1 hsorted
    have hr := hinside r List.mem_cons_self
    by_cases h : start + n ≤ r.1
    · rw [firstGap, if_pos h]
      refine ⟨le_rfl, by omega, fun q hq => .inl ?_, fun b h1 h2 => by omega⟩
      rcases List.mem_cons.1 hq with rfl | hq
      · exact h
      · exact h.trans (hfirst q hq)
    · rw [firstGap, if_neg h]
      have low (b : Nat) (h1 : start ≤ b) (h2 : b < max start (r.1 + r.2)) : ¬ ClearOf (r :: l) n b := fun hb => by
        have := hb r List.mem_cons_self
        omega
      have spec := ih hrest (fun q hq => hinside q (List.mem_cons_of_mem _ hq)) (max start (r.1 + r.2))
      cases hgap : firstGap n (max start (r.1 + r.2)) l with
      | some base =>
        rw [hgap] at spec
        obtain ⟨hstart, hend, hclear, hlowest⟩ := spec
        refine ⟨by omega, hend, fun q hq => ?_, fun b h1 h2 hb => ?_⟩
        · rcases List.mem_cons.1 hq with rfl | hq
          · exact .inr (by omega)
          · exact hclear q hq
        · by_cases hlow : b < max start (r.1 + r.2)
          · exact low b h1 hlow hb
          · exact hlowest b (by omega) h2 fun q hq => hb q (List.mem_cons_of_mem _ hq)
      | none =>
        rw [hgap] at spec
        intro b h1 h2 hb
        by_cases hlow : b < max start (r.1 + r.2)
        · exact low b h1 hlow hb
        · exact spec b (by omega) h2 fun q hq => hb q (List.mem_cons_of_mem _ hq)

theorem clearOf_runs {n base : Nat} : ClearOf s.runs n base ↔
    ∀ v x, s.volume? v = some x → base + n ≤ x.slotBase ∨ x.slotBase + x.extentCount ≤ base := by
  constructor
  · exact fun h v x hx => h x.run (mem_runs.2 ⟨v, x, hx, rfl⟩)
  · intro h q hq
    obtain ⟨v, x, hx, rfl⟩ := mem_runs.1 hq
    exact h v x hx

theorem runs_inside (hs : RunsDisjoint s) : ∀ q ∈ s.runs, q.1 + q.2 ≤ 131072 := by
  intro q hq
  obtain ⟨v, x, hx, rfl⟩ := mem_runs.1 hq
  exact (hs.1 v x hx).2

/-- Settles O21: the search runs along the runs in the order of their slots. -/
theorem placementIsFirstFit : Obligations.PlacementIsFirstFit := by
  intro s n hs fits
  have spec := firstGap_spec n (runs_sorted s) (runs_inside hs) 0
  refine ⟨fun base hbase => ?_, fun hnone b hb => ?_⟩
  · rw [hbase] at spec
    obtain ⟨-, hend, hclear, hlowest⟩ := spec
    exact ⟨⟨hend, clearOf_runs.1 hclear⟩, fun b hlt hfits => hlowest b (Nat.zero_le _) hlt (clearOf_runs.2 hfits.2)⟩
  · rw [hnone] at spec
    exact spec b (Nat.zero_le _) hb.1 (clearOf_runs.2 hb.2)

/-! ## Runs stay disjoint (O57) -/

theorem extentCountOf_pos {n : Nat} (hn : n ≠ 0) (k : Nat) : 0 < extentCountOf n k := by
  have hk : 0 < 2 ^ k := Nat.two_pow_pos k
  exact Nat.div_pos (by omega) hk

/-- Where every volume present after has the run of the same volume before, disjoint runs stay disjoint. -/
theorem RunsDisjoint.of_absence (hs : RunsDisjoint s) (h : KeepsAbsence s t) : RunsDisjoint t := by
  have run (v : Nat) (y : Volume) (hy : t.volume? v = some y) :
      ∃ x, s.volume? v = some x ∧ y.slotBase = x.slotBase ∧ y.extentCount = x.extentCount := by
    obtain ⟨x, hx, e⟩ := h v y hy
    simp only [Volume.geometry, Prod.mk.injEq] at e
    exact ⟨x, hx, e.2.2.2, e.2.2.1⟩
  refine ⟨fun v y hy => ?_, fun v w y z hvw hy hz => ?_⟩
  · obtain ⟨x, hx, hbase, hcount⟩ := run v y hy
    rw [hbase, hcount]
    exact hs.1 v x hx
  · obtain ⟨x, hx, hbase, hcount⟩ := run v y hy
    obtain ⟨x', hx', hbase', hcount'⟩ := run w z hz
    rw [hbase, hcount, hbase', hcount']
    exact hs.2 v w x x' hvw hx hx'

theorem Move.keeps_runsDisjoint (h : Move m s t) (hs : RunsDisjoint s) : RunsDisjoint t := by
  rcases h.volumes.absence with k | ⟨v, base, n, k, st, ha, hb, -, hv, hn, hgap, e⟩
  · exact hs.of_absence k
  · have spec := firstGap_spec (extentCountOf n k) (runs_sorted s) (runs_inside hs) 0
    rw [hgap] at spec
    obtain ⟨-, hend, hclear, -⟩ := spec
    have hclear := clearOf_runs.1 hclear
    have read (w : Nat) (y : Volume) (hy : t.volume? w = some y) :
        (w = v ∧ y.slotBase = base ∧ y.extentCount = extentCountOf n k) ∨ (w ≠ v ∧ s.volume? w = some y) := by
      rw [volume?_set e] at hy
      split at hy
      next hw => cases hy; exact .inl ⟨hw.1, rfl, rfl⟩
      next hw => exact .inr ⟨fun hwv => (by subst hwv; rw [hv] at hy; cases hy), hy⟩
    refine ⟨fun w y hy => ?_, fun w w' y z hne hy hz => ?_⟩
    · rcases read w y hy with ⟨-, hbase, hcount⟩ | ⟨-, hy⟩
      · rw [hbase, hcount]
        exact ⟨extentCountOf_pos hn k, hend⟩
      · exact hs.1 w y hy
    · rcases read w y hy with ⟨rfl, hbase, hcount⟩ | ⟨-, hy⟩
      · rcases read w' z hz with ⟨rfl, -, -⟩ | ⟨-, hz⟩
        · exact absurd rfl hne
        · rw [hbase, hcount]
          exact hclear w' z hz
      · rcases read w' z hz with ⟨rfl, hbase, hcount⟩ | ⟨-, hz⟩
        · rw [hbase, hcount]
          exact (hclear w y hy).symm
        · exact hs.2 w w' y z hne hy hz

/-! ## The wait list's order (O57) -/

/-- The wait list is as it was and no volume is gone. -/
theorem ArrivalAgrees.of_same (hs : ArrivalAgrees s) (ha : t.arrival = s.arrival) (hw : t.waiters = s.waiters)
    (hv : ∀ v, (s.volume? v).isSome → (t.volume? v).isSome) : ArrivalAgrees t := by
  obtain ⟨hnodup, hmem, hpresent⟩ := hs
  refine ⟨by rw [ha]; exact hnodup, fun w => ?_, fun w x hx => ?_⟩
  · rw [ha, State.waiter?_of_waiters hw]
    exact hmem w
  · rw [State.waiter?_of_waiters hw] at hx
    exact hv _ (hpresent w x hx)

/-- With no waiter in the order nothing waits. -/
theorem ArrivalAgrees.of_empty (ha : t.arrival = []) (hw : ∀ w, t.waiter? w = none) : ArrivalAgrees t := by
  refine ⟨by rw [ha]; exact .nil, fun w => ?_, fun w x hx => ?_⟩
  · rw [ha, hw]; simp
  · rw [hw] at hx; cases hx

/-- Where some waiters have left slots and order alike, and no volume of one that stays is gone. -/
theorem ArrivalAgrees.of_fewer (hs : ArrivalAgrees s) {stays : Nat → Bool} (ha : t.arrival = s.arrival.filter stays)
    (hw : ∀ w, t.waiter? w = if stays w then s.waiter? w else none)
    (hv : ∀ w x, s.waiter? w = some x → stays w = true → (s.volume? x.volume).isSome → (t.volume? x.volume).isSome) :
    ArrivalAgrees t := by
  obtain ⟨hnodup, hmem, hpresent⟩ := hs
  refine ⟨by rw [ha]; exact hnodup.filter _, fun w => ?_, fun w x hx => ?_⟩
  · rw [ha, List.mem_filter, hmem, hw]
    cases stays w <;> simp
  · rw [hw] at hx
    split at hx
    next hstays => exact hv w x hx hstays (hpresent w x hx)
    next => cases hx

theorem waiterEntry_eq (s : State) (k : Nat) : s.waiterEntry k = (s.waiters[k]?.map Slot.held).getD .vacant := by
  rw [State.waiterEntry]
  cases s.waiters[k]? <;> rfl

theorem waiterEntry_hold (w k : Nat) (e : WaiterEntry) (arrival : List Nat) :
    State.waiterEntry { s with waiters := hold s.waiters w e, arrival := arrival } k
      = if k = w ∧ w < s.waiters.length then e else s.waiterEntry k := by
  simp only [State.waiterEntry]
  by_cases hk : k = w
  · subst hk
    by_cases hl : k < s.waiters.length
    · rw [hold_getElem?_self hl, if_pos ⟨rfl, hl⟩]
    · simp [hold, hl]
  · rw [hold_getElem?_ne _ hk, if_neg fun h => hk h.1]

/-- Where a slot is no longer WAITING, no other waiter is touched. -/
theorem waiter?_hold {w : Nat} {e : WaiterEntry} (he : ∀ x, e ≠ .waiting x) (arrival : List Nat) (k : Nat) :
    State.waiter? { s with waiters := hold s.waiters w e, arrival := arrival } k = if k = w then none else s.waiter? k := by
  by_cases hk : k = w
  · subst hk
    by_cases hl : k < s.waiters.length
    · cases e with
      | waiting x => exact absurd rfl (he x)
      | vacant | granted => simp [State.waiter?, waiterEntry_hold, hl]
    · simp [State.waiter?, State.waiterEntry, hold, hl]
  · simp [State.waiter?, waiterEntry_hold, hk]

/-- A waiter of another port stays through the removal of a port's waiters. -/
theorem waiter?_removeWaitersOf (s : State) (p : Port) (k : Nat) :
    (s.removeWaitersOf p).waiter? k = if !(s.waiterEntry k).ownedBy p then s.waiter? k else none := by
  have e : (s.removeWaitersOf p).waiterEntry k
      = if (s.waiterEntry k).ownedBy p then .vacant else s.waiterEntry k := by
    rw [waiterEntry_eq, waiterEntry_eq, State.removeWaitersOf, List.getElem?_map, Option.map_map]
    rcases s.waiters[k]? with _ | z
    · rfl
    · exact apply_ite Slot.held ..
  rw [State.waiter?, e]
  cases (s.waiterEntry k).ownedBy p <;> rfl

theorem waiter?_queueWaiter {w : Nat} {x : Waiter} (hw : w < s.waiters.length) (k : Nat) :
    (s.queueWaiter w x).waiter? k = if k = w then some x else s.waiter? k := by
  simp only [State.waiter?, State.waiterEntry, State.queueWaiter]
  by_cases hk : k = w
  · subst hk; simp [place_getElem?_self hw]
  · simp [place_getElem?_ne _ hk, hk]

theorem present_of_volumes (h : t.volumes = s.volumes) (v : Nat) (hv : (s.volume? v).isSome) : (t.volume? v).isSome := by
  rwa [State.volume?_of_volumes h]

theorem present_of_set {v : Nat} {y : Volume} (h : t.volumes = s.volumes.set v (some y)) (w : Nat)
    (hw : (s.volume? w).isSome) : (t.volume? w).isSome := by
  rw [volume?_set h]
  split
  next => rfl
  next => exact hw

/-- The tables that a new assignment leaves. -/
theorem createAssignment_tables (s : State) (slot : Nat) (a : Assignment) (x : Volume) :
    (s.createAssignment slot a x).volumes = s.volumes.set a.volume (some { x with
      extents := mapExtents (linkExtent slot a) x.extents, cursor := cursorAfter x a.extent })
    ∧ (s.createAssignment slot a x).intents = s.intents ∧ (s.createAssignment slot a x).waiters = s.waiters
    ∧ (s.createAssignment slot a x).arrival = s.arrival ∧ (s.createAssignment slot a x).pointer = s.pointer
    ∧ (s.createAssignment slot a x).assignments = place s.assignments slot (some a) := by
  simp [State.createAssignment, State.setVolume]

theorem Move.keeps_arrivalAgrees (h : Move m s t) (hs : ArrivalAgrees s) : ArrivalAgrees t := by
  cases h with
  | front | settle | session | opened | ended | unfenced | served | timed =>
    exact hs.of_same (by simp [State.endSession, State.clearEvents]) (by simp [State.endSession, State.clearEvents])
      (present_of_volumes (by simp [State.endSession, State.clearEvents]))
  | @raised p k sub val _ =>
    have o := raise_onlyEvents s p k sub val
    exact hs.of_same o.arrival o.waiters (present_of_volumes o.volumes)
  | @queued w x hfree hw hx =>
    obtain ⟨hnodup, hmem, hpresent⟩ := hs
    have hout : w ∉ s.arrival := fun hin => by rw [hmem, hfree] at hin; cases hin
    refine ⟨List.nodup_append.2 ⟨hnodup, List.nodup_singleton w, ?_⟩, fun k => ?_, fun k y hy => ?_⟩
    · rintro a ha b hb rfl
      exact hout (List.mem_singleton.1 hb ▸ ha)
    · rw [waiter?_queueWaiter hw, State.queueWaiter, List.mem_append, List.mem_singleton, hmem]
      by_cases hk : k = w <;> simp [hk]
    · rw [waiter?_queueWaiter hw] at hy
      split at hy
      next => cases hy; exact hx
      next => exact hpresent k y hy
  | @left w e he =>
    refine hs.of_fewer (stays := (· ≠ w)) rfl (fun k => ?_) fun _ _ _ _ hv => hv
    rw [waiter?_hold he]
    by_cases hk : k = w <;> simp [hk]
  | leftOf p => exact hs.of_fewer rfl (waiter?_removeWaitersOf s p) fun _ _ _ _ hv => hv
  | record => exact hs.of_same rfl rfl (present_of_set rfl)
  | reports | pointed => exact hs.of_same rfl rfl (present_of_volumes rfl)
  | granted _ hx => exact hs.of_same (grant_arrival _ _ _) (grant_waiters _ _ _) (present_of_set (grant_volumes hx))
  | @settled slot rule _ =>
    obtain ⟨hw, ha, -⟩ := settleIntent_tables s slot rule
    rcases settleIntent_volumes s slot rule with e | ⟨i, x, -, hx, e⟩
    · exact hs.of_same ha hw (present_of_volumes e)
    · exact hs.of_same ha hw (present_of_set e)
  | @revoked slot a rule _ =>
    obtain ⟨-, hw, ha, -⟩ := settleAssignment_tables s slot a rule
    refine hs.of_same ha hw fun v hv => ?_
    cases hx : s.volume? a.volume with
    | none => exact present_of_volumes (by rw [settleAssignment_volumes, changeExtents_absent hx]) v hv
    | some x => exact present_of_set (by rw [settleAssignment_volumes, changeExtents_volumes hx]) v hv
  | assigned =>
    obtain ⟨hv, -, hw, ha, -⟩ := createAssignment_tables s _ _ _
    exact hs.of_same ha hw (present_of_set hv)
  | retired => exact hs.of_same rfl rfl (present_of_set rfl)
  | made => exact hs.of_same rfl rfl (present_of_set rfl)
  | @deleted v _ _ _ _ hwait =>
    have hwaits : ∀ w x, s.waiter? w = some x → x.volume ≠ v := by
      intro w x hx hv
      have hin : w ∈ s.arrival := (hs.2.1 w).2 (by rw [hx]; rfl)
      have hout := List.any_eq_false.1 hwait w hin
      rw [hx] at hout
      exact hout (by simpa using hv)
    refine hs.of_fewer (stays := fun _ => true) (by simp) (fun w => by simp) fun w x hx _ hv => ?_
    rw [volume?_set (s := s) (v := v) (o := none) rfl, if_neg fun e => hwaits w x hx e.1]
    exact hv
  | formatted _ _ harrival =>
    refine .of_empty harrival fun w => ?_
    by_contra hn
    have hin : w ∈ s.arrival := (hs.2.1 w).2 (Option.isSome_iff_ne_none.2 hn)
    rw [harrival] at hin
    cases hin
  | powered _ e => rw [e]; exact hs.of_same rfl rfl (present_of_volumes rfl)
  | started =>
    have hempty : ∀ b, (State.restoreArray { s.clearVolatile with retentionValid := b }).arrival = []
        ∧ (State.restoreArray { s.clearVolatile with retentionValid := b }).waiters
          = List.replicate Config.waiterSlots ⟨0, .vacant⟩ := by
      intro b
      cases b <;> exact ⟨rfl, rfl⟩
    obtain ⟨harrival, hwaiters⟩ := hempty s.retentionValid
    refine .of_empty harrival fun w => ?_
    have hvacant : s.clearVolatile.restoreArray.waiterEntry w = .vacant := by
      rw [waiterEntry_eq, show s.clearVolatile.restoreArray.waiters = _ from hwaiters, List.getElem?_replicate]
      split <;> rfl
    rw [State.waiter?, hvacant]

/-! ## The sizes of the tables (O57) -/

/-- What a grant leaves of the assignments and of the ports' counts of them. -/
theorem grant_keeps (s : State) (slot : Nat) (i : Intent) :
    (s.grant slot i).assignments = markOvertaken s.assignments i.volume i.touches
    ∧ ∀ p, ((s.grant slot i).port p).assignments = (s.port p).assignments := by
  rw [State.grant, State.modVolume]
  split <;> exact ⟨by simp, fun p => by cases p <;> cases i.port <;> rfl⟩

theorem VolumesMove.size (h : VolumesMove m s t) (hs : s.volumes.length = 16) : t.volumes.length = 16 := by
  cases h with
  | same e => rw [e, hs]
  | record _ _ e | made _ _ _ _ e | deleted _ e => rw [e, List.length_set, hs]
  | emptied _ e => rw [e, List.length_replicate]; rfl
  | warmed _ e => rw [e, List.length_map, hs]

theorem PortsMove.eventConfigs (h : PortsMove m s t) (hs : ∀ p, (s.port p).session.events.length = 11) (p : Port) :
    (t.port p).session.events.length = 11 := by
  cases h with
  | kept k => rw [k.session, hs]
  | @front q _ hpeer hsession _ =>
    by_cases hp : p = q
    · subst hp; rw [hsession, hs]
    · obtain rfl := eq_peer_of_ne hp; rw [hpeer, hs]
  | @session q x _ _ _ hevents _ e =>
    subst e
    by_cases hp : p = q
    · subst hp; rw [State.setSession_port_self]; exact hevents.trans (hs _)
    · obtain rfl := eq_peer_of_ne hp; rw [State.setSession_port_peer]; exact hs _
  | @opened q x _ _ _ _ hevents e =>
    subst e
    by_cases hp : p = q
    · subst hp; rw [State.setEvents_port_session, State.setSession_port_self]; exact hevents
    · obtain rfl := eq_peer_of_ne hp; rw [State.setEvents_port_session, State.setSession_port_peer]; exact hs _
  | @ended q st _ _ e =>
    subst e
    rw [State.clearEvents, State.setEvents_port_session, State.endSession]
    by_cases hp : p = q
    · subst hp; rw [State.setSession_port_self]; exact hs p
    · obtain rfl := eq_peer_of_ne hp; rw [State.setSession_port_peer]; exact hs _
  | @unfenced q st _ _ _ e =>
    subst e
    rw [State.endSession]
    by_cases hp : p = q
    · subst hp; rw [State.setSession_port_self]; exact hs p
    · obtain rfl := eq_peer_of_ne hp; rw [State.setSession_port_peer]; exact hs _
  | started _ _ e =>
    subst e
    obtain ⟨epoch, hport, -⟩ := started_port s p
    rw [hport]
    rfl

/-- The lengths of the intent, waiter and assignment tables, and the pointer. -/
def SlotsSized (s : State) : Prop :=
  s.intents.length = 192 ∧ s.waiters.length = 32 ∧ s.assignments.length = 32 ∧ s.pointer < 16

theorem SlotsSized.of_same (hs : SlotsSized s) (hi : t.intents.length = s.intents.length)
    (hw : t.waiters.length = s.waiters.length) (ha : t.assignments.length = s.assignments.length)
    (hp : t.pointer = s.pointer) : SlotsSized t := by
  obtain ⟨h1, h2, h3, h4⟩ := hs
  exact ⟨hi.trans h1, hw.trans h2, ha.trans h3, hp ▸ h4⟩

theorem Move.keeps_slotsSized (h : Move m s t) (hs : SlotsSized s) : SlotsSized t := by
  cases h with
  | front | settle | session | opened | ended | unfenced | served | timed | record | made | deleted =>
    exact hs.of_same (by simp [State.endSession, State.clearEvents]) (by simp [State.endSession, State.clearEvents])
      (by simp [State.endSession, State.clearEvents]) (by simp [State.endSession, State.clearEvents])
  | @raised p k sub val _ =>
    have o := raise_onlyEvents s p k sub val
    exact hs.of_same (by rw [o.intents]) (by rw [o.waiters]) (by rw [o.assignments]) o.pointer
  | queued => exact hs.of_same rfl (place_length _ _ _) rfl rfl
  | left => exact hs.of_same rfl (hold_length _ _ _) rfl rfl
  | leftOf => exact hs.of_same rfl (List.length_map _) rfl rfl
  | @reports ts hts =>
    exact hs.of_same (by simpa using congrArg List.length hts) rfl rfl rfl
  | @granted slot i _ hf =>
    have k := grant_grantsOnly hf i
    exact hs.of_same k.count (by rw [grant_waiters]) (by rw [(grant_keeps s slot i).1, markOvertaken, List.length_map]) k.pointer
  | @settled slot rule _ =>
    obtain ⟨hw, -, ha, hp, hi, -⟩ := settleIntent_tables s slot rule
    exact hs.of_same hi (by rw [hw]) (by rw [ha]) hp
  | @revoked slot a rule _ =>
    obtain ⟨hi, hw, -, hp, ha, -⟩ := settleAssignment_tables s slot a rule
    exact hs.of_same (by rw [hi]) (by rw [hw]) (by rw [ha, hold_length]) hp
  | assigned =>
    obtain ⟨-, hi, hw, -, hp, ha⟩ := createAssignment_tables s _ _ _
    exact hs.of_same (by rw [hi]) (by rw [hw]) (by rw [ha, place_length]) hp
  | pointed hv =>
    obtain ⟨h1, h2, h3, -⟩ := hs
    exact ⟨h1, h2, h3, hv⟩
  | retired => exact hs.of_same rfl rfl (List.length_map _) rfl
  | formatted =>
    obtain ⟨h1, h2, h3, -⟩ := hs
    exact ⟨h1, h2, h3, (by decide : 15 < 16)⟩
  | powered _ e => rw [e]; exact hs
  | started =>
    rw [State.restoreArray]
    split <;> exact ⟨List.length_replicate, List.length_replicate, List.length_replicate, (by decide : 15 < 16)⟩

theorem Move.keeps_tableSizes (h : Move m s t) (hs : TableSizes s) : TableSizes t := by
  obtain ⟨hv, hi, hw, ha, he, hp⟩ := hs
  obtain ⟨ki, kw, ka, kp⟩ := h.keeps_slotsSized ⟨hi, hw, ha, hp⟩
  exact ⟨h.volumes.size hv, ki, kw, ka, h.ports.eventConfigs he, kp⟩

/-- Settles O57: every move keeps the runs disjoint, the order of arrival true and the tables sized. -/
theorem stepKeepsTablesAgreeing : Obligations.StepKeepsTablesAgreeing :=
  fun _ _ hstep => ⟨fun hs => step_keeps (fun _ _ _ => Move.keeps_runsDisjoint) hs hstep,
    fun hs => step_keeps (fun _ _ _ => Move.keeps_arrivalAgrees) hs hstep,
    fun hs => step_keeps (fun _ _ _ => Move.keeps_tableSizes) hs hstep⟩

end Sys2Proof.Machine
end

section
/-! PROOF. Intents: no two of a volume share a block, and every count of them is true. -/

namespace Sys2Proof.Machine

variable {m : Permit} {s t : State}

/-! ## Tables of slots -/

theorem heldAt_place {α : Type} {l : List (Slot (Option α))} {k : Nat} (hk : k < l.length) (x : Option α) (j : Nat) :
    heldAt (place l k x) j = if j = k then x else heldAt l j := by
  unfold heldAt
  by_cases hj : j = k
  · subst hj; rw [place_getElem?_self hk, if_pos rfl]
  · rw [place_getElem?_ne _ hj, if_neg hj]

theorem heldAt_hold_none {α : Type} (l : List (Slot (Option α))) (k j : Nat) :
    heldAt (hold l k none) j = if j = k then none else heldAt l j := by
  unfold heldAt
  by_cases hj : j = k
  · subst hj
    by_cases hk : j < l.length
    · rw [hold_getElem?_self hk, if_pos rfl]
    · simp [hold, hk]
  · rw [hold_getElem?_ne _ hj, if_neg hj]

theorem heldAt_replicate {α : Type} (n k : Nat) (g : BitVec 8) :
    heldAt (List.replicate n (⟨g, none⟩ : Slot (Option α))) k = none := by
  rw [heldAt, List.getElem?_replicate]
  split
  next h => split at h <;> cases h; rfl
  next => rfl

theorem heldAt_lt {α : Type} {l : List (Slot (Option α))} {k : Nat} {a : α} (h : heldAt l k = some a) : k < l.length := by
  obtain ⟨x, hx, -⟩ := heldAt_some h
  exact (List.getElem?_eq_some_iff.1 hx).1

/-- How many slots of a table hold a record that a test picks. -/
def countHeld {α : Type} (l : List (Slot (Option α))) (sel : α → Bool) : Nat := l.countP fun x => x.held.any sel

theorem countIntents_eq (s : State) (sel : Intent → Bool) : s.countIntents sel = countHeld s.intents sel := by
  refine List.countP_congr fun x _ => ?_
  cases x.held <;> rfl

theorem getElem_of_heldAt {α : Type} {l : List (Slot (Option α))} {k : Nat} (hk : k < l.length) : l[k].held = heldAt l k := by
  rw [heldAt, List.getElem?_eq_getElem hk]

theorem countHeld_place {α : Type} {l : List (Slot (Option α))} {k : Nat} (hk : k < l.length) (hfree : heldAt l k = none)
    (a : α) (sel : α → Bool) : countHeld (place l k (some a)) sel = countHeld l sel + if sel a then 1 else 0 := by
  rw [countHeld, place, List.countP_set hk, getElem_of_heldAt hk, hfree]
  rfl

theorem countHeld_hold {α : Type} {l : List (Slot (Option α))} {k : Nat} {a : α} (h : heldAt l k = some a)
    (sel : α → Bool) : countHeld l sel = countHeld (hold l k none) sel + if sel a then 1 else 0 := by
  have hk := heldAt_lt h
  rw [countHeld, countHeld, hold, List.countP_set hk, getElem_of_heldAt hk, h]
  simp only [Option.any_some, Option.any_none, Bool.false_eq_true, if_false, add_zero]
  split
  next hsel =>
    have : 0 < l.countP fun x => x.held.any sel :=
      List.countP_pos_iff.2 ⟨l[k], List.getElem_mem hk, by rw [getElem_of_heldAt hk, h]; exact hsel⟩
    omega
  next => rfl

theorem countHeld_replicate {α : Type} (n : Nat) (g : BitVec 8) (sel : α → Bool) :
    countHeld (List.replicate n (⟨g, none⟩ : Slot (Option α))) sel = 0 := by
  rw [countHeld, List.countP_eq_zero]
  intro x hx
  rw [(List.mem_replicate.1 hx).2]
  exact Bool.false_ne_true

theorem countHeld_eq_zero {α : Type} {l : List (Slot (Option α))} {sel : α → Bool} :
    countHeld l sel = 0 ↔ ∀ k a, heldAt l k = some a → sel a = false := by
  rw [countHeld, List.countP_eq_zero]
  constructor
  · intro h k a hk
    obtain ⟨x, hx, hheld⟩ := heldAt_some hk
    have := h x (List.mem_of_getElem? hx)
    rw [hheld] at this
    simpa using this
  · intro h x hx
    obtain ⟨k, hk⟩ := List.mem_iff_getElem?.1 hx
    cases hheld : x.held with
    | none => simp
    | some a => simpa using h k a (by rw [heldAt, hk]; exact hheld)

/-! ## The intent table after a move -/

/-- What the table says of the intents apart from their reports. -/
def claimsOf (l : List (Slot (Option Intent))) : List (Option (Port × Nat × Nat × Nat × Nat × Nat)) :=
  l.map fun z => z.held.map Intent.claim

theorem claimsOf_heldAt (l : List (Slot (Option Intent))) (k : Nat) :
    (heldAt l k).map Intent.claim = ((claimsOf l)[k]?).join := by
  rw [claimsOf, List.getElem?_map, heldAt]
  cases l[k]? <;> rfl

/-- An intent after a move of reports alone is one before, but for its reports. -/
theorem claim_of_same {l l' : List (Slot (Option Intent))} (h : claimsOf l' = claimsOf l) {k : Nat} {i : Intent}
    (hi : heldAt l' k = some i) : ∃ j, heldAt l k = some j ∧ j.claim = i.claim := by
  have e := claimsOf_heldAt l' k
  rw [h, ← claimsOf_heldAt l k, hi] at e
  exact Option.map_eq_some_iff.1 e.symm

/-- A count of intents that reads no report follows the claims. -/
theorem countHeld_of_claims {l l' : List (Slot (Option Intent))} (h : claimsOf l' = claimsOf l) {sel : Intent → Bool}
    (hsel : ∀ i j : Intent, i.claim = j.claim → sel i = sel j) : countHeld l' sel = countHeld l sel := by
  classical
  have e (z : List (Slot (Option Intent))) : countHeld z sel
      = (claimsOf z).countP fun c => decide (∃ i : Intent, c = some i.claim ∧ sel i = true) := by
    rw [claimsOf, List.countP_map, countHeld]
    refine List.countP_congr fun x _ => ?_
    rcases x with ⟨g, _ | i⟩
    · simp
    · simp only [Option.any_some, Function.comp_apply, Option.map_some, Option.some.injEq, decide_eq_true_eq]
      exact ⟨fun hi => ⟨i, rfl, hi⟩, fun ⟨j, hj, hjs⟩ => (hsel i j hj).trans hjs⟩
  rw [e, e, h]

/-- What a move can do to the intent table. -/
inductive IntentsMove (s t : State) : Prop where
  | same : claimsOf t.intents = claimsOf s.intents → IntentsMove s t
  | granted {slot : Nat} {i : Intent} : lowestFree s.intents = some slot →
      s.overlapsIntent i.volume i.firstBlock i.blockCount = false → t.intents = place s.intents slot (some i) →
      IntentsMove s t
  | settled {slot : Nat} : t.intents = hold s.intents slot none → IntentsMove s t
  | cleared : t.intents = List.replicate Config.intentSlots ⟨0, none⟩ → IntentsMove s t

theorem Move.intents (h : Move m s t) : IntentsMove s t := by
  cases h with
  | front | settle | session | opened | ended | unfenced | served | timed | record | made | deleted | queued | left
  | leftOf | pointed | formatted | retired => exact .same (by simp [State.endSession, State.clearEvents,
      State.queueWaiter, State.removeWaitersOf])
  | @raised p k sub val _ => exact .same (by rw [(raise_onlyEvents s p k sub val).intents])
  | reports hts => exact .same hts
  | granted hf _ hclear => exact .granted hf hclear (grant_intents _ _ _)
  | @settled slot rule _ =>
    cases hi : s.intent? slot with
    | none => exact .same (by rw [settleIntent_free hi])
    | some i => exact .settled (settleIntent_intents hi rule)
  | @revoked slot a rule _ => exact .same (by rw [(settleAssignment_tables s slot a rule).1])
  | assigned => exact .same (by rw [(createAssignment_tables s _ _ _).2.1])
  | powered _ e => exact .same (by rw [e])
  | started =>
    refine .cleared ?_
    rw [State.restoreArray]
    split <;> rfl

/-! ## No two intents share a block (O55) -/

theorem overlap_comm (f c g d : Nat) : overlap f c g d = overlap g d f c := Bool.and_comm _ _

theorem overlapsIntent_false {v first count : Nat} (h : s.overlapsIntent v first count = false) {slot : Nat} {i : Intent}
    (hi : s.intent? slot = some i) (hv : i.volume = v) : overlap first count i.firstBlock i.blockCount = false := by
  obtain ⟨x, hx, hheld⟩ := heldAt_some hi
  have hno := List.any_eq_false.1 h x (List.mem_of_getElem? hx)
  rw [hheld] at hno
  simpa [hv] using hno

theorem Move.keeps_intentsDisjoint (h : Move m s t) (hs : IntentsDisjoint s) : IntentsDisjoint t := by
  intro a b i j hab hi hj hv
  cases h.intents with
  | same e =>
    obtain ⟨i', hi', ei⟩ := claim_of_same e hi
    obtain ⟨j', hj', ej⟩ := claim_of_same e hj
    simp only [Intent.claim, Prod.mk.injEq] at ei ej
    obtain ⟨-, eiv, eif, eic, -⟩ := ei
    obtain ⟨-, ejv, ejf, ejc, -⟩ := ej
    rw [← eif, ← eic, ← ejf, ← ejc]
    exact hs a b i' j' hab hi' hj' (by rw [eiv, ejv, hv])
  | @granted slot n hf hclear e =>
    obtain ⟨hlt, -, -⟩ := lowestFree_spec hf
    rw [State.intent?, e, heldAt_place hlt] at hi hj
    split at hi
    next ha =>
      cases hi
      rw [if_neg fun hb => hab (ha.trans hb.symm)] at hj
      exact overlapsIntent_false hclear hj hv.symm
    next ha =>
      split at hj
      next => cases hj; rw [overlap_comm]; exact overlapsIntent_false hclear hi hv
      next => exact hs a b i j hab hi hj hv
  | settled e =>
    rw [State.intent?, e, heldAt_hold_none] at hi hj
    split at hi
    next => cases hi
    next =>
      split at hj
      next => cases hj
      next => exact hs a b i j hab hi hj hv
  | cleared e => rw [State.intent?, e, heldAt_replicate] at hi; cases hi

/-! ## The counts of intents (O55) -/

/-- The volumes' counts of intents are as they were, and the volumes present too. -/
def OpenKept (s t : State) : Prop :=
  (∀ v, (s.volume? v).isSome → (t.volume? v).isSome) ∧ ∀ v y, t.volume? v = some y → ∃ x, s.volume? v = some x
    ∧ y.openIntents = x.openIntents ∧ y.extents.map Extent.openCount = x.extents.map Extent.openCount

theorem OpenKept.of_volumes (h : t.volumes = s.volumes) : OpenKept s t :=
  ⟨present_of_volumes h, fun v y hy => ⟨y, (State.volume?_of_volumes h v).symm.trans hy, rfl, rfl⟩⟩

theorem OpenKept.of_set {v : Nat} {x y : Volume} (hx : s.volume? v = some x) (h : t.volumes = s.volumes.set v (some y))
    (hopen : y.openIntents = x.openIntents) (hcounts : y.extents.map Extent.openCount = x.extents.map Extent.openCount) :
    OpenKept s t := by
  refine ⟨present_of_set h, fun w z hz => ?_⟩
  rw [volume?_set_present hx h] at hz
  split at hz
  next hw => subst hw; cases hz; exact ⟨x, hx, hopen, hcounts⟩
  next => exact ⟨z, hz, rfl, rfl⟩

theorem openCounts_of_marks {x y : Volume} (h : y.extents.map Extent.marks = x.extents.map Extent.marks) :
    y.extents.map Extent.openCount = x.extents.map Extent.openCount := by
  have e (z : Volume) : z.extents.map Extent.openCount = (z.extents.map Extent.marks).map Prod.fst := by
    rw [List.map_map]; rfl
  rw [e, e, h]

/-- A rule that leaves the open counts leaves those of the list. -/
theorem openCounts_mapExtents {f : Nat → Extent → Extent} (h : ∀ e y, (f e y).openCount = y.openCount) (xs : List Extent) :
    (mapExtents f xs).map Extent.openCount = xs.map Extent.openCount := by
  refine List.ext_getElem? fun e => ?_
  simp only [List.getElem?_map, mapExtents_getElem?, Option.map_map]
  congr 1
  funext y
  exact h e y

/-- Where no intent has come or gone and no count has moved, the counts still agree. -/
theorem OpenCountsAgree.of_kept (hs : OpenCountsAgree s) (hc : claimsOf t.intents = claimsOf s.intents)
    (hp : ∀ p, (t.port p).intents = (s.port p).intents) (hv : OpenKept s t) : OpenCountsAgree t := by
  obtain ⟨hports, hpresent, hvolumes⟩ := hs
  obtain ⟨present, kept⟩ := hv
  refine ⟨fun p => ?_, fun slot i hi => ?_, fun v y hy => ?_⟩
  · rw [hp, hports, countIntents_eq, countIntents_eq, countHeld_of_claims hc]
    intro i j e
    simp only [Intent.claim, Prod.mk.injEq] at e
    rw [e.1]
  · obtain ⟨j, hj, e⟩ := claim_of_same hc hi
    simp only [Intent.claim, Prod.mk.injEq] at e
    rw [← e.2.1]
    exact present _ (hpresent slot j hj)
  · obtain ⟨x, hx, hopen, hcounts⟩ := kept v y hy
    obtain ⟨hxopen, hxcounts⟩ := hvolumes v x hx
    refine ⟨?_, fun e z hz => ?_⟩
    · rw [hopen, hxopen, countIntents_eq, countIntents_eq, countHeld_of_claims hc]
      intro i j e
      simp only [Intent.claim, Prod.mk.injEq] at e
      rw [e.2.1]
    · have hcount : (x.extents[e]?).map Extent.openCount = some z.openCount := by
        rw [← List.getElem?_map, ← hcounts, List.getElem?_map, hz]; rfl
      obtain ⟨z', hz', ez⟩ := Option.map_eq_some_iff.1 hcount
      rw [← ez, hxcounts e z' hz', countIntents_eq, countIntents_eq, countHeld_of_claims hc]
      intro i j e
      simp only [Intent.claim, Prod.mk.injEq] at e
      simp only [Intent.touches, e]

theorem grant_count (s : State) (slot : Nat) (i : Intent) (p : Port) : ((s.grant slot i).port p).intents
    = (s.port p).intents + if p = i.port then 1 else 0 := by
  rw [State.grant, State.modVolume]
  split <;> cases p <;> cases hp : i.port <;> simp [State.setIntentCount, State.setPort, State.port]

/-- An intent that comes raises each count that it belongs to. -/
theorem OpenCountsAgree.of_granted (hs : OpenCountsAgree s) {slot : Nat} {i : Intent} {x : Volume}
    (hf : lowestFree s.intents = some slot) (hx : s.volume? i.volume = some x) : OpenCountsAgree (s.grant slot i) := by
  obtain ⟨hports, hpresent, hvolumes⟩ := hs
  obtain ⟨hlt, hfree, -⟩ := lowestFree_spec hf
  have count (sel : Intent → Bool) :
      (s.grant slot i).countIntents sel = s.countIntents sel + if sel i then 1 else 0 := by
    rw [countIntents_eq, countIntents_eq, grant_intents, countHeld_place hlt hfree]
  have hvol := grant_volumes (slot := slot) hx
  refine ⟨fun p => ?_, fun k j hj => ?_, fun v y hy => ?_⟩
  · rw [count, grant_count, hports]
    by_cases hp : p = i.port <;> simp [hp, eq_comm]
  · rw [State.intent?, grant_intents, heldAt_place hlt] at hj
    split at hj
    next => cases hj; exact present_of_set hvol _ (by rw [hx]; rfl)
    next => exact present_of_set hvol _ (hpresent k j hj)
  · rw [volume?_set_present hx hvol] at hy
    simp only [count]
    split at hy
    next hv =>
      subst hv
      cases hy
      obtain ⟨hopen, hcounts⟩ := hvolumes _ x hx
      refine ⟨by simp [hopen], fun e z hz => ?_⟩
      rw [mapExtents_getElem?] at hz
      obtain ⟨z', hz', rfl⟩ := Option.map_eq_some_iff.1 hz
      have hold := hcounts e z' hz'
      unfold grantExtent
      split
      next htouch => simp [htouch, hold]
      next htouch => simp [htouch, hold]
    next hv =>
      obtain ⟨hopen, hcounts⟩ := hvolumes v y hy
      have hne : ¬ i.volume = v := fun e => hv e.symm
      simp only [hne, decide_false, Bool.false_and, Bool.false_eq_true, if_false, add_zero]
      exact ⟨hopen, hcounts⟩

/-- An intent that goes lowers each count that it belongs to. -/
theorem OpenCountsAgree.of_settled (hs : OpenCountsAgree s) {slot : Nat} {i : Intent} (hi : s.intent? slot = some i)
    {rule : Volume → Intent → Nat → Extent → Extent}
    (hrule : ∀ x i e y, (rule x i e y).marks = (if i.touches e then y.openCount - 1 else y.openCount, y.link)) :
    OpenCountsAgree (s.settleIntent slot rule) := by
  obtain ⟨hports, hpresent, hvolumes⟩ := hs
  obtain ⟨x, hx⟩ := Option.isSome_iff_exists.1 (hpresent slot i hi)
  have count (sel : Intent → Bool) :
      s.countIntents sel = (s.settleIntent slot rule).countIntents sel + if sel i then 1 else 0 := by
    rw [countIntents_eq, countIntents_eq, settleIntent_intents hi, countHeld_hold hi]
  have hvol : (s.settleIntent slot rule).volumes = s.volumes.set i.volume (some (x.settledBy i rule)) := by
    rw [(settleIntent_gone hi hx rule).volumes]
    simp [State.intentGone, State.setVolume]
  refine ⟨fun p => ?_, fun k j hj => ?_, fun v y hy => ?_⟩
  · rw [settleIntent_counts hi, hports, count]
    by_cases hp : p = i.port
    · simp [hp]
    · have : ¬ i.port = p := fun e => hp e.symm
      simp [hp, this]
  · rw [State.intent?, settleIntent_intents hi, heldAt_hold_none] at hj
    split at hj
    next => cases hj
    next => exact present_of_set hvol _ (hpresent k j hj)
  · rw [volume?_set_present hx hvol] at hy
    split at hy
    next hv =>
      subst hv
      cases hy
      obtain ⟨hopen, hcounts⟩ := hvolumes _ x hx
      refine ⟨?_, fun e z hz => ?_⟩
      · rw [count] at hopen
        simp only [decide_true, if_true] at hopen
        exact (congrArg (· - 1) hopen).trans (Nat.add_sub_cancel _ _)
      · have hz : (mapExtents (rule x i) x.extents)[e]? = some z := hz
        rw [mapExtents_getElem?] at hz
        obtain ⟨z', hz', rfl⟩ := Option.map_eq_some_iff.1 hz
        have hold := hcounts e z' hz'
        rw [count] at hold
        have hmarks := congrArg Prod.fst (hrule x i e z')
        simp only [Extent.marks] at hmarks
        rw [hmarks, hold]
        cases i.touches e <;> simp
    next hv =>
      obtain ⟨hopen, hcounts⟩ := hvolumes v y hy
      have hne : ¬ i.volume = v := fun e => hv e.symm
      simp only [count, hne, decide_false, Bool.false_and, Bool.false_eq_true, if_false, add_zero] at hopen hcounts
      exact ⟨hopen, hcounts⟩

/-- With no intent of a volume, every count of that volume's intents is 0. -/
theorem countIntents_zero {v : Nat} (h : ∀ k i, s.intent? k = some i → i.volume ≠ v) (sel : Intent → Bool) :
    s.countIntents (fun i => i.volume = v && sel i) = 0 := by
  rw [countIntents_eq, countHeld_eq_zero]
  intro k i hi
  simp [h k i hi]

theorem warmed_openCount {x : Volume} {e : Nat} {z : Extent} (h : x.warmed.extents[e]? = some z) : z.openCount = 0 := by
  have h : (x.extents.map (warmExtent x.copyA.health x.copyB.health))[e]? = some z := h
  rw [List.getElem?_map] at h
  obtain ⟨y, -, rfl⟩ := Option.map_eq_some_iff.1 h
  rfl

/-- A start leaves no intent and every count of them 0 (R165 to R167). -/
theorem openCountsAgree_started (s : State) : OpenCountsAgree s.clearVolatile.restoreArray := by
  have hintents : s.clearVolatile.restoreArray.intents = List.replicate Config.intentSlots ⟨0, none⟩ := by
    rw [State.restoreArray]
    split <;> rfl
  have hcount (sel : Intent → Bool) : s.clearVolatile.restoreArray.countIntents sel = 0 := by
    rw [countIntents_eq, hintents, countHeld_replicate]
  refine ⟨fun p => ?_, fun k i hi => ?_, fun v y hy => ?_⟩
  · obtain ⟨epoch, hport, -⟩ := started_port s p
    rw [hport, hcount]
  · rw [State.intent?, hintents, heldAt_replicate] at hi
    cases hi
  · simp only [hcount]
    cases hvalid : s.retentionValid with
    | true =>
      have e : s.clearVolatile.restoreArray.volumes = s.volumes.map (Option.map Volume.warmed) := by
        simp [State.restoreArray, State.clearVolatile, hvalid]
      rw [volume?_map e] at hy
      obtain ⟨x, -, rfl⟩ := Option.map_eq_some_iff.1 hy
      exact ⟨rfl, fun _ _ => warmed_openCount⟩
    | false =>
      have e : s.clearVolatile.restoreArray.volumes = List.replicate Config.volumes none := by
        simp [State.restoreArray, State.clearVolatile, hvalid]
      rw [volume?_emptied e] at hy
      cases hy

theorem Move.keeps_openCountsAgree (h : Move m s t) (hs : OpenCountsAgree s) : OpenCountsAgree t := by
  cases h with
  | @front p r _ _ _ hintents =>
    refine hs.of_kept (by simp) (fun q => ?_) (.of_volumes (by simp))
    rw [State.port_setPort]
    split
    next hq => rw [hq]; exact hintents
    next => rfl
  | settle | session | opened | ended | unfenced | served =>
    exact hs.of_kept (by simp [State.endSession, State.clearEvents]) (fun p => by simp [State.endSession, State.clearEvents])
      (.of_volumes (by simp [State.endSession, State.clearEvents]))
  | timed | queued | left | leftOf | pointed =>
    exact hs.of_kept rfl (fun p => by cases p <;> rfl) (.of_volumes rfl)
  | @raised p k sub val _ =>
    have o := raise_onlyEvents s p k sub val
    exact hs.of_kept (by rw [o.intents]) o.intentCount (.of_volumes o.volumes)
  | record hx k => exact hs.of_kept rfl (fun p => by simp) (.of_set hx rfl k.openIntents (openCounts_of_marks k.marks))
  | reports hts => exact hs.of_kept hts (fun p => by cases p <;> rfl) (.of_volumes rfl)
  | granted hf hx => exact hs.of_granted hf hx
  | @settled slot rule hrule =>
    cases hi : s.intent? slot with
    | none => rw [settleIntent_free hi]; exact hs
    | some i => exact hs.of_settled hi hrule
  | @revoked slot a rule _ =>
    obtain ⟨hi, -, -, -, -, hp, -⟩ := settleAssignment_tables s slot a rule
    refine hs.of_kept (by rw [hi]) hp ?_
    cases hx : s.volume? a.volume with
    | none => exact .of_volumes (by rw [settleAssignment_volumes, changeExtents_absent hx])
    | some x =>
      have e := (settleAssignment_volumes s slot a rule).trans (changeExtents_volumes hx (endExtent a rule))
      refine .of_set hx e rfl (openCounts_mapExtents (fun e y => ?_) _)
      unfold endExtent
      split <;> rfl
  | @assigned slot a x y _ hx =>
    obtain ⟨hv, hi, -⟩ := createAssignment_tables s slot a x
    refine hs.of_kept (by rw [hi]) (fun p => ?_) (.of_set hx hv rfl (openCounts_mapExtents ?_ _))
    · simp only [State.createAssignment]
      cases p <;> cases a.port <;> rfl
    · intro e y
      unfold linkExtent
      split <;> rfl
  | retired hx hf =>
    exact hs.of_kept rfl (fun p => by cases p <;> rfl)
      (.of_set hx rfl rfl (openCounts_mapExtents (fun e y => congrArg Prod.fst (hf e y)) _))
  | @made v base n k st ha hb _ hv =>
    obtain ⟨hports, hpresent, hvolumes⟩ := hs
    have hnone : ∀ k i, s.intent? k = some i → i.volume ≠ v := fun k i hi e => by
      have := hpresent k i hi
      rw [e, hv] at this
      cases this
    refine ⟨fun p => by rw [State.setVolume_port]; exact hports p, fun k i hi => present_of_set rfl _ (hpresent k i hi), fun w y hy => ?_⟩
    rw [volume?_set (s := s) rfl] at hy
    split at hy
    next hw =>
      obtain ⟨rfl, -⟩ := hw
      cases hy
      refine ⟨?_, fun e z hz => ?_⟩
      · exact (by simpa using countIntents_zero hnone fun _ => true : s.countIntents (fun i => i.volume = w) = 0).symm
      · have hz := List.eq_of_mem_replicate (List.mem_of_getElem? hz)
        rw [hz]
        exact (countIntents_zero hnone fun i => i.touches e).symm
    next => exact hvolumes w y hy
  | @deleted v x _ hx hzero =>
    obtain ⟨hports, hpresent, hvolumes⟩ := hs
    have hnone : ∀ k i, s.intent? k = some i → i.volume ≠ v := fun k i hi e => by
      have := (hvolumes v x hx).1.symm.trans hzero
      rw [countIntents_eq, countHeld_eq_zero] at this
      simpa [e] using this k i hi
    refine ⟨fun p => by rw [State.setVolume_port]; exact hports p, fun k i hi => ?_, fun w y hy => ?_⟩
    · rw [volume?_set_present hx (o := none) rfl, if_neg (hnone k i hi)]
      exact hpresent k i hi
    · rw [volume?_set_present hx (o := none) rfl] at hy
      split at hy
      next => cases hy
      next => exact hvolumes w y hy
  | formatted _ hnone =>
    obtain ⟨hports, -, -⟩ := hs
    refine ⟨fun p => (by cases p <;> rfl : _ = (s.port p).intents).trans (hports p), fun k i hi => ?_, fun w y hy => ?_⟩
    · exact absurd ((hnone k).symm.trans hi) (by simp)
    · rw [volume?_emptied rfl] at hy; cases hy
  | powered _ e =>
    rw [e]
    exact hs.of_kept rfl (fun p => by cases p <;> rfl) (.of_volumes rfl)
  | started hc _ _ _ => exact openCountsAgree_started s

/-- Settles O55: every move keeps the intents apart and their counts true. -/
theorem stepKeepsIntentsAgreeing : Obligations.StepKeepsIntentsAgreeing :=
  fun _ _ hstep => ⟨fun hs => step_keeps (fun _ _ _ => Move.keeps_intentsDisjoint) hs hstep,
    fun hs => step_keeps (fun _ _ _ => Move.keeps_openCountsAgree) hs hstep⟩

end Sys2Proof.Machine
end

section
/-! PROOF. Assignments: the table, the ports' counts and the extents' links say the same. -/

namespace Sys2Proof.Machine

variable {m : Permit} {s t : State}

/-! ## The links of the extents -/

/-- The assignment link of an extent of a volume record. -/
def Volume.linkOf (x : Volume) (e : Nat) : Option AssignmentLink := x.extents[e]?.bind Extent.link

/-- The assignment link of an extent of a volume. -/
def State.linkAt (s : State) (v e : Nat) : Option AssignmentLink := (s.volume? v).bind fun x => x.linkOf e

theorem linkAt_some {v e : Nat} {l : AssignmentLink} : s.linkAt v e = some l ↔
    ∃ x y, s.volume? v = some x ∧ x.extents[e]? = some y ∧ y.link = some l := by
  simp only [State.linkAt, Volume.linkOf, Option.bind_eq_some_iff]
  constructor
  · rintro ⟨x, hx, y, hy, hl⟩; exact ⟨x, y, hx, hy, hl⟩
  · rintro ⟨x, y, hx, hy, hl⟩; exact ⟨x, hx, y, hy, hl⟩

theorem linkAt_of_volumes (h : t.volumes = s.volumes) (v e : Nat) : t.linkAt v e = s.linkAt v e := by
  rw [State.linkAt, State.linkAt, State.volume?_of_volumes h]

theorem linkAt_set {v : Nat} {x y : Volume} (hx : s.volume? v = some x) (h : t.volumes = s.volumes.set v (some y))
    (w e : Nat) : t.linkAt w e = if w = v then y.linkOf e else s.linkAt w e := by
  rw [State.linkAt, volume?_set_present hx h]
  split <;> rfl

theorem linkAt_present {v : Nat} {x : Volume} (hx : s.volume? v = some x) (e : Nat) : s.linkAt v e = x.linkOf e := by
  rw [State.linkAt, hx]; rfl

theorem linkAt_absent {v : Nat} (hx : s.volume? v = none) (e : Nat) : s.linkAt v e = none := by
  rw [State.linkAt, hx]; rfl

theorem linkOf_mapExtents {x y : Volume} {f : Nat → Extent → Extent} (h : y.extents = mapExtents f x.extents) (e : Nat) :
    y.linkOf e = x.extents[e]?.bind fun z => (f e z).link := by
  rw [Volume.linkOf, h, mapExtents_getElem?, Option.bind_map]
  rfl

theorem linkOf_of_marks {x y : Volume} (h : y.extents.map Extent.marks = x.extents.map Extent.marks) (e : Nat) :
    y.linkOf e = x.linkOf e := by
  have read (z : Volume) : z.linkOf e = ((z.extents.map Extent.marks)[e]?).bind Prod.snd := by
    rw [List.getElem?_map, Option.bind_map]
    rfl
  rw [read, read, h]

/-- What agrees of assignments, said of the links (R84, R85). -/
theorem assignmentsAgree_iff (s : State) : AssignmentsAgree s ↔
    (∀ p, (s.port p).assignments = countHeld s.assignments fun a => a.port = p)
    ∧ (∀ slot a, s.assignment? slot = some a →
        a.source = other a.target ∧ s.linkAt a.volume a.extent = some ⟨slot, a.target, a.overtaken⟩)
    ∧ ∀ v e l, s.linkAt v e = some l → ∃ a, s.assignment? l.slot = some a ∧ a.volume = v ∧ a.extent = e := by
  have count (p : Port) : (s.assignments.countP fun x => match x.held with | some a => decide (a.port = p) | none => false)
      = countHeld s.assignments fun a => a.port = p := by
    refine List.countP_congr fun x _ => ?_
    rcases x with ⟨g, _ | a⟩ <;> rfl
  unfold AssignmentsAgree
  simp only [linkAt_some]
  refine and_congr (forall_congr' fun p => ⟨fun h => h.trans (count p), fun h => h.trans (count p).symm⟩) (and_congr_right fun _ => ?_)
  exact ⟨fun h v e l ⟨x, y, hx, hy, hl⟩ => h v x e y l hx hy hl, fun h v x e y l hx hy hl => h v e l ⟨x, y, hx, hy, hl⟩⟩

/-! ## The assignments after a move -/

theorem heldAt_markOvertaken (l : List (Slot (Option Assignment))) (v : Nat) (sel : Nat → Bool) (k : Nat) :
    heldAt (markOvertaken l v sel) k
      = (heldAt l k).map fun a => { a with overtaken := a.overtaken || (decide (a.volume = v) && sel a.extent) } := by
  rw [markOvertaken_eq_map, heldAt, heldAt, List.getElem?_map]
  cases l[k]? <;> rfl

theorem countHeld_markOvertaken (l : List (Slot (Option Assignment))) (v : Nat) (sel : Nat → Bool) (p : Port) :
    countHeld (markOvertaken l v sel) (fun a => a.port = p) = countHeld l fun a => a.port = p := by
  rw [markOvertaken_eq_map, countHeld, countHeld, List.countP_map]
  refine List.countP_congr fun x _ => ?_
  rcases x with ⟨g, _ | a⟩ <;> rfl

/-- An overtaken mark set in a link. -/
def AssignmentLink.overtake (l : AssignmentLink) : AssignmentLink := { l with overtaken := true }

/-- What a move can do to the assignments and to the links: links go only where no assignment names the volume, picked ones
of a volume are overtaken in both places, one ends, one is made, or all go. -/
inductive AssignmentsMove (s t : State) : Prop where
  | same : t.assignments = s.assignments → (∀ p, (t.port p).assignments = (s.port p).assignments) →
      (∀ v e, t.linkAt v e = s.linkAt v e
        ∨ (t.linkAt v e = none ∧ ∀ slot a, s.assignment? slot = some a → a.volume ≠ v)) → AssignmentsMove s t
  | overtaken {v : Nat} {sel : Nat → Bool} : t.assignments = markOvertaken s.assignments v sel →
      (∀ p, (t.port p).assignments = (s.port p).assignments) →
      (∀ w e, t.linkAt w e = if w = v ∧ sel e = true then (s.linkAt w e).map AssignmentLink.overtake else s.linkAt w e) →
      AssignmentsMove s t
  | ended {slot : Nat} {a : Assignment} : s.assignment? slot = some a → t.assignments = hold s.assignments slot none →
      (∀ p, (t.port p).assignments = if p = a.port then (s.port p).assignments - 1 else (s.port p).assignments) →
      (∀ w e, t.linkAt w e = if w = a.volume ∧ e = a.extent then none else s.linkAt w e) → AssignmentsMove s t
  | assigned {slot : Nat} {a : Assignment} : lowestFree s.assignments = some slot → a.source = other a.target →
      s.linkAt a.volume a.extent = none → t.assignments = place s.assignments slot (some a) →
      (∀ p, (t.port p).assignments = if p = a.port then (s.port p).assignments + 1 else (s.port p).assignments) →
      (∀ w e, t.linkAt w e
        = if w = a.volume ∧ e = a.extent then some ⟨slot, a.target, a.overtaken⟩ else s.linkAt w e) → AssignmentsMove s t
  | cleared : (∀ k, t.assignment? k = none) → (∀ p, (t.port p).assignments = 0) →
      t.assignments = List.replicate Config.assignmentSlots ⟨0, none⟩ → (∀ v e, t.linkAt v e = none) → AssignmentsMove s t

theorem AssignmentsMove.of_volumes (ha : t.assignments = s.assignments)
    (hp : ∀ p, (t.port p).assignments = (s.port p).assignments) (hv : t.volumes = s.volumes) : AssignmentsMove s t :=
  .same ha hp fun v e => .inl (linkAt_of_volumes hv v e)

theorem AssignmentsMove.of_set {v : Nat} {x y : Volume} (hx : s.volume? v = some x)
    (hv : t.volumes = s.volumes.set v (some y)) (ha : t.assignments = s.assignments)
    (hp : ∀ p, (t.port p).assignments = (s.port p).assignments) (hl : ∀ e, y.linkOf e = x.linkOf e) :
    AssignmentsMove s t := by
  refine .same ha hp fun w e => .inl ?_
  rw [linkAt_set hx hv]
  split
  next hw => rw [hw, linkAt_present hx, hl]
  next => rfl

theorem linkOf_settledBy {x : Volume} {i : Intent} {rule : Volume → Intent → Nat → Extent → Extent}
    (hrule : ∀ x i e y, (rule x i e y).marks = (if i.touches e then y.openCount - 1 else y.openCount, y.link)) (e : Nat) :
    (x.settledBy i rule).linkOf e = x.linkOf e := by
  rw [linkOf_mapExtents (y := x.settledBy i rule) (x := x) (f := rule x i) rfl, Volume.linkOf]
  congr 1
  funext z
  exact congrArg Prod.snd (hrule x i e z)

theorem Move.assignments (h : Move m s t) : AssignmentsMove s t := by
  cases h with
  | @front p r _ _ _ _ hassignments =>
    refine .of_volumes (by simp) (fun q => ?_) (by simp)
    rw [State.port_setPort]
    split
    next hq => rw [hq]; exact hassignments
    next => rfl
  | settle | session | opened | ended | unfenced | served =>
    exact .of_volumes (by simp [State.endSession, State.clearEvents]) (fun p => by simp [State.endSession, State.clearEvents])
      (by simp [State.endSession, State.clearEvents])
  | timed | queued | left | leftOf | pointed | reports =>
    exact .of_volumes rfl (fun p => by cases p <;> rfl) rfl
  | @raised p k sub val _ =>
    have o := raise_onlyEvents s p k sub val
    exact .of_volumes o.assignments o.assignmentCount o.volumes
  | record hx k => exact .of_set hx rfl (by simp) (fun p => by simp) (linkOf_of_marks k.marks)
  | @granted slot i x _ hx =>
    obtain ⟨ha, hp⟩ := grant_keeps s slot i
    refine .overtaken ha hp fun w e => ?_
    rw [linkAt_set hx (grant_volumes hx)]
    by_cases hw : w = i.volume
    · subst hw
      rw [if_pos rfl, linkAt_present hx, linkOf_mapExtents (f := grantExtent i) (x := x) rfl, Volume.linkOf,
        Option.map_bind]
      cases htouch : i.touches e
      · rw [if_neg (by simp)]
        congr 1
        funext z
        simp [grantExtent, htouch]
      · rw [if_pos ⟨rfl, rfl⟩]
        congr 1
        funext z
        simp only [grantExtent, htouch, if_true, Function.comp_apply]
        rfl
    · rw [if_neg hw, if_neg fun h => hw h.1]
  | @settled slot rule hrule =>
    obtain ⟨-, -, ha, -, -, hp⟩ := settleIntent_tables s slot rule
    cases hi : s.intent? slot with
    | none => rw [settleIntent_free hi]; exact .of_volumes rfl (fun _ => rfl) rfl
    | some i =>
      cases hx : s.volume? i.volume with
      | none => exact .of_volumes ha hp (by rw [settleIntent_absent hi hx]; simp)
      | some x =>
        have hv := (settleIntent_gone hi hx rule).volumes
        exact .of_set (y := x.settledBy i rule) hx (hv.trans (by simp [State.intentGone, State.setVolume])) ha hp
          (linkOf_settledBy hrule)
  | @revoked slot a rule hslot =>
    obtain ⟨-, -, -, -, ha, -, hp⟩ := settleAssignment_tables s slot a rule
    refine .ended hslot ha hp fun w e => ?_
    cases hx : s.volume? a.volume with
    | none =>
      rw [linkAt_of_volumes (t := s.settleAssignment slot a rule) (s := s)
        (by rw [settleAssignment_volumes, changeExtents_absent hx])]
      split
      next hw => rw [hw.1, linkAt_absent hx]
      next => rfl
    | some x =>
      have hv := (settleAssignment_volumes s slot a rule).trans (changeExtents_volumes hx (endExtent a rule))
      rw [linkAt_set hx hv]
      by_cases hw : w = a.volume
      · subst hw
        rw [if_pos rfl, linkOf_mapExtents (x := x) (f := endExtent a rule) rfl, linkAt_present hx, Volume.linkOf]
        by_cases he : e = a.extent
        · rw [if_pos ⟨rfl, he⟩]
          simp only [endExtent, he, if_true]
          cases x.extents[a.extent]? <;> rfl
        · rw [if_neg fun h => he h.2]
          simp only [endExtent, he, if_false]
      · rw [if_neg hw, if_neg fun h => hw h.1]
  | @assigned slot a x y hf hx hy hlink htarget =>
    obtain ⟨hv, -, -, -, -, ha⟩ := createAssignment_tables s slot a x
    refine .assigned hf htarget ?_ ha (fun p => ?_) fun w e => ?_
    · rw [linkAt_present hx, Volume.linkOf, hy]
      exact hlink
    · simp only [State.createAssignment]
      cases p <;> cases hp : a.port <;> simp [State.setAssignmentCount, State.setPort, State.port]
    · rw [linkAt_set hx hv]
      by_cases hw : w = a.volume
      · subst hw
        rw [if_pos rfl, linkOf_mapExtents (x := x) (f := linkExtent slot a) rfl, linkAt_present hx, Volume.linkOf]
        by_cases he : e = a.extent
        · rw [if_pos ⟨rfl, he⟩, he, hy]
          simp [linkExtent]
        · rw [if_neg fun h => he h.2]
          simp only [linkExtent, he, if_false]
      · rw [if_neg hw, if_neg fun h => hw h.1]
  | @retired v x sel f hx hf =>
    refine .overtaken (v := v) (sel := sel) rfl (fun p => by cases p <;> rfl) fun w e => ?_
    have hv : (({ s with assignments := markOvertaken s.assignments v sel } : State).setVolume v
        (some (Volume.recount { x with extents := mapExtents f x.extents }))).volumes
        = s.volumes.set v (some (Volume.recount { x with extents := mapExtents f x.extents })) := rfl
    rw [linkAt_set hx hv]
    by_cases hw : w = v
    · subst hw
      rw [if_pos rfl, linkOf_mapExtents (x := x) (f := f) rfl, linkAt_present hx, Volume.linkOf, Option.map_bind]
      have hlink (z : Extent) : (f e z).link = if sel e then z.link.map AssignmentLink.overtake else z.link :=
        congrArg Prod.snd (hf e z)
      cases hsel : sel e
      · rw [if_neg (by simp)]
        congr 1
        funext z
        simp [hlink, hsel]
      · rw [if_pos ⟨rfl, rfl⟩]
        congr 1
        funext z
        simp [hlink, hsel]
    · rw [if_neg hw, if_neg fun h => hw h.1]
  | @made v base n k st ha hb _ hv =>
    refine .same rfl (fun p => by simp) fun w e => .inl ?_
    rw [State.linkAt, volume?_set (s := s) rfl]
    split
    next hw =>
      rw [hw.1, linkAt_absent hv, Option.bind_some, Volume.linkOf]
      refine Option.bind_eq_none_iff.2 fun z hz => ?_
      rw [List.eq_of_mem_replicate (List.mem_of_getElem? hz)]
    next => rfl
  | @deleted v x _ hx _ _ hassigned =>
    refine .same rfl (fun p => by simp) fun w e => ?_
    by_cases hw : w = v
    · refine .inr ⟨?_, fun slot a ha hav => ?_⟩
      · rw [State.linkAt, volume?_set_present hx (o := none) rfl, if_pos hw]
        rfl
      · obtain ⟨z, hz, hheld⟩ := heldAt_some ha
        have hno := List.any_eq_false.1 hassigned z (List.mem_of_getElem? hz)
        rw [hheld] at hno
        exact hno (by simp [hav, hw])
    · refine .inl ?_
      rw [State.linkAt, volume?_set_present hx (o := none) rfl, if_neg hw]
      rfl
  | formatted _ _ _ hnone =>
    refine .same rfl (fun p => by cases p <;> rfl) fun w e => .inr ⟨?_, fun slot a ha => ?_⟩
    · exact linkAt_absent (volume?_emptied rfl w) e
    · rw [hnone slot] at ha; cases ha
  | powered _ e =>
    rw [e]
    exact .of_volumes rfl (fun p => by cases p <;> rfl) rfl
  | started =>
    have htable : s.clearVolatile.restoreArray.assignments = List.replicate Config.assignmentSlots ⟨0, none⟩ := by
      rw [State.restoreArray]
      split <;> rfl
    refine .cleared (fun k => by rw [State.assignment?, htable, heldAt_replicate]) (fun p => ?_) htable fun v e => ?_
    · obtain ⟨epoch, hport, -⟩ := started_port s p
      rw [hport]
    · cases hvalid : s.retentionValid with
      | true =>
        have hv : s.clearVolatile.restoreArray.volumes = s.volumes.map (Option.map Volume.warmed) := by
          simp [State.restoreArray, State.clearVolatile, hvalid]
        rw [State.linkAt, volume?_map hv]
        refine Option.bind_eq_none_iff.2 fun y hy => ?_
        obtain ⟨x, -, rfl⟩ := Option.map_eq_some_iff.1 hy
        refine Option.bind_eq_none_iff.2 fun z hz => ?_
        have hz : (x.extents.map (warmExtent x.copyA.health x.copyB.health))[e]? = some z := hz
        rw [List.getElem?_map] at hz
        obtain ⟨_, -, rfl⟩ := Option.map_eq_some_iff.1 hz
        rfl
      | false =>
        exact linkAt_absent (volume?_emptied (by simp [State.restoreArray, State.clearVolatile, hvalid]) v) e

/-! ## The agreement stays (O56) -/

theorem AssignmentsMove.keeps_agree (h : AssignmentsMove s t) (hs : AssignmentsAgree s) : AssignmentsAgree t := by
  rw [assignmentsAgree_iff] at hs ⊢
  obtain ⟨hports, htable, hlinks⟩ := hs
  cases h with
  | same ha hp hl =>
    refine ⟨fun p => by rw [hp, ha, hports], fun slot a hslot => ?_, fun v e l hlink => ?_⟩
    · rw [State.assignment?_of_assignments ha] at hslot
      obtain ⟨hsource, hlink⟩ := htable slot a hslot
      rcases hl a.volume a.extent with e | ⟨-, hnone⟩
      · exact ⟨hsource, e.trans hlink⟩
      · exact absurd rfl (hnone slot a hslot)
    · rw [State.assignment?_of_assignments ha]
      rcases hl v e with e' | ⟨e', -⟩
      · exact hlinks v e l (e'.symm.trans hlink)
      · rw [e'] at hlink; cases hlink
  | @overtaken v sel ha hp hl =>
    have read (k : Nat) : t.assignment? k = (s.assignment? k).map fun a =>
        { a with overtaken := a.overtaken || (decide (a.volume = v) && sel a.extent) } := by
      rw [State.assignment?, ha, heldAt_markOvertaken]; rfl
    refine ⟨fun p => by rw [hp, ha, countHeld_markOvertaken, hports], fun slot a hslot => ?_, fun w e l hlink => ?_⟩
    · rw [read] at hslot
      obtain ⟨b, hb, rfl⟩ := Option.map_eq_some_iff.1 hslot
      obtain ⟨hsource, hlink⟩ := htable slot b hb
      refine ⟨hsource, ?_⟩
      dsimp only
      rw [hl, hlink]
      by_cases hw : b.volume = v
      · cases hsel : sel b.extent <;> simp [hw, AssignmentLink.overtake]
      · simp [hw]
    · rw [hl] at hlink
      have hold : ∃ l', s.linkAt w e = some l' ∧ l'.slot = l.slot := by
        split at hlink
        next =>
          obtain ⟨l', hl', rfl⟩ := Option.map_eq_some_iff.1 hlink
          exact ⟨l', hl', rfl⟩
        next => exact ⟨l, hlink, rfl⟩
      obtain ⟨l', hl', hslot⟩ := hold
      obtain ⟨a, ha', hav, hae⟩ := hlinks w e l' hl'
      refine ⟨{ a with overtaken := a.overtaken || (decide (a.volume = v) && sel a.extent) }, ?_, hav, hae⟩
      rw [read, ← hslot, ha', Option.map_some]
  | @ended slot a hslot ha hp hl =>
    obtain ⟨-, hlink⟩ := htable slot a hslot
    refine ⟨fun p => ?_, fun k b hk => ?_, fun w e l hl' => ?_⟩
    · have count := countHeld_hold hslot fun b => b.port = p
      rw [hp, ha, hports, count]
      by_cases hpa : p = a.port
      · simp [hpa]
      · have : ¬ a.port = p := fun e => hpa e.symm
        simp [hpa, this]
    · rw [State.assignment?, ha, heldAt_hold_none] at hk
      split at hk
      next => cases hk
      next hne =>
        obtain ⟨hsource, hblink⟩ := htable k b hk
        refine ⟨hsource, ?_⟩
        rw [hl, if_neg, hblink]
        rintro ⟨hv, he⟩
        rw [hv, he, hlink] at hblink
        exact hne (congrArg AssignmentLink.slot (Option.some.inj hblink)).symm
    · rw [hl] at hl'
      split at hl'
      next => cases hl'
      next hne =>
        obtain ⟨b, hb, hbv, hbe⟩ := hlinks w e l hl'
        refine ⟨b, ?_, hbv, hbe⟩
        rw [State.assignment?, ha, heldAt_hold_none, if_neg]
        · exact hb
        · rintro hls
          rw [hls] at hb
          cases hb.symm.trans hslot
          exact hne ⟨hbv.symm, hbe.symm⟩
  | @assigned slot a hf hsource hnone ha hp hl =>
    obtain ⟨hlt, hfree, -⟩ := lowestFree_spec hf
    have read (k : Nat) : t.assignment? k = if k = slot then some a else s.assignment? k := by
      rw [State.assignment?, ha, heldAt_place hlt]; rfl
    refine ⟨fun p => ?_, fun k b hk => ?_, fun w e l hl' => ?_⟩
    · rw [hp, ha, countHeld_place hlt hfree, hports]
      by_cases hpa : p = a.port
      · simp [hpa]
      · have : ¬ a.port = p := fun e => hpa e.symm
        simp [hpa, this]
    · rw [read] at hk
      split at hk
      next hks =>
        cases hk
        exact ⟨hsource, by rw [hl, if_pos ⟨rfl, rfl⟩, hks]⟩
      next =>
        obtain ⟨hbsource, hblink⟩ := htable k b hk
        refine ⟨hbsource, ?_⟩
        rw [hl, if_neg, hblink]
        rintro ⟨hv, he⟩
        rw [hv, he, hnone] at hblink
        cases hblink
    · rw [hl] at hl'
      split at hl'
      next hw =>
        cases hl'
        exact ⟨a, by rw [read, if_pos rfl], hw.1.symm, hw.2.symm⟩
      next =>
        obtain ⟨b, hb, hbv, hbe⟩ := hlinks w e l hl'
        refine ⟨b, ?_, hbv, hbe⟩
        rw [read, if_neg, hb]
        intro hls
        rw [hls, State.assignment?, hfree] at hb
        cases hb
  | cleared hnone hp ha hl =>
    refine ⟨fun p => by rw [hp, ha, countHeld_replicate], fun slot a hslot => ?_, fun v e l hlink => ?_⟩
    · rw [hnone] at hslot; cases hslot
    · rw [hl] at hlink; cases hlink

/-- Settles O56: every move keeps the assignments and the links in agreement. -/
theorem stepKeepsAssignmentsAgreeing : Obligations.StepKeepsAssignmentsAgreeing :=
  fun _ _ hs hstep => step_keeps (fun _ _ _ h => h.assignments.keeps_agree) hs hstep

end Sys2Proof.Machine
end

section
/-! PROOF. The ATTN lines and the level inputs. -/

namespace Sys2Proof.Machine

variable {m : Permit} {s t : State}

/-! ## ATTN follows its rule (O53) -/

theorem settleAttn_agrees (s : State) : AttnAgrees s.settleAttn := by
  intro p
  rw [State.settleAttn_port, State.settleAttn_supply]
  rfl

/-- The ATTN rule reads the supply state, the PRST input, the session and the event unit alone (R144). -/
theorem AttnAgrees.of_same (hs : AttnAgrees s) (hsupply : t.supply = s.supply)
    (hp : ∀ p, (t.port p).attn = (s.port p).attn ∧ (t.port p).prst = (s.port p).prst
      ∧ (t.port p).session = (s.port p).session ∧ (t.port p).events = (s.port p).events) : AttnAgrees t := by
  intro p
  obtain ⟨hattn, hprst, hsession, hevents⟩ := hp p
  rw [hattn, hs p, attnRule, attnRule, hsupply, hprst, hsession, hevents]

theorem AttnAgrees.setLink (hs : AttnAgrees s) (p : Port) (x : Link) : AttnAgrees (s.setLink p x) :=
  hs.of_same (by simp) fun q => by simp

theorem AttnAgrees.setBurst (hs : AttnAgrees s) (p : Port) (x : Burst) : AttnAgrees (s.setBurst p x) :=
  hs.of_same (by simp) fun q => by simp

theorem AttnAgrees.endBurst (hs : AttnAgrees s) (p : Port) (x : List Byte) : AttnAgrees (s.endBurst p x) :=
  hs.of_same (by simp) fun q => by simp

theorem AttnAgrees.noteBursts (ht : AttnAgrees t) (s : State) (sel0 sel1 : Bool) :
    AttnAgrees (t.noteBursts s sel0 sel1) :=
  (ht.setBurst .p0 _).setBurst .p1 _

/-- A served request leaves the lines settled: what reaches an owner settles them, and the link's own answers move nothing
that the rule reads. -/
theorem AttnAgrees.serve (hs : AttnAgrees s) (r : Request) (code : Byte) (own : Owner) :
    AttnAgrees (s.serve r code own) := by
  have ones : AttnAgrees (s.shiftOnes r.port (7 + r.params.length)) := hs.endBurst _ _
  unfold State.serve
  dsimp only
  split
  next =>
    split
    next =>
      unfold State.receive
      split
      next => exact ones.setLink _ _
      next =>
        split
        next => exact ones.setLink _ _
        next =>
          split
          next => exact ones.setLink _ _
          next =>
            unfold State.process
            split
            next => exact ones.setLink _ _
            next => exact settleAttn_agrees _
    next => exact ones
  next => exact ones

theorem AttnAgrees.readPins (hs : AttnAgrees s) : AttnAgrees s.readPins := by
  unfold State.readPins
  split
  next => exact settleAttn_agrees _
  next => exact hs

theorem AttnAgrees.of_next (ht : AttnAgrees t) {u : State}
    (e : (Host.Outcome.next t : Host.Outcome State Fault Refusal) = .next u) : AttnAgrees u := by
  cases e
  exact ht

theorem AttnAgrees.readBurst (hs : AttnAgrees s) {b : Select} {n : Nat} (h : execReadBurst b n s = .next t) :
    AttnAgrees t := by
  cases h
  split
  next => exact hs.setBurst _ _
  next => split <;> exact hs.endBurst _ _

theorem AttnAgrees.frameError (hs : AttnAgrees s) {b : Select} {bytes : List Byte}
    (h : execFrameError b bytes s = .next t) : AttnAgrees t := by
  unfold execFrameError at h
  split at h
  next => cases h; exact hs.setBurst _ _
  next =>
    split at h
    next => cases h
    next =>
      split at h
      next => cases h
      next =>
        cases h
        have ones : AttnAgrees (s.shiftOnes b.port bytes.length) := hs.endBurst _ _
        dsimp only
        split
        next => exact ones.setLink _ _
        next => exact ones

theorem AttnAgrees.badCode (hs : AttnAgrees s) {r : Request} {code : Byte} (h : execBadCode r code s = .next t) :
    AttnAgrees t := by
  unfold execBadCode at h
  split at h
  next => cases h
  next =>
    cases h
    have ones : AttnAgrees (s.shiftOnes r.port (7 + r.params.length)) := hs.endBurst _ _
    dsimp only
    split
    next => split <;> exact ones.setLink _ _
    next => exact ones

theorem AttnAgrees.mainSupplyArrives (hs : AttnAgrees s) (h : execMainSupplyArrives s = .next t) : AttnAgrees t := by
  cases h
  split
  next hoff =>
    intro p
    have hattn := hs p
    rw [attnRule, hoff] at hattn
    exact hattn
  next => exact hs

theorem AttnAgrees.start (hs : AttnAgrees s) {pfail sel0 sel1 : Bool} (h : execStart pfail s sel0 sel1 = .next t) :
    AttnAgrees t := by
  cases h
  dsimp only
  split
  next => exact (settleAttn_agrees _).noteBursts _ _ _
  next =>
    have levels : AttnAgrees { s with resetn := false, pfail := pfail } := hs
    exact levels.readPins.noteBursts _ _ _

theorem AttnAgrees.quiesce (hs : AttnAgrees s) {pin : HoldPin} {sel0 sel1 : Bool}
    (h : execQuiesce pin s sel0 sel1 = .next t) : AttnAgrees t := by
  cases h
  have pins : AttnAgrees (s.assertPin pin) := by cases pin <;> exact hs
  exact pins.readPins.noteBursts _ _ _

theorem AttnAgrees.expiry (hs : AttnAgrees s) {slot : Nat} :
    (execIntentExpiry slot s = .next t → AttnAgrees t) ∧ (execWaiterExpiry slot s = .next t → AttnAgrees t)
    ∧ (execAssignmentExpiry slot s = .next t → AttnAgrees t) := by
  refine ⟨fun h => ?_, fun h => ?_, fun h => ?_⟩
  all_goals
    cases h
    split
    next =>
      split
      next => exact settleAttn_agrees _
      next => exact hs
    next => exact hs

/-- Every command leaves the ATTN lines settled. -/
theorem AttnAgrees.exec (hs : AttnAgrees s) {c : Instr} (h : exec c s = .next t) : AttnAgrees t := by
  cases c with
  | identify r | openSession r | renew r | closeSession r | portConfig r | fetchEvent r | ackEvent r | eventConfig r
  | createVolume r | deleteVolume r | volumeStatus r | setVolume r | route r | extentStates r | retireRange r
  | reportReadFailure r | openIntent r | reportWrite r | abandonIntent r | intentStatus r | cancelWait r | takeRepair r
  | repairDone r | releaseRepair r | failCopy r | replaceCopy r | clearErrors r | format r =>
    exact (hs.serve r _ _).of_next h
  | readBurst b n => exact hs.readBurst h
  | frameError b bytes => exact hs.frameError h
  | badCode r code => exact hs.badCode h
  | prst p sel => cases h; exact settleAttn_agrees _
  | quiesce pin sel0 sel1 => exact hs.quiesce h
  | mainSupplyArrives => exact hs.mainSupplyArrives h
  | mainSupplyLost => cases h; exact settleAttn_agrees _
  | vbakBelowThreshold e =>
    cases h
    split <;> exact hs
  | start pfail sel0 sel1 => exact hs.start h
  | startComplete =>
    cases h
    split
    next => exact settleAttn_agrees _
    next => exact hs
  | leaseExpiry p =>
    cases h
    split
    next => exact settleAttn_agrees _
    next => exact hs
  | intentExpiry slot => exact hs.expiry.1 h
  | waiterExpiry slot => exact hs.expiry.2.1 h
  | assignmentExpiry slot => exact hs.expiry.2.2 h
  | prstRelease p sel => cases h; exact settleAttn_agrees _

/-! ## PFAIL and RESETN stand released in RUN and STARTING (O53) -/

/-- The supply state and the two level inputs are as they were. -/
def SameLevels (s t : State) : Prop := t.supply = s.supply ∧ t.pfail = s.pfail ∧ t.resetn = s.resetn

theorem SameLevels.of_elsewhere (h : SameElsewhere s t) : SameLevels s t := by
  obtain ⟨-, hsupply, -, -, -, -, hpfail, hresetn, -⟩ := h
  exact ⟨hsupply, hpfail, hresetn⟩

/-- A command that may not move the supply state leaves it and the level inputs. -/
theorem Move.keeps_levels (hm : m.supply = false) (h : Move m s t) : SameLevels s t := by
  cases h with
  | front | settle | session | opened | ended | unfenced | served | record | made | deleted =>
    simp [SameLevels, State.endSession, State.clearEvents]
  | timed | queued | left | leftOf | pointed | reports | retired | formatted => exact ⟨rfl, rfl, rfl⟩
  | @raised p k sub val _ => exact .of_elsewhere (raise_onlyEvents s p k sub val).sameElsewhere
  | @granted slot i _ hf => exact .of_elsewhere (grant_grantsOnly hf i).elsewhere
  | settled => exact .of_elsewhere (settleIntent_elsewhere s _ _)
  | revoked => exact .of_elsewhere (settleAssignment_elsewhere s _ _ _)
  | assigned => simp [SameLevels, State.createAssignment]
  | powered hs | started hs => rw [hm] at hs; cases hs

theorem PinsReleased.of_same (hs : PinsReleased s) (h : SameLevels s t) : PinsReleased t := by
  obtain ⟨hsupply, hpfail, hresetn⟩ := h
  rw [PinsReleased, hsupply, hpfail, hresetn]
  exact hs

theorem PinsReleased.of_hold (h : t.supply = .hold ∨ t.supply = .off) : PinsReleased t := by
  intro ht
  rcases h with h | h <;> rw [h] at ht <;> simp at ht

/-- Once the level inputs are read, RUN and STARTING have both released (R162). -/
theorem readPins_released (s : State) : PinsReleased s.readPins := by
  unfold State.readPins
  split
  next => exact .of_hold (.inl rfl)
  next hpins =>
    intro hs
    have hnone : ¬ (s.pfail = true ∨ s.resetn = true) := fun h => hpins ⟨hs, h⟩
    rw [not_or, Bool.not_eq_true, Bool.not_eq_true] at hnone
    exact hnone

theorem PinsReleased.noteBursts (ht : PinsReleased t) (s : State) (sel0 sel1 : Bool) :
    PinsReleased (t.noteBursts s sel0 sel1) :=
  ht.of_same (by simp [SameLevels, State.noteBursts, State.noteBurst])

theorem PinsReleased.start {pfail sel0 sel1 : Bool} (h : execStart pfail s sel0 sel1 = .next t) : PinsReleased t := by
  cases h
  dsimp only
  split
  next hstart =>
    refine PinsReleased.noteBursts (fun _ => ?_) _ _ _
    rw [hstart.2, State.settleAttn_pfail, State.settleAttn_resetn, State.restoreArray]
    split <;> exact ⟨rfl, rfl⟩
  next => exact (readPins_released _).noteBursts _ _ _

theorem PinsReleased.startComplete (hs : PinsReleased s) (h : execStartComplete s = .next t) : PinsReleased t := by
  cases h
  split
  next hstarting =>
    intro _
    rw [State.settleAttn_pfail, State.settleAttn_resetn, State.recordStart]
    split <;> exact hs (.inr hstarting)
  next => exact hs

/-- Every command leaves PFAIL and RESETN released where they were and the part is in RUN or STARTING. -/
theorem PinsReleased.exec (hs : PinsReleased s) {c : Instr} (h : exec c s = .next t) : PinsReleased t := by
  cases hm : (permitOf c s.retentionValid).supply with
  | false =>
    refine hs.of_same ((exec_moves h).keeps (R := SameLevels) (fun _ => ⟨rfl, rfl, rfl⟩) ?_ fun _ _ => Move.keeps_levels hm)
    rintro _ _ _ ⟨a1, a2, a3⟩ ⟨b1, b2, b3⟩
    exact ⟨b1.trans a1, b2.trans a2, b3.trans a3⟩
  | true =>
    cases c with
    | quiesce pin sel0 sel1 => cases h; exact (readPins_released _).noteBursts _ _ _
    | mainSupplyArrives =>
      cases h
      split
      next => exact .of_hold (.inl rfl)
      next => exact hs
    | mainSupplyLost => cases h; exact .of_hold (.inr rfl)
    | vbakBelowThreshold e =>
      cases h
      split <;> exact hs
    | start pfail sel0 sel1 => exact PinsReleased.start h
    | startComplete => exact hs.startComplete h
    | _ => cases hm

/-- Settles O53: an empty queue moves nothing that either rule reads, and every command leaves both true. -/
theorem stepKeepsPinsSettled : Obligations.StepKeepsPinsSettled := by
  intro s t hstep
  unfold step at hstep
  split at hstep
  next =>
    cases hstep
    unfold State.idle
    split <;> exact ⟨id, id⟩
  next c rest _ =>
    exact ⟨fun hs => AttnAgrees.exec (s := { s with pending := rest }) hs hstep,
      fun hs => PinsReleased.exec (s := { s with pending := rest }) hs hstep⟩

end Sys2Proof.Machine
end

section
/-! PROOF. The queue of commands: a step with a command and a step without one. -/

namespace Sys2Proof.Machine

variable {s t : State}

/-! ## A command at the front (R162) -/

/-- Settles O1: a step takes the front command off the queue and runs it. -/
theorem stepRunsFrontCommand : Obligations.StepRunsFrontCommand := by
  intro c rest s h
  rw [step, h]

/-! ## The expiries due at a tick (R58, R170) -/

/-- The state at the tick that comes next. -/
def State.ticked (s : State) : State := { s with ticks := s.ticks + 1, phase := 0 }

/-- The expiries due at the tick, one line for each deadline of an intent and one for each other expiry. -/
def State.dueLines (s : State) : List (List Instr) := s.ticked.dueIntents ++ s.ticked.dueOthers.map ([·])

theorem expired_ticked (hrun : s.supply = .run) (d : Nat) : s.ticked.expired d = true ↔ d ≤ (s.ticks + 1) * 25000 := by
  have hsupply : s.ticked.supply = .run := hrun
  rw [State.expired, hsupply]
  exact decide_eq_true_iff

/-- The lease expiry of a port that is due. -/
def State.dueLease (s : State) (p : Port) : List Instr :=
  match (s.port p).session.state, (s.port p).session.deadline with
  | .opened, some d => if s.expired d then [.leaseExpiry p] else []
  | _, _ => []

theorem mem_dueLease {p : Port} {c : Instr} : c ∈ s.dueLease p ↔ ∃ d, c = .leaseExpiry p
    ∧ (s.port p).session.state = .opened ∧ (s.port p).session.deadline = some d ∧ s.expired d = true := by
  unfold State.dueLease
  split
  next d hopen hd =>
    simp only [hopen, hd, Option.some.injEq, true_and]
    split
    next he => simp [he]
    next he => simp [he]
  next hnot =>
    simp only [List.not_mem_nil, false_iff]
    rintro ⟨d, -, hopen, hd, -⟩
    exact hnot d hopen hd

theorem dueOthers_eq (s : State) : s.dueOthers = s.dueLease .p0 ++ s.dueLease .p1
    ++ dueFrom (fun x => match x.held with | .waiting w => s.expired w.deadline | _ => false) .waiterExpiry 0 s.waiters
    ++ dueFrom (fun x => match x.held with | some a => s.expired a.deadline | none => false) .assignmentExpiry 0
        s.assignments := rfl

theorem mem_dueWaiters {c : Instr} : c ∈ dueFrom (fun x : Slot WaiterEntry => match x.held with
      | .waiting w => s.expired w.deadline | _ => false) .waiterExpiry 0 s.waiters
    ↔ ∃ slot w, c = .waiterExpiry slot ∧ s.waiter? slot = some w ∧ s.expired w.deadline = true := by
  rw [mem_dueFrom]
  simp only [State.waiter?, State.waiterEntry, Nat.zero_add]
  constructor
  · rintro ⟨j, x, hx, hdue, rfl⟩
    split at hdue
    next w hw => exact ⟨j, w, rfl, by simp [hx, hw], hdue⟩
    next => cases hdue
  · rintro ⟨slot, w, rfl, hw, hdue⟩
    cases hx : s.waiters[slot]? with
    | none => simp [hx] at hw
    | some x =>
      simp only [hx] at hw
      split at hw
      next hheld => cases hw; exact ⟨slot, x, hx, by simp [hheld, hdue], rfl⟩
      next => cases hw

theorem mem_dueAssignments {c : Instr} : c ∈ dueFrom (fun x : Slot (Option Assignment) => match x.held with
      | some a => s.expired a.deadline | none => false) .assignmentExpiry 0 s.assignments
    ↔ ∃ slot a, c = .assignmentExpiry slot ∧ s.assignment? slot = some a ∧ s.expired a.deadline = true := by
  rw [mem_dueFrom]
  simp only [Nat.zero_add]
  constructor
  · rintro ⟨j, x, hx, hdue, rfl⟩
    split at hdue
    next a ha => exact ⟨j, a, rfl, by rw [State.assignment?, heldAt, hx]; exact ha, hdue⟩
    next => cases hdue
  · rintro ⟨slot, a, rfl, ha, hdue⟩
    obtain ⟨x, hx, hheld⟩ := heldAt_some ha
    exact ⟨slot, x, hx, by simp [hheld, hdue], rfl⟩

/-- The lines hold just the expiries due at the tick. -/
theorem mem_dueLines (hrun : s.supply = .run) {c : Instr} : c ∈ s.dueLines.flatten ↔ DueNext s c := by
  have others : (s.ticked.dueOthers.map ([·])).flatten = s.ticked.dueOthers := by
    rw [← List.flatMap_def, List.flatMap_singleton']
  rw [State.dueLines, List.flatten_append, List.mem_append, mem_dueIntents, others, dueOthers_eq]
  simp only [List.mem_append, mem_dueLease, mem_dueWaiters, mem_dueAssignments, expired_ticked hrun, DueNext]
  constructor
  · rintro (⟨k, i, h⟩ | ((⟨d, h⟩ | ⟨d, h⟩) | ⟨k, w, h⟩) | ⟨k, a, h⟩)
    · exact .inr (.inl ⟨k, i, h⟩)
    · exact .inl ⟨.p0, d, h⟩
    · exact .inl ⟨.p1, d, h⟩
    · exact .inr (.inr (.inl ⟨k, w, h⟩))
    · exact .inr (.inr (.inr ⟨k, a, h⟩))
  · rintro (⟨p, d, h⟩ | ⟨k, i, h⟩ | ⟨k, w, h⟩ | ⟨k, a, h⟩)
    · cases p
      · exact .inr (.inl (.inl (.inl ⟨d, h⟩)))
      · exact .inr (.inl (.inl (.inr ⟨d, h⟩)))
    · exact .inl ⟨k, i, h⟩
    · exact .inr (.inl (.inr ⟨k, w, h⟩))
    · exact .inr (.inr ⟨k, a, h⟩)

/-! ## Each expiry stands once -/

theorem dueFrom_nodup {α : Type} (due : α → Bool) {cmd : Nat → Instr} (hcmd : Function.Injective cmd) (xs : List α) :
    (dueFrom due cmd 0 xs).Nodup := by
  obtain ⟨slots, hsorted, -, h⟩ := dueFrom_sorted due 0 xs
  rw [h cmd]
  exact (hsorted.imp Nat.ne_of_lt).map _ fun _ _ hne e => hne (hcmd e)

theorem dueLease_nodup (s : State) (p : Port) : (s.dueLease p).Nodup := by
  unfold State.dueLease
  split
  next => split <;> simp
  next => exact .nil

theorem dueOthers_nodup (s : State) : s.dueOthers.Nodup := by
  rw [dueOthers_eq]
  have waiters := dueFrom_nodup (fun x : Slot WaiterEntry => match x.held with
    | .waiting w => s.expired w.deadline | _ => false) (cmd := .waiterExpiry) (fun _ _ h => by cases h; rfl) s.waiters
  have assignments := dueFrom_nodup (fun x : Slot (Option Assignment) => match x.held with
    | some a => s.expired a.deadline | none => false) (cmd := .assignmentExpiry) (fun _ _ h => by cases h; rfl)
    s.assignments
  refine List.nodup_append.2 ⟨List.nodup_append.2 ⟨List.nodup_append.2 ⟨dueLease_nodup s .p0, dueLease_nodup s .p1, ?_⟩,
    waiters, ?_⟩, assignments, ?_⟩
  · intro a ha b hb
    obtain ⟨_, rfl, -⟩ := mem_dueLease.1 ha
    obtain ⟨_, rfl, -⟩ := mem_dueLease.1 hb
    simp
  · intro a ha b hb
    obtain ⟨_, _, rfl, -⟩ := mem_dueWaiters.1 hb
    rcases List.mem_append.1 ha with ha | ha <;> obtain ⟨_, rfl, -⟩ := mem_dueLease.1 ha <;> simp
  · intro a ha b hb
    obtain ⟨_, _, rfl, -⟩ := mem_dueAssignments.1 hb
    rcases List.mem_append.1 ha with ha | ha
    · rcases List.mem_append.1 ha with ha | ha <;> obtain ⟨_, rfl, -⟩ := mem_dueLease.1 ha <;> simp
    · obtain ⟨_, _, rfl, -⟩ := mem_dueWaiters.1 ha
      simp

/-- The line of the intents with one deadline. -/
def State.dueAt (s : State) (d : Nat) : List Instr :=
  dueFrom (fun x : Slot (Option Intent) => match x.held with | some i => decide (i.deadline = d) | none => false)
    .intentExpiry 0 s.intents

theorem dueIntents_eq (s : State) : s.dueIntents = s.dueDeadlines.map s.dueAt := rfl

theorem mem_dueAt {d : Nat} {c : Instr} : c ∈ s.dueAt d ↔ ∃ slot i, c = .intentExpiry slot ∧ s.intent? slot = some i
    ∧ i.deadline = d := by
  rw [State.dueAt, mem_dueFrom]
  simp only [Nat.zero_add]
  constructor
  · rintro ⟨j, x, hx, hdue, rfl⟩
    split at hdue
    next i hi => exact ⟨j, i, rfl, by rw [State.intent?, heldAt, hx]; exact hi, of_decide_eq_true hdue⟩
    next => cases hdue
  · rintro ⟨slot, i, rfl, hi, hd⟩
    obtain ⟨x, hx, hheld⟩ := heldAt_some hi
    exact ⟨slot, x, hx, by simp [hheld, hd], rfl⟩

theorem dueIntents_nodup (s : State) : s.dueIntents.flatten.Nodup := by
  rw [dueIntents_eq, ← List.flatMap_def, List.nodup_flatMap]
  refine ⟨fun d _ => dueFrom_nodup _ (fun _ _ h => by cases h; rfl) _, (eraseDups_nodup _).imp fun {d d'} hne => ?_⟩
  intro c hc hc'
  obtain ⟨k, i, rfl, hi, rfl⟩ := mem_dueAt.1 hc
  obtain ⟨k', i', e, hi', rfl⟩ := mem_dueAt.1 hc'
  cases e
  exact hne (congrArg Intent.deadline (Option.some.inj (hi.symm.trans hi')))

theorem dueLines_nodup (s : State) : s.dueLines.flatten.Nodup := by
  have others : (s.ticked.dueOthers.map ([·])).flatten = s.ticked.dueOthers := by
    rw [← List.flatMap_def, List.flatMap_singleton']
  rw [State.dueLines, List.flatten_append, others]
  refine List.nodup_append.2 ⟨dueIntents_nodup _, dueOthers_nodup _, fun a ha b hb => ?_⟩
  obtain ⟨_, _, rfl, -⟩ := mem_dueIntents.1 ha
  rw [dueOthers_eq] at hb
  simp only [List.mem_append, mem_dueLease, mem_dueWaiters, mem_dueAssignments] at hb
  rcases hb with ((⟨_, rfl, -⟩ | ⟨_, rfl, -⟩) | ⟨_, _, rfl, -⟩) | ⟨_, _, rfl, -⟩ <;> simp

/-! ## Intents of one deadline keep the order of their slots (R58) -/

/-- A sorted part of a list without repeats that holds all the picked entries of it stands in the list in its order. -/
theorem pairwise_of_sorted_part {l part : List Nat} (hl : l.Nodup) (hsub : part.Sublist l)
    (hsorted : part.Pairwise (· < ·)) {a b : Nat} (hab : [a, b].Sublist l) (ha : a ∈ part) (hb : b ∈ part) : a < b := by
  have e : part = l.filter (· ∈ part) := by
    have sub : part.Sublist (l.filter (· ∈ part)) := by
      have := hsub.filter (· ∈ part)
      rwa [List.filter_eq_self.2 (by simp)] at this
    refine sub.eq_of_length_le ((List.subperm_of_subset (hl.filter _) fun c hc => ?_).length_le)
    simpa using (List.mem_filter.1 hc).2
  have := hab.filter (· ∈ part)
  rw [List.filter_eq_self.2 (by simp [ha, hb]), ← e] at this
  exact List.pairwise_iff_forall_sublist.1 hsorted this

/-- An order that holds each expiry due once, and each line in its own order, has the intents of one deadline in the order of
their slots. -/
theorem slots_in_order (hrun : s.supply = .run) {order : List Instr} (hperm : order.Perm s.dueLines.flatten)
    (hlines : ∀ line ∈ s.dueLines, line.Sublist order) : (order.filterMap intentSlotOf).Pairwise fun a b =>
      ∀ i j, s.intent? a = some i → s.intent? b = some j → i.deadline = j.deadline → a < b := by
  have hnodup : order.Nodup := hperm.nodup_iff.2 (dueLines_nodup s)
  have hslots : (order.filterMap intentSlotOf).Nodup := by
    refine hnodup.filterMap fun c c' k hk hk' => ?_
    cases c <;> cases hk
    cases c' <;> cases hk'
    rfl
  refine List.pairwise_iff_forall_sublist.2 fun {a b} hab i j hi hj hd => ?_
  obtain ⟨slots, hsorted, -, hslotsOf⟩ := dueFrom_sorted (fun x : Slot (Option Intent) => match x.held with
    | some y => decide (y.deadline = i.deadline) | none => false) 0 s.intents
  have hline : s.ticked.dueAt i.deadline = slots.map .intentExpiry := hslotsOf .intentExpiry
  have mem {k : Nat} {y : Intent} (hy : s.intent? k = some y) (e : y.deadline = i.deadline) : k ∈ slots := by
    have : Instr.intentExpiry k ∈ s.ticked.dueAt i.deadline := mem_dueAt.2 ⟨k, y, rfl, hy, e⟩
    rw [hline] at this
    obtain ⟨k', hk', e'⟩ := List.mem_map.1 this
    cases e'
    exact hk'
  have hexpired : s.ticked.expired i.deadline = true := by
    have hin : a ∈ order.filterMap intentSlotOf := hab.subset (by simp)
    obtain ⟨c, hc, hca⟩ := List.mem_filterMap.1 hin
    cases c <;> cases hca
    have := (hperm.mem_iff.1 hc)
    rw [mem_dueLines hrun] at this
    rcases this with ⟨_, _, e, -⟩ | ⟨k, y, e, hy, hdue⟩ | ⟨_, _, e, -⟩ | ⟨_, _, e, -⟩
    · cases e
    · cases e
      cases hi.symm.trans hy
      exact (expired_ticked hrun _).2 hdue
    · cases e
    · cases e
  have hsub : slots.Sublist (order.filterMap intentSlotOf) := by
    have hin : s.ticked.dueAt i.deadline ∈ s.dueLines :=
      List.mem_append_left _ (List.mem_map.2 ⟨_, mem_dueDeadlines.2 ⟨hexpired, a, i, hi, rfl⟩, rfl⟩)
    have := (hlines _ hin).filterMap intentSlotOf
    rwa [hline, List.filterMap_map, show intentSlotOf ∘ Instr.intentExpiry = some from rfl, List.filterMap_some] at this
  exact pairwise_of_sorted_part hslots hsub hsorted hab (mem hi rfl) (mem hj hd.symm)

/-- Settles O2: the tick's lines hold just the expiries due, each once, and every order of them keeps each line's own. -/
theorem emptyQueueTicks : Obligations.EmptyQueueTicks := by
  intro s hempty
  have hstep : step s = .next s.idle := by rw [step, hempty]
  refine ⟨fun hrun hclock => ?ticks, fun hidle => ?stands⟩
  case ticks =>
    have hperm := interleave_perm s.dueLines.flatten.length s.choices s.dueLines
    refine ⟨(interleave s.dueLines.flatten.length s.choices s.dueLines).1,
      (interleave s.dueLines.flatten.length s.choices s.dueLines).2, ?_, fun c => ?_, ?_, ?_⟩
    · rw [hstep, State.idle, if_pos ⟨hrun, hclock⟩, State.tick]
      simp only [hempty, List.nil_append]
      rfl
    · rw [hperm.mem_iff, mem_dueLines hrun]
    · exact hperm.nodup_iff.2 (dueLines_nodup s)
    · exact slots_in_order hrun hperm fun line hline => interleave_sublist _ _ _ hline
  case stands =>
    rw [hstep, State.idle, if_neg]
    rintro ⟨hrun, hclock⟩
    rcases hidle with h | h
    · exact h hrun
    · rw [h] at hclock; cases hclock

end Sys2Proof.Machine
end

section
/-! PROOF. Reset, the supply events and the start (Table 10-1, R162 to R167). -/

namespace Sys2Proof.Machine

variable {s t : State}

/-! ## Reset -/

theorem reset_volume? (v : Nat) : State.reset.volume? v = none := volume?_emptied rfl v

theorem reset_intent? (k : Nat) : State.reset.intent? k = none := heldAt_replicate _ k _

theorem reset_assignment? (k : Nat) : State.reset.assignment? k = none := heldAt_replicate _ k _

theorem reset_waiter? (k : Nat) : State.reset.waiter? k = none := by
  have h : State.reset.waiterEntry k = .vacant := by
    rw [waiterEntry_eq, show State.reset.waiters = List.replicate Config.waiterSlots ⟨0, .vacant⟩ from rfl,
      List.getElem?_replicate]
    split <;> rfl
  rw [State.waiter?, h]

theorem reset_port (p : Port) : State.reset.port p = PortRecord.reset := by cases p <;> rfl

/-- Settles O58: right after reset there is no volume, no intent, no waiter and no assignment, and both ports are as a cold
start leaves them. -/
theorem resetMeetsInvariants : Obligations.ResetMeetsInvariants := by
  have noVolume {P : Prop} {v : Nat} {x : Volume} (h : State.reset.volume? v = some x) : P := by
    rw [reset_volume?] at h; cases h
  have noIntent {P : Prop} {k : Nat} {i : Intent} (h : State.reset.intent? k = some i) : P := by
    rw [reset_intent?] at h; cases h
  refine ⟨fun v x hx => noVolume hx, fun p => ?attn, fun _ => ⟨rfl, rfl⟩, fun p => ?bounded, fun p => ?idle,
    ⟨fun v x hx => noVolume hx, fun v w x y _ hx => noVolume hx⟩, fun a b i j _ hi => noIntent hi,
    ⟨fun p => ?intents, fun slot i hi => noIntent hi, fun v x hx => noVolume hx⟩,
    (assignmentsAgree_iff _).2 ⟨fun p => ?assignments, fun slot a ha => ?noAssignment, fun v e l hl => ?noLink⟩,
    .of_empty rfl reset_waiter?, ?sizes⟩
  case attn => rw [reset_port]; rfl
  case bounded => rw [reset_port]; exact bounded_empty 0
  case idle => rw [reset_port]; exact ⟨fun h => (by cases h), fun _ => ⟨rfl, rfl, rfl⟩⟩
  case intents => rw [reset_port, countIntents_eq]; exact (countHeld_replicate _ _ _).symm
  case assignments => rw [reset_port]; exact (countHeld_replicate _ _ _).symm
  case noAssignment => rw [reset_assignment?] at ha; cases ha
  case noLink => rw [linkAt_absent (reset_volume? v)] at hl; cases hl
  case sizes =>
    exact ⟨List.length_replicate, List.length_replicate, List.length_replicate, List.length_replicate,
      fun p => by rw [reset_port]; rfl, (by decide : 15 < 16)⟩

/-! ## Bursts and ATTN lines at a supply event -/

/-- Where a port did not hear bursts before the event and after it, a burst under way is discarded. -/
theorem noteBursts_cut (h : ∀ p, (s.accepts p && t.accepts p) = false) (sel0 sel1 : Bool) :
    t.noteBursts s sel0 sel1 = { t with
      port0 := { t.port0 with burst := cutBurst sel0 }, port1 := { t.port1 with burst := cutBurst sel1 } } := by
  have second : (s.accepts .p1 && (t.noteBurst s .p0 sel0).accepts .p1) = false := h .p1
  rw [State.noteBursts, State.noteBurst, second, State.noteBurst, h .p0, burstAt_unaccepted, burstAt_unaccepted]
  rfl

theorem accepts_false (h : s.supply = .hold ∨ s.supply = .off) (p : Port) : s.accepts p = false := by
  rcases h with h | h <;> simp [State.accepts, h]

theorem attnRule_not_run {supply : Supply} (h : supply ≠ .run) (p : PortRecord) : attnRule supply p = false := by
  simp [attnRule, h]

theorem attnRule_closed {p : PortRecord} (h : p.session.state = .closed) (supply : Supply) : attnRule supply p = false := by
  simp [attnRule, h]

/-- Outside RUN both lines settle low. -/
theorem settleAttn_quiet (h : s.supply ≠ .run) : s.settleAttn =
    { s with port0 := { s.port0 with attn := false }, port1 := { s.port1 with attn := false } } := by
  rw [State.settleAttn, attnRule_not_run h, attnRule_not_run h]

theorem readPins_holds (hs : s.supply = .run ∨ s.supply = .starting) (hp : s.pfail = true ∨ s.resetn = true) :
    s.readPins = { s with supply := .hold }.settleAttn := by
  rw [State.readPins, if_pos ⟨hs, hp⟩]

theorem readPins_stands (hs : s.supply = .hold ∨ s.supply = .off) : s.readPins = s := by
  rw [State.readPins, if_neg]
  rintro ⟨h | h, -⟩ <;> rcases hs with hs | hs <;> rw [hs] at h <;> cases h

theorem readPins_supply (h : s.supply = .run ∨ s.supply = .starting) (hp : s.pfail = true ∨ s.resetn = true) (p : Port) :
    s.readPins.accepts p = false := by
  rw [readPins_holds h hp]
  exact accepts_false (.inl rfl) p

/-- Settles O49: each row of Table 10-1 by the supply state, through the two lemmas on the lines and on the bursts. -/
theorem supplyEventsFollowTable : Obligations.SupplyEventsFollowTable := by
  intro s sel0 sel1 quiet cut
  have quiesced (u : State) (hs : u.supply = .run ∨ u.supply = .starting) (hp : u.pfail = true ∨ u.resetn = true) :
      u.readPins.noteBursts s sel0 sel1 = cut (quiet { u with supply := .hold }) := by
    rw [noteBursts_cut (fun p => by rw [readPins_supply hs hp p, Bool.and_false]), readPins_holds hs hp,
      settleAttn_quiet (by decide : Supply.hold ≠ .run)]
  have unheard (hs : s.supply = .hold ∨ s.supply = .off) (u : State) : u.noteBursts s sel0 sel1 = cut u :=
    noteBursts_cut (fun p => by rw [accepts_false hs p, Bool.false_and]) sel0 sel1
  refine ⟨fun hs => ⟨?pfail, ?resetn⟩, fun hs => ⟨?pfailStands, ?resetnStands⟩, fun hoff => ?arrives, fun hon => ?stays,
    ?lost, rfl, fun hoff => ?falls, fun hon => ?holds, fun hoff pf => ?startOff, fun hhold => ?startHold, fun hs => ?complete⟩
  case pfail => exact congrArg Host.Outcome.next (quiesced { s with pfail := true } hs (.inl rfl))
  case resetn => exact congrArg Host.Outcome.next (quiesced { s with resetn := true } hs (.inr rfl))
  case pfailStands =>
    refine congrArg Host.Outcome.next ?_
    rw [readPins_stands (s := s.assertPin .pfail) hs]
    exact unheard hs _
  case resetnStands =>
    refine congrArg Host.Outcome.next ?_
    rw [readPins_stands (s := s.assertPin .resetn) hs]
    exact unheard hs _
  case arrives => exact congrArg Host.Outcome.next (if_pos hoff)
  case stays => exact congrArg Host.Outcome.next (if_neg hon)
  case lost => exact congrArg Host.Outcome.next (settleAttn_quiet (by decide : Supply.off ≠ .run))
  case falls => exact congrArg Host.Outcome.next (if_pos (.inr hoff))
  case holds => exact congrArg Host.Outcome.next (if_neg (by simp [hon]))
  case startOff =>
    refine congrArg Host.Outcome.next ?_
    dsimp only
    rw [if_neg (by simp [hoff]), readPins_stands (by exact .inr hoff)]
    exact unheard (.inr hoff) _
  case startHold =>
    refine congrArg Host.Outcome.next ?_
    dsimp only
    rw [if_neg (by simp), readPins_stands (by exact .inl hhold)]
    exact unheard (.inl hhold) _
  case complete => exact congrArg Host.Outcome.next (if_neg hs)

/-! ## The start (R165 to R167) -/

/-- A release of RESETN in HOLD with PFAIL released begins a start, and a burst under way is discarded. -/
theorem exec_start_begins (hhold : s.supply = .hold) (sel0 sel1 : Bool) {t : State}
    (ht : { (State.clearVolatile { s with resetn := false, pfail := false }).restoreArray with supply := .starting } = t) :
    exec (.start false sel0 sel1) s = .next { t with
      port0 := { t.port0 with attn := false, burst := cutBurst sel0 }
      port1 := { t.port1 with attn := false, burst := cutBurst sel1 } } := by
  subst ht
  refine congrArg Host.Outcome.next ?_
  dsimp only
  rw [if_pos ⟨hhold, rfl⟩, noteBursts_cut (fun p => by rw [accepts_false (.inl hhold) p, Bool.false_and]),
    settleAttn_quiet (by decide : Supply.starting ≠ .run)]

/-- The completion of a start (R165). -/
theorem exec_startComplete (hs : s.supply = .starting) :
    exec .startComplete s = .next { s.recordStart with supply := .run }.settleAttn :=
  congrArg Host.Outcome.next (if_pos hs)

theorem settleAttn_closed (h : ∀ p, (s.port p).session.state = .closed ∧ (s.port p).attn = false) : s.settleAttn = s := by
  refine State.ext_port (fun p => ?_) rfl
  obtain ⟨hclosed, hattn⟩ := h p
  rw [State.settleAttn_port, attnRule_closed hclosed, ← hattn]

/-- Settles O50: without the mark the array is emptied, and the record of the start is made from what was decided. -/
theorem coldStartEmptiesPart : Obligations.ColdStartEmptiesPart := by
  refine ⟨fun s sel0 sel1 hhold hinvalid => ?cold, fun s hs hcold => ?always⟩
  case cold =>
    refine ⟨(exec_start_begins hhold sel0 sel1 rfl).trans (congrArg Host.Outcome.next ?_),
      (exec_startComplete rfl).trans (congrArg Host.Outcome.next ?_)⟩
    · simp only [State.restoreArray, State.clearVolatile, hinvalid, Bool.false_eq_true, if_false]
      rfl
    · exact settleAttn_closed fun p => by cases p <;> exact ⟨rfl, rfl⟩
  case always =>
    rw [exec_startComplete hs, State.recordStart, hcold]

/-! ## The array through a warm start (R27, R43, R166) -/

/-- What R27 and R43 make of an extent at a warm start: the _ONLY states and LOST stay, and of the others the healths say
which copies an abandon leaves current. -/
theorem warmExtent_eq (ha hb : Health) (y : Extent) : warmExtent ha hb y = ⟨warmState ha hb y, 0, none⟩ := by
  obtain ⟨st, count, link⟩ := y
  cases st with
  | aOnly | bOnly | lost => rfl
  | synced | suspect | void => cases ha <;> cases hb <;> rfl

/-- A record after a warm start. -/
theorem warmed_does (x : Volume) : x.warmed.geometry = x.geometry ∧ x.warmed.copyA.errors = x.copyA.errors
    ∧ x.warmed.copyB.errors = x.copyB.errors ∧ x.warmed.threshold = x.threshold ∧ x.warmed.policy = x.policy
    ∧ x.warmed.authority = x.authority ∧ x.warmed.toggle = .a ∧ x.warmed.cursor = 0 ∧ x.warmed.openIntents = 0
    ∧ x.warmed.recount = x.warmed
    ∧ x.warmed.extents = x.extents.map (fun y => ⟨warmState x.copyA.health x.copyB.health y, 0, none⟩)
    ∧ ∀ c, x.warmed.health c
        = (if x.health c = .rebuilding ∧ (x.warmed.copy c).stale = 0 then .online else x.health c) := by
  have errors (c : CopyRecord) : c.rebuilt.errors = c.errors := by rw [CopyRecord.rebuilt]; split <;> rfl
  have health (c : CopyRecord) : c.rebuilt.health = if c.health = .rebuilding ∧ c.stale = 0 then .online else c.health := by
    rw [CopyRecord.rebuilt]; split <;> rfl
  refine ⟨rfl, errors _, errors _, rfl, rfl, rfl, rfl, rfl, rfl, rfl, ?_, fun c => ?_⟩
  · exact List.map_congr_left fun y _ => warmExtent_eq _ _ y
  · cases c <;> exact health _

/-- Settles O51: with the mark valid the array keeps its records, each through `warmed_does`. -/
theorem warmStartConvertsExtents : Obligations.WarmStartConvertsExtents := by
  refine ⟨fun s sel0 sel1 hhold hvalid => ⟨s.volumes.map (Option.map Volume.warmed), ?begins, ?completes, fun v hv => ?absent,
    fun v x hv => ?present⟩, fun s hs hwarm => ?always⟩
  case begins =>
    refine (exec_start_begins hhold sel0 sel1 rfl).trans (congrArg Host.Outcome.next ?_)
    simp only [State.restoreArray, State.clearVolatile, hvalid, if_true]
    rfl
  case completes =>
    rw [exec_startComplete rfl]
    exact congrArg Host.Outcome.next (settleAttn_closed fun p => by cases p <;> exact ⟨rfl, rfl⟩)
  case absent => rw [volume?_map (s := s) rfl, hv]; rfl
  case present => exact ⟨x.warmed, by rw [volume?_map (s := s) rfl, hv]; rfl, warmed_does x⟩
  case always =>
    rw [exec_startComplete hs, State.recordStart, hwarm]

end Sys2Proof.Machine
end

section
/-! PROOF. Request frames: their layout (Table 9-5), the CRC (R152) and the frame check (R151). -/

namespace Sys2Proof.Machine

/-! ## Numbers and bytes -/

/-- Bytes are the digits of the number that they spell (R160). -/
theorem bytesOf_numberOf (bytes : List Byte) : bytesOf bytes.length (numberOf bytes) = bytes := by
  induction bytes with
  | nil => rfl
  | cons b bs ih =>
    have hlt := numberOf_lt bs
    have hpos : 0 < 256 ^ bs.length := Nat.pos_of_ne_zero (by positivity)
    have digits (n : Nat) : ∀ k v, k ≤ n → bytesOf k (v + b.toNat * 256 ^ n) = bytesOf k v := by
      intro k
      induction k with
      | zero => intros; rfl
      | succ k ih =>
        intro v hk
        rw [bytesOf, bytesOf, ih v (by omega)]
        congr 1
        obtain ⟨d, rfl⟩ : ∃ d, n = k + 1 + d := ⟨n - (k + 1), by omega⟩
        have e : v + b.toNat * 256 ^ (k + 1 + d) = v + 256 ^ k * (256 * (b.toNat * 256 ^ d)) := by ring
        rw [e, Nat.add_mul_div_left _ _ (by positivity)]
        apply BitVec.eq_of_toNat_eq
        simp [Nat.add_mul_mod_self_left]
    rw [List.length_cons, bytesOf, numberOf_cons, add_comm, digits bs.length bs.length _ le_rfl, ih]
    congr 1
    rw [Nat.add_mul_div_right _ _ hpos, Nat.div_eq_of_lt hlt, zero_add, BitVec.ofNat_toNat, BitVec.setWidth_eq]

/-- Equal bytes spell equal numbers, so a number that fits is known from its bytes. -/
theorem bytesOf_injective {n v w : Nat} (hv : v < 256 ^ n) (hw : w < 256 ^ n) (h : bytesOf n v = bytesOf n w) : v = w := by
  have := congrArg numberOf h
  rwa [numberOf_bytesOf, numberOf_bytesOf, Nat.mod_eq_of_lt hv, Nat.mod_eq_of_lt hw] at this

/-! ## The layout of a request frame (Table 9-5) -/

/-- The bytes of a request frame before its CRC. -/
def frameBody (code : Byte) (r : Request) : List Byte :=
  code :: r.seq :: bytesOf 2 r.epoch.toNat ++ BitVec.ofNat 8 r.params.length :: r.params

theorem requestFrame_eq (code : Byte) (r : Request) : requestFrame code r = frameBody code r ++ crcBytes (frameBody code r) := rfl

theorem frameBody_eq (code : Byte) (r : Request) : frameBody code r = code :: r.seq ::
    BitVec.ofNat 8 (r.epoch.toNat / 256) :: BitVec.ofNat 8 r.epoch.toNat :: BitVec.ofNat 8 r.params.length :: r.params := by
  simp [frameBody, bytesOf]

theorem frameBody_length (code : Byte) (r : Request) : (frameBody code r).length = 5 + r.params.length := by
  rw [frameBody_eq]
  simp only [List.length_cons]
  omega

theorem lengthByte {r : Request} (h : r.params.length ≤ 40) : (BitVec.ofNat 8 r.params.length).toNat = r.params.length := by
  rw [BitVec.toNat_ofNat]
  omega

theorem requestFrame_lengthByte (code : Byte) (r : Request) :
    byteAt (requestFrame code r) 4 = BitVec.ofNat 8 r.params.length := by
  rw [requestFrame_eq, frameBody_eq]
  rfl

/-- A sealed request frame passes the frame check. -/
theorem frameCheck_requestFrame (code : Byte) {r : Request} (h : r.params.length ≤ 40) :
    frameCheck (requestFrame code r) = none := by
  have hlen : (byteAt (requestFrame code r) 4).toNat = r.params.length := by
    rw [requestFrame_lengthByte, lengthByte h]
  refine frameCheck_good (by rw [hlen]; exact h) (by rw [hlen, requestFrame_length]) ?_
  rw [hlen, ← frameBody_length code r, requestFrame_eq, List.drop_left, List.take_left]

/-- The epoch field is read back. -/
theorem epoch_read (w : Word16) : BitVec.ofNat 16 (numberOf [BitVec.ofNat 8 (w.toNat / 256), BitVec.ofNat 8 w.toNat]) = w := by
  have h : [BitVec.ofNat 8 (w.toNat / 256), BitVec.ofNat 8 w.toNat] = bytesOf 2 w.toNat := by simp [bytesOf]
  rw [h, numberOf_bytesOf, Nat.mod_eq_of_lt (show w.toNat < 256 ^ 2 from w.isLt), BitVec.ofNat_toNat, BitVec.setWidth_eq]

/-- The request of a frame is read back from it, all operands. -/
theorem requestIn_requestFrame (code : Byte) {r : Request} (h : r.params.length ≤ 40) :
    requestIn r.toSelect (requestFrame code r) = r := by
  have hlen := (congrArg BitVec.toNat (requestFrame_lengthByte code r)).trans (lengthByte h)
  rw [requestIn, hlen]
  have hseq : byteAt (requestFrame code r) 1 = r.seq := by rw [requestFrame_eq, frameBody_eq]; rfl
  have hepoch : BitVec.ofNat 16 (field (requestFrame code r) 2 2) = r.epoch := by
    rw [requestFrame_eq, frameBody_eq]
    exact epoch_read r.epoch
  have hparams : ((requestFrame code r).drop 5).take r.params.length = r.params := by
    rw [requestFrame_eq, frameBody_eq]
    exact List.take_left
  rw [hseq, hepoch, hparams]

/-- A burst that passes the frame check is the frame of the request that it holds. -/
theorem frame_of_good {bytes : List Byte} (h : frameCheck bytes = none) (b : Select) :
    (requestIn b bytes).params.length ≤ 40 ∧ bytes = requestFrame (byteAt bytes 0) (requestIn b bytes) := by
  obtain ⟨h40, hlen, hcrc⟩ := shape_of_good h
  obtain ⟨b0, b1, b2, b3, b4, rest, rfl⟩ : ∃ b0 b1 b2 b3 b4 rest, bytes = b0 :: b1 :: b2 :: b3 :: b4 :: rest := by
    match bytes, hlen with
    | b0 :: b1 :: b2 :: b3 :: b4 :: rest, _ => exact ⟨b0, b1, b2, b3, b4, rest, rfl⟩
  have hlength : byteAt (b0 :: b1 :: b2 :: b3 :: b4 :: rest) 4 = b4 := rfl
  rw [hlength] at h40 hlen hcrc
  have hrest : rest.length = b4.toNat + 2 := by simp only [List.length_cons] at hlen; omega
  have hparams : (requestIn b (b0 :: b1 :: b2 :: b3 :: b4 :: rest)).params = rest.take b4.toNat := rfl
  have hcount : (rest.take b4.toNat).length = b4.toNat := by rw [List.length_take]; omega
  refine ⟨by rw [hparams, hcount]; exact h40, ?_⟩
  have hepoch : bytesOf 2 (requestIn b (b0 :: b1 :: b2 :: b3 :: b4 :: rest)).epoch.toNat = [b2, b3] := by
    have hlt : numberOf [b2, b3] < 2 ^ 16 := lt_of_lt_of_eq (numberOf_lt [b2, b3]) (by norm_num)
    have e : (requestIn b (b0 :: b1 :: b2 :: b3 :: b4 :: rest)).epoch = BitVec.ofNat 16 (numberOf [b2, b3]) := rfl
    rw [e, BitVec.toNat_ofNat, Nat.mod_eq_of_lt hlt]
    exact bytesOf_numberOf [b2, b3]
  have hbody : frameBody b0 (requestIn b (b0 :: b1 :: b2 :: b3 :: b4 :: rest))
      = (b0 :: b1 :: b2 :: b3 :: b4 :: rest).take (5 + b4.toNat) := by
    rw [frameBody, hepoch, hparams, hcount, BitVec.ofNat_toNat, BitVec.setWidth_eq, Nat.add_comm]
    rfl
  rw [requestFrame_eq, show byteAt (b0 :: b1 :: b2 :: b3 :: b4 :: rest) 0 = b0 from rfl, hbody, ← hcrc,
    List.take_append_drop]

/-- Settles O3: a frame is read back from its bytes, and a sealed frame has the shape that the check asks for. -/
theorem goodFramesAreSealedRequests : Obligations.GoodFramesAreSealedRequests := by
  intro bytes
  constructor
  · intro h
    obtain ⟨h40, e⟩ := frame_of_good h ⟨.p0, false⟩
    exact ⟨_, _, h40, e⟩
  · rintro ⟨code, r, h40, rfl⟩
    exact frameCheck_requestFrame code h40

/-! ## The CRC tells one changed byte (R152) -/

theorem crcBit_zeroth (c : Word16) : (crcBit c).getLsbD 0 = c.msb := by
  rw [crcBit]
  split
  next h => simp [h]
  next h => simpa using h

theorem crcBit_injective : Function.Injective crcBit := by
  intro c d h
  have hmsb : c.msb = d.msb := by rw [← crcBit_zeroth, ← crcBit_zeroth, h]
  have hshift : c <<< 1 = d <<< 1 := by
    rw [crcBit, crcBit, hmsb] at h
    split at h
    next => exact (BitVec.xor_left_inj _).1 h
    next => exact h
  apply BitVec.eq_of_getLsbD_eq
  intro i hi
  by_cases htop : i = 15
  · subst htop
    simpa [BitVec.msb_eq_getLsbD_last] using hmsb
  · have := congrArg (fun x : Word16 => x.getLsbD (i + 1)) hshift
    simpa [show i + 1 < 16 by omega, BitVec.getLsbD_eq_getElem, hi] using this

theorem byteShift_injective {b b' : Byte} (h : b.setWidth 16 <<< 8 = b'.setWidth 16 <<< 8) : b = b' := by
  apply BitVec.eq_of_getLsbD_eq
  intro i hi
  have := congrArg (fun x : Word16 => x.getLsbD (i + 8)) h
  simpa [show i + 8 < 16 by omega, show i < 16 by omega, hi] using this

/-- Eight bits of the CRC lose nothing. -/
theorem crcByte_injective {c d : Word16} {b b' : Byte} (h : crcByte c b = crcByte d b') :
    c ^^^ (b.setWidth 16 <<< 8) = d ^^^ (b'.setWidth 16 <<< 8) :=
  crcBit_injective (crcBit_injective (crcBit_injective (crcBit_injective (crcBit_injective (crcBit_injective
    (crcBit_injective (crcBit_injective h)))))))

theorem foldl_crcByte_injective (bytes : List Byte) {c d : Word16} (h : bytes.foldl crcByte c = bytes.foldl crcByte d) :
    c = d := by
  induction bytes generalizing c d with
  | nil => exact h
  | cons b bs ih => exact (BitVec.xor_left_inj _).1 (crcByte_injective (ih h))

/-- One changed byte changes the CRC. -/
theorem crc16_changed (pre post : List Byte) {b b' : Byte} (h : b ≠ b') :
    crc16 (pre ++ b :: post) ≠ crc16 (pre ++ b' :: post) := by
  intro e
  simp only [crc16, List.foldl_append, List.foldl_cons] at e
  exact h (byteShift_injective ((BitVec.xor_right_inj _).1 (crcByte_injective (foldl_crcByte_injective post e))))

theorem crcBytes_injective {xs ys : List Byte} (h : crcBytes xs = crcBytes ys) : crc16 xs = crc16 ys :=
  BitVec.eq_of_toNat_eq (bytesOf_injective (n := 2) (crc16 xs).isLt (crc16 ys).isLt h)

/-- A changed byte in a body makes another CRC. -/
theorem crcBytes_set {bytes : List Byte} {k : Nat} {b : Byte} (hk : k < bytes.length) (hb : bytes[k]? ≠ some b) :
    crcBytes (bytes.set k b) ≠ crcBytes bytes := by
  intro h
  have hsplit : bytes = bytes.take k ++ bytes[k] :: bytes.drop (k + 1) := by
    rw [← List.drop_eq_getElem_cons hk, List.take_append_drop]
  have hset : bytes.set k b = bytes.take k ++ b :: bytes.drop (k + 1) := List.set_eq_take_append_cons_drop.trans (if_pos hk)
  have hne : b ≠ bytes[k] := fun e => hb (by rw [e, List.getElem?_eq_getElem hk])
  refine crc16_changed (bytes.take k) (bytes.drop (k + 1)) hne ?_
  rw [← hset, ← hsplit]
  exact crcBytes_injective h

/-- Settles O4: a change of the length byte leaves a wrong length, a change elsewhere in the body another CRC, and a change
of the CRC a wrong one. -/
theorem oneByteErrorsAreCaught : Obligations.OneByteErrorsAreCaught := by
  intro bytes k b hgood hk hb
  by_contra hnone
  have hbad : frameCheck (bytes.set k b) = none := by simpa using hnone
  obtain ⟨-, hlen, hcrc⟩ := shape_of_good hgood
  obtain ⟨-, hlen', hcrc'⟩ := shape_of_good hbad
  rw [List.length_set, hlen] at hlen'
  have hlengths : byteAt (bytes.set k b) 4 = byteAt bytes 4 := BitVec.eq_of_toNat_eq (by omega)
  rw [hlengths] at hcrc'
  by_cases hbody : k < 5 + (byteAt bytes 4).toNat
  · have hdrop : (bytes.set k b).drop (5 + (byteAt bytes 4).toNat) = bytes.drop (5 + (byteAt bytes 4).toNat) :=
      List.drop_set_of_lt hbody
    rw [hdrop, hcrc, List.take_set] at hcrc'
    refine crcBytes_set ?_ ?_ hcrc'.symm
    · rw [List.length_take]; omega
    · rwa [List.getElem?_take, if_pos hbody]
  · have htake : (bytes.set k b).take (5 + (byteAt bytes 4).toNat) = bytes.take (5 + (byteAt bytes 4).toNat) :=
      List.take_set_of_le (by omega)
    rw [htake, ← hcrc] at hcrc'
    refine hb ?_
    have hread := congrArg (fun l : List Byte => l[k - (5 + (byteAt bytes 4).toNat)]?) hcrc'
    simp only [List.getElem?_drop] at hread
    rw [show 5 + (byteAt bytes 4).toNat + (k - (5 + (byteAt bytes 4).toNat)) = k by omega, List.getElem?_set_self hk] at hread
    exact hread.symm

/-! ## Bursts spell commands (R147, R151, R156) -/

/-- A command that a good frame carries is its code's row, served by its owner, or BAD_CODE. -/
theorem frame_cases {i : Instr} {code : Byte} {r : Request} (hf : i.frame? = some (code, r)) :
    (requestOf code r = some i ∧ ∃ row own, catalogueRow code = some row ∧ ∀ s, exec i s = .next (s.serve r code own))
    ∨ i = .badCode r code := by
  cases i <;> cases hf
  case badCode => exact .inr rfl
  all_goals exact .inl ⟨rfl, _, _, rfl, fun _ => rfl⟩

theorem wf_of_frame {i : Instr} {code : Byte} {r : Request} (hf : i.frame? = some (code, r)) (hwf : i.wf = true) :
    r.params.length ≤ 40 := by
  have ofRequest : r.wf = true → r.params.length ≤ 40 := fun h => of_decide_eq_true h
  cases i <;> cases hf
  case badCode =>
    simp only [Instr.wf, Bool.and_eq_true] at hwf
    exact ofRequest hwf.1.1
  all_goals exact ofRequest hwf

/-- No code of the catalogue is 0x00, the first byte of a read burst. -/
theorem code_ne_zero {i : Instr} {code : Byte} {r : Request} (hf : i.frame? = some (code, r)) (hwf : i.wf = true) :
    code ≠ 0 := by
  cases i <;> cases hf
  case badCode =>
    simp only [Instr.wf, Bool.and_eq_true, bne_iff_ne] at hwf
    exact hwf.1.2
  all_goals decide

theorem requestOf_badCode {r : Request} {code : Byte} (hwf : (Instr.badCode r code).wf = true) : requestOf code r = none := by
  rcases Laws.CodeSpellsCommand.badCode r code code r rfl hwf with h | ⟨h, -⟩
  · exfalso
    unfold requestOf at h
    split at h <;> cases h
  · exact h

theorem decodeBurst_frame {code : Byte} (hcode : code ≠ 0) {r : Request} (h : r.params.length ≤ 40) :
    decodeBurst r.toSelect (requestFrame code r) = some ((requestOf code r).getD (.badCode r code)) := by
  have hcons : requestFrame code r = code :: (requestFrame code r).tail := by
    rw [requestFrame_eq, frameBody_eq]; rfl
  have hgood := frameCheck_requestFrame code h
  have hread := requestIn_requestFrame code h
  rw [hcons] at hgood hread ⊢
  simp only [decodeBurst, if_neg hcode, hgood, hread]
  cases requestOf code r <;> rfl

/-- Settles O5: a read burst and a bad frame are told by their bytes, and a good frame gives its request back. -/
theorem burstDecodesToItsCommand : Obligations.BurstDecodesToItsCommand := by
  intro i b bytes hwf hencode
  have framed {code : Byte} {r : Request} (hf : i.frame? = some (code, r)) :
      decodeBurst r.toSelect (requestFrame code r) = some i := by
    rw [decodeBurst_frame (code_ne_zero hf hwf) (wf_of_frame hf hwf)]
    rcases frame_cases hf with ⟨hrow, -⟩ | rfl
    · rw [hrow]; rfl
    · rw [requestOf_badCode hwf]; rfl
  cases i with
  | readBurst b' n =>
    cases hencode
    obtain ⟨n, rfl⟩ : ∃ k, n = k + 1 := ⟨n - 1, by have : 1 ≤ n := of_decide_eq_true hwf; omega⟩
    simp [decodeBurst, List.replicate_succ]
  | frameError b' bytes' =>
    cases hencode
    simp only [Instr.wf, badBurst, Bool.and_eq_true, Bool.not_eq_true', bne_iff_ne] at hwf
    obtain ⟨⟨hne, hfirst⟩, hbad⟩ := hwf
    obtain ⟨why, hwhy⟩ := Option.isSome_iff_exists.1 hbad
    cases bytes with
    | nil => cases hne
    | cons code rest =>
      have hcode : code ≠ 0 := hfirst
      simp only [decodeBurst, if_neg hcode, hwhy]
  | prst | quiesce | mainSupplyArrives | mainSupplyLost | vbakBelowThreshold | start | startComplete | leaseExpiry
  | intentExpiry | waiterExpiry | assignmentExpiry | prstRelease => cases hencode
  | _ => cases hencode; exact framed rfl

end Sys2Proof.Machine
end

section
/-! PROOF. What the link does with a burst: read bursts (R147, R155), bad frames (R151), and the checks before a request's owner
(R155, R156). -/

namespace Sys2Proof.Machine

variable {s : State} {b : Select} {r : Request}

/-! ## Bursts that the link does not hear -/

theorem accepts_off (h : s.supply = .off) (p : Port) : s.accepts p = false := by simp [State.accepts, h]

theorem hears_off (h : s.supply = .off) (b : Select) : s.hears b = false := by simp [State.hears, accepts_off h]

theorem endBurst_eq (s : State) (p : Port) (out : List Byte) :
    s.endBurst p out = s.setPort p { s.port p with burst := .none, sdo := out } := rfl

theorem shiftOnes_off (h : s.supply = .off) (p : Port) (n : Nat) : s.shiftOnes p n = s.endBurst p [] := by
  simp [State.shiftOnes, h]

theorem shiftOnes_on (h : s.supply ≠ .off) (p : Port) (n : Nat) : s.shiftOnes p n = s.endBurst p (List.replicate n 0xFF) := by
  simp [State.shiftOnes, h]

/-! ## Read bursts (R147, R155) -/

/-- The response that the link shows: its refusal, else its saved response, else the IDLE frame (R155). -/
theorem shown_eq (l : Link) : l.shown = match l.refusal, l.saved with
    | some f, _ => f
    | none, some f => f
    | none, none => sealFrame [0x7F, 0, 0] := by
  cases hr : l.refusal <;> cases hs : l.saved <;> simp only [Link.shown, hr, hs]
  rfl

/-- The bytes of a read burst: 0xFF, the response, and 0xFF as long as the burst goes on. -/
theorem readBytes_eq (shown : List Byte) (n : Nat) :
    readBytes shown n = ([0xFF] ++ shown ++ List.replicate n 0xFF).take n := by
  rw [readBytes, List.singleton_append, List.take_append, List.take_append, List.take_replicate, List.take_replicate,
    List.length_cons]
  congr 2
  omega

theorem execReadBurst_heard {n : Nat} (hn : 1 ≤ n) (h : s.hears b = true) :
    execReadBurst b n s = .next (s.endBurst b.port (readBytes (s.port b.port).link.shown n)) := by
  rw [execReadBurst, if_neg (by omega), if_pos h]

theorem execReadBurst_unheard {n : Nat} (hn : 1 ≤ n) (h : s.hears b = false) :
    execReadBurst b n s = .next (s.shiftOnes b.port n) := by
  rw [execReadBurst, if_neg (by omega), if_neg (by simp [h])]

theorem sdoPin_endBurst (s : State) (p : Port) (out : List Byte) : (s.endBurst p out).sdoPin p = .highImpedance := by
  simp [State.sdoPin]

/-- Settles O6: the link hears the burst and shows its response, or does not hear it and lets 0xFF or nothing out; either way the
burst is over. -/
theorem readBurstShowsResponse : Obligations.ReadBurstShowsResponse := by
  intro b n s hn p shown
  refine ⟨fun heard => ?heard, fun discarded => ?discarded, fun off => ?off, fun t ht => ?pin⟩
  case heard =>
    refine (execReadBurst_heard hn heard.hears).trans ?_
    have hshown : (s.port b.port).link.shown = shown := shown_eq _
    rw [readBytes_eq, hshown]
    rfl
  case discarded => exact (execReadBurst_unheard hn discarded.hears).trans (by rw [shiftOnes_on discarded.1, endBurst_eq])
  case off => exact (execReadBurst_unheard hn (hears_off off b)).trans (by rw [shiftOnes_off off, endBurst_eq])
  case pin =>
    have hnext : execReadBurst b n s = .next t := ht
    cases heard : s.hears b
    case false =>
      rw [execReadBurst_unheard hn heard] at hnext
      cases hnext
      exact sdoPin_endBurst s p _
    case true =>
      rw [execReadBurst_heard hn heard] at hnext
      cases hnext
      exact sdoPin_endBurst s p _

/-! ## Bad frames (R151) and unknown codes (R156) -/

/-- The reason byte of a bad frame is the code of the first check that fails (Table 9-8). -/
theorem reasonOf_eq (bytes : List Byte) : reasonOf bytes = (frameCheck bytes).map FrameFault.code := by
  simp only [reasonOf, frameCheck, byteAt, crcBytes, gt_iff_lt, ne_eq]
  split_ifs <;> simp_all [FrameFault.code]

theorem frameCheck_of_reason {bytes : List Byte} {why : Byte} (h : reasonOf bytes = some why) :
    ∃ fault, frameCheck bytes = some fault ∧ fault.code = why := by
  rw [reasonOf_eq] at h
  simpa using h

theorem execFrameError_bad {bytes : List Byte} {fault : FrameFault} (hne : bytes ≠ []) (h0 : byteAt bytes 0 ≠ 0)
    (h : frameCheck bytes = some fault) : execFrameError b bytes s = .next (if s.hears b
      then (s.shiftOnes b.port bytes.length).refuse b.port ⟨.frameError, [fault.code]⟩ (byteAt bytes 1)
      else s.shiftOnes b.port bytes.length) := by
  rw [execFrameError, if_neg hne, if_neg h0, h]

theorem unlisted {code : Byte} (h0 : code ≠ 0) (hcode : knownCode code = false) : ¬ (knownCode code = true ∨ code = 0) :=
  not_or.2 ⟨by simp [hcode], h0⟩

theorem execBadCode_unheard {code : Byte} (h0 : code ≠ 0) (hcode : knownCode code = false) (h : s.hears r.toSelect = false) :
    execBadCode r code s = .next (s.shiftOnes r.port (7 + r.params.length)) := by
  simp only [execBadCode, if_neg (unlisted h0 hcode), h, Bool.false_eq_true, if_false]

theorem execBadCode_heard {code : Byte} (h0 : code ≠ 0) (hcode : knownCode code = false) (h : Heard r.toSelect s) :
    execBadCode r code s = .next (if s.retransmission r code
      then (shifted s r).setLink r.port { (s.port r.port).link with refusal := none }
      else (shifted s r).answer r code (.bare .badCode)) := by
  simp only [execBadCode, if_neg (unlisted h0 hcode), h.hears, if_true, shifted_eq s r h.supply_ne_off]

theorem execBadCode_repeated {code : Byte} (h0 : code ≠ 0) (hcode : knownCode code = false) (h : Heard r.toSelect s)
    (hl : (s.port r.port).link.lastTaken = some (r.seq, code)) : execBadCode r code s = .next
      ((shifted s r).setPort r.port { (shifted s r).port r.port with link := { (s.port r.port).link with refusal := none } }) := by
  rw [execBadCode_heard h0 hcode h, if_pos (by simpa [State.retransmission] using hl)]
  rfl

theorem execBadCode_fresh {code : Byte} (h0 : code ≠ 0) (hcode : knownCode code = false) (h : Heard r.toSelect s)
    (hl : (s.port r.port).link.lastTaken ≠ some (r.seq, code)) :
    execBadCode r code s = .next (refusedEarly s r code .badCode) := by
  rw [execBadCode_heard h0 hcode h, if_neg (by simpa [State.retransmission] using hl)]
  rfl

/-- Settles O7: a bad frame makes the link's refusal where the link hears it; a code of no row is answered BAD_CODE. -/
theorem badFramesAndUnknownCodesAreRefused : Obligations.BadFramesAndUnknownCodesAreRefused := by
  refine ⟨?bad, ?unknown⟩
  case unknown => exact fun r code s h0 hcode heard hl => execBadCode_fresh h0 hcode heard hl
  case bad =>
    intro b bytes why s hne h0 hwhy p ended
    obtain ⟨fault, hfault, rfl⟩ := frameCheck_of_reason hwhy
    have hexec := execFrameError_bad (s := s) (b := b) hne h0 hfault
    refine ⟨fun heard => ?_, fun discarded => ?_, fun off => ?_⟩
    · refine hexec.trans ?_
      rw [if_pos heard.hears, shiftOnes_on heard.supply_ne_off, State.refuse, State.setLink, endBurst_eq]
      simp only [State.port_setPort_self, State.setPort_setPort]
      rfl
    · refine hexec.trans ?_
      rw [discarded.hears, if_neg (by decide), shiftOnes_on discarded.1]
      rfl
    · refine hexec.trans ?_
      rw [hears_off off, if_neg (by decide), shiftOnes_off off]
      rfl

/-! ## The checks in their order (R155, R156, R125) -/

theorem unknown_of_wf {code : Byte} (hwf : (Instr.badCode r code).wf = true) : code ≠ 0 ∧ knownCode code = false := by
  simp only [Instr.wf, Bool.and_eq_true, bne_iff_ne, Bool.not_eq_true'] at hwf
  exact ⟨hwf.1.2, hwf.2⟩

/-- A frame of a row, check by check. -/
theorem serve_checks {code : Byte} {row : CatalogueRow} (own : Owner) (hrow : catalogueRow code = some row) :
    (Discarded r.toSelect s → s.serve r code own = shifted s r)
    ∧ (s.supply = .off → s.serve r code own = s.setPort r.port { s.port r.port with burst := .none, sdo := [] })
    ∧ (Heard r.toSelect s → (s.port r.port).link.lastTaken = some (r.seq, code) → s.serve r code own =
        (shifted s r).setPort r.port { (shifted s r).port r.port with link := { (s.port r.port).link with refusal := none } })
    ∧ (Heard r.toSelect s → (s.port r.port).link.lastTaken ≠ some (r.seq, code) →
        (row.lengthOk r.params.length = false → s.serve r code own = refusedEarly s r code .badLength)
        ∧ (row.lengthOk r.params.length = true → s.supply = .starting → s.serve r code own =
            (shifted s r).setPort r.port { (shifted s r).port r.port with
              link := { (s.port r.port).link with refusal := some (responseFrame ⟨.starting, []⟩ r.seq) } })
        ∧ (row.lengthOk r.params.length = true → s.supply = .run → ∀ st,
            sessionCheck (s.port r.port).session row.needsSession r.epoch = some st →
            s.serve r code own = refusedEarly s r code st)) := by
  refine ⟨serve_unheard code own, serve_off code own, fun heard hl => serve_repeated own heard hrow hl,
    fun heard hl => ⟨serve_badLength own heard hrow hl, serve_starting own heard hrow hl, fun hlen hrun st hst => ?_⟩⟩
  obtain ⟨-, hprst, hburst, hearly⟩ := heard
  exact serve_sessionRefused own ⟨hrun, hprst, hburst, hearly, hl⟩ hrow hlen hst

/-- Settles O8: a frame of a row meets the checks of the request's service in their order; a frame of no row stops at its code. -/
theorem linkAndSessionChecksInOrder : Obligations.LinkAndSessionChecksInOrder := by
  intro i code r s hf hwf
  rcases frame_cases hf with ⟨-, row, own, hrow, hexec⟩ | rfl
  case inl =>
    obtain ⟨unheard, off, repeated, fresh⟩ := serve_checks (s := s) (r := r) own hrow
    rw [hexec s]
    refine ⟨fun h => by rw [unheard h], fun h => by rw [off h], fun h hl => by rw [repeated h hl], fun row' hrow' h hl => ?_⟩
    obtain rfl : row = row' := Option.some.inj (hrow.symm.trans hrow')
    obtain ⟨badLength, starting, refused⟩ := fresh h hl
    refine ⟨fun hlen => by rw [badLength hlen], fun hlen hs => by rw [starting hlen hs], fun hlen hrun hneeds => ?_⟩
    rw [hneeds] at refused
    exact ⟨fun hstate => by rw [refused hlen hrun _ (sessionCheck_closed _ hstate)],
      fun hstate => by rw [refused hlen hrun _ (sessionCheck_fenced _ hstate)],
      fun hstate hepoch => by rw [refused hlen hrun _ (sessionCheck_stale hstate hepoch)]⟩
  case inr =>
    cases hf
    obtain ⟨h0, hcode⟩ := unknown_of_wf hwf
    refine ⟨fun h => ?_, fun h => ?_, fun h hl => execBadCode_repeated h0 hcode h hl, fun row hrow => ?_⟩
    · exact (execBadCode_unheard h0 hcode h.hears).trans (by rw [shifted_eq s r h.1])
    · exact (execBadCode_unheard h0 hcode (hears_off h _)).trans (by rw [shiftOnes_off h]; rfl)
    · simp [knownCode, hrow] at hcode

end Sys2Proof.Machine
end

section
/-! PROOF. Sessions: OPEN_SESSION (R121 to R123), CLOSE_SESSION (R130), PORT_CONFIG (R132). -/

namespace Sys2Proof.Machine

variable {s t : State} {r : Request} {code : Byte} {row : CatalogueRow} {own : Owner} {st : Status}
  {results : List Byte}

/-! ## From the owner's answer to the command's result -/

/-- An admitted frame of its row's length is concluded with what its owner leaves and replies. -/
theorem next_of_own (h : Admitted code r s) (hrow : catalogueRow code = some row)
    (hlen : row.lengthOk r.params.length = true) (hown : own r.port r.params (begun s r) = (t, ⟨st, results⟩)) :
    (.next (s.serve r code own) : Host.Outcome State Fault Refusal) = .next (concluded t r code st results) := by
  rw [serve_admitted own h hrow hlen, hown]

/-- So is a taken frame of a row that needs no session. -/
theorem next_of_own_free (h : Taken code r s) (hrow : catalogueRow code = some row) (hfree : row.needsSession = false)
    (hlen : row.lengthOk r.params.length = true) (hown : own r.port r.params (begun s r) = (t, ⟨st, results⟩)) :
    (.next (s.serve r code own) : Host.Outcome State Fault Refusal) = .next (concluded t r code st results) := by
  rw [serve_taken own h hrow hlen hfree, hown]

/-- A frame that renews no lease leaves only its burst behind. -/
theorem begun_of_not_open (h : (s.port r.port).session.state ≠ .opened) : begun s r = shifted s r := by
  simp only [begun, h, false_and, if_false]

@[simp] theorem shifted_port_peer (s : State) (r : Request) : (shifted s r).port (peer r.port) = s.port (peer r.port) := by
  simp [shifted]

@[simp] theorem shifted_moment (s : State) (r : Request) : (shifted s r).moment = s.moment := by
  simp [shifted, State.moment]

/-! ## OPEN_SESSION (R121 to R123) -/

theorem ownOpenSession_opens {p : Port} {ps : List Byte} (hlease : 100 ≤ field ps 0 2) (hstate : (s.port p).session.state ≠ .opened) :
    ownOpenSession p ps s = ((s.setPort p { s.port p with
        session := s.openedSession p (field ps 0 2), events := { records := [], stack := [], counter := 0 } }).raise
          (peer p) .peerJoined (.port p) .zero,
      ⟨.ok, bytesOf 2 (s.openedSession p (field ps 0 2)).epoch.toNat ++ bytesOf 2 (field ps 0 2)
        ++ [(s.port (peer p)).session.state.code]⟩) := by
  simp only [ownOpenSession, if_neg (Nat.not_lt.2 hlease), if_neg hstate, State.setSession, State.setEvents,
    State.port_setPort_self, State.setPort_setPort]

/-- Settles O9: the two refusals of R121 and R123, and the session that R122 opens. -/
theorem openSessionOpens : Obligations.OpenSessionOpens := by
  intro r s taken hlen p x lease epoch low high
  have concludes {t : State} {st : Status} {results : List Byte} (hown : ownOpenSession r.port r.params (begun s r) = (t, ⟨st, results⟩)) :
      exec (.openSession r) s = .next (concluded t r 0x02 st results) :=
    next_of_own_free taken rfl rfl (by rw [hlen]; rfl) hown
  refine ⟨fun hlease => concludes ?short, fun hlease hopen => concludes ?again, fun hlease hstate => ?opens⟩
  case short => exact if_pos hlease
  case again => exact (if_neg (Nat.not_lt.2 hlease)).trans (if_pos ((begun_sessionState s r p).trans hopen))
  case opens =>
    have hbegun := begun_of_not_open hstate
    have hown := ownOpenSession_opens (s := begun s r) (ps := r.params) hlease (by rw [begun_sessionState]; exact hstate)
    have hsession : (shifted s r).openedSession r.port lease = { state := .opened, epoch := epoch, lease := lease
                                                                 deadline := some (s.moment + lease * 25000)
                                                                 config := ⟨5000, 96, 20000, 1000⟩
                                                                 events := [high, high, high, low, high, low, low, high, high, low, low] } := by
      rw [State.openedSession, State.deadlineIn, shifted_moment, shifted_session]
      rfl
    rw [hbegun, hsession, shifted_port_peer] at hown
    exact (next_of_own_free taken rfl rfl (by rw [hlen]; rfl) (hbegun ▸ hown))

/-! ## CLOSE_SESSION (R130) -/

/-- What is raised to the peer does not touch the port. -/
theorem raise_peer_port (s : State) (p : Port) (k : Kind) (sub : Subject) (val : EventValue) :
    (s.raise (peer p) k sub val).port p = s.port p := by
  rw [State.raise]
  split
  next => exact State.setEvents_port_peer' ..
  next => rfl

/-- A visit that grants changes the waiter's own slot. -/
theorem visit_waiterEntry {w slot : Nat} {x : Waiter} {vol : Volume} (hw : s.waiter? w = some x)
    (hg : s.grantable w x = some slot) (hv : s.volume? x.volume = some vol) (k : Nat) : (s.visit w).waiterEntry k
      = if k = w then .granted x.port x.epoch (s.nextIntentTag slot) else s.waiterEntry k := by
  have hgranted := waiterEntry_hold (s := s.grant slot (s.newIntent x.port x.epoch x.volume vol x.firstBlock x.blockCount)) w k
    (.granted x.port x.epoch (s.nextIntentTag slot)) (s.arrival.filter (· ≠ w))
  simp only [grant_waiters, State.waiter?_lt hw, and_true, State.waiterEntry_of_waiters (grant_waiters _ _ _)] at hgranted
  rw [visit_grants hw hg hv, (raise_onlyEvents _ _ _ _ _).waiterEntry, hgranted]

theorem waiterEntry_of_waiter? {w : Nat} {x : Waiter} (h : s.waiter? w = some x) : s.waiterEntry w = .waiting x := by
  simp only [State.waiter?] at h
  split at h <;> cases h
  assumption

/-- A visit gives a slot to the port that waited in it. -/
theorem visit_owns_none {p : Port} (h : ∀ k, (s.waiterEntry k).ownedBy p = false) (w k : Nat) :
    ((s.visit w).waiterEntry k).ownedBy p = false := by
  rcases visit_cases s w with hsame | ⟨x, slot, vol, hw, hg, hv⟩
  · rw [hsame]; exact h k
  · have hx : decide (x.port = p) = false := by
      have hk := h w
      rwa [waiterEntry_of_waiter? hw] at hk
    rw [visit_waiterEntry hw hg hv]
    split
    next => exact hx
    next => exact h k

theorem pass_owns_none {p : Port} (h : ∀ k, (s.waiterEntry k).ownedBy p = false) (k : Nat) :
    (s.pass.waiterEntry k).ownedBy p = false :=
  foldl_keeps (R := fun s t => (∀ k, (s.waiterEntry k).ownedBy p = false) → ∀ k, (t.waiterEntry k).ownedBy p = false)
    (fun _ => id) (fun _ _ _ h k hs => k (h hs)) (fun _ w hs => visit_owns_none hs w) s.arrival s h k

theorem ownCloseSession_closes {p : Port} {ps : List Byte} (hi : (s.port p).intents = 0) (ha : (s.port p).assignments = 0) :
    ownCloseSession p ps s = (((((s.endSession p .closed).clearEvents p).removeWaitersOf p).pass.raise (peer p) .peerLost
      (.port p) .peerClosed), .bare .ok) := by
  rw [ownCloseSession, if_neg (by omega)]

/-- The session ends closed, its queue and stack cleared, whatever the lease has become. -/
theorem begun_ended (s : State) (r : Request) (st : SessionState) : (((begun s r).endSession r.port st).clearEvents r.port)
    = (shifted s r).setPort r.port (endedPort ((shifted s r).port r.port) st) := by
  simp only [begun]
  split <;> simp [State.endSession, State.clearEvents, State.setSession, State.setEvents, endedPort]

/-- Settles O11: the closed session is torn down by the owner's steps, each of which keeps what it must. -/
theorem closeSessionCloses : Obligations.CloseSessionCloses := by
  intro r s admitted hlen p
  have concludes {t : State} {st : Status} {results : List Byte} (hown : ownCloseSession r.port r.params (begun s r) = (t, ⟨st, results⟩)) :
      exec (.closeSession r) s = .next (concluded t r 0x04 st results) :=
    next_of_own admitted rfl (by rw [hlen]; rfl) hown
  refine ⟨fun hwork => concludes (if_pos ?_), ?_⟩
  · simpa using hwork
  intro hi ha closed t
  have hclosed : ((begun s r).endSession r.port .closed).clearEvents r.port = closed := begun_ended s r .closed
  have helse : SameElsewhere closed (closed.removeWaitersOf p).pass :=
    (removeWaitersOf_elsewhere _ _).trans (pass_grantsOnly _).elsewhere
  have hstate : (closed.port p).session.state = .closed := by simp [closed, endedPort]
  refine ⟨concludes ?_, fun w => ?_, helse.trans (raise_onlyEvents _ _ _ _ _).sameElsewhere, ?_, fun hopen => ?_⟩
  · rw [ownCloseSession_closes (by simpa using hi) (by simpa using ha), hclosed]
    rfl
  · rw [(raise_onlyEvents _ _ _ _ _).waiterEntry]
    exact pass_owns_none (removeWaitersOf_owns_none closed p) w
  · rw [raise_peer_port, (pass_grantsOnly _).shut p (by
      rw [((removeWaitersOf_elsewhere closed p).1 p).1, hstate]; decide)]
    rfl
  · have hpeer : ((closed.removeWaitersOf p).pass.port (peer p)).session.state = .opened := by
      rw [(helse.1 _).1, State.port_setPort_peer, shifted_port_peer]
      exact hopen
    exact raise_tells hpeer _ _ _

/-! ## PORT_CONFIG (R132) -/

/-- A field of the configuration is bad when it is named and out of its range; 65,535 is the largest wait that two bytes spell. -/
theorem portConfigBad_iff (ps : List Byte) (intents : Nat) : portConfigBad ps intents = true ↔
    16 ≤ (byteAt ps 0).toNat ∨ ((byteAt ps 0).getLsbD 0 = true ∧ field ps 1 2 < 10)
    ∨ ((byteAt ps 0).getLsbD 1 = true ∧ (field ps 3 1 = 0 ∨ 192 < field ps 3 1 ∨ field ps 3 1 < intents))
    ∨ ((byteAt ps 0).getLsbD 2 = true ∧ field ps 4 2 < 100)
    ∨ ((byteAt ps 0).getLsbD 3 = true ∧ (field ps 6 2 = 0 ∨ field ps 6 2 = 65535)) := by
  have hwait : field ps 6 2 < 65536 := field_lt ps 6 2
  have hlast : 65534 < field ps 6 2 ↔ field ps 6 2 = 65535 := by omega
  simp only [portConfigBad, names, Bool.or_eq_true, Bool.and_eq_true, decide_eq_true_eq, Nat.lt_one_iff, hlast, or_assoc]

theorem ownPortConfig_sets {p : Port} {ps : List Byte} (hgood : ¬ portConfigBad ps (s.port p).intents = true) :
    let new := (s.port p).session.config.update ps
    let t := s.setPort p { s.port p with session := { (s.port p).session with config := new } }
    ownPortConfig p ps s = (if (s.port p).session.config.quota < new.quota then t.pass else t, ⟨.ok, new.bytes⟩) :=
  if_neg hgood

/-- Settles O12: the owner refuses what `portConfigBad` finds, and else sets the named fields. -/
theorem portConfigSetsNamedFields : Obligations.PortConfigSetsNamedFields := by
  intro r s admitted hlen p set named life quota lease wait old bad
  have hbad : portConfigBad r.params ((begun s r).port p).intents = true ↔ bad := by
    rw [begun_intentCount]
    exact portConfigBad_iff r.params (s.port p).intents
  have concludes {t : State} {st : Status} {results : List Byte} (hown : ownPortConfig r.port r.params (begun s r) = (t, ⟨st, results⟩)) :
      exec (.portConfig r) s = .next (concluded t r 0x05 st results) :=
    next_of_own admitted rfl (by rw [hlen]; rfl) hown
  refine ⟨fun h => concludes (if_pos (hbad.2 h)), fun h => concludes ?_⟩
  have hown := ownPortConfig_sets (s := begun s r) (p := p) (ps := r.params) (fun hb => h (hbad.1 hb))
  rw [begun_config] at hown
  exact hown

end Sys2Proof.Machine
end

section
/-! PROOF. The event unit: merge, new record and overflow (R136 to R138), FETCH_EVENT (R141, R142), EVENT_CONFIG (R140). -/

namespace Sys2Proof.Machine

/-! ## Merge, new record and overflow (R136 to R138) -/

section Queuing

variable {u : EventUnit} {k : Kind} {sub : Subject} {val : EventValue}

theorem map_at {α : Type} {f : α → α} {pre post : List α} {x : α} (hpre : ∀ q ∈ pre, f q = q) (hpost : ∀ q ∈ post, f q = q) :
    (pre ++ x :: post).map f = pre ++ f x :: post := by
  rw [List.map_append, List.map_cons, List.map_congr_left hpre, List.map_congr_left hpost, List.map_id', List.map_id']

theorem merges_iff (r : EventRecord) : r.merges k sub val = true ↔ r.kind = k ∧ r.subject = sub ∧ r.value = val := by
  simp [EventRecord.merges, and_assoc]

theorem take_of_merging {r : EventRecord} (hr : r ∈ u.records) (hm : r.merges k sub val = true) :
    u.take k sub val = u.merge k sub val :=
  if_pos (List.any_eq_true.2 ⟨r, hr, hm⟩)

theorem any_merges_false (h : ∀ r ∈ u.records, ¬ (r.kind = k ∧ r.subject = sub ∧ r.value = val)) :
    ¬ u.records.any (fun r => r.merges k sub val) = true := by
  rw [List.any_eq_true]
  rintro ⟨r, hr, hm⟩
  exact h r hr ((merges_iff r).1 hm)

theorem take_of_new (h : ∀ r ∈ u.records, ¬ (r.kind = k ∧ r.subject = sub ∧ r.value = val)) :
    u.take k sub val = if u.size < 24 then u.append k sub val else u.drop k :=
  if_neg (any_merges_false h)

theorem size_eq (u : EventUnit) : u.size = (u.records.filter fun r => r.kind ≠ .overflow).length := by
  rw [EventUnit.size, List.countP_eq_length_filter]
  congr 1
  refine List.filter_congr fun r _ => ?_
  simp [EventRecord.isOverflow]

theorem drop_counter (u : EventUnit) (k : Kind) : (u.drop k).counter = advance u.counter := by
  rw [EventUnit.drop]
  split <;> rfl

/-- Settles O15: the record that merges is the only one with its kind, subject and value, and the overflow record the only one of
its kind. -/
theorem eventIsMergedQueuedOrDropped : Obligations.EventIsMergedQueuedOrDropped := by
  intro u k sub val bounded hk next same held
  obtain ⟨-, hoverflow, hdistinct, -, -⟩ := bounded
  refine ⟨u.take_stack k sub val, ?merged, ?counted, ?queued, ?first, ?dropped⟩
  case merged =>
    intro pre r post hu hr
    rw [hu, List.pairwise_append, List.pairwise_cons] at hdistinct
    obtain ⟨-, ⟨hpost, -⟩, hpre⟩ := hdistinct
    have others {q : EventRecord} (hq : ¬ same q) :
        (if q.merges k sub val = true then { q with count := bump255 q.count } else q) = q :=
      if_neg fun hm => hq ((merges_iff q).1 hm)
    obtain ⟨hkind, hsub, hval⟩ := hr
    have htake := take_of_merging (u := u) (r := r) (by simp [hu]) ((merges_iff r).2 ⟨hkind, hsub, hval⟩)
    rw [htake]
    refine ⟨?_, rfl⟩
    have hmap := map_at (f := fun q : EventRecord => if q.merges k sub val then { q with count := bump255 q.count } else q)
      (pre := pre) (x := r) (post := post)
      (fun q hq => others fun ⟨h1, h2, h3⟩ => hpre q hq r List.mem_cons_self
        ⟨h1.trans hkind.symm, h2.trans hsub.symm, h3.trans hval.symm⟩)
      (fun q hq => others fun ⟨h1, h2, h3⟩ => hpost q hq ⟨hkind.trans h1.symm, hsub.trans h2.symm, hval.trans h3.symm⟩)
    simp only [if_pos ((merges_iff r).2 ⟨hkind, hsub, hval⟩)] at hmap
    rw [EventUnit.merge, hu]
    exact hmap
  case counted =>
    intro hnew
    rw [take_of_new hnew]
    split
    next => rfl
    next => exact drop_counter u k
  case queued =>
    intro hnew hroom
    rw [take_of_new hnew, size_eq, if_pos hroom]
    rfl
  case first =>
    intro hnew hfull hnone
    have hany : ¬ u.records.any (·.isOverflow) = true := by
      rw [List.any_eq_true]
      rintro ⟨r, hr, ho⟩
      exact hnone r hr (of_decide_eq_true ho)
    rw [take_of_new hnew, size_eq, if_neg (Nat.not_lt.2 hfull), EventUnit.drop, if_neg hany]
    rfl
  case dropped =>
    intro pre r post hnew hfull hu hr
    have ho : r.isOverflow = true := decide_eq_true hr
    rw [hu, List.countP_append, List.countP_cons_of_pos ho] at hoverflow
    have hpre : ∀ q ∈ pre, q.isOverflow = false := by
      simpa using List.countP_eq_zero.1 (show pre.countP EventRecord.isOverflow = 0 by omega)
    have hpost : ∀ q ∈ post, q.isOverflow = false := by
      simpa using List.countP_eq_zero.1 (show post.countP EventRecord.isOverflow = 0 by omega)
    have hany : u.records.any (·.isOverflow) = true := List.any_eq_true.2 ⟨r, by simp [hu], ho⟩
    rw [take_of_new hnew, size_eq, if_neg (Nat.not_lt.2 hfull), EventUnit.drop, if_pos hany]
    have hmap := map_at (f := fun q : EventRecord =>
        if q.isOverflow then { q with count := bump255 q.count, kindSet := q.kindSet ||| kindBit k } else q)
      (pre := pre) (x := r) (post := post) (fun q hq => by simp [hpre q hq]) (fun q hq => by simp [hpost q hq])
    simp only [ho, if_true] at hmap
    rw [hu]
    exact hmap

end Queuing

/-! ## FETCH_EVENT (R141, R142) -/

section Fetching

variable {cfg : List KindConfig} {u : EventUnit}

theorem chooseRecord_none (h : ∀ q ∈ u.records, eligible cfg u.stack q = false) : chooseRecord cfg u = none := by
  have hhigh : u.records.find? (fun q => eligible cfg u.stack q && levelOf cfg q = .high) = none :=
    List.find?_eq_none.2 fun q hq => by simp [h q hq]
  have hany : u.records.find? (eligible cfg u.stack) = none := List.find?_eq_none.2 fun q hq => by simp [h q hq]
  simp only [chooseRecord, hhigh, hany]

/-- The first record of a list that a test passes. -/
theorem find?_at {α : Type} {p : α → Bool} {pre post : List α} {x : α} (hpre : ∀ q ∈ pre, p q = false) (hx : p x = true) :
    (pre ++ x :: post).find? p = some x := by
  rw [List.find?_append, List.find?_eq_none.2 fun q hq => by simp [hpre q hq], List.find?_cons_of_pos hx]
  rfl

theorem rank_lt_low {l : Level} : ¬ l.rank < Level.low.rank := by cases l <;> decide

theorem low_of_rank {l : Level} (h : l.rank ≤ Level.low.rank) : l = .low := by
  cases l
  case low => rfl
  case high => exact absurd h (by decide)

/-- The choice of R141: of the eligible records of the highest level the earliest. -/
theorem chooseRecord_earliest {pre post : List EventRecord} {q : EventRecord} (hu : u.records = pre ++ q :: post)
    (hq : eligible cfg u.stack q = true)
    (hpre : ∀ o ∈ pre, eligible cfg u.stack o = true → (levelOf cfg o).rank < (levelOf cfg q).rank)
    (hpost : ∀ o ∈ post, eligible cfg u.stack o = true → (levelOf cfg o).rank ≤ (levelOf cfg q).rank) :
    chooseRecord cfg u = some q := by
  cases hlevel : levelOf cfg q with
  | high =>
    have hfind := find?_at (p := fun q => eligible cfg u.stack q && levelOf cfg q = .high) (pre := pre) (post := post) (x := q)
      (fun o ho => by
        by_cases hcan : eligible cfg u.stack o = true
        · have hlt := hpre o ho hcan
          have hlow : levelOf cfg o ≠ .high := fun e => by rw [e, hlevel] at hlt; exact lt_irrefl _ hlt
          simp [hlow]
        · simp [hcan])
      (by simp [hq, hlevel])
    rw [← hu] at hfind
    simp only [chooseRecord, hfind]
  | low =>
    rw [hlevel] at hpre hpost
    have hnone : ∀ o ∈ pre, eligible cfg u.stack o = false := fun o ho => by
      by_contra hcan
      exact rank_lt_low (hpre o ho (by simpa using hcan))
    have hhigh : u.records.find? (fun q => eligible cfg u.stack q && levelOf cfg q = .high) = none := by
      refine List.find?_eq_none.2 fun o ho => ?_
      rw [hu, List.mem_append, List.mem_cons] at ho
      rcases ho with ho | rfl | ho
      · simp [hnone o ho]
      · simp [hlevel]
      · by_cases hcan : eligible cfg u.stack o = true
        · simp [low_of_rank (hpost o ho hcan)]
        · simp [hcan]
    have hany : u.records.find? (eligible cfg u.stack) = some q := hu ▸ find?_at hnone hq
    simp only [chooseRecord, hhigh, hany]

theorem recordBytes_eq (q : EventRecord) (l : Level) (depth : Nat) : recordBytes q l depth =
    BitVec.ofNat 8 q.kind.code :: q.subject.bytes
      ++ (if q.kind = .overflow then bytesOf 2 ((List.range 16).countP fun b => q.kindSet.getLsbD b) else q.value.bytes)
      ++ [BitVec.ofNat 8 q.count] ++ bytesOf 2 q.seq.toNat ++ [l.code] ++ bytesOf 2 q.kindSet.toNat
      ++ [BitVec.ofNat 8 depth] := by
  rw [recordBytes, bytesOf_one, bytesOf_one]
  simp only [EventRecord.isOverflow, decide_eq_true_eq, kindsIn]

theorem ownFetchEvent_none {p : Port} {ps : List Byte} {s : State}
    (h : chooseRecord (s.port p).session.events (s.port p).events = none) :
    ownFetchEvent p ps s = (s, ⟨.none, bytesOf 1 (s.port p).events.records.length⟩) := by
  simp only [ownFetchEvent, h]

theorem ownFetchEvent_takes {p : Port} {ps : List Byte} {s : State} {q : EventRecord}
    (h : chooseRecord (s.port p).session.events (s.port p).events = some q) :
    ownFetchEvent p ps s =
      (s.setEvents p { (s.port p).events with
          records := (s.port p).events.records.erase q
          stack := levelOf (s.port p).session.events q :: (s.port p).events.stack },
        ⟨.ok, recordBytes q (levelOf (s.port p).session.events q) ((s.port p).events.records.erase q).length⟩) := by
  simp only [ownFetchEvent, h]

/-- Settles O16: the owner takes the choice of R141 out of the queue, where it stands for the first time. -/
theorem fetchTakesEarliestHighest : Obligations.FetchTakesEarliestHighest := by
  intro r s admitted hlen p u can level
  have concludes {t : State} {st : Status} {results : List Byte}
      (hown : ownFetchEvent r.port r.params (begun s r) = (t, ⟨st, results⟩)) :
      exec (.fetchEvent r) s = .next (concluded t r 0x08 st results) :=
    next_of_own admitted rfl (by rw [hlen]; rfl) hown
  refine ⟨fun hnone => concludes ?_, fun pre q post hu hq hpre hpost => concludes ?_⟩
  · have hchoose : chooseRecord ((begun s r).port p).session.events ((begun s r).port p).events = none := by
      rw [begun_eventConfig, begun_events]
      exact chooseRecord_none hnone
    rw [ownFetchEvent_none hchoose, begun_events, bytesOf_one]
  · have hchoose : chooseRecord ((begun s r).port p).session.events ((begun s r).port p).events = some q := by
      rw [begun_eventConfig, begun_events]
      exact chooseRecord_earliest hu hq hpre hpost
    have hfirst : q ∉ pre := fun hmem => lt_irrefl _ (hpre q hmem hq)
    have herase : u.records.erase q = pre ++ post := by
      rw [hu, List.erase_append_right _ hfirst, List.erase_cons_head]
    rw [ownFetchEvent_takes hchoose, begun_eventConfig, begun_events, herase, recordBytes_eq]
    rfl

end Fetching

end Sys2Proof.Machine
end

section
/-! PROOF. EVENT_CONFIG (R140). -/

namespace Sys2Proof.Machine

/-! ## Entries and their bytes -/

theorem levelParam_code (l : Level) : levelParam l.code = some l := by cases l <;> rfl

theorem maskParam_code (m : Bool) : maskParam (flagCode m) = some m := by cases m <;> rfl

theorem byte_of_le_one {b : Byte} (h : b.toNat ≤ 1) : b = 0 ∨ b = 1 := by
  rcases Nat.le_one_iff_eq_zero_or_eq_one.1 h with h | h
  · exact .inl (BitVec.eq_of_toNat_eq h)
  · exact .inr (BitVec.eq_of_toNat_eq h)

theorem byte_ne_of_one_lt {b : Byte} (h : 1 < b.toNat) : b ≠ 0 ∧ b ≠ 1 := by
  constructor <;> rintro rfl <;> exact absurd h (by decide)

theorem levelParam_isSome (b : Byte) : (levelParam b).isSome = true ↔ b.toNat ≤ 1 := by
  constructor
  · intro h
    by_contra hb
    obtain ⟨h0, h1⟩ := byte_ne_of_one_lt (not_le.1 hb)
    rw [levelParam, if_neg h0, if_neg h1] at h
    cases h
  · intro h
    rcases byte_of_le_one h with rfl | rfl <;> rfl

theorem maskParam_isSome (b : Byte) : (maskParam b).isSome = true ↔ b.toNat ≤ 1 := by
  constructor
  · intro h
    by_contra hb
    obtain ⟨h0, h1⟩ := byte_ne_of_one_lt (not_le.1 hb)
    rw [maskParam, if_neg h0, if_neg h1] at h
    cases h
  · intro h
    rcases byte_of_le_one h with rfl | rfl <;> rfl

/-- An entry of a kind's index with its setting is read back from its bytes. -/
theorem eventEntry_code {k : Nat} (hk : k < 11) (x : KindConfig) :
    eventEntry (BitVec.ofNat 8 (k + 1)) x.level.code (flagCode x.masked) = some (k, x) := by
  have hnat : (BitVec.ofNat 8 (k + 1)).toNat = k + 1 := by rw [BitVec.toNat_ofNat]; omega
  rw [eventEntry, hnat, if_pos (by omega), levelParam_code, maskParam_code]
  rfl

/-- What R140 asks of one entry. -/
def GoodEntry (k l m : Byte) : Prop := 1 ≤ k.toNat ∧ k.toNat ≤ 11 ∧ l.toNat ≤ 1 ∧ m.toNat ≤ 1

theorem eventEntry_bad {k l m : Byte} (h : ¬ GoodEntry k l m) : eventEntry k l m = none := by
  by_cases hk : 1 ≤ k.toNat ∧ k.toNat ≤ 11
  · rw [eventEntry, if_pos hk]
    cases hl : levelParam l with
    | none => rfl
    | some level =>
      cases hm : maskParam m with
      | none => rfl
      | some mask =>
        exact absurd ⟨hk.1, hk.2, (levelParam_isSome l).1 (by rw [hl]; rfl), (maskParam_isSome m).1 (by rw [hm]; rfl)⟩ h
  · rw [eventEntry, if_neg hk]

theorem eventEntry_good {k l m : Byte} (h : GoodEntry k l m) : ∃ x, eventEntry k l m = some (k.toNat - 1, x) := by
  obtain ⟨h1, h11, hl, hm⟩ := h
  obtain ⟨level, hlevel⟩ := Option.isSome_iff_exists.1 ((levelParam_isSome l).2 hl)
  obtain ⟨mask, hmask⟩ := Option.isSome_iff_exists.1 ((maskParam_isSome m).2 hm)
  exact ⟨⟨level, mask⟩, by rw [eventEntry, if_pos ⟨h1, h11⟩, hlevel, hmask]⟩

/-! ## Lists of entries -/

theorem eventEntries_cons (k l m : Byte) (rest : List Byte) : eventEntries (k :: l :: m :: rest) =
    (eventEntry k l m).bind fun e => (eventEntries rest).map (e :: ·) := by
  rw [eventEntries]
  cases eventEntry k l m <;> cases eventEntries rest <;> rfl

/-- The bytes of entries, three each. -/
def entryBytes (es : List (Byte × Byte × Byte)) : List Byte := es.flatMap fun e => [e.1, e.2.1, e.2.2]

theorem entryBytes_cons (e : Byte × Byte × Byte) (es : List (Byte × Byte × Byte)) :
    entryBytes (e :: es) = e.1 :: e.2.1 :: e.2.2 :: entryBytes es := rfl

theorem entryBytes_length (es : List (Byte × Byte × Byte)) : (entryBytes es).length = 3 * es.length := by
  induction es with
  | nil => rfl
  | cons e es ih =>
    rw [entryBytes_cons]
    simp only [List.length_cons, ih]
    omega

theorem eventEntries_bad {es : List (Byte × Byte × Byte)} (h : ∃ e ∈ es, ¬ GoodEntry e.1 e.2.1 e.2.2) :
    eventEntries (entryBytes es) = none := by
  induction es with
  | nil => obtain ⟨e, he, -⟩ := h; cases he
  | cons e es ih =>
    rw [entryBytes_cons, eventEntries_cons]
    obtain ⟨e', he', hbad⟩ := h
    rcases List.mem_cons.1 he' with rfl | he'
    · rw [eventEntry_bad hbad]; rfl
    · rw [ih ⟨e', he', hbad⟩]
      cases eventEntry e.1 e.2.1 e.2.2 <;> rfl

theorem eventEntries_good {es : List (Byte × Byte × Byte)} (h : ∀ e ∈ es, GoodEntry e.1 e.2.1 e.2.2) :
    ∃ xs, eventEntries (entryBytes es) = some xs ∧ xs.map Prod.fst = (es.map Prod.fst).map fun k => k.toNat - 1 := by
  induction es with
  | nil => exact ⟨[], rfl, rfl⟩
  | cons e es ih =>
    obtain ⟨hgood, hrest⟩ := List.forall_mem_cons.1 h
    obtain ⟨x, hx⟩ := eventEntry_good hgood
    obtain ⟨xs, hxs, hkinds⟩ := ih hrest
    exact ⟨(e.1.toNat - 1, x) :: xs, by rw [entryBytes_cons, eventEntries_cons, hx, hxs]; rfl, by simp [hkinds]⟩

/-- Entries for indices below 11 are read back from their bytes. -/
theorem eventEntries_code {es : List (Nat × KindConfig)} (h : ∀ e ∈ es, e.1 < 11) :
    eventEntries (es.flatMap fun e => [BitVec.ofNat 8 (e.1 + 1), e.2.level.code, flagCode e.2.masked]) = some es := by
  induction es with
  | nil => rfl
  | cons e es ih =>
    obtain ⟨he, hes⟩ := List.forall_mem_cons.1 h
    have hcons := eventEntries_cons (BitVec.ofNat 8 (e.1 + 1)) e.2.level.code (flagCode e.2.masked)
      (es.flatMap fun e => [BitVec.ofNat 8 (e.1 + 1), e.2.level.code, flagCode e.2.masked])
    rw [eventEntry_code he, ih hes] at hcons
    exact hcons

theorem repeatsKind_iff (es : List (Nat × KindConfig)) : repeatsKind es = true ↔ ¬ (es.map Prod.fst).Nodup := by
  induction es with
  | nil => simp [repeatsKind]
  | cons e es ih =>
    rw [repeatsKind, Bool.or_eq_true, ih, List.map_cons, List.nodup_cons, not_and_or, not_not]
    exact or_congr_left (by simp only [List.any_eq_true, List.mem_map, decide_eq_true_eq])

/-! ## The configuration that the entries leave -/

theorem applyEntries_other {k : Nat} {es : List (Nat × KindConfig)} (h : k ∉ es.map Prod.fst) (cfg : List KindConfig) :
    (applyEntries cfg es)[k]? = cfg[k]? := by
  induction es generalizing cfg with
  | nil => rfl
  | cons e es ih =>
    simp only [List.map_cons, List.mem_cons, not_or] at h
    exact (ih h.2 (cfg.set e.1 e.2)).trans (List.getElem?_set_ne fun heq => h.1 heq.symm)

theorem applyEntries_named {es : List (Nat × KindConfig)} (hnodup : (es.map Prod.fst).Nodup) {cfg : List KindConfig}
    (hlt : ∀ e ∈ es, e.1 < cfg.length) {e : Nat × KindConfig} (he : e ∈ es) : (applyEntries cfg es)[e.1]? = some e.2 := by
  induction es generalizing cfg with
  | nil => cases he
  | cons f es ih =>
    obtain ⟨hf, hrest⟩ := List.nodup_cons.1 hnodup
    obtain ⟨hflt, heslt⟩ := List.forall_mem_cons.1 hlt
    rcases List.mem_cons.1 he with rfl | he
    · exact (applyEntries_other hf (cfg.set e.1 e.2)).trans (List.getElem?_set_self hflt)
    · exact ih hrest (cfg := cfg.set f.1 f.2) (fun e he => by rw [List.length_set]; exact heslt e he) he

theorem ownEventConfig_bad {p : Port} {ps : List Byte} {s : State} (h : ∀ es, eventEntries ps = some es → repeatsKind es = true) :
    ownEventConfig p ps s = (s, .bare .badParam) := by
  cases hes : eventEntries ps with
  | none => simp only [ownEventConfig, hes]
  | some es => simp only [ownEventConfig, hes, h es hes, if_true]

theorem ownEventConfig_sets {p : Port} {ps : List Byte} {s : State} {es : List (Nat × KindConfig)} (hes : eventEntries ps = some es)
    (hnodup : (es.map Prod.fst).Nodup) : ownEventConfig p ps s =
      (s.setSession p { (s.port p).session with events := applyEntries (s.port p).session.events es },
        ⟨.ok, eventConfigBytes (applyEntries (s.port p).session.events es)⟩) := by
  have hdistinct : repeatsKind es = false := by
    rw [← Bool.not_eq_true, repeatsKind_iff, not_not]
    exact hnodup
  simp only [ownEventConfig, hes, hdistinct, Bool.false_eq_true, if_false]

theorem eventConfig_lengthOk {n len : Nat} (hn : n ≤ 11) (h : len = 3 * n) : (len % 3 == 0 && decide (len ≤ 33)) = true := by
  simp only [Bool.and_eq_true, beq_iff_eq, decide_eq_true_eq]
  omega

/-- Settles O18: good entries for distinct kinds are read back and set one by one; a bad entry is not read, and two entries for
one kind repeat its index. -/
theorem eventConfigSetsNamedKinds : Obligations.EventConfigSetsNamedKinds := by
  refine ⟨?sets, ?refused⟩
  case sets =>
    intro r s es admitted sizes hcount hlt hnodup hps
    have hevents : (s.port r.port).session.events.length = 11 := sizes.2.2.2.2.1 r.port
    have hread : eventEntries r.params = some es := hps ▸ eventEntries_code hlt
    have hown := ownEventConfig_sets (s := begun s r) (p := r.port) hread hnodup
    rw [begun_eventConfig] at hown
    refine ⟨applyEntries (s.port r.port).session.events es, (applyEntries_length _ _).trans hevents,
      fun e he => applyEntries_named hnodup (fun e he => by rw [hevents]; exact hlt e he) he,
      fun k hk => applyEntries_other hk _, next_of_own admitted rfl ?_ hown⟩
    refine eventConfig_lengthOk hcount ?_
    rw [hps, List.length_flatMap]
    simp [Nat.mul_comm]
  case refused =>
    intro r s es admitted hcount hps hbad
    refine next_of_own admitted rfl (eventConfig_lengthOk hcount (by rw [hps]; exact entryBytes_length es))
      (ownEventConfig_bad fun xs hxs => ?_)
    rw [hps] at hxs
    by_cases hgood : ∀ e ∈ es, GoodEntry e.1 e.2.1 e.2.2
    · have hrepeats : ¬ (es.map Prod.fst).Nodup := by
        refine hbad.resolve_left ?_
        rintro ⟨e, he, hwrong⟩
        obtain ⟨h1, h11, hl, hm⟩ := hgood e he
        rcases hwrong with h | h | h | h
        · rw [h] at h1; exact absurd h1 (by decide)
        · omega
        · omega
        · omega
      obtain ⟨ys, hys, hkinds⟩ := eventEntries_good hgood
      obtain rfl : xs = ys := Option.some.inj (hxs.symm.trans hys)
      rw [repeatsKind_iff, hkinds]
      exact fun hnodup => hrepeats hnodup.of_map
    · have hnone := eventEntries_bad (by simpa using hgood)
      cases hxs.symm.trans hnone

end Sys2Proof.Machine
end

section
/-! PROOF. Volumes by name (R5) and CREATE_VOLUME (R8 to R10). -/

namespace Sys2Proof.Machine

variable {s : State} {r : Request}

/-! ## The volume's name comes first (R5) -/

/-- An owner that checks the volume's number and presence before all else. -/
def NamesVolume (own : Owner) : Prop := ∀ p ps s, ∃ k, own p ps s = s.withVolume (field ps 0 1) k

theorem refused_by_name {i : Request → Instr} {code : Byte} {len : Nat} {needs : Bool} {own : Owner}
    (hexec : ∀ r s, exec (i r) s = .next (s.serve r code own)) (hrow : catalogueRow code = some (row code len needs))
    (hown : NamesVolume own) : ∀ (r : Request) (s : State), Taken code r s → (needs = true → Admitted code r s) →
      r.params.length = len →
      (15 < field r.params 0 1 → exec (i r) s = .next (concluded (begun s r) r code .badParam []))
      ∧ (field r.params 0 1 ≤ 15 → s.volume? (field r.params 0 1) = none →
        exec (i r) s = .next (concluded (begun s r) r code .noVolume [])) := by
  intro r s taken admitted hlen
  have concludes {st : Status} (h : own r.port r.params (begun s r) = (begun s r, ⟨st, []⟩)) :
      exec (i r) s = .next (concluded (begun s r) r code st []) := by
    have hok : (row code len needs).lengthOk r.params.length = true := beq_iff_eq.2 hlen
    rw [hexec]
    cases needs with
    | true => exact next_of_own (admitted rfl) hrow hok h
    | false => exact next_of_own_free taken hrow rfl hok h
  obtain ⟨k, hk⟩ := hown r.port r.params (begun s r)
  exact ⟨fun hv => concludes (hk.trans (withVolume_badParam k hv)),
    fun hv habsent => concludes (hk.trans (withVolume_absent k hv ((begun_volume? s r _).trans habsent)))⟩

/-- Settles O19: each of these owners begins with the check of the name. -/
theorem volumeNameIsCheckedFirst : Obligations.VolumeNameIsCheckedFirst := by
  intro c hc
  simp only [List.mem_cons, List.not_mem_nil, or_false] at hc
  rcases hc with rfl | rfl | rfl | rfl | rfl | rfl | rfl | rfl | rfl | rfl
  · exact refused_by_name (own := ownDeleteVolume) (fun _ _ => rfl) rfl fun _ _ _ => ⟨_, rfl⟩
  · exact refused_by_name (own := ownSetVolume) (fun _ _ => rfl) rfl fun _ _ _ => ⟨_, rfl⟩
  · exact refused_by_name (own := ownRoute) (fun _ _ => rfl) rfl fun _ _ _ => ⟨_, rfl⟩
  · exact refused_by_name (own := ownExtentStates) (fun _ _ => rfl) rfl fun _ _ _ => ⟨_, rfl⟩
  · exact refused_by_name (own := ownRetireRange) (fun _ _ => rfl) rfl fun _ _ _ => ⟨_, rfl⟩
  · exact refused_by_name (own := ownReportReadFailure) (fun _ _ => rfl) rfl fun _ _ _ => ⟨_, rfl⟩
  · exact refused_by_name (own := ownOpenIntent) (fun _ _ => rfl) rfl fun _ _ _ => ⟨_, rfl⟩
  · exact refused_by_name (own := ownFailCopy) (fun _ _ => rfl) rfl fun _ _ _ => ⟨_, rfl⟩
  · exact refused_by_name (own := ownReplaceCopy) (fun _ _ => rfl) rfl fun _ _ _ => ⟨_, rfl⟩
  · exact refused_by_name (own := ownClearErrors) (fun _ _ => rfl) rfl fun _ _ _ => ⟨_, rfl⟩

/-! ## CREATE_VOLUME (R8 to R10) -/

theorem coherenceParam_code (st : Coherence) : coherenceParam st.code = some st := by cases st <;> rfl

theorem coherenceParam_large {b : Byte} (h : 5 < b.toNat) : coherenceParam b = none := by
  have ne (c : Byte) (hc : c.toNat ≤ 5) : b ≠ c := fun e => by rw [e] at h; omega
  rw [coherenceParam, if_neg (ne 0 (by decide)), if_neg (ne 1 (by decide)), if_neg (ne 2 (by decide)),
    if_neg (ne 3 (by decide)), if_neg (ne 4 (by decide)), if_neg (ne 5 (by decide))]

theorem coherence_of_small {b : Byte} (h : b.toNat ≤ 5) : ∃ st : Coherence, b = st.code := by
  have of_nat {n : Nat} (hn : b.toNat = n) : b = BitVec.ofNat 8 n := by rw [← hn, BitVec.ofNat_toNat, BitVec.setWidth_eq]
  have hcases : b.toNat = 0 ∨ b.toNat = 1 ∨ b.toNat = 2 ∨ b.toNat = 3 ∨ b.toNat = 4 ∨ b.toNat = 5 := by omega
  rcases hcases with h | h | h | h | h | h
  · exact ⟨.synced, of_nat h⟩
  · exact ⟨.aOnly, of_nat h⟩
  · exact ⟨.bOnly, of_nat h⟩
  · exact ⟨.suspect, of_nat h⟩
  · exact ⟨.lost, of_nat h⟩
  · exact ⟨.void, of_nat h⟩

theorem createHealthParam_other {b : Byte} (h : b ≠ 0 ∧ b ≠ 2) : createHealthParam b = none := by
  rw [createHealthParam, if_neg h.1, if_neg h.2]

theorem health_of_created {b : Byte} (h : ¬ (b ≠ 0 ∧ b ≠ 2)) : ∃ ha : Health, ha ≠ .rebuilding ∧ b = ha.code := by
  by_cases h0 : b = 0
  · exact ⟨.online, by decide, h0⟩
  · exact ⟨.failed, by decide, not_not.1 fun h2 => h ⟨h0, h2⟩⟩

theorem createHealthParam_code {ha : Health} (h : ha ≠ .rebuilding) : createHealthParam ha.code = some ha := by
  cases ha
  case online => rfl
  case failed => rfl
  case rebuilding => exact absurd rfl h

theorem failed_code {ha : Health} : ha.code = 2 ↔ ha = .failed := by cases ha <;> decide

theorem extentCountOf_eq (n k : Nat) : extentCountOf n k = (n + (2 ^ k - 1)) / 2 ^ k := by
  rw [extentCountOf, Nat.add_sub_assoc Nat.one_le_two_pow]

/-- What R8 asks of the operands of CREATE_VOLUME. -/
def BadCreation (ps : List Byte) : Prop :=
  15 < field ps 0 1 ∨ field ps 1 1 < 8 ∨ 20 < field ps 1 1 ∨ field ps 2 5 = 0 ∨ 5 < (byteAt ps 7).toNat
    ∨ (byteAt ps 8 ≠ 0 ∧ byteAt ps 8 ≠ 2) ∨ (byteAt ps 9 ≠ 0 ∧ byteAt ps 9 ≠ 2) ∨ (byteAt ps 8 = 2 ∧ byteAt ps 9 = 2)
    ∨ 131072 < (field ps 2 5 + (2 ^ field ps 1 1 - 1)) / 2 ^ field ps 1 1

/-- The operands that R8 lets pass, read. -/
theorem createParams_read {ps : List Byte} {st : Coherence} {ha hb : Health} (h7 : byteAt ps 7 = st.code)
    (h8 : byteAt ps 8 = ha.code) (h9 : byteAt ps 9 = hb.code) (hna : ha ≠ .rebuilding) (hnb : hb ≠ .rebuilding) :
    createParams ps = if 15 < field ps 0 1 ∨ field ps 1 1 < 8 ∨ 20 < field ps 1 1 ∨ field ps 2 5 = 0
        ∨ (ha = .failed ∧ hb = .failed) ∨ 131072 < (field ps 2 5 + (2 ^ field ps 1 1 - 1)) / 2 ^ field ps 1 1 then none
      else some (field ps 0 1, field ps 1 1, field ps 2 5, st, ha, hb) := by
  simp only [createParams, h7, h8, h9, coherenceParam_code, createHealthParam_code hna, createHealthParam_code hnb,
    ← extentCountOf_eq]
  rfl

theorem createParams_bad {ps : List Byte} (h : BadCreation ps) : createParams ps = none := by
  by_cases h7 : 5 < (byteAt ps 7).toNat
  · simp only [createParams, coherenceParam_large h7]
  obtain ⟨st, hst⟩ := coherence_of_small (not_lt.1 h7)
  by_cases h8 : byteAt ps 8 ≠ 0 ∧ byteAt ps 8 ≠ 2
  · simp only [createParams, hst, coherenceParam_code, createHealthParam_other h8]
  obtain ⟨ha, hna, hha⟩ := health_of_created h8
  by_cases h9 : byteAt ps 9 ≠ 0 ∧ byteAt ps 9 ≠ 2
  · simp only [createParams, hst, coherenceParam_code, hha, createHealthParam_code hna, createHealthParam_other h9]
  obtain ⟨hb, hnb, hhb⟩ := health_of_created h9
  rw [createParams_read hst hha hhb hna hnb, if_pos]
  unfold BadCreation at h
  rw [hha, hhb, failed_code, failed_code] at h
  rw [hha] at h8
  rw [hhb] at h9
  tauto

theorem createParams_good {ps : List Byte} (h : ¬ BadCreation ps) : ∃ st ha hb, byteAt ps 7 = Coherence.code st
    ∧ byteAt ps 8 = Health.code ha ∧ byteAt ps 9 = Health.code hb ∧ ¬ (ha = .failed ∧ hb = .failed)
    ∧ createParams ps = some (field ps 0 1, field ps 1 1, field ps 2 5, st, ha, hb) := by
  unfold BadCreation at h
  simp only [not_or] at h
  obtain ⟨hv, hk, hk', hn, h7, h8, h9, hboth, hm⟩ := h
  obtain ⟨st, hst⟩ := coherence_of_small (not_lt.1 h7)
  obtain ⟨ha, hna, hha⟩ := health_of_created h8
  obtain ⟨hb, hnb, hhb⟩ := health_of_created h9
  rw [hha, hhb, failed_code, failed_code] at hboth
  refine ⟨st, ha, hb, hst, hha, hhb, hboth, ?_⟩
  rw [createParams_read hst hha hhb hna hnb, if_neg]
  tauto

theorem coherence_code_injective {st st' : Coherence} (h : st.code = st'.code) : st = st' := by
  have := coherenceParam_code st
  rw [h, coherenceParam_code] at this
  exact (Option.some.inj this).symm

theorem health_code_injective {ha hb : Health} (h : ha.code = hb.code) : ha = hb := by
  revert h; cases ha <;> cases hb <;> decide

theorem initialState_reduced (st : Coherence) {ha hb : Health} (h : ¬ (ha = .failed ∧ hb = .failed)) :
    initialState st ha hb = reducedState st ha hb := by
  cases ha <;> cases hb
  case failed.failed => exact absurd ⟨rfl, rfl⟩ h
  all_goals cases st <;> rfl

/-- The record of R9 with its extents in the reduced state of R10. -/
theorem newVolume_does (base n k : Nat) (st : Coherence) {ha hb : Health} (h : ¬ (ha = .failed ∧ hb = .failed)) :
    let x := newVolume base n k st ha hb
    x.geometry = (n, k, extentCountOf n k, base) ∧ x.copyA.health = ha ∧ x.copyB.health = hb
    ∧ x.copyA.errors = 0 ∧ x.copyB.errors = 0 ∧ x.threshold = 8
    ∧ x.policy = .alternate ∧ x.authority = .a ∧ x.toggle = .a ∧ x.cursor = 0 ∧ x.openIntents = 0
    ∧ x.extents = List.replicate (extentCountOf n k) ⟨reducedState st ha hb, 0, none⟩ ∧ x.recount = x := by
  intro x
  refine ⟨rfl, rfl, rfl, rfl, rfl, rfl, rfl, rfl, rfl, rfl, rfl, ?_, recount_recount _⟩
  rw [← initialState_reduced st h]
  rfl

section Creating

variable {p : Port} {ps : List Byte} {v k n : Nat} {st : Coherence} {ha hb : Health}

theorem ownCreateVolume_bad (h : createParams ps = none) : ownCreateVolume p ps s = (s, .bare .badParam) := by
  simp only [ownCreateVolume, h]

theorem ownCreateVolume_present (h : createParams ps = some (v, k, n, st, ha, hb)) (hv : (s.volume? v).isSome = true) :
    ownCreateVolume p ps s = (s, .bare .volumeExists) := by
  simp only [ownCreateVolume, h, hv, if_true]

theorem ownCreateVolume_full (h : createParams ps = some (v, k, n, st, ha, hb)) (hv : s.volume? v = none)
    (hgap : firstGap (extentCountOf n k) 0 s.runs = none) : ownCreateVolume p ps s = (s, .bare .noSpace) := by
  simp only [ownCreateVolume, h, hv, hgap, Option.isSome_none, Bool.false_eq_true, if_false]

theorem ownCreateVolume_makes {base : Nat} (h : createParams ps = some (v, k, n, st, ha, hb)) (hv : s.volume? v = none)
    (hgap : firstGap (extentCountOf n k) 0 s.runs = some base) : ownCreateVolume p ps s =
      (((s.setVolume v (some (newVolume base n k st ha hb))).raiseAll .volumeChanged (.volume v) .created).raiseRepairPending v 0,
        ⟨.ok, bytesOf 3 base ++ bytesOf 3 (extentCountOf n k)⟩) := by
  simp only [ownCreateVolume, h, hv, hgap, Option.isSome_none, Bool.false_eq_true, if_false]

end Creating

theorem begun_runs (s : State) (r : Request) : (begun s r).runs = s.runs := by rw [State.runs, begun_volumes]; rfl

/-- Settles O20: the operands are read or refused, and then the three outcomes of the owner are told apart by the volume table. -/
theorem createVolumeMakesRecord : Obligations.CreateVolumeMakesRecord := by
  intro r s admitted hlen v k n m a b bad
  have hm : extentCountOf n k = m := extentCountOf_eq n k
  have concludes {t : State} {st : Status} {results : List Byte}
      (hown : ownCreateVolume r.port r.params (begun s r) = (t, ⟨st, results⟩)) :
      exec (.createVolume r) s = .next (concluded t r 0x10 st results) :=
    next_of_own admitted rfl (by rw [hlen]; rfl) hown
  have absent (hv : s.volume? v = none) : (begun s r).volume? v = none := (begun_volume? s r v).trans hv
  have gap : firstGap (extentCountOf n k) 0 (begun s r).runs = firstGap m 0 s.runs := by rw [begun_runs, hm]
  refine ⟨fun hbad => concludes (ownCreateVolume_bad (createParams_bad hbad)), fun hgood hv => ?_,
    fun hgood hv hfull => ?_, fun base st ha hb hgood hv hbase h7 h8 h9 => ?_⟩
  · obtain ⟨st, ha, hb, -, -, -, -, hread⟩ := createParams_good hgood
    exact concludes (ownCreateVolume_present hread (by rw [begun_volume?]; exact hv))
  · obtain ⟨st, ha, hb, -, -, -, -, hread⟩ := createParams_good hgood
    exact concludes (ownCreateVolume_full hread (absent hv) (gap.trans hfull))
  · obtain ⟨st', ha', hb', h7', h8', h9', hboth, hread⟩ := createParams_good hgood
    obtain rfl : st' = st := coherence_code_injective (h7'.symm.trans h7)
    obtain rfl : ha' = ha := health_code_injective (h8'.symm.trans h8)
    obtain rfl : hb' = hb := health_code_injective (h9'.symm.trans h9)
    refine ⟨newVolume base n k st' ha' hb', ?_, hm ▸ newVolume_does base n k st' hboth⟩
    rw [← hm]
    exact concludes (ownCreateVolume_makes hread (absent hv) (gap.trans hbase))

end Sys2Proof.Machine
end

section
/-! PROOF. DELETE_VOLUME (R11), SET_VOLUME (R12, R13), VOLUME_STATUS (R14). -/

namespace Sys2Proof.Machine

variable {s : State} {r : Request}

/-! ## DELETE_VOLUME (R11) -/

theorem hasWaiter_iff (s : State) (v : Nat) :
    s.hasWaiter v = true ↔ ∃ w y, w ∈ s.arrival ∧ s.waiter? w = some y ∧ y.volume = v := by
  simp only [State.hasWaiter, List.any_eq_true]
  constructor
  · rintro ⟨w, hw, h⟩
    split at h
    next y hy => exact ⟨w, y, hw, hy, of_decide_eq_true h⟩
    next => cases h
  · rintro ⟨w, y, hw, hy, hv⟩
    exact ⟨w, hw, by rw [hy]; exact decide_eq_true hv⟩

theorem hasAssignment_iff (s : State) (v : Nat) :
    s.hasAssignment v = true ↔ ∃ slot a, s.assignment? slot = some a ∧ a.volume = v := by
  simp only [State.hasAssignment, List.any_eq_true]
  constructor
  · rintro ⟨z, hz, h⟩
    obtain ⟨slot, hslot⟩ := List.mem_iff_getElem?.1 hz
    split at h
    next a ha => exact ⟨slot, a, by rw [State.assignment?, heldAt, hslot]; exact ha, of_decide_eq_true h⟩
    next => cases h
  · rintro ⟨slot, a, ha, hv⟩
    obtain ⟨z, hz, hheld⟩ := heldAt_some ha
    exact ⟨z, List.mem_of_getElem? hz, by rw [hheld]; exact decide_eq_true hv⟩

theorem ownDeleteVolume_present {p : Port} {ps : List Byte} {x : Volume} (hv : field ps 0 1 ≤ 15)
    (hx : s.volume? (field ps 0 1) = some x) : ownDeleteVolume p ps s =
      if 0 < x.openIntents ∨ s.hasWaiter (field ps 0 1) = true ∨ s.hasAssignment (field ps 0 1) = true then (s, .bare .busy)
      else ((s.setVolume (field ps 0 1) none).raiseAll .volumeChanged (.volume (field ps 0 1)) .deleted, .bare .ok) :=
  withVolume_present _ hv hx

/-! ## SET_VOLUME (R12, R13) -/

theorem setVolumeBad_iff (ps : List Byte) : setVolumeBad ps = true ↔ 8 ≤ (byteAt ps 1).toNat
    ∨ ((byteAt ps 1).getLsbD 0 = true ∧ policyParam (byteAt ps 2) = none)
    ∨ ((byteAt ps 1).getLsbD 1 = true ∧ copyParam (byteAt ps 3) = none) := by
  simp only [setVolumeBad, names, Bool.or_eq_true, Bool.and_eq_true, decide_eq_true_eq, Option.isNone_iff_eq_none, or_assoc]

theorem newAuthority_failed_iff (ps : List Byte) (x : Volume) :
    (newAuthority ps).any (fun c => decide (x.health c = .failed)) = true
      ↔ (byteAt ps 1).getLsbD 1 = true ∧ ∃ c, copyParam (byteAt ps 3) = some c ∧ x.health c = .failed := by
  rw [newAuthority, names]
  cases (byteAt ps 1).getLsbD 1
  · simp
  · simp [Option.any_eq_true]

theorem settings_eq (x : Volume) (ps : List Byte) : x.settings ps = { x with
    policy := if (byteAt ps 1).getLsbD 0 then (policyParam (byteAt ps 2)).getD x.policy else x.policy
    authority := if (byteAt ps 1).getLsbD 1 then (copyParam (byteAt ps 3)).getD x.authority else x.authority
    threshold := if (byteAt ps 1).getLsbD 2 then field ps 4 1 else x.threshold } := by
  have hauthority : (newAuthority ps).getD x.authority
      = if (byteAt ps 1).getLsbD 1 then (copyParam (byteAt ps 3)).getD x.authority else x.authority :=
    apply_ite (Option.getD · x.authority) ..
  rw [Volume.settings, hauthority]
  rfl

theorem ownSetVolume_present {p : Port} {ps : List Byte} {x : Volume} (hv : field ps 0 1 ≤ 15)
    (hx : s.volume? (field ps 0 1) = some x) : ownSetVolume p ps s =
      if setVolumeBad ps then (s, .bare .badParam)
      else if (newAuthority ps).any (fun c => x.health c = .failed) then (s, .bare .badState)
      else (s.setVolume (field ps 0 1) (some (x.settings ps)), .bare .ok) :=
  withVolume_present _ hv hx

/-- Settles O22: each owner's tests say what R11, R12 and R13 ask. -/
theorem deleteAndSetVolumeChangeRecord : Obligations.DeleteAndSetVolumeChangeRecord := by
  refine ⟨?delete, ?set⟩
  case delete =>
    intro r s x admitted hlen v busy hv hx
    have hown := ownDeleteVolume_present (p := r.port) (ps := r.params) hv ((begun_volume? s r v).trans hx)
    have hbusy : (0 < x.openIntents ∨ (begun s r).hasWaiter v = true ∨ (begun s r).hasAssignment v = true) ↔ busy := by
      rw [hasWaiter_iff, hasAssignment_iff]
      simp only [begun_arrival, begun_waiter?, begun_assignment?]
      rfl
    refine ⟨fun h => ?_, fun h => ?_⟩
    · exact next_of_own admitted rfl (by rw [hlen]; rfl) (hown.trans (if_pos (hbusy.2 h)))
    · exact next_of_own admitted rfl (by rw [hlen]; rfl) (hown.trans (if_neg (mt hbusy.1 h)))
  case set =>
    intro r s x admitted hlen v set policy authority bad failed hv hx
    have hown := ownSetVolume_present (p := r.port) (ps := r.params) hv ((begun_volume? s r v).trans hx)
    have hbad : setVolumeBad r.params = true ↔ bad := setVolumeBad_iff r.params
    have hfailed : (newAuthority r.params).any (fun c => decide (x.health c = .failed)) = true ↔ failed :=
      newAuthority_failed_iff r.params x
    refine ⟨fun h => ?_, fun h hf => ?_, fun h hf => ?_⟩
    · exact next_of_own admitted rfl (by rw [hlen]; rfl) (hown.trans (if_pos (hbad.2 h)))
    · exact next_of_own admitted rfl (by rw [hlen]; rfl)
        ((hown.trans (if_neg (mt hbad.1 h))).trans (if_pos (hfailed.2 hf)))
    · rw [settings_eq] at hown
      exact next_of_own admitted rfl (by rw [hlen]; rfl)
        ((hown.trans (if_neg (mt hbad.1 h))).trans (if_neg (mt hfailed.1 hf)))

/-! ## VOLUME_STATUS (R14) -/

/-- Fields one behind the other, each with its width and its number. -/
def layout (fs : List (Nat × Nat)) : List Byte := fs.flatMap fun f => bytesOf f.1 f.2

/-- Where a field begins behind fields of these widths. -/
def offsetOf (widths : List Nat) (k : Nat) : Nat := (widths.take k).sum

theorem layout_cons (n v : Nat) (fs : List (Nat × Nat)) : layout ((n, v) :: fs) = bytesOf n v ++ layout fs := rfl

theorem layout_nil : layout [] = [] := rfl

theorem layout_append (fs gs : List (Nat × Nat)) : layout (fs ++ gs) = layout fs ++ layout gs := List.flatMap_append

theorem layout_length (fs : List (Nat × Nat)) : (layout fs).length = (fs.map Prod.fst).sum := by
  simp [layout, List.length_flatMap]

/-- A field of a layout is read where it begins. -/
theorem layout_field {fs : List (Nat × Nat)} {widths : List Nat} (hw : fs.map Prod.fst = widths) (k : Nat) {off n v : Nat}
    (h : fs[k]? = some (n, v)) (hoff : offsetOf widths k = off) : field (layout fs) off n = v % 256 ^ n := by
  obtain ⟨hk, hget⟩ := List.getElem?_eq_some_iff.1 h
  have hsplit : fs = fs.take k ++ (n, v) :: fs.drop (k + 1) := by
    rw [← hget, ← List.drop_eq_getElem_cons hk, List.take_append_drop]
  have hbytes : layout fs = layout (fs.take k) ++ (bytesOf n v ++ layout (fs.drop (k + 1))) := by
    conv_lhs => rw [hsplit, layout_append]
    rfl
  rw [hbytes, ← hoff, offsetOf, ← hw, ← List.map_take, ← layout_length]
  exact field_reads ..

theorem field_byte (bytes : List Byte) (off : Nat) : field bytes off 1 = (byteAt bytes off).toNat := by
  rw [field, byteAt]
  by_cases h : off < bytes.length
  · rw [List.take_one, List.head?_drop, List.getElem?_eq_getElem h, List.getD_eq_getElem _ _ h]
    exact Nat.zero_add _
  · rw [List.drop_eq_nil_of_le (by omega), List.getD_eq_default _ _ (by omega)]
    rfl

theorem layout_byte {fs : List (Nat × Nat)} {widths : List Nat} (hw : fs.map Prod.fst = widths) (k : Nat) {off : Nat} {b : Byte}
    (h : fs[k]? = some (1, b.toNat)) (hoff : offsetOf widths k = off) : byteAt (layout fs) off = b := by
  refine BitVec.eq_of_toNat_eq ?_
  rw [← field_byte, layout_field hw k h hoff]
  exact Nat.mod_eq_of_lt b.isLt

theorem bytesOf_byte (b : Byte) : bytesOf 1 b.toNat = [b] := by rw [bytesOf_one, BitVec.ofNat_toNat, BitVec.setWidth_eq]

/-- The answer to VOLUME_STATUS as Table 9-7 lays it out. -/
def Volume.fields (x : Volume) (v : Nat) : List (Nat × Nat) :=
  [(1, v), (1, x.condition.code.toNat), (5, x.blockCount), (1, x.shift), (3, x.extentCount), (3, x.slotBase),
   (1, x.copyA.health.code.toNat), (1, x.copyB.health.code.toNat), (1, x.copyA.errors), (1, x.copyB.errors), (1, x.threshold),
   (1, x.policy.code.toNat), (1, x.authority.code.toNat), (1, x.toggle.code.toNat),
   (3, x.counts.synced), (3, x.counts.aOnly), (3, x.counts.bOnly), (3, x.counts.suspect), (3, x.counts.lost), (3, x.counts.void),
   (3, x.copyA.stale), (3, x.copyB.stale), (3, x.repairNeeded), (3, x.cursor), (1, x.openIntents)]

/-- The widths of Table 9-7. -/
def statusWidths : List Nat := [1, 1, 5, 1, 3, 3, 1, 1, 1, 1, 1, 1, 1, 1, 3, 3, 3, 3, 3, 3, 3, 3, 3, 3, 1]

theorem Volume.fields_widths (x : Volume) (v : Nat) : (x.fields v).map Prod.fst = statusWidths := rfl

theorem Volume.bytes_eq (x : Volume) (v : Nat) : x.bytes v = layout (x.fields v) := by
  unfold Volume.bytes Volume.fields
  simp only [layout_cons, layout_nil]
  simp only [bytesOf_byte, List.append_assoc]
  simp only [List.cons_append, List.nil_append, List.append_nil]

theorem ownVolumeStatus_number {p : Port} {ps : List Byte} (h : 15 < field ps 0 1) :
    ownVolumeStatus p ps s = (s, .bare .badParam) := if_pos h

theorem ownVolumeStatus_absent {p : Port} {ps : List Byte} (h : field ps 0 1 ≤ 15) (hx : s.volume? (field ps 0 1) = none) :
    ownVolumeStatus p ps s = (s, ⟨.ok, absentBytes (field ps 0 1)⟩) := by
  have hv : ¬ Config.volumes ≤ field ps 0 1 := by simpa [Config.volumes] using Nat.lt_succ_of_le h
  simp only [ownVolumeStatus, if_neg hv, hx]

theorem ownVolumeStatus_present {p : Port} {ps : List Byte} {x : Volume} (h : field ps 0 1 ≤ 15)
    (hx : s.volume? (field ps 0 1) = some x) : ownVolumeStatus p ps s = (s, ⟨.ok, x.bytes (field ps 0 1)⟩) := by
  have hv : ¬ Config.volumes ≤ field ps 0 1 := by simpa [Config.volumes] using Nat.lt_succ_of_le h
  simp only [ownVolumeStatus, if_neg hv, hx]

/-- Settles O23: each field of the record is read behind the fields before it (Table 9-7). -/
theorem volumeStatusReportsRecord : Obligations.VolumeStatusReportsRecord := by
  intro r s taken hlen v
  have concludes {t : State} {st : Status} {results : List Byte}
      (hown : ownVolumeStatus r.port r.params (begun s r) = (t, ⟨st, results⟩)) :
      exec (.volumeStatus r) s = .next (concluded t r 0x12 st results) :=
    next_of_own_free taken rfl rfl (by rw [hlen]; rfl) hown
  refine ⟨fun hv => concludes (ownVolumeStatus_number hv), fun hv hx => ?_, fun x hv hx => ?_⟩
  · have hbytes : absentBytes v = BitVec.ofNat 8 v :: List.replicate 52 0 := by
      rw [absentBytes, bytesOf_one]
      rfl
    exact hbytes ▸ concludes (ownVolumeStatus_absent hv ((begun_volume? s r v).trans hx))
  · refine ⟨x.bytes v, concludes (ownVolumeStatus_present hv ((begun_volume? s r v).trans hx)), ?_⟩
    have hnumber : v % 256 ^ 1 = v := Nat.mod_eq_of_lt (by omega)
    rw [x.bytes_eq v]
    have hw := x.fields_widths v
    have hlength : (layout (x.fields v)).length = 53 := by rw [layout_length, hw]; rfl
    exact ⟨hlength, (layout_field hw 0 rfl rfl).trans hnumber, layout_byte hw 1 rfl rfl, layout_field hw 2 rfl rfl, layout_field hw 3 rfl rfl,
      layout_field hw 4 rfl rfl, layout_field hw 5 rfl rfl, layout_byte hw 6 rfl rfl, layout_byte hw 7 rfl rfl, layout_field hw 8 rfl rfl, layout_field hw 9 rfl rfl,
      layout_field hw 10 rfl rfl, layout_byte hw 11 rfl rfl, layout_byte hw 12 rfl rfl, layout_byte hw 13 rfl rfl, layout_field hw 14 rfl rfl, layout_field hw 15 rfl rfl,
      layout_field hw 16 rfl rfl, layout_field hw 17 rfl rfl, layout_field hw 18 rfl rfl, layout_field hw 19 rfl rfl, layout_field hw 20 rfl rfl,
      layout_field hw 21 rfl rfl, layout_field hw 22 rfl rfl, layout_field hw 23 rfl rfl, layout_field hw 24 rfl rfl⟩

end Sys2Proof.Machine
end

section
/-! PROOF. ROUTE (R37, R38), REPLACE_COPY (R115, R116), FORMAT (R168). -/

namespace Sys2Proof.Machine

variable {s : State} {r : Request}

/-! ## ROUTE (R37, R38) -/

theorem extent_eq {x : Volume} {e : Nat} {y : Extent} (h : x.extents[e]? = some y) : x.extent e = y := by
  rw [Volume.extent, List.getD_eq_getElem?_getD, h]
  rfl

section Routing

variable {p : Port} {ps : List Byte} {x : Volume}

theorem ownRoute_present (hv : field ps 0 1 ≤ 15) (hx : s.volume? (field ps 0 1) = some x) : ownRoute p ps s =
    if x.blockCount ≤ field ps 1 5 then (s, .bare .badParam)
    else if x.condition = .offline then (s, .bare .offline)
    else
      let e := extentOf x.shift (field ps 1 5)
      let y := x.extent e
      (s.setVolume (field ps 0 1) (some { x with toggle := toggleAfter x y.state }),
       ⟨.ok, bytesOf 3 e ++ [y.state.code, readableCode y.state x.authority, readCode x y.state, routeFlags y]⟩) :=
  withVolume_present _ hv hx

end Routing

/-- Settles O26: the checks of R37 and then the copies of R38, which the owner names as the specification does. -/
theorem routeNamesCopyToRead : Obligations.RouteNamesCopyToRead := by
  intro r s x taken hlen v b e hv hx
  have hown := ownRoute_present (p := r.port) (ps := r.params) hv ((begun_volume? s r v).trans hx)
  have concludes {t : State} {st : Status} {results : List Byte} (h : ownRoute r.port r.params (begun s r) = (t, ⟨st, results⟩)) :
      exec (.route r) s = .next (concluded t r 0x18 st results) :=
    next_of_own_free taken rfl rfl (by rw [hlen]; rfl) h
  refine ⟨fun hb => concludes (hown.trans (if_pos hb)),
    fun hb hoffline => concludes ((hown.trans (if_neg (not_le.2 hb))).trans (if_pos hoffline)), ?_⟩
  intro y hb honline hy policyCopy readable read flags
  have hread := (hown.trans (if_neg (not_le.2 hb))).trans (if_neg honline)
  have hextent : x.extent (extentOf x.shift (field r.params 1 5)) = y := extent_eq hy
  simp only [hextent] at hread
  have hreadable : readableCode y.state x.authority = readable := rfl
  have hcopy : readCode x y.state = read := rfl
  have hflags : routeFlags y = flags := rfl
  rw [hreadable, hcopy, hflags] at hread
  exact concludes hread

/-! ## REPLACE_COPY (R115, R116) -/

theorem repairNeeded_eq {v : Nat} {x : Volume} (h : s.volume? v = some x) : s.repairNeeded v = x.repairNeeded := by
  rw [State.repairNeeded, h]

theorem raiseAll_repairNeeded (s : State) (k : Kind) (sub : Subject) (val : EventValue) (v : Nat) :
    (s.raiseAll k sub val).repairNeeded v = s.repairNeeded v := by
  rw [State.repairNeeded, State.repairNeeded, (raiseAll_onlyEvents _ _ _ _).volume?]

/-- The stale count of a recounted volume comes from its extents alone. -/
theorem recount_stale (x : Volume) (c : Copy) : (x.recount.copy c).stale = countState x.extents (onlyState (other c)) := by
  cases c <;> rfl

theorem setCopy_extents (x : Volume) (c : Copy) (k : CopyRecord) : (x.setCopy c k).extents = x.extents := by cases c <;> rfl

theorem setCopy_health (x : Volume) (c : Copy) (k : CopyRecord) : (x.setCopy c k).health c = k.health := by cases c <;> rfl

/-- A replaced copy is rebuilt, or is ONLINE at once where nothing is stale. -/
theorem replaced_eq (x : Volume) (c : Copy) : x.replaced c =
    (x.setCopy c ⟨if (x.copy c).stale = 0 then .online else .rebuilding, 0, (x.copy c).stale⟩).recount := by
  have hflip : (if 0 < (x.copy c).stale then Health.rebuilding else .online)
      = if (x.copy c).stale = 0 then .online else .rebuilding := by
    by_cases h : (x.copy c).stale = 0
    · simp [h]
    · simp [h, Nat.pos_of_ne_zero h]
  rw [Volume.replaced, hflip]

theorem copy_stale_of_recount {x : Volume} (h : x.recount = x) (c : Copy) :
    (x.copy c).stale = countState x.extents (onlyState (other c)) := by
  conv_lhs => rw [← h]
  exact recount_stale x c

theorem ownReplaceCopy_named {p : Port} {ps : List Byte} {x : Volume} {c : Copy} (hv : field ps 0 1 ≤ 15)
    (hx : s.volume? (field ps 0 1) = some x) (hc : byteAt ps 1 = c.code) : ownReplaceCopy p ps s =
      if x.health c ≠ .failed ∨ x.health (other c) = .failed then (s, .bare .badState)
      else
        let y := x.replaced c
        let t := s.setVolume (field ps 0 1) (some y)
        let t := if y.health c = .online then t.raiseAll .copyOnline (.copy (field ps 0 1) c) .zero else t
        (t.raiseRepairPending (field ps 0 1) x.repairNeeded,
          ⟨.ok, [(y.health c).code] ++ bytesOf 3 (y.copy c).stale ++ bytesOf 3 y.repairNeeded⟩) :=
  withCopy_named _ hv hx hc

/-- Settles O45: the checks of R115, and then the record of R116 with its two events. -/
theorem replaceCopyStartsRebuild : Obligations.ReplaceCopyStartsRebuild := by
  intro r s x admitted hlen v hv hx
  have hbegun : (begun s r).volume? v = some x := (begun_volume? s r v).trans hx
  have concludes {t : State} {st : Status} {results : List Byte}
      (h : ownReplaceCopy r.port r.params (begun s r) = (t, ⟨st, results⟩)) :
      exec (.replaceCopy r) s = .next (concluded t r 0x31 st results) :=
    next_of_own admitted rfl (by rw [hlen]; rfl) h
  refine ⟨fun ha hb => concludes (withCopy_badCopy _ hv hbegun ha hb), fun c hc => ?_⟩
  have hown := ownReplaceCopy_named (p := r.port) hv hbegun hc
  refine ⟨fun hstate => concludes (hown.trans (if_pos hstate)), fun hfailed hother counts => ?_⟩
  have hrecount : x.recount = x := (counts v x hx).1
  intro stale h x' t0 t1 t2
  have hextents : x'.extents = x.extents := by simp only [x', recount_extents, setCopy_extents]
  refine ⟨?_, hextents⟩
  have hreplaced : x.replaced c = x' := replaced_eq x c
  have hhealth : x'.health c = h := by simp only [x', recount_health, setCopy_health]
  have hstale : (x'.copy c).stale = stale := by
    rw [show x' = _ from rfl, recount_stale, setCopy_extents, ← copy_stale_of_recount hrecount]
  have honline : x'.health c = .online ↔ stale = 0 := by
    rw [hhealth]
    by_cases h0 : stale = 0 <;> simp [h, h0]
  have hgood := hown.trans (if_neg (by simp [hfailed, hother]))
  simp only [hreplaced, honline, hstale] at hgood
  have hneeded : t1.repairNeeded v = x'.repairNeeded := by
    have h0 : t0.repairNeeded v = x'.repairNeeded := repairNeeded_eq (by
      rw [State.volume?_setVolume hbegun, if_pos rfl])
    simp only [t1]
    split
    next => exact (raiseAll_repairNeeded ..).trans h0
    next => exact h0
  have hpending : t1.raiseRepairPending v x.repairNeeded = t2 := by
    simp only [State.raiseRepairPending, hneeded, Nat.pos_iff_ne_zero]
    rfl
  rw [← hpending, ← hhealth]
  exact concludes hgood

/-! ## FORMAT (R168) -/

theorem any_held_iff {α : Type} (l : List (Slot (Option α))) :
    l.any (fun x => x.held.isSome) = true ↔ ∃ slot a, heldAt l slot = some a := by
  rw [List.any_eq_true]
  constructor
  · rintro ⟨z, hz, h⟩
    obtain ⟨slot, hslot⟩ := List.mem_iff_getElem?.1 hz
    obtain ⟨a, ha⟩ := Option.isSome_iff_exists.1 h
    exact ⟨slot, a, by rw [heldAt, hslot]; exact ha⟩
  · rintro ⟨slot, a, ha⟩
    obtain ⟨z, hz, hheld⟩ := heldAt_some ha
    exact ⟨z, List.mem_of_getElem? hz, by rw [hheld]; rfl⟩

theorem formatBusy_iff (s : State) (p : Port) : s.formatBusy p = true ↔ (∃ slot i, s.intent? slot = some i) ∨ s.arrival ≠ []
    ∨ (∃ slot a, s.assignment? slot = some a) ∨ (s.port (peer p)).session.state = .opened := by
  simp only [State.formatBusy, Bool.or_eq_true, any_held_iff, Bool.not_eq_true', List.isEmpty_eq_false_iff, decide_eq_true_eq,
    or_assoc]
  rfl

theorem begun_present (s : State) (r : Request) : (begun s r).present = s.present := by
  simp only [State.present, begun_volume?]

/-- Settles O48: the owner's test is R168's, and the volumes that it tells of are those that were present. -/
theorem formatEmptiesVolumes : Obligations.FormatEmptiesVolumes := by
  intro r s admitted hlen p busy present
  have concludes {t : State} {st : Status} {results : List Byte} (h : ownFormat r.port r.params (begun s r) = (t, ⟨st, results⟩)) :
      exec (.format r) s = .next (concluded t r 0x38 st results) :=
    next_of_own admitted rfl (by rw [hlen]; rfl) h
  have hbusy : (begun s r).formatBusy p = true ↔ busy := by
    rw [formatBusy_iff]
    simp only [begun_intent?, begun_arrival, begun_assignment?, begun_sessionState]
    rfl
  refine ⟨fun h => concludes (if_pos (hbusy.2 h)), fun h => concludes ((if_neg (mt hbusy.1 h)).trans ?_)⟩
  simp only [begun_present, bytesOf_one]
  rfl

end Sys2Proof.Machine
end

section
/-! PROOF. Tables 2-3 and R26 row by row, tags and tickets that find nothing (R44, R70, R84), INTENT_STATUS (R66), and the ends of
waits (R77 to R80). -/

namespace Sys2Proof.Machine

variable {s : State} {r : Request}

/-! ## Table 2-3 and R26 -/

theorem currentAfterClose_other {ra : Report} (h : ra ≠ .written) (st : Coherence) (whole : Bool) (c : Copy) :
    currentAfterClose st whole ra c = false := by simp [currentAfterClose, h]

/-- A report that is no longer PENDING counts in an abandon as in a close (R26). -/
theorem currentAfterAbandon_reported {ra : Report} (h : ra ≠ .pending) (st : Coherence) (whole : Bool) (c : Copy) :
    currentAfterAbandon st whole ra c = currentAfterClose st whole ra c := by
  cases ra
  case pending => exact absurd rfl h
  all_goals rfl

theorem abandonResult_reported {ra rb : Report} (ha : ra ≠ .pending) (hb : rb ≠ .pending) (st : Coherence) (whole : Bool) :
    abandonResult st whole ra rb = closeResult st whole ra rb := by
  simp only [abandonResult, closeResult, currentAfterAbandon_reported ha, currentAfterAbandon_reported hb, ha, hb,
    decide_false, Bool.false_and, Bool.false_eq_true, if_false]

/-- Settles O25: what is no WRITTEN report counts as none, so that each row comes down to a state and the width of the write. -/
theorem intentCloseTable : Obligations.IntentCloseTable := by
  refine ⟨fun ra rb => ⟨fun ha hb st whole => ?none, fun hb => ?onlyA, fun ha => ?onlyB, ?both⟩, fun st whole => ?abandon⟩
  case none => simp only [closeResult, currentAfterClose_other ha, currentAfterClose_other hb]; rfl
  case onlyA =>
    simp only [closeResult, currentAfterClose_other hb]
    exact ⟨fun st => by cases st <;> rfl, rfl, rfl, rfl, rfl, rfl, rfl⟩
  case onlyB =>
    simp only [closeResult, currentAfterClose_other ha]
    exact ⟨fun st => by cases st <;> rfl, rfl, rfl, rfl, rfl, rfl, rfl⟩
  case both => exact ⟨fun st => by cases st <;> rfl, rfl, rfl, rfl, rfl, rfl, rfl⟩
  case abandon =>
    refine ⟨fun ra rb ha hb => abandonResult_reported ha hb st whole, ?_, ?_, ?_, fun rb hp hw => ?_, fun ra hp hw => ?_⟩
    · cases st <;> cases whole <;> rfl
    · cases st <;> cases whole <;> rfl
    · cases st <;> cases whole <;> rfl
    · simp only [abandonResult, currentAfterAbandon_reported hp, currentAfterClose_other hw]
      cases st <;> cases whole <;> rfl
    · simp only [abandonResult, currentAfterAbandon_reported hp, currentAfterClose_other hw]
      cases st <;> cases whole <;> rfl

/-! ## Tags and tickets (R44, R70, R84) -/

theorem begun_findIntent (s : State) (r : Request) (p : Port) (t : Tag) : (begun s r).findIntent p t = s.findIntent p t := by
  simp only [State.findIntent, begun_intent?, begun_intents, begun_epoch]

theorem begun_findAssignment (s : State) (r : Request) (p : Port) (t : Tag) :
    (begun s r).findAssignment p t = s.findAssignment p t := by
  simp only [State.findAssignment, begun_assignment?, begun_assignments, begun_epoch]

theorem begun_findTicket (s : State) (r : Request) (p : Port) (t : Tag) : (begun s r).findTicket p t = s.findTicket p t := by
  simp only [State.findTicket, begun_waiterEntry, begun_waiters, begun_epoch]

theorem outcomeParam_code {b : Byte} (h : b = 1 ∨ b = 2) : ∃ o, outcomeParam b = some o := by
  rcases h with rfl | rfl <;> exact ⟨_, rfl⟩

theorem outcomeParam_none {b : Byte} (h : b ≠ 1 ∧ b ≠ 2) : outcomeParam b = none := by
  rw [outcomeParam, if_neg h.1, if_neg h.2]

theorem repairOutcomeParam_small {b : Byte} (h : b.toNat ≤ 2) : ∃ o, repairOutcomeParam b = some o := by
  have hcases : b.toNat = 0 ∨ b.toNat = 1 ∨ b.toNat = 2 := by omega
  rcases hcases with h | h | h
  · exact ⟨.copied, by rw [BitVec.eq_of_toNat_eq (y := (0 : Byte)) h]; rfl⟩
  · exact ⟨.sourceBad, by rw [BitVec.eq_of_toNat_eq (y := (1 : Byte)) h]; rfl⟩
  · exact ⟨.targetBad, by rw [BitVec.eq_of_toNat_eq (y := (2 : Byte)) h]; rfl⟩

theorem repairOutcomeParam_large {b : Byte} (h : 2 < b.toNat) : repairOutcomeParam b = none := by
  have ne (c : Byte) (hc : c.toNat ≤ 2) : b ≠ c := fun e => by rw [e] at h; omega
  rw [repairOutcomeParam, if_neg (ne 0 (by decide)), if_neg (ne 1 (by decide)), if_neg (ne 2 (by decide))]

section Reports

variable {p : Port} {ps : List Byte} {c : Copy} {o : Report} {i : Intent}

theorem ownReportWrite_badBytes (h : copyParam (byteAt ps 2) = none ∨ outcomeParam (byteAt ps 3) = none) :
    ownReportWrite p ps s = (s, .bare .badParam) := by
  rcases h with h | h
  · simp only [ownReportWrite, h]
  · cases hc : copyParam (byteAt ps 2) <;> simp only [ownReportWrite, hc, h]

theorem ownReportWrite_unknown (hc : byteAt ps 2 = c.code) (ho : outcomeParam (byteAt ps 3) = some o)
    (h : s.findIntent p (tagParam ps 0) = none) : ownReportWrite p ps s = (s, .bare .unknownTag) := by
  simp only [ownReportWrite, hc, copyParam_code, ho, h]

theorem ownReportWrite_found (hc : byteAt ps 2 = c.code) (ho : outcomeParam (byteAt ps 3) = some o)
    (h : s.findIntent p (tagParam ps 0) = some i) : ownReportWrite p ps s =
      if i.report c = .notRequired ∨ i.report c = .dropped then (s, .bare .notRequired)
      else if i.report c ≠ .pending then (s, .bare .duplicateReport)
      else
        let t := s.recordReport (tagParam ps 0).slot i c o
        (t, ⟨.ok, reportBytes (i.withReport o c) (t.health i.volume c)⟩) := by
  simp only [ownReportWrite, hc, copyParam_code, ho, h]

theorem ownAbandonIntent_unknown (h : s.findIntent p (tagParam ps 0) = none) :
    ownAbandonIntent p ps s = (s, .bare .unknownTag) := by simp only [ownAbandonIntent, h]

theorem ownIntentStatus_unknown (h : s.findIntent p (tagParam ps 0) = none) :
    ownIntentStatus p ps s = (s, .bare .unknownTag) := by simp only [ownIntentStatus, h]

theorem ownIntentStatus_found (h : s.findIntent p (tagParam ps 0) = some i) :
    ownIntentStatus p ps s = (s, ⟨.ok, i.bytes (s.remaining i.deadline)⟩) := by simp only [ownIntentStatus, h]

theorem ownRepairDone_badOutcome (h : repairOutcomeParam (byteAt ps 2) = none) :
    ownRepairDone p ps s = (s, .bare .badParam) := by simp only [ownRepairDone, h]

theorem ownRepairDone_unknown {o : RepairOutcome} (ho : repairOutcomeParam (byteAt ps 2) = some o)
    (h : s.findAssignment p (tagParam ps 0) = none) : ownRepairDone p ps s = (s, .bare .unknownTag) := by
  simp only [ownRepairDone, ho, h]

theorem ownReleaseRepair_unknown (h : s.findAssignment p (tagParam ps 0) = none) :
    ownReleaseRepair p ps s = (s, .bare .unknownTag) := by simp only [ownReleaseRepair, h]

theorem ownCancelWait_unknown (h : s.findTicket p (tagParam ps 0) = .vacant) :
    ownCancelWait p ps s = (s, .bare .unknownTicket) := by simp only [ownCancelWait, h]

theorem ownCancelWait_waiting {w : Waiter} (h : s.findTicket p (tagParam ps 0) = .waiting w) :
    ownCancelWait p ps s = ((s.removeWaiter (tagParam ps 0).slot).pass, .bare .ok) := by simp only [ownCancelWait, h]

theorem ownCancelWait_granted {q : Port} {e : Word16} {tag : Tag} (h : s.findTicket p (tagParam ps 0) = .granted q e tag) :
    ownCancelWait p ps s = (s, ⟨.alreadyGranted, tag.bytes⟩) := by simp only [ownCancelWait, h]

end Reports

/-- Settles O35: each of the owners looks its tag or ticket up, or its bytes, before all else. -/
theorem deadTagsAreRefused : Obligations.DeadTagsAreRefused := by
  intro r s p tag
  refine ⟨fun hnone => ⟨?write, ?abandon, ?status⟩, fun i c hi admitted hlen hc ho => ⟨fun h => ?notRequired, fun h => ?duplicate⟩,
    fun hnone => ⟨?done, ?release⟩, ?cancel, ?badBytes, ?badOutcome⟩
  case write =>
    intro admitted hlen c hc ho
    obtain ⟨o, ho⟩ := outcomeParam_code ho
    exact next_of_own admitted rfl (by rw [hlen]; rfl)
      (ownReportWrite_unknown hc ho ((begun_findIntent s r p tag).trans hnone))
  case abandon =>
    intro admitted hlen
    exact next_of_own admitted rfl (by rw [hlen]; rfl) (ownAbandonIntent_unknown ((begun_findIntent s r p tag).trans hnone))
  case status =>
    intro admitted hlen
    exact next_of_own admitted rfl (by rw [hlen]; rfl) (ownIntentStatus_unknown ((begun_findIntent s r p tag).trans hnone))
  case notRequired =>
    obtain ⟨o, ho⟩ := outcomeParam_code ho
    exact next_of_own admitted rfl (by rw [hlen]; rfl)
      ((ownReportWrite_found hc ho ((begun_findIntent s r p tag).trans hi)).trans (if_pos h))
  case duplicate =>
    obtain ⟨o, ho⟩ := outcomeParam_code ho
    have hwanted : ¬ (i.report c = .notRequired ∨ i.report c = .dropped) := by
      rcases h with h | h <;> rw [h] <;> decide
    have hreported : i.report c ≠ .pending := by
      rcases h with h | h <;> rw [h] <;> decide
    exact next_of_own admitted rfl (by rw [hlen]; rfl)
      (((ownReportWrite_found hc ho ((begun_findIntent s r p tag).trans hi)).trans (if_neg hwanted)).trans (if_pos hreported))
  case done =>
    intro admitted hlen ho
    obtain ⟨o, ho⟩ := repairOutcomeParam_small ho
    exact next_of_own admitted rfl (by rw [hlen]; rfl)
      (ownRepairDone_unknown ho ((begun_findAssignment s r p tag).trans hnone))
  case release =>
    intro admitted hlen
    exact next_of_own admitted rfl (by rw [hlen]; rfl)
      (ownReleaseRepair_unknown ((begun_findAssignment s r p tag).trans hnone))
  case cancel =>
    intro hvacant admitted hlen
    exact next_of_own admitted rfl (by rw [hlen]; rfl) (ownCancelWait_unknown ((begun_findTicket s r p tag).trans hvacant))
  case badBytes =>
    intro admitted hlen h
    exact next_of_own admitted rfl (by rw [hlen]; rfl)
      (ownReportWrite_badBytes (h.imp (fun hc => copyParam_none hc.1 hc.2) outcomeParam_none))
  case badOutcome =>
    intro admitted hlen h
    exact next_of_own admitted rfl (by rw [hlen]; rfl) (ownRepairDone_badOutcome (repairOutcomeParam_large h))

/-! ## INTENT_STATUS (R66) -/

theorem remaining_eq (s : State) (d : Nat) : s.remaining d = max 1 ((d - s.moment + 24999) / 25000) := by
  simp only [State.remaining, Config.cyclesPerTick]
  omega

/-- Settles O37: the owner answers the intent's fields and the time left at the moment of the frame. -/
theorem intentStatusReportsIntent : Obligations.IntentStatusReportsIntent := by
  intro r s i admitted hlen hi left
  have hown := ownIntentStatus_found ((begun_findIntent s r r.port (tagParam r.params 0)).trans hi)
  rw [remaining_eq, begun_moment] at hown
  exact next_of_own admitted rfl (by rw [hlen]; rfl) hown

/-! ## The ends of waits (R77 to R80) -/

theorem findTicket_gen {p : Port} {t : Tag} (h : s.findTicket p t ≠ .vacant) : genAt s.waiters t.slot = t.gen := by
  by_contra hgen
  exact h (by rw [State.findTicket, if_neg hgen])

theorem expired_iff (s : State) (d : Nat) : s.expired d = true ↔ s.supply = .run ∧ d ≤ s.ticks * 25000 := by
  rw [State.expired, Bool.and_eq_true, decide_eq_true_eq, decide_eq_true_eq]
  rfl

theorem visit_keeps_vacant {k : Nat} (h : s.waiterEntry k = .vacant) (w : Nat) : (s.visit w).waiterEntry k = .vacant := by
  rcases visit_cases s w with hsame | ⟨x, slot, vol, hw, hg, hv⟩
  · rw [hsame, h]
  · have hne : k ≠ w := by
      rintro rfl
      cases h.symm.trans (waiterEntry_of_waiter? hw)
    rw [visit_waiterEntry hw hg hv, if_neg hne, h]

theorem pass_keeps_vacant {k : Nat} (h : s.waiterEntry k = .vacant) : s.pass.waiterEntry k = .vacant :=
  foldl_keeps (R := fun s t => s.waiterEntry k = .vacant → t.waiterEntry k = .vacant)
    (fun _ => id) (fun _ _ _ h k hs => k (h hs)) (fun _ w hs => visit_keeps_vacant hs w) s.arrival s h

theorem execWaiterExpiry_due {slot : Nat} {w : Waiter} (hw : s.waiter? slot = some w) (h : s.expired w.deadline = true) :
    execWaiterExpiry slot s = .next (((s.removeWaiter slot).raise w.port .waitEnded (.ticket (s.ticket slot))
      .waitExpired).pass).settleAttn := by
  simp only [execWaiterExpiry, hw, h, if_true]

theorem execWaiterExpiry_inert {slot : Nat} (h : ∀ w, s.waiter? slot = some w → s.expired w.deadline = false) :
    execWaiterExpiry slot s = .next s := by
  cases hw : s.waiter? slot with
  | none => simp only [execWaiterExpiry, hw]
  | some w => simp only [execWaiterExpiry, hw, h w hw, Bool.false_eq_true, if_false]

/-- Settles O39: the waiter leaves, and no visit of the pass that follows can bring it back. -/
theorem cancelAndExpiryEndWaits : Obligations.CancelAndExpiryEndWaits := by
  refine ⟨fun r s admitted hlen => ⟨fun w hw => ?cancelled, fun q e tag hg => ?granted⟩,
    fun slot s => ⟨fun w hrun hw hd => ?due, fun h => ?inert⟩⟩
  case cancelled =>
    have hown := ownCancelWait_waiting ((begun_findTicket s r r.port (tagParam r.params 0)).trans hw)
    have hgen : genAt s.waiters (tagParam r.params 0).slot = (tagParam r.params 0).gen :=
      findTicket_gen (by rw [hw]; exact fun e => by cases e)
    simp only [State.removeWaiter, begun_waiters, begun_arrival, hold, hgen] at hown
    exact next_of_own admitted rfl (by rw [hlen]; rfl) hown
  case granted =>
    exact next_of_own admitted rfl (by rw [hlen]; rfl) (ownCancelWait_granted ((begun_findTicket s r r.port (tagParam r.params 0)).trans hg))
  case due =>
    intro ticket u t
    have hlt := State.waiter?_lt hw
    have hentry : (u.raise w.port .waitEnded (.ticket ticket) .waitExpired).waiterEntry slot = .vacant := by
      rw [(raise_onlyEvents _ _ _ _ _).waiterEntry]
      exact (waiterEntry_hold slot slot .vacant _).trans (if_pos ⟨rfl, hlt⟩)
    have hgrants := pass_grantsOnly (u.raise w.port .waitEnded (.ticket ticket) .waitExpired)
    refine ⟨execWaiterExpiry_due hw ((expired_iff s _).2 ⟨hrun, hd⟩), ?_, fun hmem => ?_, fun hopen => ?_⟩
    · rw [State.waiterEntry_settleAttn]
      exact pass_keeps_vacant hentry
    · rw [State.settleAttn_arrival] at hmem
      have harrival := hgrants.arrival.subset hmem
      rw [(raise_onlyEvents _ _ _ _ _).arrival] at harrival
      simpa [u] using List.of_mem_filter harrival
    · rw [State.settleAttn_port]
      exact hgrants.told _ _ _ _ (raise_tells (s := u) hopen _ _ _)
  case inert =>
    refine execWaiterExpiry_inert fun w hw => ?_
    rw [← Bool.not_eq_true, expired_iff]
    rintro ⟨hrun, hd⟩
    rcases h with h | h
    · exact h hrun
    · exact absurd hd (not_le.2 (h w hw))

end Sys2Proof.Machine
end

section
/-! PROOF. Grants (R50, R31, R91), the wait list's visits and passes (R72 to R75). -/

namespace Sys2Proof.Machine

variable {s : State}

/-! ## What a grant does, whole (R50, R31, R91) -/

theorem grant_eq {i : Intent} {x : Volume} (slot : Nat) (hx : s.volume? i.volume = some x) : s.grant slot i =
    (({ s with intents := place s.intents slot (some i), assignments := markOvertaken s.assignments i.volume i.touches }
      : State).setIntentCount i.port ((s.port i.port).intents + 1)).setVolume i.volume
        (some { x with openIntents := x.openIntents + 1, extents := mapExtents (grantExtent i) x.extents }) := by
  have hv : (({ s with intents := place s.intents slot (some i), assignments := markOvertaken s.assignments i.volume i.touches }
      : State).setIntentCount i.port ((s.port i.port).intents + 1)).volume? i.volume = some x := by
    rw [State.volume?_setIntentCount]
    exact hx
  have hport : State.port { s with intents := place s.intents slot (some i)
                                   assignments := markOvertaken s.assignments i.volume i.touches } i.port = s.port i.port := by
    cases i.port <;> rfl
  simp only [State.grant, State.modVolume, hport, hv]

theorem grant_port {i : Intent} {x : Volume} (slot : Nat) (hx : s.volume? i.volume = some x) :
    (s.grant slot i).port i.port = { s.port i.port with intents := (s.port i.port).intents + 1 }
    ∧ (s.grant slot i).port (peer i.port) = s.port (peer i.port) := by
  rw [grant_eq slot hx]
  cases i.port <;> exact ⟨rfl, rfl⟩

theorem grant_assignments (s : State) (slot : Nat) (i : Intent) :
    (s.grant slot i).assignments = markOvertaken s.assignments i.volume i.touches := by
  cases hx : s.volume? i.volume with
  | some x => rw [grant_eq slot hx, State.setVolume_assignments, State.setIntentCount_assignments]
  | none =>
    have hv : (({ s with intents := place s.intents slot (some i), assignments := markOvertaken s.assignments i.volume i.touches }
        : State).setIntentCount i.port ((s.port i.port).intents + 1)).volume? i.volume = none := by
      rw [State.volume?_setIntentCount]
      exact hx
    have hport : State.port { s with intents := place s.intents slot (some i)
                                     assignments := markOvertaken s.assignments i.volume i.touches } i.port = s.port i.port := by
      cases i.port <;> rfl
    simp only [State.grant, State.modVolume, hport, hv, State.setIntentCount_assignments]

/-- Settles O31: the grant is the write of its slot, its count and its volume, and the marks. -/
theorem grantTouchesItsExtents : Obligations.GrantTouchesItsExtents := by
  intro s slot i x hfree hx t touched
  have ht : t = _ := grant_eq slot hx
  obtain ⟨hport, hpeer⟩ := grant_port slot hx
  have hgrants := grant_grantsOnly hfree i
  refine ⟨grant_intents s slot i, hport, hpeer, ⟨mapExtents (grantExtent i) x.extents, ?_, mapExtents_length _ _, ?_⟩, ?_,
    (grant_assignments s slot i).trans (markOvertaken_eq_map _ _ _), grant_waiters s slot i, grant_arrival s slot i,
    hgrants.pointer, hgrants.elsewhere⟩
  · rw [ht]
    exact State.volume?_setVolume_self (by
      rw [State.setIntentCount_volumes]
      exact State.volume?_lt hx) _
  · intro e y hy
    rw [mapExtents_getElem?, hy]
    rfl
  · intro w hw
    rw [ht, State.volume?_setVolume_ne _ hw, State.volume?_setIntentCount]
    rfl

/-- What is told from a state is told from each with the same events and session. -/
theorem Told.source {u t : State} {p : Port} {es : List Event} (h : Told u t p es) (he : (u.port p).events = (s.port p).events)
    (hs : (u.port p).session = (s.port p).session) : Told s t p es := by
  rwa [Told, he, hs] at h

/-! ## What blocks a waiter (R75) -/

theorem overlap_iff (f c g d : Nat) : overlap f c g d = true ↔ f < g + d ∧ g < f + c := by
  simp [overlap]

theorem overlapsIntent_iff (s : State) (v first count : Nat) : s.overlapsIntent v first count = true ↔
    ∃ slot i, s.intent? slot = some i ∧ i.volume = v ∧ overlap first count i.firstBlock i.blockCount = true := by
  simp only [State.overlapsIntent, List.any_eq_true]
  constructor
  · rintro ⟨z, hz, h⟩
    obtain ⟨slot, hslot⟩ := List.mem_iff_getElem?.1 hz
    split at h
    next i hi =>
      rw [Bool.and_eq_true, decide_eq_true_eq] at h
      exact ⟨slot, i, by rw [State.intent?, heldAt, hslot]; exact hi, h⟩
    next => cases h
  · rintro ⟨slot, i, hi, h⟩
    obtain ⟨z, hz, hheld⟩ := heldAt_some hi
    refine ⟨z, List.mem_of_getElem? hz, ?_⟩
    rw [hheld, Bool.and_eq_true, decide_eq_true_eq]
    exact h

theorem overlapsWaiter_iff (s : State) (slots : List Nat) (v first count : Nat) : s.overlapsWaiter slots v first count = true ↔
    ∃ k y, k ∈ slots ∧ s.waiter? k = some y ∧ y.volume = v ∧ overlap first count y.firstBlock y.blockCount = true := by
  simp only [State.overlapsWaiter, List.any_eq_true]
  constructor
  · rintro ⟨k, hk, h⟩
    split at h
    next y hy =>
      rw [Bool.and_eq_true, decide_eq_true_eq] at h
      exact ⟨k, y, hk, hy, h⟩
    next => cases h
  · rintro ⟨k, y, hk, hy, h⟩
    refine ⟨k, hk, ?_⟩
    rw [hy, Bool.and_eq_true, decide_eq_true_eq]
    exact h

theorem grantable_eq (s : State) (w : Nat) (x : Waiter) : s.grantable w x =
    if s.overlapsIntent x.volume x.firstBlock x.blockCount = true
      ∨ s.overlapsWaiter (s.arrival.takeWhile (· ≠ w)) x.volume x.firstBlock x.blockCount = true
      ∨ (s.port x.port).session.config.quota ≤ (s.port x.port).intents then none else lowestFree s.intents := by
  rw [State.grantable]
  by_cases hi : s.overlapsIntent x.volume x.firstBlock x.blockCount = true
  · rw [if_pos hi, if_pos (.inl hi)]
  by_cases hw : s.overlapsWaiter (s.arrival.takeWhile (· ≠ w)) x.volume x.firstBlock x.blockCount = true
  · rw [if_neg hi, if_pos hw, if_pos (.inr (.inl hw))]
  by_cases hq : (s.port x.port).session.config.quota ≤ (s.port x.port).intents
  · rw [if_neg hi, if_neg hw, if_pos hq, if_pos (.inr (.inr hq))]
  · rw [if_neg hi, if_neg hw, if_neg hq, if_neg (by tauto)]

theorem unblocked_iff (s : State) (w : Nat) (x : Waiter) : Unblocked s w x ↔
    ¬ (s.overlapsIntent x.volume x.firstBlock x.blockCount = true
      ∨ s.overlapsWaiter (s.arrival.takeWhile (· ≠ w)) x.volume x.firstBlock x.blockCount = true
      ∨ (s.port x.port).session.config.quota ≤ (s.port x.port).intents) := by
  simp only [Unblocked, overlapsIntent_iff, overlapsWaiter_iff, overlap_iff, not_or, not_le]
  refine and_congr ⟨?_, ?_⟩ (and_congr ⟨?_, ?_⟩ Iff.rfl)
  · rintro h ⟨slot, i, hi, hv, h1, h2⟩
    exact h slot i hi hv ⟨h2, h1⟩
  · rintro h slot i hi hv ⟨h1, h2⟩
    exact h ⟨slot, i, hi, hv, h2, h1⟩
  · rintro h ⟨k, y, hk, hy, hv, h1, h2⟩
    exact h k y hk hy hv ⟨h2, h1⟩
  · rintro h k y hk hy hv ⟨h1, h2⟩
    exact h ⟨k, y, hk, hy, hv, h2, h1⟩

theorem grantable_of_unblocked {w slot : Nat} {x : Waiter} (h : Unblocked s w x) (hfree : lowestFree s.intents = some slot) :
    s.grantable w x = some slot := by
  rw [grantable_eq, if_neg ((unblocked_iff s w x).1 h), hfree]

theorem grantable_of_blocked {w : Nat} {x : Waiter} (h : ¬ Unblocked s w x ∨ lowestFree s.intents = none) :
    s.grantable w x = none := by
  rw [grantable_eq]
  rcases h with h | h
  · rw [if_pos (by rwa [unblocked_iff, not_not] at h)]
  · rw [h, ite_self]

/-! ## A blocked waiter stays blocked through the visits to others (R75) -/

/-- An earlier element stays earlier when another is taken out. -/
theorem mem_takeWhile_filter {l : List Nat} {k w y : Nat} (hy : y ∈ l.takeWhile (· ≠ k)) (hyw : y ≠ w) :
    y ∈ (l.filter (· ≠ w)).takeWhile (· ≠ k) := by
  induction l with
  | nil => cases hy
  | cons a l ih =>
    rw [List.takeWhile_cons] at hy
    split at hy
    next hak =>
      rw [List.filter_cons]
      split
      next haw =>
        rw [List.takeWhile_cons, if_pos hak, List.mem_cons]
        exact (List.mem_cons.1 hy).imp id ih
      next haw =>
        rcases List.mem_cons.1 hy with rfl | hy
        · exact absurd (by simpa using hyw) haw
        · exact ih hy
    next => cases hy

theorem visit_arrival {w slot : Nat} {x : Waiter} {vol : Volume} (hw : s.waiter? w = some x)
    (hg : s.grantable w x = some slot) (hv : s.volume? x.volume = some vol) :
    (s.visit w).arrival = s.arrival.filter (· ≠ w) := by
  rw [visit_grants hw hg hv, (raise_onlyEvents _ _ _ _ _).arrival]

theorem visit_intent {w slot : Nat} {x : Waiter} {vol : Volume} (hw : s.waiter? w = some x)
    (hg : s.grantable w x = some slot) (hv : s.volume? x.volume = some vol) :
    (s.visit w).intents = place s.intents slot (some (s.newIntent x.port x.epoch x.volume vol x.firstBlock x.blockCount)) := by
  rw [visit_grants hw hg hv, (raise_onlyEvents _ _ _ _ _).intents]
  exact grant_intents ..

theorem visit_intentCount (s : State) (w : Nat) (p : Port) : (s.port p).intents ≤ ((s.visit w).port p).intents := by
  rcases visit_cases s w with hsame | ⟨x, slot, vol, hw, hg, hv⟩
  · rw [hsame]
  · rw [visit_grants hw hg hv, (raise_onlyEvents _ _ _ _ _).port p]
    refine le_trans ?_ (le_of_eq (grant_count s slot _ p).symm)
    split <;> omega

theorem visit_keeps_blocked {k w : Nat} {x : Waiter} (hk : s.grantable k x = none) (hx : s.waiter? k = some x) :
    (s.visit w).grantable k x = none := by
  rcases visit_cases s w with hsame | ⟨y, slot, vol, hw, hg, hv⟩
  · rw [hsame, hk]
  have hkw : k ≠ w := by
    rintro rfl
    obtain rfl := Option.some.inj (hx.symm.trans hw)
    cases hg.symm.trans hk
  have hgrants := visit_grantsOnly s w
  rw [grantable_eq] at hk ⊢
  refine if_pos ?_
  by_cases hblocked : s.overlapsIntent x.volume x.firstBlock x.blockCount = true
      ∨ s.overlapsWaiter (s.arrival.takeWhile (· ≠ k)) x.volume x.firstBlock x.blockCount = true
      ∨ (s.port x.port).session.config.quota ≤ (s.port x.port).intents
  case neg =>
    rw [if_neg hblocked] at hk
    cases (grantable_free hg).symm.trans hk
  rcases hblocked with h | h | h
  · refine .inl ?_
    rw [overlapsIntent_iff] at h ⊢
    obtain ⟨a, i, hi, rest⟩ := h
    obtain ⟨z, hz, hheld⟩ := heldAt_some hi
    exact ⟨a, i, by rw [State.intent?, heldAt, hgrants.intents a z hz (by rw [hheld]; rfl)]; exact hheld, rest⟩
  · rw [overlapsWaiter_iff] at h
    obtain ⟨a, z, ha, hz, hvol, hover⟩ := h
    by_cases haw : a = w
    · subst haw
      obtain rfl := Option.some.inj (hw.symm.trans hz)
      refine .inl ?_
      rw [overlapsIntent_iff]
      have hlt := (lowestFree_spec (grantable_free hg)).1
      refine ⟨slot, s.newIntent y.port y.epoch y.volume vol y.firstBlock y.blockCount, ?_, hvol, hover⟩
      rw [State.intent?, heldAt, visit_intent hw hg hv, place_getElem?_self hlt]
    · refine .inr (.inl ?_)
      rw [overlapsWaiter_iff]
      refine ⟨a, z, ?_, ?_, hvol, hover⟩
      · rw [visit_arrival hw hg hv]
        exact mem_takeWhile_filter ha haw
      · rw [State.waiter?, visit_waiterEntry hw hg hv, if_neg haw]
        exact hz
  · refine .inr (.inr ?_)
    rw [(hgrants.elsewhere.1 x.port).1]
    exact h.trans (visit_intentCount s w x.port)

theorem visit_waiter?_back {k w : Nat} {x : Waiter} (h : (s.visit w).waiter? k = some x) : s.waiter? k = some x := by
  have hsame := (visit_waits h).1
  rwa [State.waiter?, State.waiterEntry, hsame] at h

/-- Every waiter's volume is present. -/
def WaitersPresent (s : State) : Prop := ∀ k x, s.waiter? k = some x → (s.volume? x.volume).isSome = true

theorem WaitersPresent.visit (h : WaitersPresent s) (w : Nat) : WaitersPresent (s.visit w) := by
  intro k x hx
  obtain ⟨vol, hvol⟩ := Option.isSome_iff_exists.1 (h k x (visit_waiter?_back hx))
  obtain ⟨vol', hvol', -⟩ := ((visit_grantsOnly s w).volumes x.volume).2 vol hvol
  rw [hvol']
  rfl

/-- A waiter just visited that still waits is blocked. -/
theorem visited_blocked (h : WaitersPresent s) {w : Nat} {x : Waiter} (hx : (s.visit w).waiter? w = some x) :
    (s.visit w).grantable w x = none := by
  have hback := visit_waiter?_back hx
  rcases visit_cases s w with hsame | ⟨y, slot, vol, hw, hg, hv⟩
  · rw [hsame]
    obtain ⟨vol, hvol⟩ := Option.isSome_iff_exists.1 (h w x hback)
    cases hg : s.grantable w x with
    | none => rfl
    | some slot =>
      have hentry := visit_waiterEntry hback hg hvol w
      rw [if_pos rfl, hsame, waiterEntry_of_waiter? hback] at hentry
      cases hentry
  · rw [State.waiter?, visit_waiterEntry hw hg hv, if_pos rfl] at hx
    cases hx

theorem foldl_visit_back {l : List Nat} {k : Nat} {x : Waiter} (h : (l.foldl State.visit s).waiter? k = some x) :
    s.waiter? k = some x := by
  induction l generalizing s with
  | nil => exact h
  | cons w l ih => exact visit_waiter?_back (ih h)

theorem foldl_visit_keeps_blocked {k : Nat} {x : Waiter} (l : List Nat) (hk : s.grantable k x = none)
    (hx : (l.foldl State.visit s).waiter? k = some x) : (l.foldl State.visit s).grantable k x = none := by
  induction l generalizing s with
  | nil => exact hk
  | cons w l ih => exact ih (visit_keeps_blocked hk (visit_waiter?_back (foldl_visit_back hx))) hx

theorem foldl_visit_blocked (h : WaitersPresent s) (l : List Nat) {k : Nat} (hk : k ∈ l) {x : Waiter}
    (hx : (l.foldl State.visit s).waiter? k = some x) : (l.foldl State.visit s).grantable k x = none := by
  induction l generalizing s with
  | nil => cases hk
  | cons w l ih =>
    rcases List.mem_cons.1 hk with rfl | hk
    · exact foldl_visit_keeps_blocked l (visited_blocked h (foldl_visit_back hx)) hx
    · exact ih (h.visit w) hk hx

/-- No waiter that a pass leaves could be granted (R75). -/
theorem pass_noneGrantable (h : WaitersPresent s) : NoneGrantable s.pass :=
  fun _ _ hk hx => foldl_visit_blocked h s.arrival ((pass_grantsOnly s).arrival.subset hk) hx

/-- Settles O38: a visit grants where nothing blocks, and what is blocked once stays so through the pass. -/
theorem passLeavesOnlyBlockedWaiters : Obligations.PassLeavesOnlyBlockedWaiters := by
  refine ⟨fun s agrees w x hw hx => pass_noneGrantable agrees.2.2 w x hw hx, fun s => rfl,
    fun s w slot x vol hw hv hclear hfree => ?_, fun s w h => ?_⟩
  · have hg := grantable_of_unblocked hclear hfree
    intro lo ticket tag i t
    have ht : t = ({ s.grant slot i with
        waiters := s.waiters.set w ⟨ticket.gen, .granted x.port x.epoch tag⟩
        arrival := s.arrival.filter (fun k => k ≠ w) } : State).raise x.port .waitGranted (.ticket ticket) (.intent tag) :=
      visit_grants hw hg hv
    have hintents := visit_intent hw hg hv
    have hlt := (lowestFree_spec hfree).1
    refine ⟨ht, ?_, ?_, ?_, ?_, fun p => ?_⟩
    · rw [State.intent?, heldAt, hintents, place_getElem?_self hlt]
      rfl
    · rw [genAt, hintents, place_getElem?_self hlt]
    · exact (visit_waiterEntry hw hg hv w).trans (if_pos rfl)
    · rw [visit_arrival hw hg hv]
      intro hmem
      simpa using List.of_mem_filter hmem
    · let g : State := { s.grant slot i with
        waiters := s.waiters.set w ⟨ticket.gen, .granted x.port x.epoch tag⟩
        arrival := s.arrival.filter (fun k => k ≠ w) }
      have hport : g.port p = (s.grant slot i).port p := by cases p <;> rfl
      have htold := raise_told g x.port p .waitGranted (.ticket ticket) (.intent tag)
      rw [← show t = g.raise x.port .waitGranted (.ticket ticket) (.intent tag) from ht] at htold
      exact htold.source (by rw [hport, grant_events]) (by rw [hport, ((grant_grantsOnly hfree i).elsewhere.1 p).1])
  · cases hx : s.waiter? w with
    | none => simp only [State.visit, hx]
    | some x =>
      have hg := grantable_of_blocked (h x hx)
      simp only [State.visit, hx, hg]

end Sys2Proof.Machine
end

section
/-! PROOF. OPEN_INTENT (R47, R49, R50) and joining the wait list (R70 to R73). -/

namespace Sys2Proof.Machine

variable {s : State} {p : Port} {v first count wait : Nat} {x : Volume}

/-! ## What a frame's begin leaves to the admission -/

theorem begun_overlapsIntent (s : State) (r : Request) (v first count : Nat) :
    (begun s r).overlapsIntent v first count = s.overlapsIntent v first count := by
  simp only [State.overlapsIntent, begun_intents]

theorem begun_overlapsWaiter (s : State) (r : Request) (slots : List Nat) (v first count : Nat) :
    (begun s r).overlapsWaiter slots v first count = s.overlapsWaiter slots v first count := by
  simp only [State.overlapsWaiter, begun_waiter?]

theorem begun_deadlineIn (s : State) (r : Request) (ms : Nat) : (begun s r).deadlineIn ms = s.moment + ms * 25000 := by
  rw [State.deadlineIn, begun_moment]
  rfl

theorem begun_newIntent (s : State) (r : Request) (p : Port) (epoch : Word16) (v : Nat) (x : Volume) (first count : Nat) :
    (begun s r).newIntent p epoch v x first count =
      { port := p, epoch := epoch, volume := v, firstBlock := first, blockCount := count
        firstExtent := first / 2 ^ x.shift, extentCount := (first + count - 1) / 2 ^ x.shift - first / 2 ^ x.shift + 1
        deadline := s.moment + (s.port p).session.config.intentLifetime * 25000
        reportA := if x.copyA.health = .failed then .notRequired else .pending
        reportB := if x.copyB.health = .failed then .notRequired else .pending } := by
  rw [State.newIntent, begun_config, begun_deadlineIn]
  rfl

/-! ## The checks of OPEN_INTENT in their order (R47, R49) -/

/-- What R72 calls a conflict: a block shared with an open intent or with a waiter. -/
def Conflict (s : State) (v first count : Nat) : Prop :=
  s.overlapsIntent v first count = true ∨ s.overlapsWaiter s.arrival v first count = true

theorem begun_conflict (s : State) (r : Request) (v first count : Nat) :
    Conflict (begun s r) v first count ↔ Conflict s v first count := by
  rw [Conflict, begun_overlapsIntent, begun_overlapsWaiter, begun_arrival]
  rfl

theorem admission_granted {slot : Nat} (hclear : ¬ Conflict s v first count)
    (hquota : ¬ (s.port p).session.config.quota ≤ (s.port p).intents) (hfree : lowestFree s.intents = some slot) :
    s.admission p v x first count wait =
      (s.grant slot (s.newIntent p (s.port p).session.epoch v x first count),
        ⟨.ok, grantBytes (s.nextIntentTag slot) (s.newIntent p (s.port p).session.epoch v x first count)
          (s.port p).session.config.intentLifetime⟩) := by
  have hclear' : ¬ (s.overlapsIntent v first count = true ∨ s.overlapsWaiter s.arrival v first count = true) := hclear
  simp only [State.admission, if_neg hclear', if_neg hquota, hfree]

theorem admission_conflict (h : Conflict s v first count) : s.admission p v x first count wait =
    if wait = 0 then (s, .bare .conflict) else s.joinWaitList p v first count wait :=
  if_pos h

theorem admission_quota (hclear : ¬ Conflict s v first count) (h : (s.port p).session.config.quota ≤ (s.port p).intents) :
    s.admission p v x first count wait = if wait = 0 then (s, .bare .quota) else s.joinWaitList p v first count wait :=
  (if_neg hclear).trans (if_pos h)

theorem admission_full (hclear : ¬ Conflict s v first count)
    (hquota : ¬ (s.port p).session.config.quota ≤ (s.port p).intents) (h : lowestFree s.intents = none) :
    s.admission p v x first count wait = if wait = 0 then (s, .bare .tableFull) else s.joinWaitList p v first count wait := by
  have hclear' : ¬ (s.overlapsIntent v first count = true ∨ s.overlapsWaiter s.arrival v first count = true) := hclear
  simp only [State.admission, if_neg hclear', if_neg hquota, h]

/-- With a wait, whatever stands in the way leads to the wait list (R71). -/
theorem admission_waits (hwait : wait ≠ 0) (h : Conflict s v first count
      ∨ (s.port p).session.config.quota ≤ (s.port p).intents ∨ lowestFree s.intents = none) :
    s.admission p v x first count wait = s.joinWaitList p v first count wait := by
  by_cases hclear : Conflict s v first count
  · rw [admission_conflict hclear, if_neg hwait]
  by_cases hquota : (s.port p).session.config.quota ≤ (s.port p).intents
  · rw [admission_quota hclear hquota, if_neg hwait]
  · rw [admission_full hclear hquota (by tauto), if_neg hwait]

theorem ownOpenIntent_present {ps : List Byte} (hv : field ps 0 1 ≤ 15) (hx : s.volume? (field ps 0 1) = some x) :
    ownOpenIntent p ps s =
      if x.condition = .offline then (s, .bare .offline)
      else if field ps 6 4 = 0 ∨ 16777216 < field ps 6 4 ∨ x.blockCount < field ps 1 5 + field ps 6 4 then (s, .bare .badParam)
      else if 32 < spanOf x.shift (field ps 1 5) (field ps 6 4) then (s, .bare .span)
      else s.admission p (field ps 0 1) x (field ps 1 5) (field ps 6 4) (field ps 10 2) :=
  withVolume_present _ hv hx

theorem ownOpenIntent_admits {ps : List Byte} (hv : field ps 0 1 ≤ 15) (hx : s.volume? (field ps 0 1) = some x)
    (honline : x.condition ≠ .offline)
    (hrange : ¬ (field ps 6 4 = 0 ∨ 16777216 < field ps 6 4 ∨ x.blockCount < field ps 1 5 + field ps 6 4))
    (hspan : ¬ 32 < spanOf x.shift (field ps 1 5) (field ps 6 4)) :
    ownOpenIntent p ps s = s.admission p (field ps 0 1) x (field ps 1 5) (field ps 6 4) (field ps 10 2) := by
  rw [ownOpenIntent_present hv hx, if_neg honline, if_neg hrange, if_neg hspan]

/-- Settles O30: with nothing in its way the admission grants, whatever the wait. -/
theorem openIntentIsGranted : Obligations.OpenIntentIsGranted := by
  intro r s x slot admitted hlen p v first count lo hi life hv hx honline hzero hmax hend hspan hintents hwaiters hquota hfree i
  have hadmit := ownOpenIntent_admits (p := p) hv ((begun_volume? s r v).trans hx) honline (by omega)
    (not_lt.2 (show spanOf x.shift first count ≤ 32 from hspan))
  have hclear : ¬ Conflict (begun s r) v first count := by
    rw [begun_conflict, Conflict, hintents, hwaiters]
    simp
  have hgrant := admission_granted (p := p) (x := x) (wait := field r.params 10 2) hclear
    (by rw [begun_config, begun_intentCount]; exact not_le.2 hquota) ((congrArg lowestFree (begun_intents s r)).trans hfree)
  rw [begun_newIntent, begun_epoch, begun_config, State.nextIntentTag, begun_intents] at hgrant
  exact next_of_own admitted rfl (by rw [hlen]; rfl) (hadmit.trans hgrant)

/-! ## The slot of a new waiter (R70) -/

theorem waiterEntry_getElem {k : Nat} (hk : k < s.waiters.length) : s.waiterEntry k = s.waiters[k].held := by
  rw [State.waiterEntry, List.getElem?_eq_getElem hk]

theorem findIdx?_entry {q : WaiterEntry → Bool} {w : Nat} (hw : w < s.waiters.length) (hq : q (s.waiterEntry w) = true)
    (hbefore : ∀ k, k < w → q (s.waiterEntry k) = false) : s.waiters.findIdx? (fun z => q z.held) = some w := by
  rw [List.findIdx?_eq_some_iff_getElem]
  refine ⟨hw, by rwa [waiterEntry_getElem hw] at hq, fun k hk => ?_⟩
  have := hbefore k hk
  rw [waiterEntry_getElem (hk.trans hw)] at this
  simp [this]

theorem isVacant_iff (e : WaiterEntry) : e.isVacant = true ↔ e = .vacant := by simp [WaiterEntry.isVacant]

/-- The lowest EMPTY slot, or else the lowest GRANTED one (R70). -/
theorem waiterSlot_eq {w : Nat} (hw : w < s.waiters.length)
    (h : (s.waiterEntry w = .vacant ∧ ∀ k, k < w → s.waiterEntry k ≠ .vacant)
      ∨ ((∀ k, k < s.waiters.length → s.waiterEntry k ≠ .vacant)
        ∧ (s.waiterEntry w).isGranted = true ∧ ∀ k, k < w → (s.waiterEntry k).isGranted = false)) :
    s.waiterSlot = some w := by
  rw [State.waiterSlot]
  rcases h with ⟨hvacant, hbefore⟩ | ⟨hnone, hgranted, hbefore⟩
  · rw [findIdx?_entry (q := WaiterEntry.isVacant) hw ((isVacant_iff _).2 hvacant) fun k hk => by
      rw [← Bool.not_eq_true, isVacant_iff]
      exact hbefore k hk]
  · have hvacant : s.waiters.findIdx? (fun z => z.held.isVacant) = none := by
      rw [List.findIdx?_eq_none_iff]
      intro z hz
      obtain ⟨k, hk, rfl⟩ := List.mem_iff_getElem.1 hz
      rw [← Bool.not_eq_true, isVacant_iff, ← waiterEntry_getElem hk]
      exact hnone k hk
    rw [hvacant]
    exact findIdx?_entry (q := WaiterEntry.isGranted) hw hgranted hbefore

theorem begun_waiterSlot (s : State) (r : Request) : (begun s r).waiterSlot = s.waiterSlot := by
  simp only [State.waiterSlot, begun_waiters]

theorem joinWaitList_full (h : 32 ≤ s.arrival.length) : s.joinWaitList p v first count wait = (s, .bare .waitFull) := if_pos h

theorem joinWaitList_joins {w : Nat} (h : s.arrival.length < 32) (hw : s.waiterSlot = some w) :
    s.joinWaitList p v first count wait =
      (s.queueWaiter w ⟨p, (s.port p).session.epoch, v, first, count, s.deadlineIn (s.waitTime p wait)⟩,
        ⟨.queued, Tag.bytes ⟨w, genAt s.waiters w + 1⟩ ++ bytesOf 2 (s.waitTime p wait) ++ bytesOf 1 s.arrival.length⟩) := by
  have hroom : ¬ Config.waiterSlots ≤ s.arrival.length := not_le.2 h
  simp only [State.joinWaitList, if_neg hroom, hw]

/-- Settles O32: the owner's checks in their order, then the admission's, then the wait list. -/
theorem openIntentWaitsOrIsRefused : Obligations.OpenIntentWaitsOrIsRefused := by
  intro r s x admitted hlen p v first count wait span conflict atQuota full refusedAs hv hx
  have hbegun : (begun s r).volume? v = some x := (begun_volume? s r v).trans hx
  have hown := ownOpenIntent_present (p := p) hv hbegun
  have concludes {t : State} {st : Status} {results : List Byte} (h : ownOpenIntent r.port r.params (begun s r) = (t, ⟨st, results⟩)) :
      exec (.openIntent r) s = .next (concluded t r 0x20 st results) :=
    next_of_own admitted rfl (by rw [hlen]; rfl) h
  have hconflict : Conflict (begun s r) v first count ↔ conflict := begun_conflict s r v first count
  have hquota : ((begun s r).port p).session.config.quota ≤ ((begun s r).port p).intents ↔ atQuota := by
    rw [begun_config, begun_intentCount]
  have hfull : lowestFree (begun s r).intents = none ↔ full := by rw [begun_intents]
  refine ⟨fun hoffline => concludes (hown.trans (if_pos hoffline)),
    fun honline hbad => concludes ((hown.trans (if_neg honline)).trans (if_pos hbad)),
    fun honline hzero hmax hend => ⟨fun hspan => ?span, fun hspan hwait => ?refused, fun hspan hwait hblocked => ?waits⟩⟩
  all_goals have hrange : ¬ (count = 0 ∨ 16777216 < count ∨ x.blockCount < first + count) := by omega
  case span => exact concludes (((hown.trans (if_neg honline)).trans (if_neg hrange)).trans (if_pos hspan))
  all_goals have hadmit := ownOpenIntent_admits (p := p) hv hbegun honline hrange (not_lt.2 hspan)
  case refused =>
    refine ⟨fun h => ?_, fun hc h => ?_, fun hc hq h => ?_⟩
    · exact concludes ((hadmit.trans (admission_conflict (hconflict.2 h))).trans (if_pos hwait))
    · exact concludes ((hadmit.trans (admission_quota (mt hconflict.1 hc) (hquota.2 h))).trans (if_pos hwait))
    · exact concludes ((hadmit.trans (admission_full (mt hconflict.1 hc) (mt hquota.1 hq) (hfull.2 h))).trans (if_pos hwait))
  case waits =>
    have hjoin := hadmit.trans (admission_waits hwait
      (hblocked.imp hconflict.2 (Or.imp hquota.2 hfull.2)))
    refine ⟨fun hlist => ?_, fun w hlist hw hslot => ?_⟩
    · exact concludes (hjoin.trans (joinWaitList_full (by rw [begun_arrival]; exact hlist)))
    · intro ms gen
      have hjoined := joinWaitList_joins (p := p) (v := v) (first := first) (count := count) (wait := wait)
        (by rw [begun_arrival]; exact hlist) ((begun_waiterSlot s r).trans (waiterSlot_eq hw hslot))
      rw [State.waitTime, State.queueWaiter, begun_config, begun_deadlineIn, begun_epoch, begun_waiters, begun_arrival] at hjoined
      exact concludes (hjoin.trans hjoined)

end Sys2Proof.Machine
end

section
/-! PROOF. What a concluded frame leaves, and TAKE_REPAIR (R86 to R89). -/

namespace Sys2Proof.Machine

variable {s t : State} {r : Request}

/-! ## What a concluded frame leaves -/

section Concluding

variable (t : State) (r : Request) (code : Byte) (st : Status) (results : List Byte)

/-- The link state of the port whose frame is concluded. -/
def takenLink : Link :=
  { lastTaken := some (r.seq, code), saved := some (responseFrame ⟨st, results⟩ r.seq), refusal := none }

theorem concluded_port (p : Port) : ∃ a, (concluded t r code st results).port p =
    { t.port p with link := if p = r.port then takenLink r code st results else (t.port p).link, attn := a } := by
  refine ⟨attnRule t.supply ((tookFrame t r code st results).port p), ?_⟩
  rw [concluded, State.settleAttn_port, tookFrame, State.port_setPort, State.setPort_supply]
  by_cases hp : p = r.port
  · subst hp
    simp only [if_true]
    rfl
  · simp only [if_neg hp]

@[simp] theorem concluded_session (p : Port) : ((concluded t r code st results).port p).session = (t.port p).session := by
  obtain ⟨a, ha⟩ := concluded_port t r code st results p
  rw [ha]

@[simp] theorem concluded_events (p : Port) : ((concluded t r code st results).port p).events = (t.port p).events := by
  obtain ⟨a, ha⟩ := concluded_port t r code st results p
  rw [ha]

@[simp] theorem concluded_intentCount (p : Port) : ((concluded t r code st results).port p).intents = (t.port p).intents := by
  obtain ⟨a, ha⟩ := concluded_port t r code st results p
  rw [ha]

@[simp] theorem concluded_assignmentCount (p : Port) :
    ((concluded t r code st results).port p).assignments = (t.port p).assignments := by
  obtain ⟨a, ha⟩ := concluded_port t r code st results p
  rw [ha]

@[simp] theorem concluded_volumes : (concluded t r code st results).volumes = t.volumes :=
  (concluded_sameTables t r code st results).1

@[simp] theorem concluded_intents : (concluded t r code st results).intents = t.intents :=
  (concluded_sameTables t r code st results).2.1

@[simp] theorem concluded_waiters : (concluded t r code st results).waiters = t.waiters :=
  (concluded_sameTables t r code st results).2.2.1

@[simp] theorem concluded_arrival : (concluded t r code st results).arrival = t.arrival :=
  (concluded_sameTables t r code st results).2.2.2.1

@[simp] theorem concluded_assignments : (concluded t r code st results).assignments = t.assignments :=
  (concluded_sameTables t r code st results).2.2.2.2.1

@[simp] theorem concluded_pointer : (concluded t r code st results).pointer = t.pointer :=
  (concluded_sameTables t r code st results).2.2.2.2.2

@[simp] theorem concluded_volume? (v : Nat) : (concluded t r code st results).volume? v = t.volume? v :=
  State.volume?_of_volumes (concluded_volumes ..) v

@[simp] theorem concluded_intent? (k : Nat) : (concluded t r code st results).intent? k = t.intent? k :=
  State.intent?_of_intents (concluded_intents ..) k

@[simp] theorem concluded_assignment? (k : Nat) : (concluded t r code st results).assignment? k = t.assignment? k :=
  State.assignment?_of_assignments (concluded_assignments ..) k

@[simp] theorem concluded_waiter? (k : Nat) : (concluded t r code st results).waiter? k = t.waiter? k :=
  State.waiter?_of_waiters (concluded_waiters ..) k

@[simp] theorem concluded_waiterEntry (k : Nat) : (concluded t r code st results).waiterEntry k = t.waiterEntry k :=
  State.waiterEntry_of_waiters (concluded_waiters ..) k

end Concluding

/-- Two states that are the same elsewhere stay so when a frame is concluded with the same answer. -/
theorem SameElsewhere.concluded (h : SameElsewhere s t) (r : Request) (code : Byte) (st : Status) (results : List Byte) :
    SameElsewhere (concluded s r code st results) (concluded t r code st results) := by
  obtain ⟨hports, hrest⟩ := h
  refine ⟨fun p => ?_, ?_⟩
  · obtain ⟨hsession, hlink, hprst, hburst, hsdo, hstack⟩ := hports p
    obtain ⟨a, ha⟩ := concluded_port s r code st results p
    obtain ⟨b, hb⟩ := concluded_port t r code st results p
    rw [ha, hb]
    refine ⟨hsession, ?_, hprst, hburst, hsdo, hstack⟩
    simp only [hlink]
  · simp only [Machine.concluded, tookFrame, State.settleAttn_supply, State.settleAttn_startKind, State.settleAttn_startDecided,
      State.settleAttn_warmStarts, State.settleAttn_retentionValid, State.settleAttn_pfail, State.settleAttn_resetn,
      State.settleAttn_ticks, State.settleAttn_phase, State.settleAttn_refclk, State.settleAttn_choices, State.settleAttn_pending,
      State.setPort_supply, State.setPort_startKind, State.setPort_startDecided, State.setPort_warmStarts,
      State.setPort_retentionValid, State.setPort_pfail, State.setPort_resetn, State.setPort_ticks, State.setPort_phase,
      State.setPort_refclk, State.setPort_choices, State.setPort_pending]
    exact hrest

/-! ## The search for an extent to repair (R87) -/

theorem extentQualifies_iff (x : Volume) (e : Nat) : x.extentQualifies e = true ↔ Qualifies x e := by
  have needs_iff (st : Coherence) : needsRepair st x.copyA.health x.copyB.health = true ↔
      st = .suspect ∨ (st = .aOnly ∧ x.copyB.health ≠ .failed) ∨ (st = .bOnly ∧ x.copyA.health ≠ .failed) := by
    cases st <;> simp [needsRepair]
  simp only [Volume.extentQualifies, Qualifies]
  cases hy : x.extents[e]? with
  | none => simp
  | some y =>
    simp only [Volume.qualifies, Bool.and_eq_true, needs_iff, beq_iff_eq, Option.isNone_iff_eq_none, Option.some.injEq]
    constructor
    · rintro ⟨⟨hneeds, hcount⟩, hlink⟩
      exact ⟨y, rfl, hcount, hlink, hneeds⟩
    · rintro ⟨y', rfl, hcount, hlink, hneeds⟩
      exact ⟨⟨hneeds, hcount⟩, hlink⟩

theorem not_extentQualifies {x : Volume} {e : Nat} (h : ¬ Qualifies x e) : x.extentQualifies e = false := by
  rwa [← Bool.not_eq_true, extentQualifies_iff]

theorem search_none {x : Volume} (h : ∀ e, ¬ Qualifies x e) : x.search = none := by
  have hfind : x.searchOrder.find? x.extentQualifies = none :=
    List.find?_eq_none.2 fun e _ => by rw [not_extentQualifies (h e)]; decide
  rw [Volume.search, hfind, ite_self]

/-- An extent that qualifies is counted as one that needs repair. -/
theorem repairNeeded_ne_zero {x : Volume} (hx : x.recount = x) {e : Nat} (h : Qualifies x e) : x.repairNeeded ≠ 0 := by
  have hcount : x.repairNeeded = repairNeededOf x.extents x.copyA.health x.copyB.health := by
    conv_lhs => rw [← hx]
    rfl
  obtain ⟨y, hy, -⟩ := id h
  have hq := (extentQualifies_iff x e).2 h
  simp only [Volume.extentQualifies, hy, Volume.qualifies, Bool.and_eq_true] at hq
  rw [hcount, repairNeededOf]
  exact (List.countP_pos_iff.2 ⟨y, List.mem_of_getElem? hy, hq.1.1⟩).ne'

/-- The first extent from the cursor on that qualifies, or else the first of all (R87). -/
theorem search_chosen {x : Volume} (hx : x.recount = x) {e : Nat} (h : Chosen x e) : x.search = some e := by
  obtain ⟨hlt, hq, hfirst⟩ := h
  have hqe := (extentQualifies_iff x e).2 hq
  rw [Volume.search, if_neg (repairNeeded_ne_zero hx hq), Volume.searchOrder, List.find?_append, List.find?_map]
  split at hfirst
  next hle =>
    have hfind : (List.range (x.extentCount - x.cursor)).find? (x.extentQualifies ∘ (x.cursor + ·)) = some (e - x.cursor) := by
      rw [List.find?_range_eq_some]
      refine ⟨?_, ?_, fun j hj => ?_⟩
      · rw [Function.comp_apply, Nat.add_sub_cancel' hle, hqe]
      · exact List.mem_range.2 (by omega)
      · rw [Function.comp_apply, not_extentQualifies (hfirst (x.cursor + j) (by omega) (by omega))]
        rfl
    rw [hfind, Option.map_some, Nat.add_sub_cancel' hle]
    rfl
  next hgt =>
    obtain ⟨htail, hhead⟩ := hfirst
    have hnone : (List.range (x.extentCount - x.cursor)).find? (x.extentQualifies ∘ (x.cursor + ·)) = none := by
      refine List.find?_eq_none.2 fun j hj => ?_
      have hj' := List.mem_range.1 hj
      rw [Function.comp_apply, not_extentQualifies (htail (x.cursor + j) (by omega) (by omega))]
      decide
    have hfind : (List.range (min x.cursor x.extentCount)).find? x.extentQualifies = some e := by
      rw [List.find?_range_eq_some]
      refine ⟨hqe, List.mem_range.2 (by omega), fun j hj => ?_⟩
      rw [not_extentQualifies (hhead j hj)]
      rfl
    rw [hnone, hfind]
    rfl

theorem searchVolume_chosen {v e : Nat} {x : Volume} (hv : s.volume? v = some x) (hx : x.recount = x) (h : Chosen x e) :
    s.searchVolume v = some (v, e) := by
  simp only [State.searchVolume, hv, search_chosen hx h, Option.map_some]

theorem searchVolume_none {v : Nat} (h : ∀ x, s.volume? v = some x → ∀ e, ¬ Qualifies x e) : s.searchVolume v = none := by
  cases hv : s.volume? v with
  | none => simp only [State.searchVolume, hv]
  | some x => simp only [State.searchVolume, hv, search_none (h x hv), Option.map_none]

/-! ## The turns of ANY (R89) -/

/-- The turn of a volume is its place in the order of R89. -/
theorem anyOrder_getElem? {pointer i : Nat} (hi : i < 16) : (anyOrder pointer)[i]? = some ((pointer + 1 + i) % 16) := by
  rw [anyOrder, List.getElem?_map, List.getElem?_range (by exact hi)]
  rfl

theorem searchAny_first {v e : Nat} (hpointer : s.pointer < 16) (hv : v ≤ 15) (hfound : s.searchVolume v = some (v, e))
    (hbefore : ∀ w, w ≤ 15 → (w + 15 - s.pointer) % 16 < (v + 15 - s.pointer) % 16 → s.searchVolume w = none) :
    s.searchAny = some (v, e) := by
  have hturn : (v + 15 - s.pointer) % 16 < 16 := Nat.mod_lt _ (by decide)
  have hlength : (anyOrder s.pointer).length = 16 := by simp [anyOrder, Config.volumes]
  have hget := anyOrder_getElem? (pointer := s.pointer) hturn
  have hvolume : (s.pointer + 1 + (v + 15 - s.pointer) % 16) % 16 = v := by omega
  rw [hvolume] at hget
  obtain ⟨hlt, hat⟩ := List.getElem?_eq_some_iff.1 hget
  rw [State.searchAny, List.findSome?_eq_some_iff]
  refine ⟨(anyOrder s.pointer).take ((v + 15 - s.pointer) % 16), v, (anyOrder s.pointer).drop ((v + 15 - s.pointer) % 16 + 1), ?_,
    hfound, fun w hw => ?_⟩
  · have hdrop := List.drop_eq_getElem_cons hlt
    rw [hat] at hdrop
    rw [← hdrop, List.take_append_drop]
  · obtain ⟨j, hj, hw⟩ := List.mem_iff_getElem.1 hw
    rw [List.length_take, hlength] at hj
    have hw' : (anyOrder s.pointer)[j]? = some w := by
      rw [List.getElem_take] at hw
      exact List.getElem?_eq_some_iff.2 ⟨by omega, hw⟩
    rw [anyOrder_getElem? (by omega), Option.some.injEq] at hw'
    subst hw'
    exact hbefore _ (by omega) (by omega)

theorem searchAny_none (h : ∀ v, v ≤ 15 → s.searchVolume v = none) : s.searchAny = none := by
  rw [State.searchAny, List.findSome?_eq_none_iff]
  exact fun v hv => h v (by have := (mem_anyOrder v).1 hv; omega)

/-! ## The assignment taken (R88) -/

theorem createAssignment_port (s : State) (slot : Nat) (a : Assignment) (x : Volume) (q : Port) :
    (s.createAssignment slot a x).port q =
      if q = a.port then { s.port q with assignments := (s.port q).assignments + 1 } else s.port q := by
  obtain ⟨p, epoch, v, e, source, target, overtaken, deadline⟩ := a
  cases p <;> cases q <;> rfl

theorem createAssignment_elsewhere (s : State) (slot : Nat) (a : Assignment) (x : Volume) :
    SameElsewhere s (s.createAssignment slot a x) := by
  refine ⟨fun q => ?_, ?_⟩
  · rw [createAssignment_port]
    split <;> exact ⟨rfl, rfl, rfl, rfl, rfl, rfl⟩
  · simp [State.createAssignment]

/-- The link of the extent handed out, the others as they were. -/
theorem mapExtents_linkExtent {xs : List Extent} {slot : Nat} {a : Assignment} {y : Extent} (hy : xs[a.extent]? = some y) :
    mapExtents (linkExtent slot a) xs = xs.set a.extent { y with link := some ⟨slot, a.target, a.overtaken⟩ } := by
  refine List.ext_getElem? fun k => ?_
  rw [mapExtents_getElem?]
  by_cases hk : k = a.extent
  · subst hk
    rw [List.getElem?_set_self (List.getElem?_eq_some_iff.1 hy).1, hy, Option.map_some, linkExtent, if_pos rfl]
  · rw [List.getElem?_set_ne (Ne.symm hk)]
    cases hz : xs[k]? with
    | none => rfl
    | some z => rw [Option.map_some, linkExtent, if_neg hk]

/-- What TAKE_REPAIR leaves before its frame is concluded. -/
def State.repairTaken (s : State) (slot : Nat) (a : Assignment) (x : Volume) (pointer : Nat) : State :=
  { s.createAssignment slot a x with pointer := pointer }

theorem repairTaken_elsewhere (s : State) (slot : Nat) (a : Assignment) (x : Volume) (pointer : Nat) :
    SameElsewhere s (s.repairTaken slot a x pointer) := createAssignment_elsewhere s slot a x

theorem repairTaken_self (s : State) (slot : Nat) (a : Assignment) (x : Volume) :
    s.repairTaken slot a x s.pointer = s.createAssignment slot a x := by
  obtain ⟨-, -, -, -, hpointer, -⟩ := createAssignment_tables s slot a x
  rw [State.repairTaken, ← hpointer]

theorem serveRepair_serves {p : Port} {slot v e : Nat} {x : Volume} (hv : s.volume? v = some x) (any : Bool) :
    s.serveRepair p slot (some (v, e)) any =
      (s.repairTaken slot (s.newAssignment p v e x) x (if any then v else s.pointer),
        ⟨.ok, takeBytes ⟨slot, genAt s.assignments slot + 1⟩ (s.newAssignment p v e x) x
          (s.port p).session.config.assignLease⟩) := by
  cases any
  case true => simp only [State.serveRepair, hv]; rfl
  case false => simp only [State.serveRepair, hv, Bool.false_eq_true, if_false, repairTaken_self]

theorem takenRepair {p : Port} {slot v e pointer : Nat} {x : Volume} {y : Extent} (hp : r.port = p) (hx : s.volume? v = some x)
    (hy : x.extents[e]? = some y) :
    let b := begun s r
    let a := b.newAssignment p v e x
    RepairTaken r s (concluded (b.repairTaken slot a x pointer) r 0x28 .ok
      (takeBytes ⟨slot, genAt b.assignments slot + 1⟩ a x (b.port p).session.config.assignLease)) v e slot x y pointer := by
  subst hp
  intro b a
  obtain ⟨hvolumes, hintents, hwaiters, harrival, -, hassignments⟩ := createAssignment_tables b slot a x
  let source := x.repairSource y.state
  have hsource : a.source = source := by
    show x.repairSource (x.extent e).state = _
    rw [extent_eq hy]
  have hassignment : a = ⟨r.port, (s.port r.port).session.epoch, v, e, source, other source, false,
      s.moment + (s.port r.port).session.config.assignLease * 25000⟩ := by
    rw [← hsource]
    simp only [a, b, State.newAssignment, begun_epoch, begun_config, begun_deadlineIn]
  have hports (q : Port) : (b.repairTaken slot a x pointer).port q =
      if q = r.port then { b.port q with assignments := (b.port q).assignments + 1 } else b.port q :=
    createAssignment_port b slot a x q
  have hbytes : takeBytes ⟨slot, genAt b.assignments slot + 1⟩ a x (b.port r.port).session.config.assignLease
      = [BitVec.ofNat 8 slot, genAt s.assignments slot + 1] ++ bytesOf 1 v ++ bytesOf 3 e ++ [y.state.code]
        ++ bytesOf 5 (e * 2 ^ x.shift) ++ bytesOf 3 (min ((e + 1) * 2 ^ x.shift) x.blockCount - e * 2 ^ x.shift)
        ++ [source.code, (other source).code] ++ bytesOf 2 (s.port r.port).session.config.assignLease := by
    rw [show b.assignments = s.assignments from begun_assignments s r,
      show (b.port r.port).session.config = (s.port r.port).session.config from begun_config s r r.port, takeBytes,
      show a.extent = e from rfl, extent_eq hy, hassignment]
    rfl
  have htable : (b.createAssignment slot a x).assignments = s.assignments.set slot ⟨genAt s.assignments slot + 1,
      some ⟨r.port, (s.port r.port).session.epoch, v, e, source, other source, false,
        s.moment + (s.port r.port).session.config.assignLease * 25000⟩⟩ := by
    rw [hassignments, place, show b.assignments = s.assignments from begun_assignments s r, ← hassignment]
  have hrecord (w : Nat) : (b.createAssignment slot a x).volume? w = if w = v then some { x with
      cursor := if e + 1 = x.extentCount then 0 else e + 1
      extents := x.extents.set e { y with link := some ⟨slot, other source, false⟩ } } else b.volume? w := by
    rw [volume?_set_present ((begun_volume? s r v).trans hx) hvolumes, mapExtents_linkExtent hy, hassignment]
    rfl
  have helse := (repairTaken_elsewhere b slot a x pointer).concluded r 0x28 .ok
    (takeBytes ⟨slot, genAt b.assignments slot + 1⟩ a x (b.port r.port).session.config.assignLease)
  rw [hbytes] at helse ⊢
  refine ⟨(concluded_assignments ..).trans htable, ?_, ?_, fun q => ?_, (concluded_volume? ..).trans ((hrecord v).trans (if_pos rfl)),
    fun w hw => ?_, concluded_pointer .., (concluded_intents ..).trans (hintents.trans (begun_intents s r)),
    (concluded_waiters ..).trans (hwaiters.trans (begun_waiters s r)),
    (concluded_arrival ..).trans (harrival.trans (begun_arrival s r)), fun q => ?_, helse⟩
  · rw [concluded_assignmentCount, hports, if_pos rfl]
    simp only [b, begun_assignmentCount]
  · rw [concluded_assignmentCount, hports, if_neg (peer_ne _)]
    exact begun_assignmentCount ..
  · rw [concluded_intentCount, hports]
    split <;> exact begun_intentCount s r q
  · rw [concluded_volume?]
    exact ((hrecord w).trans (if_neg hw)).trans (begun_volume? s r w)
  · rw [concluded_events, hports]
    split <;> exact begun_events s r q

/-! ## TAKE_REPAIR (R86 to R89) -/

section Taking

variable {p : Port} {ps : List Byte}

theorem begun_searchVolume (s : State) (r : Request) (v : Nat) : (begun s r).searchVolume v = s.searchVolume v := by
  simp only [State.searchVolume, begun_volume?]

theorem begun_searchAny (s : State) (r : Request) : (begun s r).searchAny = s.searchAny := by
  simp only [State.searchAny, begun_pointer, funext (begun_searchVolume s r)]

theorem ownTakeRepair_badNumber (hv : 15 < field ps 0 1) (h255 : field ps 0 1 ≠ 255) :
    ownTakeRepair p ps s = (s, .bare .badParam) := if_pos ⟨hv, h255⟩

theorem ownTakeRepair_absent (hv : field ps 0 1 ≤ 15) (hx : s.volume? (field ps 0 1) = none) :
    ownTakeRepair p ps s = (s, .bare .noVolume) := by
  have hnumber : ¬ (Config.volumes ≤ field ps 0 1 ∧ field ps 0 1 ≠ 0xFF) := by simp only [Config.volumes]; omega
  have habsent : field ps 0 1 ≠ 0xFF ∧ (s.volume? (field ps 0 1)).isNone = true := ⟨by omega, by rw [hx]; rfl⟩
  simp only [ownTakeRepair, if_neg hnumber, if_pos habsent]

/-- The volume byte names ANY or a present volume. -/
def NamesWork (s : State) (v : Nat) : Prop := v = 255 ∨ (v ≤ 15 ∧ (s.volume? v).isSome = true)

theorem ownTakeRepair_named (h : NamesWork s (field ps 0 1)) : ownTakeRepair p ps s =
    if 16 ≤ (s.port p).assignments then (s, .bare .quota)
    else match lowestFree s.assignments with
      | none => (s, .bare .tableFull)
      | some slot =>
        if field ps 0 1 = 0xFF then s.serveRepair p slot s.searchAny true
        else s.serveRepair p slot (s.searchVolume (field ps 0 1)) false := by
  have hnumber : ¬ (Config.volumes ≤ field ps 0 1 ∧ field ps 0 1 ≠ 0xFF) := by
    simp only [Config.volumes]
    rcases h with h | ⟨h, -⟩ <;> omega
  have hpresent : ¬ (field ps 0 1 ≠ 0xFF ∧ (s.volume? (field ps 0 1)).isNone = true) := by
    rintro ⟨hany, hnone⟩
    rcases h with h | ⟨-, h⟩
    · exact hany h
    · rw [Option.isNone_iff_eq_none] at hnone
      rw [hnone] at h
      cases h
  simp only [ownTakeRepair, if_neg hnumber, if_neg hpresent]
  rfl

end Taking

/-- Settles O40: the checks in their order, then the search of R87 and the assignment of R88. -/
theorem takeRepairOfVolume : Obligations.TakeRepairOfVolume := by
  intro r s admitted hlen p v refusedAs
  have concludes {t : State} {st : Status} {results : List Byte} (h : ownTakeRepair r.port r.params (begun s r) = (t, ⟨st, results⟩)) :
      exec (.takeRepair r) s = .next (concluded t r 0x28 st results) :=
    next_of_own admitted rfl (by rw [hlen]; rfl) h
  have names (h : NamesWork s v) : NamesWork (begun s r) v := by
    rw [NamesWork, begun_volume?]
    exact h
  refine ⟨fun hv h255 => concludes (ownTakeRepair_badNumber hv h255),
    fun hv hx => concludes (ownTakeRepair_absent hv ((begun_volume? s r v).trans hx)),
    fun h => ⟨fun hquota => ?_, fun hquota hfull => ?_⟩, fun x slot hv hx counts hquota hfree => ?_⟩
  · exact concludes ((ownTakeRepair_named (names h)).trans (if_pos (by rw [begun_assignmentCount]; exact hquota)))
  · refine concludes ((ownTakeRepair_named (names h)).trans ?_)
    rw [begun_assignmentCount, if_neg (not_le.2 hquota), begun_assignments, hfull]
    rfl
  · have hserved : ownTakeRepair r.port r.params (begun s r)
        = (begun s r).serveRepair r.port slot ((begun s r).searchVolume v) false := by
      refine (ownTakeRepair_named (names (.inr ⟨hv, by rw [hx]; rfl⟩))).trans ?_
      rw [begun_assignmentCount, if_neg (not_le.2 hquota), begun_assignments, hfree]
      exact if_neg (by omega)
    rw [begun_searchVolume] at hserved
    obtain ⟨hrecount, -, -⟩ := counts v x hx
    refine ⟨fun hnone => concludes (hserved.trans ?_), fun e y hchosen hy => ?_⟩
    · rw [searchVolume_none fun z hz => Option.some.inj (hx.symm.trans hz) ▸ hnone]
      rfl
    · rw [searchVolume_chosen hx hrecount hchosen, serveRepair_serves ((begun_volume? s r v).trans hx)] at hserved
      refine ⟨_, concludes hserved, ?_⟩
      rw [if_neg (by decide), begun_pointer]
      exact takenRepair rfl hx hy

/-- Settles O41: the volumes of earlier turns have nothing that qualifies, so the search of ANY comes to this one. -/
theorem takeRepairOfAnyTakesTurns : Obligations.TakeRepairOfAnyTakesTurns := by
  intro r s slot admitted hps counts sizes hquota hfree turn
  have concludes {t : State} {st : Status} {results : List Byte} (h : ownTakeRepair r.port r.params (begun s r) = (t, ⟨st, results⟩)) :
      exec (.takeRepair r) s = .next (concluded t r 0x28 st results) :=
    next_of_own admitted rfl (by rw [hps]; rfl) h
  have hany : field r.params 0 1 = 255 := by rw [hps]; rfl
  have hserved : ownTakeRepair r.port r.params (begun s r) = (begun s r).serveRepair r.port slot s.searchAny true := by
    refine (ownTakeRepair_named (.inl hany)).trans ?_
    rw [begun_assignmentCount, if_neg (not_le.2 hquota), begun_assignments, hfree]
    exact (if_pos hany).trans (by rw [begun_searchAny])
  obtain ⟨-, -, -, -, -, hpointer⟩ := sizes
  refine ⟨fun hnone => concludes (hserved.trans ?_), fun v x e y hv hx hchosen hy hbefore => ?_⟩
  · rw [searchAny_none fun v hv => searchVolume_none fun x hx => hnone v x hv hx]
    rfl
  · obtain ⟨hrecount, -, -⟩ := counts v x hx
    rw [searchAny_first hpointer hv (searchVolume_chosen hx hrecount hchosen)
      fun w hw hturn => searchVolume_none fun z hz => hbefore w z hw hturn hz,
      serveRepair_serves ((begun_volume? s r v).trans hx)] at hserved
    exact ⟨_, concludes hserved, takenRepair rfl hx hy⟩

end Sys2Proof.Machine
end

section
/-! PROOF. What a cause leaves, whole (R23), and RETIRE_RANGE (R42). -/

namespace Sys2Proof.Machine

variable {s t : State} {v : Nat} {x : Volume}

/-! ## A cause and its consequences, whole -/

/-- The record that completing the rebuilds leaves has its counts and condition true. -/
theorem completeRebuilds_recount {y : Volume} (hx : s.volume? v = some x) (hcount : x.recount = x)
    (hy : (s.completeRebuilds v).volume? v = some y) : y.recount = y := by
  obtain ⟨z, hz, -, -, -, -, -, hcount, -⟩ := completeRebuilds_told hx hcount
  obtain rfl := Option.some.inj (hz.symm.trans hy)
  exact hcount

/-- All that a cause with its consequences does: one record changes, and the events of the ports (R23, R24, R102, R116). -/
theorem applyCause_whole (hx : s.volume? v = some x) (f : Nat → Extent → Extent) :
    ∃ y, OnlyEvents (s.setVolume v (some y)) (s.applyCause v f) ∧ y.extents = mapExtents f x.extents ∧ x.Settled y
      ∧ HealthsSettled x y ∧ y.recount = y ∧ ∀ p, Told s (s.applyCause v f) p (consequencesOf v x y) := by
  obtain ⟨y, settled, hextents, -, honly⟩ := applyCause_does hx f
  obtain ⟨z, hz, -, -, hhealths, htold⟩ := applyCause_told hx f
  have hy : (s.applyCause v f).volume? v = some y := by rw [honly.volume?, State.volume?_setVolume hx, if_pos rfl]
  obtain rfl := Option.some.inj (hz.symm.trans hy)
  have hchanged : ((s.changeExtents v f).raiseRepairPending v (s.repairNeeded v)).volume? v
      = some { x with extents := mapExtents f x.extents }.recount := by
    rw [(raiseRepairPending_onlyEvents _ _ _).volume?, (changeExtents_does hx f).volume?, State.volume?_setVolume hx, if_pos rfl]
  exact ⟨z, honly, hextents, settled, hhealths, completeRebuilds_recount hchanged (recount_recount _) hy, htold⟩

/-! ## RETIRE_RANGE (R42) -/

theorem coversWhole_iff (x : Volume) (first count e : Nat) :
    coversWhole x.shift x.blockCount first count e = true ↔ Covers x first count e := by
  rw [coversWhole, Bool.and_eq_true, decide_eq_true_iff, decide_eq_true_iff]
  rfl

/-- The extents of a volume that a range covers wholly. -/
def Volume.coveredExtents (x : Volume) (first count : Nat) : List Nat :=
  (List.range x.extentCount).filter (coversWhole x.shift x.blockCount first count)

theorem mem_coveredExtents (x : Volume) (first count e : Nat) :
    e ∈ x.coveredExtents first count ↔ e < x.extentCount ∧ Covers x first count e := by
  rw [Volume.coveredExtents, List.mem_filter, List.mem_range, coversWhole_iff]

/-- The state with the assignments of some extents of a volume marked overtaken. -/
def State.marked (s : State) (v : Nat) (sel : Nat → Bool) : State :=
  { s with assignments := markOvertaken s.assignments v sel }

theorem marked_elsewhere (s : State) (v : Nat) (sel : Nat → Bool) : SameElsewhere s (s.marked v sel) :=
  ⟨fun _ => ⟨rfl, rfl, rfl, rfl, rfl, rfl⟩, rfl, rfl, rfl, rfl, rfl, rfl, rfl, rfl, rfl, rfl, rfl, rfl⟩

theorem retiredCount_eq (x : Volume) (first count : Nat) :
    retiredCount x first count = (x.coveredExtents first count).length := List.countP_eq_length_filter

section Owner

variable {p : Port} {ps : List Byte} (hv : field ps 0 1 ≤ 15) (hx : s.volume? (field ps 0 1) = some x)
include hv hx

theorem ownRetireRange_outside (h : field ps 6 5 = 0 ∨ x.blockCount < field ps 1 5 + field ps 6 5) :
    ownRetireRange p ps s = (s, .bare .badParam) := by
  simp only [ownRetireRange, withVolume_present _ hv hx, if_pos h]

theorem ownRetireRange_busy (h : ¬ (field ps 6 5 = 0 ∨ x.blockCount < field ps 1 5 + field ps 6 5))
    (hbusy : s.overlapsIntent (field ps 0 1) (field ps 1 5) (field ps 6 5) = true) :
    ownRetireRange p ps s = (s, .bare .busy) := by
  simp only [ownRetireRange, withVolume_present _ hv hx, if_neg h, hbusy, if_true]

theorem ownRetireRange_retires (h : ¬ (field ps 6 5 = 0 ∨ x.blockCount < field ps 1 5 + field ps 6 5))
    (hfree : s.overlapsIntent (field ps 0 1) (field ps 1 5) (field ps 6 5) = false) :
    ownRetireRange p ps s = ((s.marked (field ps 0 1)
        (coversWhole x.shift x.blockCount (field ps 1 5) (field ps 6 5))).applyCause (field ps 0 1)
          (retireExtent x (field ps 1 5) (field ps 6 5)),
      ⟨.ok, bytesOf 3 (retiredCount x (field ps 1 5) (field ps 6 5))⟩) := by
  simp only [ownRetireRange, withVolume_present _ hv hx, if_neg h, hfree, Bool.false_eq_true, if_false, State.marked]

end Owner

/-- The overlap test of the owner is the overlap with an open intent of the volume. -/
theorem busy_iff (s : State) (v first count : Nat) : s.overlapsIntent v first count = true ↔
    ∃ slot i, s.intent? slot = some i ∧ i.volume = v ∧ first < i.firstBlock + i.blockCount ∧ i.firstBlock < first + count := by
  simp only [overlapsIntent_iff, overlap_iff]

/-- Settles O28: the marks and the change of extents are one cause, whose consequences are told. -/
theorem retireMakesWholeExtentsVoid : Obligations.RetireMakesWholeExtentsVoid := by
  intro r s x admitted hlen v first count busy covered hv hx
  have hx' : (begun s r).volume? v = some x := by rw [begun_volume?, hx]
  have concludes {t : State} {st : Status} {results : List Byte}
      (hown : ownRetireRange r.port r.params (begun s r) = (t, ⟨st, results⟩)) :
      exec (.retireRange r) s = .next (concluded t r 0x1A st results) :=
    next_of_own admitted rfl (by rw [hlen]; rfl) hown
  refine ⟨fun h => concludes (ownRetireRange_outside hv hx' h), fun h0 hend hbusy => ?busy, fun h0 hend hfree => ?retires⟩
  case busy =>
    refine concludes (ownRetireRange_busy hv hx' (by omega) ?_)
    rw [begun_overlapsIntent]
    exact (busy_iff s v first count).2 hbusy
  case retires =>
    have hclear : (begun s r).overlapsIntent v first count = false := by
      rw [begun_overlapsIntent]
      exact Bool.eq_false_iff.2 fun h => hfree ((busy_iff s v first count).1 h)
    let marked : State := (begun s r).marked v (coversWhole x.shift x.blockCount first count)
    have hmarked : marked.volume? v = some x := hx'
    obtain ⟨y, honly, hextents, settled, hhealths, hcount, htold⟩ := applyCause_whole hmarked (retireExtent x first count)
    have hevents (p : Port) : (marked.port p).events = (s.port p).events := begun_events s r p
    have hstate (p : Port) : (marked.port p).session.state = (s.port p).session.state := begun_sessionState s r p
    refine ⟨concluded (marked.applyCause v (retireExtent x first count)) r 0x1A .ok
        (bytesOf 3 (x.coveredExtents first count).length), y, x.coveredExtents first count,
      concludes ((ownRetireRange_retires hv hx' (by omega) hclear).trans (by rw [retiredCount_eq])), ?volume,
      by rw [hextents, mapExtents_length], settled.fixed, settled.errorsA, settled.errorsB, settled.openIntents,
      fun e z hz hcov => ?covered, fun e hcov => ?kept, ?marks, fun w hw => ?others, ?intents, ?waiters, ?arrival, ?pointer,
      fun p => ⟨?_, ?_⟩, hcount, List.nodup_range.filter _, mem_coveredExtents x first count, hhealths, fun p => ?told,
      SameElsewhere.concluded ?elsewhere ..⟩
    case volume => rw [concluded_volume?]; exact (honly.volume? v).trans (by rw [State.volume?_setVolume hmarked, if_pos rfl])
    case covered =>
      rw [hextents, mapExtents_getElem?, hz]
      simp only [Option.map_some, retireExtent, (coversWhole_iff x first count e).2 hcov, if_true]
    case kept =>
      rw [hextents, mapExtents_getElem?]
      have hnot : coversWhole x.shift x.blockCount first count e = false :=
        Bool.eq_false_iff.2 fun h => hcov ((coversWhole_iff x first count e).1 h)
      cases hz : x.extents[e]? with
      | none => rfl
      | some z => simp only [Option.map_some, retireExtent, hnot, Bool.false_eq_true, if_false]
    case marks => rw [concluded_assignments]; exact honly.assignments.trans (by
      rw [← begun_assignments s r]
      exact markOvertaken_eq_map ..)
    case others =>
      rw [concluded_volume?]
      exact (honly.volume? w).trans ((State.volume?_setVolume_ne _ hw _).trans (begun_volume? s r w))
    case intents => rw [concluded_intents]; exact honly.intents.trans (begun_intents s r)
    case waiters => rw [concluded_waiters]; exact honly.waiters.trans (begun_waiters s r)
    case arrival => rw [concluded_arrival]; exact honly.arrival.trans (begun_arrival s r)
    case pointer => rw [concluded_pointer]; exact honly.pointer.trans (begun_pointer s r)
    case refine_1 => rw [concluded_intentCount]; exact (honly.intentCount p).trans (begun_intentCount s r p)
    case refine_2 => rw [concluded_assignmentCount]; exact (honly.assignmentCount p).trans (begun_assignmentCount s r p)
    case told =>
      have htold := htold p
      rw [Told, hevents, hstate] at htold
      exact (concluded_events ..).trans htold
    case elsewhere => 
      exact (marked_elsewhere (begun s r) v _).trans (applyCause_sameElsewhere marked v _)

end Sys2Proof.Machine
end

section
/-! PROOF. The end of an intent and its pass (R56, R57): REPORT_WRITE of WRITTEN, ABANDON_INTENT and an intent's expiry. -/

namespace Sys2Proof.Machine

variable {s m t u : State} {slot : Nat} {i : Intent} {x y : Volume} {rule : Nat → Coherence → Coherence}

/-! ## What a grant leaves of a volume's record -/

theorem Volume.GrantedTo.stateAt_eq (h : x.GrantedTo y) : stateAt y = stateAt x := by
  obtain ⟨-, hstates⟩ := h
  funext e
  have he := congrArg (·[e]?) hstates
  simp only [List.getElem?_map] at he
  rw [stateAt, stateAt, List.getD_eq_getElem?_getD, List.getD_eq_getElem?_getD]
  cases hx : x.extents[e]? <;> cases hy : y.extents[e]? <;> simp_all

theorem Volume.GrantedTo.extent {e : Nat} {z : Extent} (h : x.GrantedTo y) (hz : x.extents[e]? = some z) :
    ∃ z', y.extents[e]? = some z' ∧ z'.state = z.state := by
  have he := congrArg (·[e]?) h.2
  simp only [List.getElem?_map, hz, Option.map_some] at he
  exact Option.map_eq_some_iff.1 he

theorem Volume.GrantedTo.extents_length (h : x.GrantedTo y) : y.extents.length = x.extents.length := by
  simpa using congrArg List.length h.2

theorem Volume.GrantedTo.copy (h : x.GrantedTo y) (c : Copy) : y.copy c = x.copy c := by
  have hA := congrArg Volume.copyA h.1
  have hB := congrArg Volume.copyB h.1
  cases c
  · exact hA
  · exact hB

theorem Volume.GrantedTo.health (h : x.GrantedTo y) (c : Copy) : y.health c = x.health c :=
  congrArg CopyRecord.health (h.copy c)

theorem Volume.GrantedTo.fixed (h : x.GrantedTo y) : y.fixed = x.fixed := by
  have hfixed := congrArg Volume.fixed h.1
  exact hfixed

theorem Volume.GrantedTo.repairNeeded (h : x.GrantedTo y) : y.repairNeeded = x.repairNeeded := by
  have hneeded := congrArg Volume.repairNeeded h.1
  exact hneeded

theorem Volume.GrantedTo.condition (h : x.GrantedTo y) : y.condition = x.condition := by
  have hcondition := congrArg Volume.condition h.1
  exact hcondition

theorem Volume.GrantedTo.healthsSettled {z : Volume} (h : x.GrantedTo y) (hx : HealthsSettled z x) : HealthsSettled z y := by
  intro c
  rw [h.health, h.copy]
  exact hx c

/-- A grant raises nothing that the consequences of a change list. -/
theorem Volume.GrantedTo.consequencesOf_eq (h : x.GrantedTo y) (v : Nat) (z : Volume) :
    consequencesOf v z y = consequencesOf v z x := by
  simp only [consequencesOf, h.stateAt_eq, h.repairNeeded, h.copy]

/-! ## A tag is dead once its slot is free (R44): a pass can only raise the slot's generation -/

theorem genAt_place {α : Type} {l : List (Slot α)} {k j : Nat} (hk : k < l.length) (a : α) :
    genAt (place l k a) j = if j = k then genAt l k + 1 else genAt l j := by
  split
  next hj => rw [hj, genAt, place_getElem?_self hk]
  next hj => rw [genAt, place_getElem?_ne l hj, ← genAt]

/-- The slot was freed under generation `g`: it is FREE under it, or granted once more under the next. -/
def SlotSpent (s : State) (slot : Nat) (g : BitVec 8) : Prop :=
  (s.intent? slot = none ∧ genAt s.intents slot = g) ∨ (s.intent? slot ≠ none ∧ genAt s.intents slot = g + 1)

theorem SlotSpent.visit {g : BitVec 8} (h : SlotSpent s slot g) (w : Nat) : SlotSpent (s.visit w) slot g := by
  rcases visit_cases s w with hsame | ⟨y, k, vol, hw, hg, hv⟩
  · rw [hsame]; exact h
  · obtain ⟨hk, hfree, -⟩ := lowestFree_spec (grantable_free hg)
    rw [SlotSpent, State.intent?, visit_intent hw hg hv, heldAt_place hk, genAt_place hk]
    by_cases hslot : slot = k
    · subst hslot
      rw [if_pos rfl, if_pos rfl]
      rcases h with ⟨-, hgen⟩ | ⟨hheld, -⟩
      · exact .inr ⟨nofun, by rw [hgen]⟩
      · exact absurd hfree hheld
    · rw [if_neg hslot, if_neg hslot]
      exact h

theorem SlotSpent.pass {g : BitVec 8} (h : SlotSpent s slot g) : SlotSpent s.pass slot g :=
  foldl_keeps (R := fun s t => SlotSpent s slot g → SlotSpent t slot g) (fun _ => id) (fun _ _ _ h k hs => k (h hs))
    (fun _ w hs => hs.visit w) s.arrival s h

theorem SlotSpent.findIntent {tag : Tag} (h : SlotSpent s tag.slot tag.gen) (p : Port) : s.findIntent p tag = none := by
  rcases h with ⟨hfree, -⟩ | ⟨-, hgen⟩
  · simp only [State.findIntent, hfree]
  · have hne : tag.gen + 1 ≠ tag.gen := by simp
    rw [State.findIntent]
    split
    next i hi => exact if_neg fun hfound => hne (hgen.symm.trans hfound.1)
    next => rfl

/-! ## What follows the pass: the answer or the last event -/

/-- `t` keeps the tables of `u`, its sessions and its counts of intents, and each port is told `last` more. -/
structure Finishes (u t : State) (last : Port → List Event) : Prop where
  volumes : t.volumes = u.volumes
  intents : t.intents = u.intents
  waiters : t.waiters = u.waiters
  arrival : t.arrival = u.arrival
  session : ∀ p, (t.port p).session = (u.port p).session
  count : ∀ p, (t.port p).intents = (u.port p).intents
  told : ∀ p, Told u t p (last p)

theorem finishes_concluded (u : State) (r : Request) (code : Byte) (st : Status) (results : List Byte) :
    Finishes u (concluded u r code st results) fun _ => [] where
  volumes := concluded_volumes ..
  intents := concluded_intents ..
  waiters := concluded_waiters ..
  arrival := concluded_arrival ..
  session := concluded_session u r code st results
  count := concluded_intentCount u r code st results
  told p := Told.nil (concluded_events u r code st results p)

theorem finishes_raise (u : State) (p : Port) (k : Kind) (sub : Subject) (val : EventValue) :
    Finishes u (u.raise p k sub val).settleAttn fun q => if q = p then [(k, sub, val)] else [] where
  volumes := (raise_onlyEvents u p k sub val).volumes
  intents := (raise_onlyEvents u p k sub val).intents
  waiters := (raise_onlyEvents u p k sub val).waiters
  arrival := (raise_onlyEvents u p k sub val).arrival
  session q := by rw [State.settleAttn_port]; exact (raise_onlyEvents u p k sub val).session q
  count q := by rw [State.settleAttn_port]; exact (raise_onlyEvents u p k sub val).intentCount q
  told q := (raise_told u p q k sub val).of_events (by rw [State.settleAttn_port])

theorem Finishes.grantable {last : Port → List Event} (h : Finishes u t last) (w : Nat) (x : Waiter) :
    t.grantable w x = u.grantable w x := by
  have hintents : t.overlapsIntent x.volume x.firstBlock x.blockCount = u.overlapsIntent x.volume x.firstBlock x.blockCount :=
    congrArg (fun l => State.overlapsIntent { u with intents := l } x.volume x.firstBlock x.blockCount) h.intents
  have hwaiters (slots : List Nat) : t.overlapsWaiter slots x.volume x.firstBlock x.blockCount
      = u.overlapsWaiter slots x.volume x.firstBlock x.blockCount :=
    congrArg (fun l => State.overlapsWaiter { u with waiters := l } slots x.volume x.firstBlock x.blockCount) h.waiters
  rw [State.grantable, State.grantable, hintents, hwaiters, h.arrival, h.session, h.count, h.intents]

theorem Finishes.noneGrantable {last : Port → List Event} (h : Finishes u t last) (hu : NoneGrantable u) : NoneGrantable t := by
  intro w x hw hx
  rw [h.arrival] at hw
  rw [State.waiter?_of_waiters h.waiters] at hx
  rw [h.grantable, hu w x hw hx]

theorem Finishes.grantTold {last : Port → List Event} {p : Port} {g : Event} (h : Finishes u t last) (hg : GrantTold s u p g) :
    GrantTold s t p g := by
  obtain ⟨w, x, tag, i, harrival, hw, hport, hentry, hi, hgen, hrest⟩ := hg
  exact ⟨w, x, tag, i, harrival, hw, hport, (State.waiterEntry_of_waiters h.waiters w).trans hentry,
    (State.intent?_of_intents h.intents _).trans hi, by rw [h.intents]; exact hgen, hrest⟩

/-- A grant is told of the waiter as it was in any state with the same wait list. -/
theorem GrantTold.source {p : Port} {g : Event} (h : GrantTold m t p g) (hwaiters : m.waiters = s.waiters)
    (harrival : m.arrival = s.arrival) : GrantTold s t p g := by
  obtain ⟨w, x, tag, i, hin, hw, hrest⟩ := h
  rw [hwaiters] at hrest
  exact ⟨w, x, tag, i, harrival ▸ hin, (State.waiter?_of_waiters hwaiters w).symm.trans hw, hrest⟩

/-! ## The end of an intent -/

theorem settledBy_recount (x : Volume) (i : Intent) (rule : Volume → Intent → Nat → Extent → Extent) :
    (x.settledBy i rule).recount = x.settledBy i rule := rfl

theorem intentGone_port (s : State) (slot : Nat) (i : Intent) (y : Volume) :
    (s.intentGone slot i y).port i.port = { s.port i.port with intents := (s.port i.port).intents - 1 } := by
  cases hp : i.port <;> simp [State.intentGone, hp, State.setIntentCount, State.setPort, State.port]

theorem intentGone_port_peer (s : State) (slot : Nat) (i : Intent) (y : Volume) :
    (s.intentGone slot i y).port (peer i.port) = s.port (peer i.port) := by
  cases hp : i.port <;> simp [State.intentGone, hp, State.setIntentCount, State.setPort, State.port]

theorem intentGone_volume? (hx : s.volume? i.volume = some x) (slot : Nat) (y : Volume) (w : Nat) :
    (s.intentGone slot i y).volume? w = if w = i.volume then some y else s.volume? w := by
  rw [State.volume?_of_volumes (t := s.intentGone slot i y) (s := s.setVolume i.volume (some y)) (by simp [State.intentGone])]
  exact State.volume?_setVolume hx w (some y)

/-- The end of an intent by a rule, whole: the record, the counts, the slot and the events (R56, R57). -/
theorem endIntent_freed (hi : s.intent? slot = some i) (hx : s.volume? i.volume = some x)
    {change : Volume → Intent → Nat → Extent → Extent} (hchange : ∀ e z, change x i e z
      = if i.touches e then { z with state := rule e z.state, openCount := z.openCount - 1 } else z) :
    IntentFreed s (s.endIntent slot change) slot i x rule := by
  obtain ⟨y, settled, hextents, honly⟩ := endIntent_gone hi hx change
  obtain ⟨z, hz, -, hhealths, htold⟩ := endIntent_told hi hx change
  have hy : (s.endIntent slot change).volume? i.volume = some y := by
    rw [honly.volume?, intentGone_volume? hx, if_pos rfl]
  obtain rfl := Option.some.inj (hz.symm.trans hy)
  have hsettled : (s.settleIntent slot change).volume? i.volume = some (x.settledBy i change) := by
    rw [(settleIntent_gone hi hx change).volume?, intentGone_volume? hx, if_pos rfl]
  have hcount : z.recount = z := completeRebuilds_recount hsettled (settledBy_recount x i change)
    (by rw [← endIntent_settles hi]; exact hy)
  have hlength : z.extents.length = x.extents.length := by
    rw [hextents]; exact mapExtents_length _ _
  refine ⟨endIntent_elsewhere .., fun w hw => ?others, honly.pointer.trans ?pointer, honly.intents, honly.waiters.trans ?waiters,
    honly.arrival.trans ?arrival, honly.assignments.trans ?assignments, ?_, ?_, z, hy, settled.fixed, settled.errorsA,
    settled.errorsB, settled.openIntents, hlength, fun e k hk => ?extent, hcount, hhealths, htold⟩
  case others => rw [honly.volume?, intentGone_volume? hx, if_neg hw]
  case pointer => simp [State.intentGone]
  case waiters => simp [State.intentGone]
  case arrival => simp [State.intentGone]
  case assignments => simp [State.intentGone]
  case refine_1 => exact (honly.port i.port).trans (by rw [intentGone_port])
  case refine_2 => exact (honly.port (peer i.port)).trans (by rw [intentGone_port_peer])
  case extent =>
    rw [hextents]
    refine (mapExtents_getElem? _ _ e).trans ?_
    rw [hk, Option.map_some, hchange]
    simp only [Intent.touches, Bool.and_eq_true, decide_eq_true_eq]

/-- The intent's end may be read from the state before its last report was recorded. -/
theorem IntentFreed.of_recorded {j : Intent} {s : State} (h : IntentFreed { s with intents := hold s.intents slot (some j) } m slot j x rule)
    {o : Report} {c : Copy} (hj : j = i.withReport o c) : IntentFreed s m slot i x rule := by
  have hport : j.port = i.port := by subst hj; cases c <;> rfl
  have hvolume : j.volume = i.volume := by subst hj; cases c <;> rfl
  have hfirst : j.firstExtent = i.firstExtent := by subst hj; cases c <;> rfl
  have hcount : j.extentCount = i.extentCount := by subst hj; cases c <;> rfl
  have htable : (hold s.intents slot (some j)).set slot ⟨genAt (hold s.intents slot (some j)) slot, none⟩
      = s.intents.set slot ⟨genAt s.intents slot, none⟩ := by
    by_cases hlt : slot < s.intents.length
    · rw [genAt, hold_getElem?_self hlt, hold, List.set_set]
    · simp [hold, List.set_eq_of_length_le (not_lt.1 hlt), genAt]
  rw [IntentFreed, hport, hvolume, hfirst, hcount] at h
  obtain ⟨helse, hothers, hpointer, hintents, hrest⟩ := h
  exact ⟨helse, hothers, hpointer, hintents.trans htable, hrest⟩

/-- A pass after the end of an intent, and the answer or the last event after that (R57, R75). -/
theorem IntentFreed.ended {done : State → State} {last : Port → List Event} (h : IntentFreed s m slot i x rule)
    (hdone : Finishes m.pass (done m.pass) last) : IntentEnded s (done m.pass) done slot i x rule last := by
  have hfreed := h
  obtain ⟨helse, hothers, -, hintents, hwaiters, harrival, -, -, -, y, hy, hfixed, hA, hB, -, hlength, hextents, -, hhealths,
    htold⟩ := h
  have hgrants := pass_grantsOnly m
  have hvolume (w : Nat) : (done m.pass).volume? w = m.pass.volume? w := State.volume?_of_volumes hdone.volumes w
  obtain ⟨z, hz, hgranted⟩ := (hgrants.volumes i.volume).2 y hy
  refine ⟨⟨m, hfreed, rfl⟩, fun hagree => hdone.noneGrantable (pass_noneGrantable fun k w hw => ?present), fun w hw => ⟨fun hn => ?absent,
    fun k hk => ?kept⟩, z, (hvolume _).trans hz, hgranted.fixed.trans hfixed, hgranted.extents_length.trans hlength, ?_, ?_,
    fun e k hk => ?state, hgranted.healthsSettled hhealths, fun p => ?told⟩
  case present =>
    rw [State.waiter?_of_waiters hwaiters] at hw
    by_cases hv : w.volume = i.volume
    · rw [hv, hy]; rfl
    · rw [hothers _ hv]; exact hagree.2.2 k w hw
  case absent => rw [hvolume]; exact (hgrants.volumes w).1 ((hothers w hw).trans hn)
  case kept =>
    obtain ⟨k', hk', hg⟩ := (hgrants.volumes w).2 k ((hothers w hw).trans hk)
    exact ⟨k', (hvolume w).trans hk', hg⟩
  case refine_1 => exact (congrArg CopyRecord.errors (hgranted.copy .a)).trans hA
  case refine_2 => exact (congrArg CopyRecord.errors (hgranted.copy .b)).trans hB
  case state =>
    obtain ⟨k', hk', hst⟩ := hgranted.extent (hextents e k hk)
    exact ⟨k', hk', hst.trans (by split <;> rfl)⟩
  case told =>
    obtain ⟨grants, hall, hpass⟩ := pass_told m p
    refine ⟨grants, fun g hg => hdone.grantTold ((hall g hg).source hwaiters harrival), ?_⟩
    rw [hgranted.consequencesOf_eq]
    exact ((htold p).trans (helse.1 p).1 hpass).trans (((hgrants.elsewhere.1 p).1).trans (helse.1 p).1) (hdone.told p)

/-- No tag of the slot's generation is found after the pass that follows the end of its intent. -/
theorem IntentFreed.spent (h : IntentFreed s m slot i x rule) (hlt : slot < s.intents.length) :
    SlotSpent m.pass slot (genAt s.intents slot) := by
  obtain ⟨-, -, -, hintents, -⟩ := h
  refine SlotSpent.pass (.inl ⟨?_, ?_⟩)
  · rw [State.intent?, hintents, heldAt, List.getElem?_set_self hlt]
  · rw [hintents, genAt, List.getElem?_set_self hlt]

theorem findIntent_eq_some {p : Port} {tag : Tag} (h : s.findIntent p tag = some i) :
    s.intent? tag.slot = some i ∧ genAt s.intents tag.slot = tag.gen ∧ i.port = p ∧ i.epoch = (s.port p).session.epoch := by
  rw [State.findIntent] at h
  split at h
  next j hj =>
    split at h
    next hfound => obtain rfl := Option.some.inj h; exact ⟨hj, hfound⟩
    next => cases h
  next => cases h

theorem intent?_lt (h : s.intent? slot = some i) : slot < s.intents.length := by
  obtain ⟨y, hy, -⟩ := heldAt_some h
  exact (List.getElem?_eq_some_iff.1 hy).1

theorem SlotSpent.of_intents {g : BitVec 8} (h : SlotSpent u slot g) (htable : t.intents = u.intents) : SlotSpent t slot g := by
  rw [SlotSpent, State.intent?, htable]
  exact h

end Sys2Proof.Machine
end

section
/-! PROOF. ABANDON_INTENT, an intent's expiry (R57, R58) and REPORT_WRITE of WRITTEN (R52 to R56). -/

namespace Sys2Proof.Machine

variable {s m t : State} {slot : Nat} {i : Intent} {x : Volume} {rule : Nat → Coherence → Coherence}

/-! ## ABANDON_INTENT and expiry -/

theorem abandonIntent_freed (hi : s.intent? slot = some i) (hx : s.volume? i.volume = some x) :
    IntentFreed s (s.abandonIntent slot) slot i x fun e st => abandonResult st (coveredBy x i e) i.reportA i.reportB :=
  endIntent_freed hi hx fun _ _ => rfl

theorem closeIntent_freed (hi : s.intent? slot = some i) (hx : s.volume? i.volume = some x) :
    IntentFreed s (s.closeIntent slot) slot i x fun e st => closeResult st (coveredBy x i e) i.reportA i.reportB :=
  endIntent_freed hi hx fun _ _ => rfl

theorem IntentFreed.elsewhere (h : IntentFreed s m slot i x rule) : SameElsewhere s m := h.1

theorem ownAbandonIntent_found {p : Port} {ps : List Byte} (h : s.findIntent p (tagParam ps 0) = some i) :
    ownAbandonIntent p ps s = ((s.abandonIntent (tagParam ps 0).slot).pass, .bare .ok) := by simp only [ownAbandonIntent, h]

theorem execIntentExpiry_due (hi : s.intent? slot = some i) (h : s.expired i.deadline = true) :
    execIntentExpiry slot s = .next (((s.abandonIntent slot).pass).raise i.port .intentExpired
      (.intent ⟨slot, genAt s.intents slot⟩) .zero).settleAttn := by
  simp only [execIntentExpiry, hi, h, if_true]

theorem execIntentExpiry_inert (h : ∀ i, s.intent? slot = some i → s.expired i.deadline = false) :
    execIntentExpiry slot s = .next s := by
  cases hi : s.intent? slot with
  | none => simp only [execIntentExpiry, hi]
  | some i => simp only [execIntentExpiry, hi, h i hi, Bool.false_eq_true, if_false]

/-- A deadline that is not reached in RUN is not expired. -/
theorem not_expired {d : Nat} (h : s.supply ≠ .run ∨ s.ticks * 25000 < d) : s.expired d = false := by
  rw [← Bool.not_eq_true, expired_iff]
  rintro ⟨hrun, hd⟩
  rcases h with h | h
  · exact h hrun
  · exact absurd hd (not_le.2 h)

theorem settleAttn_elsewhere (s : State) : SameElsewhere s s.settleAttn := by
  refine ⟨fun p => ?_, rfl, rfl, rfl, rfl, rfl, rfl, rfl, rfl, rfl, rfl, rfl, rfl⟩
  rw [State.settleAttn_port]
  exact ⟨rfl, rfl, rfl, rfl, rfl, rfl⟩

theorem raised_elsewhere (s : State) (p : Port) (k : Kind) (sub : Subject) (val : EventValue) :
    SameElsewhere s (s.raise p k sub val).settleAttn :=
  (raise_onlyEvents s p k sub val).sameElsewhere.trans (settleAttn_elsewhere _)

/-- Settles O36: the end of the intent, a pass, and the answer or the event of the expiry. -/
theorem abandonAndExpirySettleExtents : Obligations.AbandonAndExpirySettleExtents := by
  refine ⟨fun r s i x admitted hlen hfound hx => ?abandoned, fun slot s => ⟨fun i x hrun hi hd hx => ?due, fun h => ?inert⟩⟩
  case abandoned =>
    have hfound' := (begun_findIntent s r r.port (tagParam r.params 0)).trans hfound
    obtain ⟨hi, hgen, -, -⟩ := findIntent_eq_some hfound'
    have hfreed := abandonIntent_freed hi ((begun_volume? s r _).trans hx)
    have hspent := hfreed.spent (intent?_lt hi)
    rw [hgen] at hspent
    refine ⟨_, next_of_own admitted rfl (by rw [hlen]; rfl) (ownAbandonIntent_found hfound'),
      hfreed.ended (done := fun u => concluded u r 0x22 .ok []) (finishes_concluded _ r 0x22 .ok []),
      (hspent.of_intents (concluded_intents ..)).findIntent _, ?_⟩
    exact (hfreed.elsewhere.trans (pass_grantsOnly _).elsewhere).concluded r 0x22 .ok []
  case due =>
    have hfreed := abandonIntent_freed hi hx
    have hfinish := finishes_raise (s.abandonIntent slot).pass i.port .intentExpired (.intent ⟨slot, genAt s.intents slot⟩) .zero
    refine ⟨_, execIntentExpiry_due hi ((expired_iff s _).2 ⟨hrun, hd⟩),
      hfreed.ended (done := fun u => (u.raise i.port .intentExpired (.intent ⟨slot, genAt s.intents slot⟩) .zero).settleAttn) hfinish,
      ((hfreed.spent (intent?_lt hi)).of_intents hfinish.intents).findIntent (tag := ⟨slot, genAt s.intents slot⟩) _,
      (hfreed.elsewhere.trans (pass_grantsOnly _).elsewhere).trans (raised_elsewhere ..), fun hopen => ?_⟩
    have helse := hfreed.elsewhere.trans (pass_grantsOnly (s.abandonIntent slot)).elsewhere
    refine (hfinish.told i.port).tells ?_ (by rw [if_pos rfl]; exact List.mem_singleton.2 rfl)
    rw [(helse.1 i.port).1, hopen]
  case inert =>
    refine execIntentExpiry_inert fun i hi => not_expired ?_
    exact h.imp_right fun h => h i hi

/-! ## REPORT_WRITE of WRITTEN -/

theorem withReport_report_self (i : Intent) (o : Report) (c : Copy) : (i.withReport o c).report c = o := by cases c <;> rfl

theorem withReport_place (i : Intent) (o : Report) (c : Copy) : (i.withReport o c).port = i.port
    ∧ (i.withReport o c).volume = i.volume ∧ (i.withReport o c).firstExtent = i.firstExtent
    ∧ (i.withReport o c).extentCount = i.extentCount ∧ (i.withReport o c).epoch = i.epoch := by
  cases c <;> exact ⟨rfl, rfl, rfl, rfl, rfl⟩

/-- An intent is complete after a report exactly when the other copy's report is there. -/
theorem withReport_complete {o : Report} (ho : o ≠ .pending) (i : Intent) (c : Copy) :
    (i.withReport o c).complete = decide (i.report (other c) ≠ .pending) := by
  rw [Intent.complete, Bool.eq_iff_iff, Bool.and_eq_true, decide_eq_true_iff, decide_eq_true_iff, decide_eq_true_iff]
  cases c
  · exact ⟨fun h => h.2, fun h => ⟨ho, h⟩⟩
  · exact ⟨fun h => h.1, fun h => ⟨h, ho⟩⟩

/-- The state with an intent's last report recorded in its slot. -/
def State.recorded (s : State) (slot : Nat) (j : Intent) : State := { s with intents := hold s.intents slot (some j) }

theorem recorded_elsewhere (s : State) (slot : Nat) (j : Intent) : SameElsewhere s (s.recorded slot j) :=
  ⟨fun _ => ⟨rfl, rfl, rfl, rfl, rfl, rfl⟩, rfl, rfl, rfl, rfl, rfl, rfl, rfl, rfl, rfl, rfl, rfl, rfl⟩

theorem recorded_intent? (hlt : slot < s.intents.length) (j : Intent) : (s.recorded slot j).intent? slot = some j := by
  rw [State.intent?, heldAt, State.recorded, hold_getElem?_self hlt]

theorem recordReport_written (s : State) (slot : Nat) (i : Intent) (c : Copy) : s.recordReport slot i c .written
    = if i.report (other c) = .pending then s.recorded slot (i.withReport .written c)
      else ((s.recorded slot (i.withReport .written c)).closeIntent slot).pass := by
  simp only [State.recordReport, withReport_complete (o := .written) nofun]
  by_cases h : i.report (other c) = .pending <;> simp [h, State.recorded]

theorem health_of_volume? {v : Nat} {c : Copy} (h : s.volume? v = some x) : s.health v c = x.health c := by
  rw [State.health, h]

theorem ownReportWrite_pending {p : Port} {ps : List Byte} {c : Copy} {o : Report} (hc : byteAt ps 2 = c.code)
    (ho : outcomeParam (byteAt ps 3) = some o) (hi : s.findIntent p (tagParam ps 0) = some i) (hpending : i.report c = .pending) :
    ownReportWrite p ps s = (s.recordReport (tagParam ps 0).slot i c o,
      ⟨.ok, reportBytes (i.withReport o c) ((s.recordReport (tagParam ps 0).slot i c o).health i.volume c)⟩) := by
  rw [ownReportWrite_found hc ho hi, hpending, if_neg (by decide), if_neg (by decide)]

/-- The answer to a report: whether the intent is closed, its reports and a health. -/
theorem reportBytes_withReport {o : Report} (ho : o ≠ .pending) (i : Intent) (c : Copy) (h : Health) :
    reportBytes (i.withReport o c) h = [if i.report (other c) = .pending then 0 else 1, (i.withReport o c).reportA.code,
      (i.withReport o c).reportB.code, h.code] := by
  rw [reportBytes, withReport_complete ho, flagCode]
  by_cases h : i.report (other c) = .pending <;> simp [h]

/-- Settles O33: the report is recorded; with both there the intent ends, and a pass follows. -/
theorem writtenReportRecordsOrCloses : Obligations.WrittenReportRecordsOrCloses := by
  intro r s i x c admitted hlen p tag j hc ho hfound hpending hx
  have hfound' := (begun_findIntent s r p tag).trans hfound
  obtain ⟨hi, hgen, -, -⟩ := findIntent_eq_some hfound'
  have hlt := intent?_lt hi
  have hown := ownReportWrite_pending hc (o := .written) (by rw [ho]; rfl) hfound' hpending
  rw [reportBytes_withReport (o := .written) nofun, recordReport_written] at hown
  refine ⟨fun hother => ?recorded, fun hother => ?closed⟩
  case recorded =>
    simp only [hother, if_true] at hown
    have hrecorded : ((begun s r).recorded tag.slot j).volume? i.volume = some x := (begun_volume? s r _).trans hx
    rw [health_of_volume? hrecorded] at hown
    have hexec := next_of_own admitted rfl (by rw [hlen]; rfl) hown
    rw [State.recorded, hold, hgen, begun_intents] at hexec
    exact hexec
  case closed =>
    simp only [hother, if_false] at hown
    have hfreed : IntentFreed (begun s r) (((begun s r).recorded tag.slot j).closeIntent tag.slot) tag.slot i x
        fun e st => closeResult st (coveredBy x i e) j.reportA j.reportB := by
      refine IntentFreed.of_recorded (j := j) ?_ rfl
      have hclosed := closeIntent_freed (x := x) (recorded_intent? (s := begun s r) hlt j)
        (by rw [(withReport_place i .written c).2.1]; exact (begun_volume? s r _).trans hx)
      have hcovered : coveredBy x j = coveredBy x i := by cases c <;> rfl
      rw [hcovered] at hclosed
      exact hclosed
    obtain ⟨-, -, -, -, -, -, -, -, -, y, hy, -⟩ := id hfreed
    obtain ⟨z, hz, -⟩ := ((pass_grantsOnly (((begun s r).recorded tag.slot j).closeIntent tag.slot)).volumes i.volume).2 y hy
    rw [health_of_volume? hz] at hown
    have hspent := hfreed.spent hlt
    rw [hgen] at hspent
    refine ⟨_, z, next_of_own admitted rfl (by rw [hlen]; rfl) hown, (concluded_volume? ..).trans hz,
      hfreed.ended (done := fun u => concluded u r 0x21 .ok [1, j.reportA.code, j.reportB.code, (z.health c).code])
        (finishes_concluded ..), (hspent.of_intents (concluded_intents ..)).findIntent _, ?_⟩
    exact (hfreed.elsewhere.trans (pass_grantsOnly _).elsewhere).concluded ..

end Sys2Proof.Machine
end

section
/-! PROOF. The end of an assignment (R94, R95): RELEASE_REPAIR and an assignment's expiry. -/

namespace Sys2Proof.Machine

variable {s m t u : State} {slot : Nat} {a : Assignment} {x y : Volume} {st : Coherence → Coherence}

theorem assignmentGone_port (s : State) (slot : Nat) (a : Assignment) (y : Volume) :
    (s.assignmentGone slot a y).port a.port = { s.port a.port with assignments := (s.port a.port).assignments - 1 } := by
  cases hp : a.port <;> simp [State.assignmentGone, hp, State.setAssignmentCount, State.setPort, State.port]

theorem assignmentGone_port_peer (s : State) (slot : Nat) (a : Assignment) (y : Volume) :
    (s.assignmentGone slot a y).port (peer a.port) = s.port (peer a.port) := by
  cases hp : a.port <;> simp [State.assignmentGone, hp, State.setAssignmentCount, State.setPort, State.port]

theorem assignmentGone_intentCount (s : State) (slot : Nat) (a : Assignment) (y : Volume) (p : Port) :
    ((s.assignmentGone slot a y).port p).intents = (s.port p).intents := by
  by_cases hp : p = a.port
  · rw [hp, assignmentGone_port]
  · rw [eq_peer_of_ne hp, assignmentGone_port_peer]

theorem assignmentGone_volume? (hx : s.volume? a.volume = some x) (slot : Nat) (y : Volume) (w : Nat) :
    (s.assignmentGone slot a y).volume? w = if w = a.volume then some y else s.volume? w := by
  rw [State.volume?_of_volumes (t := s.assignmentGone slot a y) (s := s.setVolume a.volume (some y))
    (by simp [State.assignmentGone])]
  exact State.volume?_setVolume hx w (some y)

/-- The end of an assignment by a rule, whole: the record, the count, the slot, the link and the events (R94, R95). -/
theorem endAssignment_ended (slot : Nat) (hx : s.volume? a.volume = some x) (st : Coherence → Coherence) :
    AssignmentEnded s (s.endAssignment slot a st) slot a x st fun _ => [] := by
  obtain ⟨y, settled, hextents, honly⟩ := endAssignment_gone slot hx st
  obtain ⟨z, hz, -, hhealths, htold⟩ := endAssignment_told slot hx st
  have hy : (s.endAssignment slot a st).volume? a.volume = some y := by
    rw [honly.volume?, assignmentGone_volume? hx, if_pos rfl]
  obtain rfl := Option.some.inj (hz.symm.trans hy)
  have hsettled : (s.settleAssignment slot a st).volume? a.volume = some (x.repairedBy a st) := by
    rw [(settleAssignment_gone slot hx st).volume?, assignmentGone_volume? hx, if_pos rfl]
  have hcount : z.recount = z := completeRebuilds_recount hsettled (recount_recount _) hy
  refine ⟨honly.assignments, (honly.assignmentCount _).trans (by rw [assignmentGone_port]),
    (honly.assignmentCount _).trans (by rw [assignmentGone_port_peer]),
    fun p => (honly.intentCount p).trans (assignmentGone_intentCount s slot a z p), honly.intents.trans ?intents,
    honly.waiters.trans ?waiters, honly.arrival.trans ?arrival, honly.pointer.trans ?pointer, fun w hw => ?others,
    z, hy, settled.fixed, settled.errorsA, settled.errorsB, settled.openIntents, hcount, ?length, fun e k hk => ?extent, hhealths,
    fun p => by rw [List.append_nil]; exact htold p⟩
  case intents => simp [State.assignmentGone]
  case waiters => simp [State.assignmentGone]
  case arrival => simp [State.assignmentGone]
  case pointer => simp [State.assignmentGone]
  case others => rw [honly.volume?, assignmentGone_volume? hx, if_neg hw]
  case length => rw [hextents]; exact mapExtents_length _ _
  case extent =>
    rw [hextents]
    refine (mapExtents_getElem? _ _ e).trans ?_
    rw [hk, Option.map_some, endExtent]

/-- `t` keeps every table and count of `u` and its sessions, and each port is told `last` more. -/
structure FinishesAll (u t : State) (last : Port → List Event) : Prop extends Finishes u t last where
  assignments : t.assignments = u.assignments
  pointer : t.pointer = u.pointer
  assignmentCount : ∀ p, (t.port p).assignments = (u.port p).assignments

theorem finishesAll_concluded (u : State) (r : Request) (code : Byte) (st : Status) (results : List Byte) :
    FinishesAll u (concluded u r code st results) fun _ => [] where
  toFinishes := finishes_concluded u r code st results
  assignments := concluded_assignments ..
  pointer := concluded_pointer ..
  assignmentCount := concluded_assignmentCount u r code st results

theorem finishesAll_raise (u : State) (p : Port) (k : Kind) (sub : Subject) (val : EventValue) :
    FinishesAll u (u.raise p k sub val).settleAttn fun q => if q = p then [(k, sub, val)] else [] where
  toFinishes := finishes_raise u p k sub val
  assignments := (raise_onlyEvents u p k sub val).assignments
  pointer := (raise_onlyEvents u p k sub val).pointer
  assignmentCount q := by rw [State.settleAttn_port]; exact (raise_onlyEvents u p k sub val).assignmentCount q

theorem AssignmentEnded.finished {last : Port → List Event} (h : AssignmentEnded s m slot a x st fun _ => [])
    (hsessions : ∀ p, (m.port p).session = (s.port p).session) (hfinish : FinishesAll m t last) :
    AssignmentEnded s t slot a x st last := by
  obtain ⟨htable, hcount, hpeer, hintentCounts, hintents, hwaiters, harrival, hpointer, hothers, y, hy, hfixed, hA, hB, hopen,
    hrecount, hlength, hextents, hhealths, htold⟩ := h
  have hvolume (w : Nat) : t.volume? w = m.volume? w := State.volume?_of_volumes hfinish.volumes w
  refine ⟨hfinish.assignments.trans htable, (hfinish.assignmentCount _).trans hcount, (hfinish.assignmentCount _).trans hpeer,
    fun p => (hfinish.count p).trans (hintentCounts p), hfinish.intents.trans hintents, hfinish.waiters.trans hwaiters,
    hfinish.arrival.trans harrival, hfinish.pointer.trans hpointer, fun w hw => (hvolume w).trans (hothers w hw), y,
    (hvolume _).trans hy, hfixed, hA, hB, hopen, hrecount, hlength, hextents, hhealths, fun p => ?_⟩
  have htold := htold p
  rw [List.append_nil] at htold
  exact htold.trans (hsessions p) (hfinish.told p)

/-- What ends from the begun request ends from the state before it: the lease alone is renewed there. -/
theorem AssignmentEnded.of_begun {r : Request} {last : Port → List Event} (h : AssignmentEnded (begun s r) t slot a x st last) :
    AssignmentEnded s t slot a x st last := by
  obtain ⟨htable, hcount, hpeer, hintentCounts, hintents, hwaiters, harrival, hpointer, hothers, y, hy, hfixed, hA, hB, hopen,
    hrecount, hlength, hextents, hhealths, htold⟩ := h
  rw [begun_assignments] at htable
  rw [begun_assignmentCount] at hcount hpeer
  simp only [begun_intentCount] at hintentCounts
  rw [begun_intents] at hintents
  rw [begun_waiters] at hwaiters
  rw [begun_arrival] at harrival
  rw [begun_pointer] at hpointer
  refine ⟨htable, hcount, hpeer, hintentCounts, hintents, hwaiters, harrival, hpointer, fun w hw => ?_, y, hy, hfixed, hA, hB,
    hopen, hrecount, hlength, hextents, hhealths, fun p => ?_⟩
  · rw [hothers w hw, begun_volume?]
  · have htold := htold p
    rwa [Told, begun_events, begun_sessionState] at htold

/-! ## The rule of R29 -/

theorem overtakenResult_eq (s : State) (a : Assignment) : s.overtakenResult a = overtakenRule s a := by
  funext st
  rw [State.overtakenResult, overtakenRule]
  by_cases hvoid : st = .void
  · rw [if_pos hvoid, if_pos (.inl hvoid), hvoid]
  · simp only [hvoid, if_false, false_or]

theorem begun_overtakenRule (s : State) (r : Request) (a : Assignment) : overtakenRule (begun s r) a = overtakenRule s a := by
  funext st
  rw [overtakenRule, overtakenRule, State.pendingReportOn, begun_intents, ← State.pendingReportOn]

theorem revokedState_eq (s : State) (a : Assignment) :
    s.revokedState a = if a.overtaken then overtakenRule s a else id := by
  rw [State.revokedState, overtakenResult_eq]

theorem findAssignment_eq_some {p : Port} {tag : Tag} (h : s.findAssignment p tag = some a) :
    s.assignment? tag.slot = some a ∧ genAt s.assignments tag.slot = tag.gen ∧ a.port = p
      ∧ a.epoch = (s.port p).session.epoch := by
  rw [State.findAssignment] at h
  split at h
  next b hb =>
    split at h
    next hfound => obtain rfl := Option.some.inj h; exact ⟨hb, hfound⟩
    next => cases h
  next => cases h

theorem revoke_eq (ha : s.assignment? slot = some a) :
    s.revoke slot none = s.endAssignment slot a (s.revokedState a) := by rw [State.revoke, ha]

theorem revoke_raise_eq (ha : s.assignment? slot = some a) (reason : EventValue) :
    s.revoke slot (some reason) = (s.endAssignment slot a (s.revokedState a)).raise a.port .assignEnded
      (.assignment ⟨slot, genAt s.assignments slot⟩) reason := by rw [State.revoke, ha]; rfl

theorem ownReleaseRepair_found {p : Port} {ps : List Byte} (h : s.findAssignment p (tagParam ps 0) = some a) :
    ownReleaseRepair p ps s = (s.revoke (tagParam ps 0).slot none, ⟨.ok, [flagCode a.overtaken,
      ((s.revoke (tagParam ps 0).slot none).extentState a.volume a.extent).code]⟩) := by simp only [ownReleaseRepair, h]

theorem execAssignmentExpiry_due (ha : s.assignment? slot = some a) (h : s.expired a.deadline = true) :
    execAssignmentExpiry slot s = .next (s.revoke slot (some .assignExpired)).settleAttn := by
  simp only [execAssignmentExpiry, ha, h, if_true]

theorem execAssignmentExpiry_inert (h : ∀ a, s.assignment? slot = some a → s.expired a.deadline = false) :
    execAssignmentExpiry slot s = .next s := by
  cases ha : s.assignment? slot with
  | none => simp only [execAssignmentExpiry, ha]
  | some a => simp only [execAssignmentExpiry, ha, h a ha, Bool.false_eq_true, if_false]

theorem extentState_of_volume? {v : Nat} (h : s.volume? v = some x) (e : Nat) : s.extentState v e = stateAt x e := by
  rw [State.extentState, h]
  rfl

/-- Settles O43: the assignment ends by R29 or with its extent's state as it was. -/
theorem releaseAndExpiryRevoke : Obligations.ReleaseAndExpiryRevoke := by
  refine ⟨fun r s a x admitted hlen => ?released, fun slot s => ⟨fun a x hrun ha hd hx => ?due, fun h => ?inert⟩⟩
  case released =>
    intro tag hfound hx
    have hfound' := (begun_findAssignment s r r.port tag).trans hfound
    obtain ⟨ha, -⟩ := findAssignment_eq_some hfound'
    have hx' := (begun_volume? s r a.volume).trans hx
    have hended := endAssignment_ended tag.slot hx' (if a.overtaken then overtakenRule s a else id)
    obtain ⟨-, -, -, -, -, -, -, -, -, y, hy, -⟩ := id hended
    have hown := ownReleaseRepair_found hfound'
    rw [revoke_eq ha, revokedState_eq, begun_overtakenRule, extentState_of_volume? hy] at hown
    have helse := endAssignment_elsewhere (begun s r) tag.slot a (if a.overtaken then overtakenRule s a else id)
    exact ⟨_, y, next_of_own admitted rfl (by rw [hlen]; rfl) hown, (concluded_volume? ..).trans hy,
      (hended.finished (fun p => (helse.1 p).1) (finishesAll_concluded ..)).of_begun, helse.concluded ..⟩
  case due =>
    have hended := endAssignment_ended slot hx (if a.overtaken then overtakenRule s a else id)
    have helse := endAssignment_elsewhere s slot a (if a.overtaken then overtakenRule s a else id)
    have hfinish := finishesAll_raise (s.endAssignment slot a (if a.overtaken then overtakenRule s a else id)) a.port .assignEnded
      (.assignment ⟨slot, genAt s.assignments slot⟩) .assignExpired
    refine ⟨_, (execAssignmentExpiry_due ha ((expired_iff s _).2 ⟨hrun, hd⟩)).trans
        (by rw [revoke_raise_eq ha, revokedState_eq]), hended.finished (fun p => (helse.1 p).1) hfinish,
      helse.trans (raised_elsewhere ..), fun hopen => ?_⟩
    refine (hfinish.told a.port).tells ?_ (by rw [if_pos rfl]; exact List.mem_singleton.2 rfl)
    rw [(helse.1 a.port).1, hopen]
  case inert =>
    refine execAssignmentExpiry_inert fun a ha => not_expired ?_
    exact h.imp_right fun h => h a ha

end Sys2Proof.Machine
end

section
/-! PROOF. The end of many intents, slot by slot: what the first `n` slots have settled (R26, R57, R111, R127). -/

namespace Sys2Proof.Machine

variable {s t u : State} {n w : Nat} {i : Intent} {x y : Volume} {sel : Nat → Intent → Bool}
  {result : Coherence → Bool → Report → Report → Coherence}

/-- A property of the state kept slot by slot holds after all slots below `n`. -/
theorem foldl_range_induct {motive : Nat → State → Prop} {f : State → Nat → State} (hinit : motive 0 s)
    (hstep : ∀ k u, k < n → motive k u → motive (k + 1) (f u k)) : motive n ((List.range n).foldl f s) := by
  induction n with
  | zero => exact hinit
  | succ n ih =>
    rw [List.range_succ, List.foldl_append]
    exact hstep n _ (Nat.lt_succ_self n) (ih fun k u hk => hstep k u (hk.trans (Nat.lt_succ_self n)))

/-! ## The intents of a selection -/

/-- Whether the slot holds an intent of the selection. -/
def State.picks (s : State) (sel : Nat → Intent → Bool) (k : Nat) : Bool :=
  match s.intent? k with
  | some i => sel k i
  | none => false

theorem picks_some {k : Nat} (h : s.intent? k = some i) : s.picks sel k = sel k i := by rw [State.picks, h]

theorem picks_none {k : Nat} (h : s.intent? k = none) : s.picks sel k = false := by rw [State.picks, h]

/-- How many of the first `n` slots hold an intent of the selection. -/
def State.picked (s : State) (n : Nat) (sel : Nat → Intent → Bool) : Nat := (List.range n).countP (s.picks sel)

theorem picked_succ (s : State) (n : Nat) (sel : Nat → Intent → Bool) :
    s.picked (n + 1) sel = s.picked n sel + if s.picks sel n = true then 1 else 0 := by
  rw [State.picked, List.range_succ, List.countP_append, List.countP_singleton]
  rfl

/-- The state of an extent after the intents of the selection in the first `n` slots have ended, one after the other. -/
def State.endedState (s : State) (n : Nat) (sel : Nat → Intent → Bool) (result : Coherence → Bool → Report → Report → Coherence)
    (x : Volume) (w e : Nat) (st : Coherence) : Coherence :=
  (List.range n).foldl (fun st k => match s.intent? k with
    | some i => if sel k i && (decide (i.volume = w) && i.touches e)
      then result st (coveredBy x i e) i.reportA i.reportB else st
    | none => st) st

theorem endedState_succ (s : State) (n : Nat) (sel : Nat → Intent → Bool)
    (result : Coherence → Bool → Report → Report → Coherence) (x : Volume) (w e : Nat) (st : Coherence) :
    s.endedState (n + 1) sel result x w e st = match s.intent? n with
      | some i => if sel n i && (decide (i.volume = w) && i.touches e)
        then result (s.endedState n sel result x w e st) (coveredBy x i e) i.reportA i.reportB
        else s.endedState n sel result x w e st
      | none => s.endedState n sel result x w e st := by
  rw [State.endedState, List.range_succ, List.foldl_append]
  rfl

/-- How an intent's end changes an extent, from its result for the coherence state (R25, R26). -/
def endBy (result : Coherence → Bool → Report → Report → Coherence) (x : Volume) (i : Intent) (e : Nat) (y : Extent) : Extent :=
  if i.touches e then
    { y with state := result y.state (coveredBy x i e) i.reportA i.reportB, openCount := y.openCount - 1 }
  else y

theorem closeExtent_eq : closeExtent = endBy closeResult := rfl

/-- A record after the intents of the selection in the first `n` slots have ended. -/
structure RecordEnded (s : State) (n : Nat) (sel : Nat → Intent → Bool)
    (result : Coherence → Bool → Report → Report → Coherence) (w : Nat) (x x' : Volume) : Prop where
  fixed : x'.fixed = x.fixed
  errorsA : x'.copyA.errors = x.copyA.errors
  errorsB : x'.copyB.errors = x.copyB.errors
  health : ∀ c, x'.health c = x.health c
  openIntents : x'.openIntents = x.openIntents - s.picked n fun k i => sel k i && decide (i.volume = w)
  length : x'.extents.length = x.extents.length
  extent : ∀ (e : Nat) (z : Extent), x.extents[e]? = some z → x'.extents[e]? = some
    { z with
      state := s.endedState n sel result x w e z.state
      openCount := z.openCount - s.picked n fun k i => sel k i && (decide (i.volume = w) && i.touches e) }
  recount : x.recount = x → x'.recount = x'

/-- A state after the intents of the selection in the first `n` slots have ended. -/
structure IntentsEnded (s t : State) (n : Nat) (sel : Nat → Intent → Bool)
    (result : Coherence → Bool → Report → Report → Coherence) : Prop where
  elsewhere : SameElsewhere s t
  waiters : t.waiters = s.waiters
  arrival : t.arrival = s.arrival
  assignments : t.assignments = s.assignments
  pointer : t.pointer = s.pointer
  intents : ∀ k : Nat, t.intents[k]? = (s.intents[k]?).map fun (z : Slot (Option Intent)) =>
    { z with held := z.held.filter fun i => !(decide (k < n) && sel k i) }
  ports : ∀ p, t.port p = { s.port p with
    intents := (s.port p).intents - s.picked n fun k i => sel k i && decide (i.port = p)
    events := (t.port p).events }
  absent : ∀ w, s.volume? w = none → t.volume? w = none
  present : ∀ w x, s.volume? w = some x → ∃ x', t.volume? w = some x' ∧ RecordEnded s n sel result w x x'
  untouched : ∀ w, (∀ k i, s.intent? k = some i → sel k i = true → i.volume ≠ w) → t.volume? w = s.volume? w

theorem coveredBy_of_fixed (h : y.fixed = x.fixed) : coveredBy y = coveredBy x := by
  have hgeometry := congrArg Prod.fst h
  have hshift : y.shift = x.shift := congrArg (fun g => g.2.1) hgeometry
  have hblocks : y.blockCount = x.blockCount := congrArg (fun g => g.1) hgeometry
  funext i e
  rw [coveredBy, coveredBy, hshift, hblocks]

theorem settledBy_health (x : Volume) (i : Intent) (rule : Volume → Intent → Nat → Extent → Extent) (c : Copy) :
    (x.settledBy i rule).health c = x.health c := by cases c <;> rfl

theorem RecordEnded.refl (s : State) (sel : Nat → Intent → Bool) (result : Coherence → Bool → Report → Report → Coherence)
    (w : Nat) (x : Volume) : RecordEnded s 0 sel result w x x where
  fixed := rfl
  errorsA := rfl
  errorsB := rfl
  health _ := rfl
  openIntents := rfl
  length := rfl
  extent _ _ hz := hz
  recount h := h

/-- A slot that ends nothing of the volume leaves the record as it is. -/
theorem RecordEnded.skip (h : RecordEnded s n sel result w x y) (hskip : ∀ i, s.intent? n = some i → sel n i = true → i.volume ≠ w) :
    RecordEnded s (n + 1) sel result w x y := by
  have hpicks (g : Intent → Bool) : s.picks (fun k i => sel k i && (decide (i.volume = w) && g i)) n = false := by
    cases hi : s.intent? n with
    | none => exact picks_none hi
    | some i =>
      rw [picks_some hi]
      by_cases hsel : sel n i = true
      · simp [hskip i hi hsel]
      · simp [hsel]
  have hcount (g : Intent → Bool) : s.picked (n + 1) (fun k i => sel k i && (decide (i.volume = w) && g i))
      = s.picked n (fun k i => sel k i && (decide (i.volume = w) && g i)) := by
    rw [picked_succ, hpicks]
    rfl
  refine { h with openIntents := ?_, extent := fun e z hz => ?_ }
  · have hall := hcount fun _ => true
    simp only [Bool.and_true] at hall
    rw [hall]
    exact h.openIntents
  · have hstate : s.endedState (n + 1) sel result x w e z.state = s.endedState n sel result x w e z.state := by
      rw [endedState_succ]
      have hnone := hpicks fun i => i.touches e
      split
      next i hi => rw [picks_some hi] at hnone; rw [hnone]; rfl
      next => rfl
    rw [hcount, hstate]
    exact h.extent e z hz

/-- A slot that ends an intent of the volume settles the record by it. -/
theorem RecordEnded.settle (h : RecordEnded s n sel result w x y) (hi : s.intent? n = some i) (hsel : sel n i = true)
    (hw : i.volume = w) : RecordEnded s (n + 1) sel result w x (y.settledBy i (endBy result)) where
  fixed := h.fixed
  errorsA := h.errorsA
  errorsB := h.errorsB
  health c := (settledBy_health y i _ c).trans (h.health c)
  openIntents := by
    rw [picked_succ, picks_some hi, hsel, decide_eq_true hw]
    refine (congrArg (· - 1) h.openIntents).trans ?_
    rw [Bool.and_self, if_pos rfl, Nat.sub_sub]
  length := (mapExtents_length _ _).trans h.length
  extent e z hz := by
    refine (mapExtents_getElem? _ _ e).trans ?_
    rw [h.extent e z hz, Option.map_some, endBy, coveredBy_of_fixed h.fixed, endedState_succ, hi, picked_succ, picks_some hi, hsel,
      decide_eq_true hw, Bool.true_and, Bool.true_and]
    by_cases htouch : i.touches e = true
    · simp only [htouch, hsel, decide_eq_true hw, Bool.and_self, if_true, Nat.sub_sub]
    · simp only [htouch, Bool.and_false, if_false, Nat.add_zero, Bool.false_eq_true]
  recount _ := rfl

theorem settleIntent_volume? {k : Nat} (hi : u.intent? k = some i) (rule : Volume → Intent → Nat → Extent → Extent) (w : Nat) :
    (u.settleIntent k rule).volume? w = if w = i.volume then (u.volume? w).map (·.settledBy i rule) else u.volume? w := by
  cases hx : u.volume? i.volume with
  | none =>
    have hsame : (u.settleIntent k rule).volume? w = u.volume? w := by
      rw [settleIntent_absent hi hx]
      exact State.volume?_setIntentCount u i.port _ w
    rw [hsame]
    split
    next hw => subst hw; rw [hx]; rfl
    next => rfl
  | some x =>
    rw [(settleIntent_gone hi hx rule).volume?, intentGone_volume? hx]
    split
    next hw => subst hw; rw [hx]; rfl
    next => rfl

theorem settleIntent_ports {k : Nat} (hi : u.intent? k = some i) (rule : Volume → Intent → Nat → Extent → Extent) (p : Port) :
    (u.settleIntent k rule).port p = { u.port p with
      intents := if p = i.port then (u.port p).intents - 1 else (u.port p).intents
      events := ((u.settleIntent k rule).port p).events } := by
  cases hx : u.volume? i.volume with
  | none =>
    have hport : (u.settleIntent k rule).port p = (u.setIntentCount i.port ((u.port i.port).intents - 1)).port p := by
      rw [settleIntent_absent hi hx]
      cases p <;> rfl
    rw [hport]
    by_cases hp : p = i.port
    · subst hp
      rw [State.setIntentCount_port_self, if_pos rfl]
    · rw [eq_peer_of_ne hp, State.setIntentCount_port_peer, if_neg (peer_ne _)]
  | some x =>
    have honly := settleIntent_gone hi hx rule
    refine (honly.port p).trans ?_
    by_cases hp : p = i.port
    · rw [hp, if_pos rfl, intentGone_port]
    · rw [if_neg hp, eq_peer_of_ne hp, intentGone_port_peer]

theorem filter_none {α : Type} {f : α → Bool} {o : Option α} (h : ∀ a, o = some a → f a = true) : o.filter f = o := by
  cases o with
  | none => rfl
  | some a => exact if_pos (h a rfl)

theorem IntentsEnded.init (s : State) (sel : Nat → Intent → Bool) (result : Coherence → Bool → Report → Report → Coherence) :
    IntentsEnded s s 0 sel result where
  elsewhere := SameElsewhere.refl s
  waiters := rfl
  arrival := rfl
  assignments := rfl
  pointer := rfl
  intents k := by
    cases hz : s.intents[k]? with
    | none => rfl
    | some z => rw [Option.map_some, filter_none fun _ _ => by simp]
  ports p := rfl
  absent _ h := h
  present w x hx := ⟨x, hx, RecordEnded.refl ..⟩
  untouched _ _ := rfl

/-- The next slot is as it was. -/
theorem IntentsEnded.intent? (h : IntentsEnded s u n sel result) : u.intent? n = s.intent? n := by
  rw [State.intent?, State.intent?, heldAt, heldAt, h.intents n]
  cases hz : s.intents[n]? with
  | none => rfl
  | some z => exact filter_none fun a _ => by simp

/-- A slot that holds no intent of the selection changes nothing. -/
theorem IntentsEnded.skip (h : IntentsEnded s u n sel result) (hskip : s.picks sel n = false) :
    IntentsEnded s u (n + 1) sel result := by
  have hsel (i : Intent) (hi : s.intent? n = some i) : sel n i = false := by rwa [picks_some hi] at hskip
  refine { h with intents := fun k => ?_, ports := fun p => ?_, present := fun w x hx => ?_ }
  · rw [h.intents k]
    cases hz : s.intents[k]? with
    | none => rfl
    | some z =>
      by_cases hk : k = n
      · subst hk
        have hheld : ∀ a, z.held = some a → sel k a = false := fun a ha => hsel a (by rw [State.intent?, heldAt, hz]; exact ha)
        rw [Option.map_some, Option.map_some, filter_none fun a ha => by simp, filter_none fun a ha => by simp [hheld a ha]]
      · have hlt : k < n + 1 ↔ k < n := by omega
        simp only [hlt]
  · have hpicks : s.picks (fun k i => sel k i && decide (i.port = p)) n = false := by
      cases hi : s.intent? n with
      | none => exact picks_none hi
      | some i => rw [picks_some hi, hsel i hi, Bool.false_and]
    rw [picked_succ, hpicks]
    exact h.ports p
  · obtain ⟨x', hx', hrecord⟩ := h.present w x hx
    exact ⟨x', hx', hrecord.skip fun i hi hs => absurd hs (by rw [hsel i hi]; decide)⟩

/-- A slot that holds an intent of the selection ends it. -/
theorem IntentsEnded.settle (h : IntentsEnded s u n sel result) (hi : s.intent? n = some i) (hsel : sel n i = true) :
    IntentsEnded s (u.settleIntent n (endBy result)) (n + 1) sel result := by
  have hui : u.intent? n = some i := h.intent?.trans hi
  obtain ⟨hwaiters, harrival, hassignments, hpointer, -, -⟩ := settleIntent_tables u n (endBy result)
  refine ⟨h.elsewhere.trans (settleIntent_elsewhere ..), hwaiters.trans h.waiters, harrival.trans h.arrival,
    hassignments.trans h.assignments, hpointer.trans h.pointer, fun k => ?intents, fun p => ?ports, fun w hw => ?absent,
    fun w x hx => ?present, fun w hw => ?untouched⟩
  case intents =>
    rw [settleIntent_intents hui]
    by_cases hk : k = n
    · subst hk
      obtain ⟨z, hz, hheld⟩ := heldAt_some hi
      have huz := h.intents k
      rw [hz, Option.map_some] at huz
      have hlt : k < u.intents.length := (List.getElem?_eq_some_iff.1 huz).1
      rw [hold_getElem?_self hlt, hz, Option.map_some, genAt, huz, hheld]
      simp [Option.filter, hsel]
    · have hlt : k < n + 1 ↔ k < n := by omega
      rw [hold_getElem?_ne _ hk, h.intents k]
      simp only [hlt]
  case ports =>
    rw [settleIntent_ports hui, h.ports p, picked_succ, picks_some hi, hsel]
    by_cases hp : i.port = p
    · simp only [hp, if_true, Nat.sub_sub, decide_true, Bool.and_self]
    · simp only [hp, Ne.symm hp, if_false, decide_false, Bool.and_false, Bool.false_eq_true, Nat.add_zero]
  case absent =>
    rw [settleIntent_volume? hui, h.absent w hw]
    split <;> rfl
  case present =>
    obtain ⟨y, hy, hrecord⟩ := h.present w x hx
    rw [settleIntent_volume? hui, hy]
    by_cases hw : w = i.volume
    · rw [if_pos hw]
      exact ⟨_, rfl, hrecord.settle hi hsel hw.symm⟩
    · rw [if_neg hw]
      refine ⟨y, rfl, hrecord.skip fun j hj _ => ?_⟩
      obtain rfl := Option.some.inj (hi.symm.trans hj)
      exact Ne.symm hw
  case untouched =>
    rw [settleIntent_volume? hui, if_neg fun h => hw n i hi hsel h.symm]
    exact h.untouched w hw

end Sys2Proof.Machine
end

section
/-! PROOF. What the causes of many steps have told together (R24, R102). -/

namespace Sys2Proof.Machine

variable {s t u : State} {v : Nat} {x y z : Volume} {p : Port} {R : Event → Prop} {es fs : List Event}

/-! ## Entering LOST, step by step -/

theorem countP_le_add {α : Type} {f g h : α → Bool} (l : List α) (hf : ∀ a, f a = true → g a = true ∨ h a = true) :
    l.countP f ≤ l.countP g + l.countP h := by
  induction l with
  | nil => exact Nat.zero_le _
  | cons a l ih =>
    simp only [List.countP_cons]
    have ha := hf a
    by_cases h1 : f a = true
    · rcases ha h1 with h2 | h2 <;> simp only [h1, h2, if_true] <;> omega
    · simp only [h1, Bool.false_eq_true, if_false]
      omega

theorem entersLost_triangle (h : y.extents.length = x.extents.length) :
    entersLost x (stateAt z) ≤ entersLost x (stateAt y) + entersLost y (stateAt z) := by
  rw [entersLost, entersLost, entersLost, h]
  refine countP_le_add _ fun e he => ?_
  simp only [decide_eq_true_eq] at he ⊢
  obtain ⟨hx, hz⟩ := he
  by_cases hy : stateAt y e = .lost
  · exact .inl ⟨hx, hy⟩
  · exact .inr ⟨hy, hz⟩

theorem entersLost_self (x : Volume) : entersLost x (stateAt x) = 0 := by
  rw [entersLost, List.countP_eq_zero]
  simp

/-! ## The causes of a run of steps -/

/-- EXTENT_LOST of a volume. -/
def lostOn (v : Nat) : Event := (.extentLost, .volume v, .zero)

/-- REPAIR_PENDING of a volume. -/
def pendingOn (v : Nat) : Event := (.repairPending, .volume v, .zero)

/-- From `s` to `t` the port is told `es`, all of them meeting `R`: EXTENT_LOST for each extent that entered LOST at least,
and REPAIR_PENDING where a repair-needed count rose from 0. -/
structure Causes (R : Event → Prop) (s t : State) (p : Port) (es : List Event) : Prop where
  told : Told s t p es
  kinds : ∀ g ∈ es, R g
  lost : ∀ v x x', s.volume? v = some x → t.volume? v = some x' → entersLost x (stateAt x') ≤ es.count (lostOn v)
  pending : ∀ v x x', s.volume? v = some x → t.volume? v = some x' → x.repairNeeded = 0 → 0 < x'.repairNeeded →
    pendingOn v ∈ es

/-- Steps keep which volumes are present, and their numbers of extents. -/
def KeepsExtents (s t : State) : Prop :=
  ∀ v x, s.volume? v = some x → ∃ y, t.volume? v = some y ∧ y.extents.length = x.extents.length

theorem Causes.refl (R : Event → Prop) (s : State) (p : Port) : Causes R s s p [] where
  told := Told.refl s p
  kinds := nofun
  lost v x x' hx hx' := by
    obtain rfl := Option.some.inj (hx.symm.trans hx')
    exact (entersLost_self x).le
  pending v x x' hx hx' h0 hpos := by
    obtain rfl := Option.some.inj (hx.symm.trans hx')
    omega

theorem Causes.trans (h : Causes R s t p es) (k : Causes R t u p fs) (hsession : (t.port p).session = (s.port p).session)
    (hkeeps : KeepsExtents s t) : Causes R s u p (es ++ fs) where
  told := h.told.trans hsession k.told
  kinds g hg := (List.mem_append.1 hg).elim (h.kinds g) (k.kinds g)
  lost v x x' hx hx' := by
    obtain ⟨y, hy, hlength⟩ := hkeeps v x hx
    rw [List.count_append]
    exact (entersLost_triangle hlength).trans (Nat.add_le_add (h.lost v x y hx hy) (k.lost v y x' hy hx'))
  pending v x x' hx hx' h0 hpos := by
    obtain ⟨y, hy, -⟩ := hkeeps v x hx
    rw [List.mem_append]
    by_cases hneeded : y.repairNeeded = 0
    · exact .inr (k.pending v y x' hy hx' hneeded hpos)
    · exact .inl (h.pending v x y hx hy h0 (Nat.pos_of_ne_zero hneeded))

/-- What is told besides the causes does not matter to them. -/
theorem Causes.weaken {R' : Event → Prop} (h : Causes R s t p es) (hR : ∀ g, R g → R' g) : Causes R' s t p es :=
  { h with kinds := fun g hg => hR g (h.kinds g hg) }

/-- One step that settles a volume's record and tells what its cause raises. -/
theorem causes_settled (hx : s.volume? v = some x) (hy : t.volume? v = some y) (hothers : OthersSame s t v)
    (hstates : stateAt y = stateAt z) (hneeded : y.repairNeeded = z.repairNeeded) (htold : Told s t p (settledEvents v x z))
    (hR : ∀ g ∈ settledEvents v x z, R g) : Causes R s t p (settledEvents v x z) where
  told := htold
  kinds := hR
  lost w a b ha hb := by
    by_cases hw : w = v
    · subst hw
      obtain rfl := Option.some.inj (hx.symm.trans ha)
      obtain rfl := Option.some.inj (hy.symm.trans hb)
      rw [settledEvents, List.count_append, hstates]
      exact (List.count_replicate_self (a := lostOn w)).ge.trans (Nat.le_add_right _ _)
    · rw [hothers w hw] at hb
      obtain rfl := Option.some.inj (ha.symm.trans hb)
      rw [entersLost_self]
      exact Nat.zero_le _
  pending w a b ha hb h0 hpos := by
    by_cases hw : w = v
    · subst hw
      obtain rfl := Option.some.inj (hx.symm.trans ha)
      obtain rfl := Option.some.inj (hy.symm.trans hb)
      refine List.mem_append_right _ ?_
      rw [if_pos ⟨h0, hneeded ▸ hpos⟩]
      exact List.mem_singleton.2 rfl
    · rw [hothers w hw] at hb
      obtain rfl := Option.some.inj (ha.symm.trans hb)
      omega

theorem mem_settledEvents {g : Event} (h : g ∈ settledEvents v x z) :
    g = lostOn v ∨ (g = pendingOn v ∧ x.repairNeeded = 0 ∧ 0 < z.repairNeeded) := by
  rcases List.mem_append.1 h with h | h
  · exact .inl (List.eq_of_mem_replicate h)
  · split at h
    next hrise => exact .inr ⟨List.mem_singleton.1 h, hrise⟩
    next => cases h

theorem OnlyEvents.keepsExtents (h : OnlyEvents s t) : KeepsExtents s t := fun v x hx => ⟨x, (h.volume? v).trans hx, rfl⟩

theorem KeepsExtents.trans (h : KeepsExtents s t) (k : KeepsExtents t u) : KeepsExtents s u := by
  intro v x hx
  obtain ⟨y, hy, hl⟩ := h v x hx
  obtain ⟨z, hz, hl'⟩ := k v y hy
  exact ⟨z, hz, hl'.trans hl⟩

/-! ## The causes of the ends of intents -/

/-- The causes of one intent's end. -/
theorem settleIntent_causes {slot : Nat} {i : Intent} (hi : s.intent? slot = some i)
    (rule : Volume → Intent → Nat → Extent → Extent) (p : Port)
    (hR : ∀ x, s.volume? i.volume = some x → ∀ g ∈ settledEvents i.volume x (x.settledBy i rule), R g) :
    ∃ es, Causes R s (s.settleIntent slot rule) p es := by
  cases hx : s.volume? i.volume with
  | none =>
    have hvolume (w : Nat) : (s.settleIntent slot rule).volume? w = s.volume? w := by
      rw [settleIntent_absent hi hx]
      exact State.volume?_setIntentCount s i.port _ w
    refine ⟨[], Told.nil ?_, nofun, fun w a b ha hb => ?_, fun w a b ha hb h0 hpos => ?_⟩
    · rw [settleIntent_absent hi hx]
      cases p <;> cases hp : i.port <;> simp [State.setIntentCount, State.setPort, State.port]
    · rw [hvolume] at hb
      obtain rfl := Option.some.inj (ha.symm.trans hb)
      exact (entersLost_self a).le
    · rw [hvolume] at hb
      obtain rfl := Option.some.inj (ha.symm.trans hb)
      omega
  | some x =>
    have htold := settleIntent_told hi hx rule p
    refine ⟨_, causes_settled (y := x.settledBy i rule) hx ?_ (fun w hw => ?_) rfl rfl htold fun g hg => hR x hx g hg⟩
    · rw [settleIntent_volume? hi, if_pos rfl, hx]; rfl
    · rw [settleIntent_volume? hi, if_neg hw]

theorem IntentsEnded.keepsExtents {n : Nat} {sel : Nat → Intent → Bool} {result : Coherence → Bool → Report → Report → Coherence}
    (h : IntentsEnded s u n sel result) : KeepsExtents s u := by
  intro v x hx
  obtain ⟨y, hy, hrecord⟩ := h.present v x hx
  exact ⟨y, hy, hrecord.length⟩

end Sys2Proof.Machine
end

section
/-! PROOF. The end of many assignments, slot by slot: what the first `n` slots have settled (R29, R111, R127). -/

namespace Sys2Proof.Machine

variable {s t u : State} {n w : Nat} {a : Assignment} {x y : Volume} {p : Port} {sel : Assignment → Bool}

/-- Whether the slot holds an assignment of the selection. -/
def State.takesBack (s : State) (sel : Assignment → Bool) (k : Nat) : Bool :=
  match s.assignment? k with
  | some a => sel a
  | none => false

theorem takesBack_some {k : Nat} (h : s.assignment? k = some a) : s.takesBack sel k = sel a := by rw [State.takesBack, h]

theorem takesBack_none {k : Nat} (h : s.assignment? k = none) : s.takesBack sel k = false := by rw [State.takesBack, h]

/-- How many of the first `n` slots hold an assignment of the selection. -/
def State.takenBack (s : State) (n : Nat) (sel : Assignment → Bool) : Nat := (List.range n).countP (s.takesBack sel)

theorem takenBack_succ (s : State) (n : Nat) (sel : Assignment → Bool) :
    s.takenBack (n + 1) sel = s.takenBack n sel + if s.takesBack sel n = true then 1 else 0 := by
  rw [State.takenBack, List.range_succ, List.countP_append, List.countP_singleton]
  rfl

/-- The state of an extent after the assignments of the selection in the first `n` slots have been revoked. -/
def State.revokedTo (s : State) (n : Nat) (sel : Assignment → Bool) (w e : Nat) (st : Coherence) : Coherence :=
  (List.range n).foldl (fun st k => match s.assignment? k with
    | some a => if sel a && (decide (a.volume = w) && decide (a.extent = e)) then s.revokedState a st else st
    | none => st) st

theorem revokedTo_succ (s : State) (n : Nat) (sel : Assignment → Bool) (w e : Nat) (st : Coherence) :
    s.revokedTo (n + 1) sel w e st = match s.assignment? n with
      | some a => if sel a && (decide (a.volume = w) && decide (a.extent = e))
        then s.revokedState a (s.revokedTo n sel w e st) else s.revokedTo n sel w e st
      | none => s.revokedTo n sel w e st := by
  rw [State.revokedTo, List.range_succ, List.foldl_append]
  rfl

/-- A record after the assignments of the selection in the first `n` slots have been revoked. -/
structure RecordRevoked (s : State) (n : Nat) (sel : Assignment → Bool) (w : Nat) (x x' : Volume) : Prop where
  fixed : x'.fixed = x.fixed
  errorsA : x'.copyA.errors = x.copyA.errors
  errorsB : x'.copyB.errors = x.copyB.errors
  health : ∀ c, x'.health c = x.health c
  openIntents : x'.openIntents = x.openIntents
  length : x'.extents.length = x.extents.length
  extent : ∀ (e : Nat) (z : Extent), x.extents[e]? = some z → x'.extents[e]? = some
    { z with
      state := s.revokedTo n sel w e z.state
      link := if s.takenBack n (fun a => sel a && (decide (a.volume = w) && decide (a.extent = e))) = 0 then z.link else none }
  recount : x.recount = x → x'.recount = x'

/-- A state after the assignments of the selection in the first `n` slots have been revoked. -/
structure AssignmentsRevoked (s t : State) (n : Nat) (sel : Assignment → Bool) : Prop where
  elsewhere : SameElsewhere s t
  intents : t.intents = s.intents
  waiters : t.waiters = s.waiters
  arrival : t.arrival = s.arrival
  pointer : t.pointer = s.pointer
  assignments : ∀ k : Nat, t.assignments[k]? = (s.assignments[k]?).map fun (z : Slot (Option Assignment)) =>
    { z with held := z.held.filter fun a => !(decide (k < n) && sel a) }
  ports : ∀ p, t.port p = { s.port p with
    assignments := (s.port p).assignments - s.takenBack n fun a => sel a && decide (a.port = p)
    events := (t.port p).events }
  absent : ∀ w, s.volume? w = none → t.volume? w = none
  present : ∀ w x, s.volume? w = some x → ∃ x', t.volume? w = some x' ∧ RecordRevoked s n sel w x x'
  untouched : ∀ w, (∀ k a, s.assignment? k = some a → sel a = true → a.volume ≠ w) → t.volume? w = s.volume? w

theorem RecordRevoked.refl (s : State) (sel : Assignment → Bool) (w : Nat) (x : Volume) : RecordRevoked s 0 sel w x x where
  fixed := rfl
  errorsA := rfl
  errorsB := rfl
  health _ := rfl
  openIntents := rfl
  length := rfl
  extent _ _ hz := hz
  recount h := h

/-- A slot that ends nothing of the volume leaves the record as it is. -/
theorem RecordRevoked.skip (h : RecordRevoked s n sel w x y)
    (hskip : ∀ a, s.assignment? n = some a → sel a = true → a.volume ≠ w) : RecordRevoked s (n + 1) sel w x y := by
  have htakes (e : Nat) : s.takesBack (fun a => sel a && (decide (a.volume = w) && decide (a.extent = e))) n = false := by
    cases ha : s.assignment? n with
    | none => exact takesBack_none ha
    | some a =>
      rw [takesBack_some ha]
      by_cases hsel : sel a = true
      · simp [hskip a ha hsel]
      · simp [hsel]
  refine { h with extent := fun e z hz => ?_ }
  have hstate : s.revokedTo (n + 1) sel w e z.state = s.revokedTo n sel w e z.state := by
    rw [revokedTo_succ]
    have hnone := htakes e
    split
    next a ha => rw [takesBack_some ha] at hnone; rw [hnone]; rfl
    next => rfl
  rw [takenBack_succ, htakes, hstate]
  exact h.extent e z hz

theorem repairedBy_health (x : Volume) (a : Assignment) (rule : Coherence → Coherence) (c : Copy) :
    (x.repairedBy a rule).health c = x.health c := by cases c <;> rfl

/-- A slot that ends an assignment of the volume settles the record by R29. -/
theorem RecordRevoked.settle (h : RecordRevoked s n sel w x y) (ha : s.assignment? n = some a) (hsel : sel a = true)
    (hw : a.volume = w) : RecordRevoked s (n + 1) sel w x (y.repairedBy a (s.revokedState a)) where
  fixed := h.fixed
  errorsA := h.errorsA
  errorsB := h.errorsB
  health c := (repairedBy_health y a _ c).trans (h.health c)
  openIntents := h.openIntents
  length := (mapExtents_length _ _).trans h.length
  extent e z hz := by
    refine (mapExtents_getElem? _ _ e).trans ?_
    rw [h.extent e z hz, Option.map_some, endExtent, revokedTo_succ, ha, takenBack_succ, takesBack_some ha]
    by_cases he : e = a.extent
    · simp [he, hsel, hw]
    · simp [he, Ne.symm he]
  recount _ := recount_recount _

theorem settleAssignment_volume? (u : State) (k : Nat) (a : Assignment) (rule : Coherence → Coherence) (w : Nat) :
    (u.settleAssignment k a rule).volume? w
      = if w = a.volume then (u.volume? w).map (·.repairedBy a rule) else u.volume? w := by
  cases hx : u.volume? a.volume with
  | none =>
    rw [settleAssignment_absent k hx, State.volume?_of_volumes (freeAssignment_fields u k a).1]
    split
    next hw => subst hw; rw [hx]; rfl
    next => rfl
  | some x =>
    rw [(settleAssignment_gone k hx rule).volume?, assignmentGone_volume? hx]
    split
    next hw => subst hw; rw [hx]; rfl
    next => rfl

theorem settleAssignment_ports (u : State) (k : Nat) (a : Assignment) (rule : Coherence → Coherence) (p : Port) :
    (u.settleAssignment k a rule).port p = { u.port p with
      assignments := if p = a.port then (u.port p).assignments - 1 else (u.port p).assignments
      events := ((u.settleAssignment k a rule).port p).events } := by
  cases hx : u.volume? a.volume with
  | none =>
    have hport : (u.settleAssignment k a rule).port p
        = (u.setAssignmentCount a.port ((u.port a.port).assignments - 1)).port p := by
      rw [settleAssignment_absent k hx, State.freeAssignment]
      cases p <;> rfl
    rw [hport]
    by_cases hp : p = a.port
    · subst hp
      rw [State.setAssignmentCount_port_self, if_pos rfl]
    · rw [eq_peer_of_ne hp, State.setAssignmentCount_port_peer, if_neg (peer_ne _)]
  | some x =>
    have honly := settleAssignment_gone k hx rule
    refine (honly.port p).trans ?_
    by_cases hp : p = a.port
    · rw [hp, if_pos rfl, assignmentGone_port]
    · rw [if_neg hp, eq_peer_of_ne hp, assignmentGone_port_peer]

theorem AssignmentsRevoked.init (s : State) (sel : Assignment → Bool) : AssignmentsRevoked s s 0 sel where
  elsewhere := SameElsewhere.refl s
  intents := rfl
  waiters := rfl
  arrival := rfl
  pointer := rfl
  assignments k := by
    cases hz : s.assignments[k]? with
    | none => rfl
    | some z => rw [Option.map_some, filter_none fun _ _ => by simp]
  ports p := rfl
  absent _ h := h
  present w x hx := ⟨x, hx, RecordRevoked.refl ..⟩
  untouched _ _ := rfl

/-- The next slot is as it was. -/
theorem AssignmentsRevoked.assignment? (h : AssignmentsRevoked s u n sel) : u.assignment? n = s.assignment? n := by
  rw [State.assignment?, State.assignment?, heldAt, heldAt, h.assignments n]
  cases hz : s.assignments[n]? with
  | none => rfl
  | some z => exact filter_none fun a _ => by simp

theorem AssignmentsRevoked.revokedState (h : AssignmentsRevoked s u n sel) (a : Assignment) :
    u.revokedState a = s.revokedState a := by
  have hpending (v e : Nat) (c : Copy) : u.pendingReportOn v e c = s.pendingReportOn v e c := by
    rw [State.pendingReportOn, h.intents, ← State.pendingReportOn]
  rw [revokedState_eq, revokedState_eq]
  congr 1
  funext st
  rw [overtakenRule, overtakenRule, hpending]

/-- What only raises events does not undo the ends. -/
theorem AssignmentsRevoked.told (h : AssignmentsRevoked s t n sel) (k : OnlyEvents t u) : AssignmentsRevoked s u n sel where
  elsewhere := h.elsewhere.trans k.sameElsewhere
  intents := k.intents.trans h.intents
  waiters := k.waiters.trans h.waiters
  arrival := k.arrival.trans h.arrival
  pointer := k.pointer.trans h.pointer
  assignments j := by rw [k.assignments]; exact h.assignments j
  ports p := by rw [k.port p, h.ports p]
  absent w hw := (k.volume? w).trans (h.absent w hw)
  present w x hx := by rw [k.volume? w]; exact h.present w x hx
  untouched w hw := (k.volume? w).trans (h.untouched w hw)

/-- A slot that holds no assignment of the selection changes nothing. -/
theorem AssignmentsRevoked.skip (h : AssignmentsRevoked s u n sel) (hskip : s.takesBack sel n = false) :
    AssignmentsRevoked s u (n + 1) sel := by
  have hsel (a : Assignment) (ha : s.assignment? n = some a) : sel a = false := by rwa [takesBack_some ha] at hskip
  refine { h with assignments := fun k => ?_, ports := fun p => ?_, present := fun w x hx => ?_ }
  · rw [h.assignments k]
    cases hz : s.assignments[k]? with
    | none => rfl
    | some z =>
      by_cases hk : k = n
      · subst hk
        have hheld : ∀ a, z.held = some a → sel a = false := fun a ha => hsel a (by rw [State.assignment?, heldAt, hz]; exact ha)
        rw [Option.map_some, Option.map_some, filter_none fun a ha => by simp, filter_none fun a ha => by simp [hheld a ha]]
      · have hlt : k < n + 1 ↔ k < n := by omega
        simp only [hlt]
  · have htakes : s.takesBack (fun a => sel a && decide (a.port = p)) n = false := by
      cases ha : s.assignment? n with
      | none => exact takesBack_none ha
      | some a => rw [takesBack_some ha, hsel a ha, Bool.false_and]
    rw [takenBack_succ, htakes]
    exact h.ports p
  · obtain ⟨x', hx', hrecord⟩ := h.present w x hx
    exact ⟨x', hx', hrecord.skip fun a ha hs => absurd hs (by rw [hsel a ha]; decide)⟩

/-- A slot that holds an assignment of the selection ends it by R29. -/
theorem AssignmentsRevoked.settle (h : AssignmentsRevoked s u n sel) (ha : s.assignment? n = some a) (hsel : sel a = true) :
    AssignmentsRevoked s (u.settleAssignment n a (u.revokedState a)) (n + 1) sel := by
  obtain ⟨hintents, hwaiters, harrival, hpointer, htable, -, -⟩ := settleAssignment_tables u n a (u.revokedState a)
  refine ⟨h.elsewhere.trans (settleAssignment_elsewhere ..), hintents.trans h.intents, hwaiters.trans h.waiters,
    harrival.trans h.arrival, hpointer.trans h.pointer, fun k => ?assignments, fun p => ?ports, fun w hw => ?absent,
    fun w x hx => ?present, fun w hw => ?untouched⟩
  case assignments =>
    rw [htable]
    by_cases hk : k = n
    · subst hk
      obtain ⟨z, hz, hheld⟩ := heldAt_some ha
      have huz := h.assignments k
      rw [hz, Option.map_some] at huz
      have hlt : k < u.assignments.length := (List.getElem?_eq_some_iff.1 huz).1
      rw [hold_getElem?_self hlt, hz, Option.map_some, genAt, huz, hheld]
      simp [Option.filter, hsel]
    · have hlt : k < n + 1 ↔ k < n := by omega
      rw [hold_getElem?_ne _ hk, h.assignments k]
      simp only [hlt]
  case ports =>
    rw [settleAssignment_ports, h.ports p, takenBack_succ, takesBack_some ha, hsel]
    by_cases hp : a.port = p
    · simp only [hp, if_true, Nat.sub_sub, decide_true, Bool.and_self]
    · simp only [hp, Ne.symm hp, if_false, decide_false, Bool.and_false, Bool.false_eq_true, Nat.add_zero]
  case absent =>
    rw [settleAssignment_volume?, h.absent w hw]
    split <;> rfl
  case present =>
    obtain ⟨y, hy, hrecord⟩ := h.present w x hx
    rw [settleAssignment_volume?, hy, h.revokedState a]
    by_cases hw : w = a.volume
    · rw [if_pos hw]
      exact ⟨_, rfl, hrecord.settle ha hsel hw.symm⟩
    · rw [if_neg hw]
      refine ⟨y, rfl, hrecord.skip fun b hb _ => ?_⟩
      obtain rfl := Option.some.inj (ha.symm.trans hb)
      exact Ne.symm hw
  case untouched =>
    rw [settleAssignment_volume?, if_neg fun h => hw n a ha hsel h.symm]
    exact h.untouched w hw

theorem AssignmentsRevoked.keepsExtents (h : AssignmentsRevoked s u n sel) : KeepsExtents s u := by
  intro v x hx
  obtain ⟨y, hy, hrecord⟩ := h.present v x hx
  exact ⟨y, hy, hrecord.length⟩

/-- The causes of one assignment's end. -/
theorem settleAssignment_causes {R : Event → Prop} (s : State) (slot : Nat) (a : Assignment) (rule : Coherence → Coherence)
    (p : Port) (hR : ∀ x, s.volume? a.volume = some x → ∀ g ∈ settledEvents a.volume x (x.repairedBy a rule), R g) :
    ∃ es, Causes R s (s.settleAssignment slot a rule) p es := by
  cases hx : s.volume? a.volume with
  | none =>
    have hvolume (w : Nat) : (s.settleAssignment slot a rule).volume? w = s.volume? w := by
      rw [settleAssignment_absent slot hx]
      exact State.volume?_of_volumes (freeAssignment_fields s slot a).1 w
    refine ⟨[], Told.nil ?_, nofun, fun w b c hb hc => ?_, fun w b c hb hc h0 hpos => ?_⟩
    · rw [settleAssignment_absent slot hx]
      exact (freeAssignment_fields s slot a).2.2.2.2.2.2 p
    · rw [hvolume] at hc
      obtain rfl := Option.some.inj (hb.symm.trans hc)
      exact (entersLost_self b).le
    · rw [hvolume] at hc
      obtain rfl := Option.some.inj (hb.symm.trans hc)
      omega
  | some x =>
    have htold := settleAssignment_told slot hx rule p
    refine ⟨_, causes_settled (y := x.repairedBy a rule) hx ?_ (fun w hw => ?_) rfl rfl htold fun g hg => hR x hx g hg⟩
    · rw [settleAssignment_volume?, if_pos rfl, hx]; rfl
    · rw [settleAssignment_volume?, if_neg hw]

end Sys2Proof.Machine
end

section
/-! PROOF. The rebuilds of every volume completed, and what a pass cannot bring back (R116, R75). -/

namespace Sys2Proof.Machine

variable {s t u : State} {n v : Nat} {x y : Volume} {p : Port}

/-! ## Completing every rebuild (R116) -/

/-- COPY_ONLINE of each copy of the volume whose rebuild is complete. -/
def State.rebuildTold (s : State) (v : Nat) : List Event :=
  match s.volume? v with
  | some x => ([Copy.a, .b].filter fun c => decide (x.health c = .rebuilding ∧ (x.copy c).stale = 0)).map
      fun c => (.copyOnline, .copy v c, .zero)
  | none => []

/-- A state after the rebuilds of the volumes below `n` are completed. -/
structure RebuiltTo (s t : State) (n : Nat) : Prop where
  only : RebuildsOnly s t
  later : ∀ w, n ≤ w → t.volume? w = s.volume? w
  settled : ∀ w x, w < n → s.volume? w = some x → x.recount = x → ∃ x', t.volume? w = some x' ∧ HealthsSettled x x'
    ∧ (∀ c, (x'.copy c).stale = (x.copy c).stale) ∧ x'.repairNeeded = x.repairNeeded ∧ x'.recount = x'
  told : (∀ v x, s.volume? v = some x → x.recount = x) → ∀ p, Told s t p ((List.range n).flatMap s.rebuildTold)

theorem completeRebuilds_volume?_ne (s : State) {v w : Nat} (h : w ≠ v) : (s.completeRebuilds v).volume? w = s.volume? w := by
  cases hx : s.volume? v with
  | none => rw [completeRebuilds_absent hx]
  | some x =>
    obtain ⟨x', -, -, -, honly⟩ := completeRebuilds_does hx
    rw [honly.volume?, State.volume?_setVolume_ne _ h]

theorem RebuiltTo.init (s : State) : RebuiltTo s s 0 where
  only := .refl s
  later _ _ := rfl
  settled _ _ h := absurd h (Nat.not_lt_zero _)
  told _ p := Told.refl s p

theorem RebuiltTo.next (h : RebuiltTo s u n) : RebuiltTo s (u.completeRebuilds n) (n + 1) where
  only := h.only.trans (completeRebuilds_rebuildsOnly u n)
  later w hw := (completeRebuilds_volume?_ne u (by omega)).trans (h.later w (by omega))
  settled w x hw hx hcount := by
    by_cases hwn : w = n
    · subst hwn
      obtain ⟨x', hx', -, -, hhealths, hstale, hneeded, hcount', -⟩ :=
        completeRebuilds_told ((h.later w le_rfl).trans hx) hcount
      exact ⟨x', hx', hhealths, hstale, hneeded, hcount'⟩
    · obtain ⟨x', hx', hrest⟩ := h.settled w x (by omega) hx hcount
      exact ⟨x', (completeRebuilds_volume?_ne u hwn).trans hx', hrest⟩
  told hcounts p := by
    rw [List.range_succ, List.flatMap_append, List.flatMap_singleton]
    refine (h.told hcounts p).trans (h.only.elsewhere.1 p).1 ?_
    rw [State.rebuildTold]
    cases hx : s.volume? n with
    | none =>
      rw [completeRebuilds_absent ((h.later n le_rfl).trans hx)]
      exact Told.refl u p
    | some x =>
      obtain ⟨x', -, -, -, -, hstale, -, -, htold⟩ := completeRebuilds_told ((h.later n le_rfl).trans hx) (hcounts n x hx)
      simp only [hstale] at htold
      exact htold p

/-- Completing every rebuild, whole. -/
theorem completeAll_rebuilt (s : State) : RebuiltTo s s.completeAll 16 :=
  foldl_range_induct (motive := fun n t => RebuiltTo s t n) (.init s) fun _ _ _ h => h.next

/-! ## What a pass cannot bring back -/

/-- A visit grants an intent to no port that waits nowhere. -/
theorem visit_no_intents (hentries : ∀ k, (s.waiterEntry k).ownedBy p = false)
    (hintents : ∀ slot i, s.intent? slot = some i → i.port ≠ p) (w slot : Nat) (i : Intent)
    (hi : (s.visit w).intent? slot = some i) : i.port ≠ p := by
  rcases visit_cases s w with hsame | ⟨y, k, vol, hw, hg, hv⟩
  · rw [hsame] at hi
    exact hintents slot i hi
  · have hk := (lowestFree_spec (grantable_free hg)).1
    rw [State.intent?, visit_intent hw hg hv, heldAt_place hk] at hi
    split at hi
    next =>
      obtain rfl := Option.some.inj hi
      have hwaits := hentries w
      rw [waiterEntry_of_waiter? hw] at hwaits
      exact of_decide_eq_false hwaits
    next => exact hintents slot i hi

theorem pass_no_intents (hentries : ∀ k, (s.waiterEntry k).ownedBy p = false)
    (hintents : ∀ slot i, s.intent? slot = some i → i.port ≠ p) (slot : Nat) (i : Intent)
    (hi : s.pass.intent? slot = some i) : i.port ≠ p := by
  have hboth := foldl_keeps (R := fun s t => ((∀ k, (s.waiterEntry k).ownedBy p = false)
      ∧ ∀ slot i, s.intent? slot = some i → i.port ≠ p) → (∀ k, (t.waiterEntry k).ownedBy p = false)
      ∧ ∀ slot i, t.intent? slot = some i → i.port ≠ p) (fun _ => id) (fun _ _ _ h k hs => k (h hs))
    (fun _ w hs => ⟨visit_owns_none hs.1 w, visit_no_intents hs.1 hs.2 w⟩) s.arrival s ⟨hentries, hintents⟩
  exact hboth.2 slot i hi

theorem heldAt_map {α : Type} (l : List (Slot (Option α))) (f : Option α → Option α) (hf : f none = none) (k : Nat) :
    heldAt (l.map fun z => { z with held := f z.held }) k = f (heldAt l k) := by
  rw [heldAt, heldAt, List.getElem?_map]
  cases l[k]? with
  | none => exact hf.symm
  | some z => rfl

/-- A visit leaves each assignment with its port and its extent. -/
theorem visit_assignment? {w slot : Nat} {a : Assignment} (ha : (s.visit w).assignment? slot = some a) :
    ∃ b, s.assignment? slot = some b ∧ a.port = b.port ∧ a.volume = b.volume ∧ a.extent = b.extent := by
  rcases visit_cases s w with hsame | ⟨y, k, vol, hw, hg, hv⟩
  · rw [hsame] at ha
    exact ⟨a, ha, rfl, rfl, rfl⟩
  · rw [visit_grants hw hg hv, (raise_onlyEvents _ _ _ _ _).assignment?, State.assignment?] at ha
    have htable := grant_assignments s k (s.newIntent y.port y.epoch y.volume vol y.firstBlock y.blockCount)
    rw [show ∀ (g : State) (l : List (Slot WaiterEntry)) (o : List Nat), ({ g with waiters := l, arrival := o } : State).assignments
      = g.assignments from fun _ _ _ => rfl, htable, markOvertaken, heldAt_map _ (Option.map _) rfl] at ha
    obtain ⟨b, hb, hab⟩ := Option.map_eq_some_iff.1 ha
    refine ⟨b, hb, ?_⟩
    split at hab <;> subst hab <;> exact ⟨rfl, rfl, rfl⟩

theorem pass_assignment? {slot : Nat} {a : Assignment} (ha : s.pass.assignment? slot = some a) :
    ∃ b, s.assignment? slot = some b ∧ a.port = b.port ∧ a.volume = b.volume ∧ a.extent = b.extent := by
  rw [State.pass] at ha
  generalize s.arrival = l at ha
  induction l generalizing s with
  | nil => exact ⟨a, ha, rfl, rfl, rfl⟩
  | cons w l ih =>
    obtain ⟨b, hb, hport, hvolume, hextent⟩ := ih ha
    obtain ⟨c, hc, hport', hvolume', hextent'⟩ := visit_assignment? hb
    exact ⟨c, hc, hport.trans hport', hvolume.trans hvolume', hextent.trans hextent'⟩

end Sys2Proof.Machine
end

section
/-! PROOF. The work of one port ended: its intents, its waiters and its assignments (R127). -/

namespace Sys2Proof.Machine

variable {s t u : State} {v n : Nat} {x y : Volume} {p q : Port} {R : Event → Prop}

/-! ## Slots counted by number and in the table -/

theorem countP_slots {α : Type} (l : List (Slot (Option α))) (f : α → Bool) :
    (List.range l.length).countP (fun k => (heldAt l k).any f) = l.countP fun x => x.held.any f := by
  induction l with
  | nil => rfl
  | cons z l ih =>
    rw [List.length_cons, List.range_succ_eq_map, List.countP_cons, List.countP_map, List.countP_cons, ← ih]
    rfl

theorem picked_eq_countIntents (h : s.intents.length = n) (sel : Intent → Bool) :
    (s.picked n fun _ i => sel i) = s.countIntents sel := by
  subst h
  refine (List.countP_congr fun k _ => ?_).trans ((countP_slots s.intents sel).trans (List.countP_congr fun x _ => ?_))
  · cases hi : heldAt s.intents k <;> simp [State.picks, State.intent?, hi]
  · cases hheld : x.held <;> simp

theorem takenBack_eq_countP (h : s.assignments.length = n) (sel : Assignment → Bool) :
    s.takenBack n sel = s.assignments.countP fun x => match x.held with | some a => sel a | none => false := by
  subst h
  refine (List.countP_congr fun k _ => ?_).trans ((countP_slots s.assignments sel).trans (List.countP_congr fun x _ => ?_))
  · cases ha : heldAt s.assignments k <;> simp [State.takesBack, State.assignment?, ha]
  · cases hheld : x.held <;> simp

theorem takenBack_eq_zero_iff (hsize : s.assignments.length ≤ n) (sel : Assignment → Bool) :
    s.takenBack n sel = 0 ↔ ∀ k a, s.assignment? k = some a → sel a = false := by
  rw [State.takenBack, List.countP_eq_zero]
  constructor
  · intro h k a ha
    have hk : k < n := by
      obtain ⟨z, hz, -⟩ := heldAt_some ha
      exact (List.getElem?_eq_some_iff.1 hz).1.trans_le hsize
    have hnot := h k (List.mem_range.2 hk)
    rwa [takesBack_some ha, Bool.not_eq_true] at hnot
  · intro h k _
    cases ha : s.assignment? k with
    | none => rw [takesBack_none ha]; decide
    | some a => rw [takesBack_some ha, h k a ha]; decide

theorem pendingReportOn_iff (s : State) (v e : Nat) (c : Copy) : s.pendingReportOn v e c = true ↔
    ∃ k i, s.intent? k = some i ∧ i.volume = v ∧ i.touches e = true ∧ i.report c = .pending := by
  rw [State.pendingReportOn, List.any_eq_true]
  constructor
  · rintro ⟨z, hz, hheld⟩
    obtain ⟨k, hk, hzk⟩ := List.mem_iff_getElem.1 hz
    cases hi : z.held with
    | none => rw [hi] at hheld; cases hheld
    | some i =>
      rw [hi] at hheld
      simp only [Bool.and_eq_true, decide_eq_true_eq] at hheld
      exact ⟨k, i, by rw [State.intent?, heldAt, List.getElem?_eq_getElem hk, hzk]; exact hi, hheld.1.1, hheld.1.2, hheld.2⟩
  · rintro ⟨k, i, hi, hvolume, htouch, hreport⟩
    obtain ⟨z, hz, hheld⟩ := heldAt_some hi
    exact ⟨z, List.mem_of_getElem? hz, by simp [hheld, hvolume, htouch, hreport]⟩

/-! ## The intents and the assignments of a port -/

theorem abandonAll_ended (s : State) (p q : Port) (hR : ∀ k i, s.intent? k = some i → i.port = p → ∀ x z,
      ∀ g ∈ settledEvents i.volume x z, R g) :
    IntentsEnded s (s.abandonAll p) 192 (fun _ i => decide (i.port = p)) abandonResult
      ∧ ∃ es, Causes R s (s.abandonAll p) q es := by
  refine foldl_range_induct (motive := fun n u => IntentsEnded s u n (fun _ i => decide (i.port = p)) abandonResult
    ∧ ∃ es, Causes R s u q es) ⟨.init .., [], .refl ..⟩ fun k u _ ⟨hended, es, hcauses⟩ => ?_
  have hsame := hended.intent?
  cases hi : s.intent? k with
  | none =>
    rw [hsame, hi]
    exact ⟨hended.skip (picks_none hi), es, hcauses⟩
  | some i =>
    rw [hsame, hi]
    dsimp only
    split
    next hport =>
      have hui := hsame.trans hi
      obtain ⟨fs, hmore⟩ := settleIntent_causes hui (endBy abandonResult) q fun x _ => hR k i hi hport x _
      exact ⟨hended.settle hi (decide_eq_true hport), es ++ fs,
        hcauses.trans hmore (hended.elsewhere.1 q).1 hended.keepsExtents⟩
    next hport => exact ⟨hended.skip (by rw [picks_some hi, decide_eq_false hport]), es, hcauses⟩

theorem revokePort_revoked (s : State) (p q : Port) (hR : ∀ k a, s.assignment? k = some a → a.port = p → ∀ x z,
      ∀ g ∈ settledEvents a.volume x z, R g) :
    AssignmentsRevoked s (s.revokePort p) 32 (fun a => decide (a.port = p)) ∧ ∃ es, Causes R s (s.revokePort p) q es := by
  refine foldl_range_induct (motive := fun n u => AssignmentsRevoked s u n (fun a => decide (a.port = p))
    ∧ ∃ es, Causes R s u q es) ⟨.init .., [], .refl ..⟩ fun k u _ ⟨hrevoked, es, hcauses⟩ => ?_
  have hsame := hrevoked.assignment?
  cases ha : s.assignment? k with
  | none =>
    rw [hsame, ha]
    exact ⟨hrevoked.skip (takesBack_none ha), es, hcauses⟩
  | some a =>
    rw [hsame, ha]
    dsimp only
    split
    next hport =>
      obtain ⟨fs, hmore⟩ := settleAssignment_causes u k a (u.revokedState a) q fun x _ => hR k a ha hport x _
      exact ⟨hrevoked.settle ha (decide_eq_true hport), es ++ fs,
        hcauses.trans hmore (hrevoked.elsewhere.1 q).1 hrevoked.keepsExtents⟩
    next hport => exact ⟨hrevoked.skip (by rw [takesBack_some ha, decide_eq_false hport]), es, hcauses⟩

theorem removeWaitersOf_fields (s : State) (p : Port) : (s.removeWaitersOf p).volumes = s.volumes
    ∧ (s.removeWaitersOf p).intents = s.intents ∧ (s.removeWaitersOf p).assignments = s.assignments
    ∧ (s.removeWaitersOf p).pointer = s.pointer ∧ ∀ q, (s.removeWaitersOf p).port q = s.port q :=
  ⟨rfl, rfl, rfl, rfl, fun q => by cases q <;> rfl⟩

/-- The state with a port's intents abandoned and its waiters gone. -/
def State.cleared (s : State) (p : Port) : State := (s.abandonAll p).removeWaitersOf p

/-- The state with all of a port's work ended, the rebuilds not yet completed. -/
def State.workSettled (s : State) (p : Port) : State := (s.cleared p).revokePort p

/-- What the end of a port's work may tell: EXTENT_LOST and REPAIR_PENDING of a volume it worked on. -/
def PortCause (s : State) (p : Port) (g : Event) : Prop :=
  ∃ v, (g = lostOn v ∨ g = pendingOn v)
    ∧ ((∃ slot i, s.intent? slot = some i ∧ i.port = p ∧ i.volume = v)
      ∨ ∃ slot a, s.assignment? slot = some a ∧ a.port = p ∧ a.volume = v)

theorem portCause_settled {g : Event} (h : g ∈ settledEvents v x y)
    (hwork : (∃ slot i, s.intent? slot = some i ∧ i.port = p ∧ i.volume = v)
      ∨ ∃ slot a, s.assignment? slot = some a ∧ a.port = p ∧ a.volume = v) : PortCause s p g :=
  ⟨v, (mem_settledEvents h).imp_right fun h => h.1, hwork⟩

theorem intentsEnded_abandonAll (s : State) (p : Port) :
    IntentsEnded s (s.abandonAll p) 192 (fun _ i => decide (i.port = p)) abandonResult :=
  (abandonAll_ended (R := fun _ => True) s p p fun _ _ _ _ _ _ _ _ => trivial).1

theorem assignmentsRevoked_workSettled (s : State) (p : Port) :
    AssignmentsRevoked (s.cleared p) (s.workSettled p) 32 (fun a => decide (a.port = p)) :=
  (revokePort_revoked (R := fun _ => True) (s.cleared p) p p fun _ _ _ _ _ _ _ _ => trivial).1

theorem cleared_assignment? (s : State) (p : Port) (k : Nat) : (s.cleared p).assignment? k = s.assignment? k :=
  State.assignment?_of_assignments ((removeWaitersOf_fields (s.abandonAll p) p).2.2.1.trans
    (intentsEnded_abandonAll s p).assignments) k

theorem cleared_volume? (s : State) (p : Port) (v : Nat) : (s.cleared p).volume? v = (s.abandonAll p).volume? v :=
  State.volume?_of_volumes (removeWaitersOf_fields (s.abandonAll p) p).1 v

theorem cleared_port (s : State) (p q : Port) : (s.cleared p).port q = (s.abandonAll p).port q :=
  (removeWaitersOf_fields (s.abandonAll p) p).2.2.2.2 q

theorem cleared_intent? (hsize : s.intents.length = 192) (p : Port) (k : Nat) :
    (s.cleared p).intent? k = (s.intent? k).filter fun i => decide (i.port ≠ p) := by
  have hk : (s.cleared p).intent? k = (s.abandonAll p).intent? k :=
    State.intent?_of_intents (removeWaitersOf_fields (s.abandonAll p) p).2.1 k
  rw [hk, State.intent?, heldAt, (intentsEnded_abandonAll s p).intents k, State.intent?, heldAt]
  cases hz : s.intents[k]? with
  | none => rfl
  | some z =>
    have hlt : k < 192 := hsize ▸ (List.getElem?_eq_some_iff.1 hz).1
    simp [hlt]

/-- The causes told while a port's work ends. -/
theorem workSettled_causes (s : State) (p q : Port) : ∃ es, Causes (PortCause s p) s (s.workSettled p) q es := by
  have hended := intentsEnded_abandonAll s p
  obtain ⟨es, hcauses⟩ := (abandonAll_ended (R := PortCause s p) s p q fun k i hi hport x z g hg =>
    portCause_settled hg (.inl ⟨k, i, hi, hport, rfl⟩)).2
  obtain ⟨fs, hmore⟩ := (revokePort_revoked (R := PortCause s p) (s.cleared p) p q fun k a ha hport x z g hg =>
    portCause_settled hg (.inr ⟨k, a, (cleared_assignment? s p k).symm.trans ha, hport, rfl⟩)).2
  have hcleared : Causes (PortCause s p) s (s.cleared p) q es :=
    { told := hcauses.told.of_events (by rw [cleared_port])
      kinds := hcauses.kinds
      lost := fun v x x' hx hx' => hcauses.lost v x x' hx ((cleared_volume? s p v).symm.trans hx')
      pending := fun v x x' hx hx' => hcauses.pending v x x' hx ((cleared_volume? s p v).symm.trans hx') }
  refine ⟨es ++ fs, hcleared.trans hmore (by rw [cleared_port]; exact (hended.elsewhere.1 q).1) fun v x hx => ?_⟩
  rw [cleared_volume?]
  exact hended.keepsExtents v x hx

/-! ## What an extent of a volume has become -/

theorem touches_eq (i : Intent) (v e : Nat) :
    (decide (i.volume = v) && decide (i.firstExtent ≤ e) && decide (e < i.firstExtent + i.extentCount))
      = (decide (i.volume = v) && i.touches e) := Bool.and_assoc ..

/-- Whether the peer of the port still writes the copy of the extent. -/
def State.peerWrites (s : State) (p : Port) (v e : Nat) (c : Copy) : Bool :=
  (List.range 192).any fun j => match s.intent? j with
    | some i => i.port ≠ p && (decide (i.volume = v) && decide (i.firstExtent ≤ e)
        && decide (e < i.firstExtent + i.extentCount)) && i.report c = .pending
    | none => false

/-- That is what the rule of R29 asks once the port's intents have ended. -/
theorem peerWrites_eq (hsize : s.intents.length = 192) (p : Port) (v e : Nat) (c : Copy) :
    s.peerWrites p v e c = (s.cleared p).pendingReportOn v e c := by
  rw [Bool.eq_iff_iff, pendingReportOn_iff, State.peerWrites, List.any_eq_true]
  constructor
  · rintro ⟨j, -, hj⟩
    split at hj
    next i hi =>
      rw [touches_eq] at hj
      simp only [Bool.and_eq_true, decide_eq_true_eq] at hj
      obtain ⟨⟨hport, hvolume, htouch⟩, hreport⟩ := hj
      exact ⟨j, i, by rw [cleared_intent? hsize, hi]; exact if_pos (decide_eq_true hport), hvolume, htouch, hreport⟩
    next => cases hj
  · rintro ⟨j, i, hi, hvolume, htouch, hreport⟩
    rw [cleared_intent? hsize] at hi
    obtain ⟨hi, hport⟩ := Option.filter_eq_some_iff.1 hi
    have hlt : j < 192 := hsize ▸ intent?_lt hi
    refine ⟨j, List.mem_range.2 hlt, ?_⟩
    rw [hi]
    dsimp only
    rw [touches_eq]
    simp only [decide_eq_true_eq] at hport
    simp [hport, hvolume, htouch, hreport]

theorem tornState_eq (hsize : s.intents.length = 192) (p : Port) (v : Nat) (x : Volume) (e : Nat) (st : Coherence) :
    tornState s p v x e st = (s.cleared p).revokedTo 32 (fun a => decide (a.port = p)) v e
      (s.endedState 192 (fun _ i => decide (i.port = p)) abandonResult x v e st) := by
  refine (List.foldl_ext _ _ _ fun st k _ => ?revoked).trans
    (congrArg (fun z => List.foldl _ z (List.range 32)) (List.foldl_ext _ _ _ fun st k _ => ?abandoned))
  case abandoned =>
    cases hi : s.intent? k with
    | none => rfl
    | some i =>
      simp only [touches_eq, Bool.and_eq_true, decide_eq_true_eq]
  case revoked =>
    rw [cleared_assignment?]
    cases ha : s.assignment? k with
    | none => rfl
    | some a =>
      change (if a.port = p ∧ a.volume = v ∧ a.extent = e ∧ a.overtaken = true ∧ st ≠ .void ∧ s.peerWrites p v e a.target = false
        then loseCurrency a.target st else st) = if (_ : Bool) then (s.cleared p).revokedState a st else st
      rw [peerWrites_eq hsize, revokedState_eq]
      by_cases hsel : a.port = p ∧ a.volume = v ∧ a.extent = e
      · obtain ⟨hport, rfl, rfl⟩ := hsel
        simp only [hport, decide_true, Bool.and_self, if_true, true_and]
        cases a.overtaken
        · simp
        · simp only [if_true, overtakenRule, true_and]
          by_cases hkeep : st = .void ∨ (s.cleared p).pendingReportOn a.volume a.extent a.target = true
          · rw [if_pos hkeep, if_neg]
            rintro ⟨hvoid, hwrites⟩
            rcases hkeep with h | h
            · exact hvoid h
            · rw [hwrites] at h; cases h
          · rw [if_neg hkeep, if_pos]
            exact ⟨fun h => hkeep (.inl h), Bool.eq_false_iff.2 fun h => hkeep (.inr h)⟩
      · rw [if_neg fun h => hsel ⟨h.1, h.2.1, h.2.2.1⟩, if_neg]
        simp only [Bool.and_eq_true, decide_eq_true_eq]
        exact hsel

end Sys2Proof.Machine
end

section
/-! PROOF. The teardown of a port (R127): the lease's expiry and PRST (R129). -/

namespace Sys2Proof.Machine

variable {s t u : State} {v n : Nat} {x y : Volume} {p q : Port}

/-! ## The work of a port ended, whole -/

/-- A record after a port's work on it has ended, the rebuilds not yet completed. -/
theorem workSettled_record (hsizes : TableSizes s) (p : Port) (hx : s.volume? v = some x) :
    ∃ y, (s.workSettled p).volume? v = some y ∧ y.fixed = x.fixed ∧ y.copyA.errors = x.copyA.errors
      ∧ y.copyB.errors = x.copyB.errors ∧ (∀ c, y.health c = x.health c) ∧ y.extents.length = x.extents.length
      ∧ y.openIntents = x.openIntents - s.countIntents (fun i => i.port = p && i.volume = v)
      ∧ (∀ e z, x.extents[e]? = some z → ∃ z', y.extents[e]? = some z' ∧ z'.state = tornState s p v x e z.state
        ∧ z'.openCount = z.openCount - s.countIntents (fun i => i.port = p && i.volume = v && i.touches e)
        ∧ ((∃ slot a, s.assignment? slot = some a ∧ a.port = p ∧ a.volume = v ∧ a.extent = e) → z'.link = none)
        ∧ ((¬ ∃ slot a, s.assignment? slot = some a ∧ a.port = p ∧ a.volume = v ∧ a.extent = e) → z'.link = z.link))
      ∧ (x.recount = x → y.recount = y) := by
  obtain ⟨-, hintents, -, hassignments, -⟩ := hsizes
  have hended := intentsEnded_abandonAll s p
  have hrevoked := assignmentsRevoked_workSettled s p
  obtain ⟨y, hy, first⟩ := hended.present v x hx
  rw [← cleared_volume?] at hy
  obtain ⟨z, hz, second⟩ := hrevoked.present v y hy
  have hsize : (s.cleared p).assignments.length = 32 := by
    rw [State.cleared, (removeWaitersOf_fields _ p).2.2.1, hended.assignments, hassignments]
  refine ⟨z, hz, second.fixed.trans first.fixed, second.errorsA.trans first.errorsA, second.errorsB.trans first.errorsB,
    fun c => (second.health c).trans (first.health c), second.length.trans first.length, ?openIntents, fun e k hk => ?extent,
    fun h => second.recount (first.recount h)⟩
  case openIntents => rw [second.openIntents, first.openIntents, ← picked_eq_countIntents hintents]
  case extent =>
    have hlinked : (s.cleared p).takenBack 32 (fun a => decide (a.port = p) && (decide (a.volume = v) && decide (a.extent = e))) = 0
        ↔ ¬ ∃ slot a, s.assignment? slot = some a ∧ a.port = p ∧ a.volume = v ∧ a.extent = e := by
      rw [takenBack_eq_zero_iff hsize.le]
      constructor
      · rintro h ⟨slot, a, ha, hport, hvolume, hextent⟩
        have := h slot a ((cleared_assignment? s p slot).trans ha)
        simp [hport, hvolume, hextent] at this
      · intro h slot a ha
        rw [cleared_assignment?] at ha
        by_contra hsel
        simp only [Bool.not_eq_false, Bool.and_eq_true, decide_eq_true_eq] at hsel
        exact h ⟨slot, a, ha, hsel⟩
    refine ⟨_, second.extent e _ (first.extent e k hk), ?_, ?_, fun hheld => ?_,
      fun hnot => ?_⟩
    · dsimp only
      rw [tornState_eq hintents]
    · rw [← picked_eq_countIntents hintents]
      simp only [Bool.and_assoc]
    · dsimp only
      rw [if_neg fun h => hlinked.1 h hheld]
    · dsimp only
      rw [if_pos (hlinked.2 hnot)]

theorem workSettled_absent (p : Port) (hx : s.volume? v = none) : (s.workSettled p).volume? v = none :=
  (assignmentsRevoked_workSettled s p).absent v ((cleared_volume? s p v).trans ((intentsEnded_abandonAll s p).absent v hx))

theorem workSettled_elsewhere (s : State) (p : Port) : SameElsewhere s (s.workSettled p) :=
  ((intentsEnded_abandonAll s p).elsewhere.trans (removeWaitersOf_elsewhere _ p)).trans
    (assignmentsRevoked_workSettled s p).elsewhere

/-- A port's counts after its own work has ended, and after its peer's. -/
theorem workSettled_port (hsizes : TableSizes s) (p q : Port) : (s.workSettled p).port q = { s.port q with
    intents := (s.port q).intents - s.countIntents fun i => decide (i.port = p) && decide (i.port = q)
    assignments := (s.port q).assignments - s.takenBack 32 fun a => decide (a.port = p) && decide (a.port = q)
    events := ((s.workSettled p).port q).events } := by
  obtain ⟨-, hintents, -⟩ := hsizes
  have hsame : (s.cleared p).takenBack 32 (fun a => decide (a.port = p) && decide (a.port = q))
      = s.takenBack 32 fun a => decide (a.port = p) && decide (a.port = q) := by
    rw [State.takenBack, State.takenBack]
    refine List.countP_congr fun k _ => ?_
    rw [State.takesBack, State.takesBack, cleared_assignment?]
  refine ((assignmentsRevoked_workSettled s p).ports q).trans ?_
  rw [cleared_port, (intentsEnded_abandonAll s p).ports q, hsame,
    picked_eq_countIntents hintents fun i => decide (i.port = p) && decide (i.port = q)]

/-- A table with the held entries of a selection dropped. -/
theorem filtered_table {α : Type} {l m : List (Slot (Option α))} {size : Nat} (hsize : l.length = size) (keep : α → Bool)
    (h : ∀ k : Nat, m[k]? = (l[k]?).map fun (z : Slot (Option α)) =>
      { z with held := z.held.filter fun a => !(decide (k < size) && !keep a) }) :
    m = l.map fun z => { z with held := z.held.filter keep } := by
  refine List.ext_getElem? fun k => ?_
  rw [h, List.getElem?_map]
  cases hz : l[k]? with
  | none => rfl
  | some z =>
    have hlt : k < size := hsize ▸ (List.getElem?_eq_some_iff.1 hz).1
    simp [hlt]

/-- The state with all of a port's work ended. -/
def State.workEnded (s : State) (p : Port) : State := (s.workSettled p).completeAll

theorem workEnded_rebuilt (s : State) (p : Port) : RebuiltTo (s.workSettled p) (s.workEnded p) 16 := completeAll_rebuilt _

theorem removeWaitersOf_list (s : State) (p : Port) :
    (s.removeWaitersOf p).waiters = s.waiters.map (fun x => if x.held.ownedBy p then { x with held := .vacant } else x)
    ∧ (s.removeWaitersOf p).arrival = s.arrival.filter (fun w => !(s.waiterEntry w).ownedBy p) := ⟨rfl, rfl⟩

theorem workEnded_tables (hsizes : TableSizes s) (p : Port) :
    (s.workEnded p).intents = s.intents.map (fun x => { x with held := x.held.filter fun i => i.port ≠ p })
    ∧ (s.workEnded p).waiters = s.waiters.map (fun x => if x.held.ownedBy p then { x with held := .vacant } else x)
    ∧ (s.workEnded p).arrival = s.arrival.filter (fun w => !(s.waiterEntry w).ownedBy p)
    ∧ (s.workEnded p).assignments = s.assignments.map (fun x => { x with held := x.held.filter fun a => a.port ≠ p })
    ∧ (s.workEnded p).pointer = s.pointer := by
  obtain ⟨-, hintents, -, hassignments, -⟩ := hsizes
  have hended := intentsEnded_abandonAll s p
  have hrevoked := assignmentsRevoked_workSettled s p
  obtain ⟨tintents, twaiters, tarrival, tassignments, tpointer⟩ := (workEnded_rebuilt s p).only.tables
  refine ⟨filtered_table hintents _ fun k => ?intents, ?waiters, ?arrival, filtered_table hassignments _ fun k => ?assignments,
    tpointer.trans (hrevoked.pointer.trans ((removeWaitersOf_fields (s.abandonAll p) p).2.2.2.1.trans hended.pointer))⟩
  case intents =>
    rw [tintents, hrevoked.intents, State.cleared, (removeWaitersOf_fields _ p).2.1, hended.intents k]
    simp
  case waiters =>
    rw [twaiters, hrevoked.waiters, State.cleared, (removeWaitersOf_list _ p).1, hended.waiters]
  case arrival =>
    rw [tarrival, hrevoked.arrival, State.cleared, (removeWaitersOf_list _ p).2, hended.arrival]
    refine List.filter_congr fun w _ => ?_
    rw [State.waiterEntry_of_waiters hended.waiters]
  case assignments =>
    have hcleared : (s.cleared p).assignments = s.assignments :=
      ((removeWaitersOf_fields (s.abandonAll p) p).2.2.1).trans hended.assignments
    rw [tassignments, hrevoked.assignments k, hcleared]
    simp

end Sys2Proof.Machine
end

section
/-! PROOF. The teardown of a port, whole (R127), at the lease's expiry and at PRST (R126, R129). -/

namespace Sys2Proof.Machine

variable {s t u : State} {v n : Nat} {x y : Volume} {p q : Port}

theorem completeAll_shut (s : State) (p : Port) (hclosed : (s.port p).session.state ≠ .opened) :
    (s.completeAll.port p).events = (s.port p).events := by
  refine (foldl_keeps (R := fun s t => (t.port p).session = (s.port p).session
    ∧ ((s.port p).session.state ≠ .opened → (t.port p).events = (s.port p).events)) (fun _ => ⟨rfl, fun _ => rfl⟩)
    (fun _ _ _ h k => ⟨k.1.trans h.1, fun hs => (k.2 (by rwa [h.1])).trans (h.2 hs)⟩) (fun s v => ?_) (List.range 16) s).2 hclosed
  refine ⟨completeRebuilds_session s v p, fun hs => ?_⟩
  cases hx : s.volume? v with
  | none => rw [completeRebuilds_absent hx]
  | some x =>
    obtain ⟨x', -, -, -, honly⟩ := completeRebuilds_does hx
    rw [honly.shut p (by rwa [State.setVolume_port]), State.setVolume_port]

/-- The end of a port's work tells a port whose session is not OPEN nothing. -/
theorem workEnded_shut (s : State) (p q : Port) (hclosed : (s.port q).session.state ≠ .opened) :
    ((s.workEnded p).port q).events = (s.port q).events := by
  obtain ⟨es, hcauses⟩ := workSettled_causes s p q
  have htold := hcauses.told
  rw [Told, if_neg hclosed] at htold
  refine (completeAll_shut _ q ?_).trans htold
  rw [((workSettled_elsewhere s p).1 q).1]
  exact hclosed

theorem workEnded_elsewhere (s : State) (p : Port) : SameElsewhere s (s.workEnded p) :=
  (workSettled_elsewhere s p).trans (workEnded_rebuilt s p).only.elsewhere

/-- The work of a port whose session has ended, ended whole (R127). -/
theorem workEnded_ends (hsizes : TableSizes s) (hclosed : (s.port p).session.state ≠ .opened) :
    WorkEnded s (s.workEnded p) p := by
  obtain ⟨tintents, twaiters, tarrival, tassignments, tpointer⟩ := workEnded_tables hsizes p
  have hrebuilt := workEnded_rebuilt s p
  have hport (q : Port) : (s.workEnded p).port q = { (s.workSettled p).port q with events := ((s.workEnded p).port q).events } :=
    hrebuilt.only.ports q
  refine ⟨workEnded_elsewhere s p, tpointer, tintents, twaiters, tarrival, tassignments, ?self, ?peer, fun v =>
    ⟨fun hx => (hrebuilt.only.volumes v).1 (workSettled_absent p hx), fun x hx => ?record⟩⟩
  case self =>
    refine (hport p).trans ?_
    rw [workSettled_port hsizes, workEnded_shut s p p hclosed, takenBack_eq_countP hsizes.2.2.2.1]
    simp only [Bool.and_self] <;> rfl
  case peer =>
    have hintents : (s.countIntents fun i => decide (i.port = p) && decide (i.port = peer p)) = 0 := by
      rw [State.countIntents, List.countP_eq_zero]
      intro z _
      cases z.held with
      | none => simp
      | some i => by_cases hp : i.port = p <;> simp [hp]
    have hassignments : (s.takenBack 32 fun a => decide (a.port = p) && decide (a.port = peer p)) = 0 :=
      (takenBack_eq_zero_iff hsizes.2.2.2.1.le _).2 fun k a _ => by by_cases hp : a.port = p <;> simp [hp]
    refine (hport (peer p)).trans ?_
    rw [workSettled_port hsizes, hintents, hassignments]
    rfl
  case record =>
    obtain ⟨y, hy, hfixed, hA, hB, hhealth, hlength, hopen, hextent, hrecount⟩ := workSettled_record hsizes p hx
    obtain ⟨z, hz, settled, hextents, -⟩ := (hrebuilt.only.volumes v).2 y hy
    refine ⟨z, hz, settled.fixed.trans hfixed, settled.errorsA.trans hA, settled.errorsB.trans hB, by rw [hextents, hlength],
      settled.openIntents.trans hopen, fun e k hk => ?_, fun hagree => ?_⟩
    · obtain ⟨k', hk', hrest⟩ := hextent e k hk
      exact ⟨k', by rw [hextents]; exact hk', hrest⟩
    · obtain ⟨hcount, -⟩ := hagree v x hx
      have hv : v < 16 := hsizes.1 ▸ State.volume?_lt hx
      obtain ⟨z', hz', hhealths, -, -, hcount'⟩ := hrebuilt.settled v y hv hy (hrecount hcount)
      obtain rfl := Option.some.inj (hz.symm.trans hz')
      exact ⟨hcount', fun c => by rw [hhealths c, hhealth c]⟩

/-- What the peer is told while the work of a port ends (R127). -/
theorem workEnded_tells (hsizes : TableSizes s) (hagree : CountsAgree s) (p : Port) : WorkTold s (s.workEnded p) p := by
  obtain ⟨es, hcauses⟩ := workSettled_causes s p (peer p)
  have hrebuilt := workEnded_rebuilt s p
  have hrecord (v : Nat) (x : Volume) (hx : s.volume? v = some x) : ∃ y z, (s.workSettled p).volume? v = some y
      ∧ (s.workEnded p).volume? v = some z ∧ (∀ c, y.health c = x.health c) ∧ z.extents = y.extents
      ∧ (∀ c, (z.copy c).stale = (y.copy c).stale) ∧ z.repairNeeded = y.repairNeeded := by
    obtain ⟨y, hy, -, -, -, hhealth, -, -, -, hrecount⟩ := workSettled_record hsizes p hx
    obtain ⟨z, hz, -, hstale, hneeded, -⟩ := hrebuilt.settled v y (hsizes.1 ▸ State.volume?_lt hx) hy (hrecount (hagree v x hx).1)
    obtain ⟨z', hz', -, hextents, -⟩ := (hrebuilt.only.volumes v).2 y hy
    obtain rfl := Option.some.inj (hz.symm.trans hz')
    exact ⟨y, z, hy, hz, hhealth, hextents, hstale, hneeded⟩
  have hcounts (v : Nat) (y : Volume) (hy : (s.workSettled p).volume? v = some y) : y.recount = y := by
    cases hx : s.volume? v with
    | none => rw [workSettled_absent p hx] at hy; cases hy
    | some x =>
      obtain ⟨z, hz, -, -, -, -, -, -, -, hrecount⟩ := workSettled_record hsizes p hx
      obtain rfl := Option.some.inj (hy.symm.trans hz)
      exact hrecount (hagree v x hx).1
  refine ⟨es, fun g hg => hcauses.kinds g hg, fun v x x' hx hx' => ?causes, ?told⟩
  case causes =>
    obtain ⟨y, z, hy, hz, -, hextents, -, hneeded⟩ := hrecord v x hx
    obtain rfl := Option.some.inj (hz.symm.trans hx')
    rw [stateAt_extents hextents, hneeded]
    exact ⟨hcauses.lost v x y hx hy, hcauses.pending v x y hx hy⟩
  case told =>
    have htold := hcauses.told.trans ((workSettled_elsewhere s p).1 (peer p)).1 (hrebuilt.told hcounts (peer p))
    have hevents : (List.range 16).flatMap (s.workSettled p).rebuildTold = (List.range 16).flatMap fun v =>
        match s.volume? v, (s.workEnded p).volume? v with
        | some x, some x' => ([Copy.a, .b].filter fun c => decide (x.health c = .rebuilding ∧ (x'.copy c).stale = 0)).map
            fun c => (.copyOnline, .copy v c, .zero)
        | _, _ => [] := by
      refine List.flatMap_congr fun v _ => ?_
      cases hx : s.volume? v with
      | none => rw [State.rebuildTold, workSettled_absent p hx]
      | some x =>
        obtain ⟨y, z, hy, hz, hhealth, -, hstale, -⟩ := hrecord v x hx
        rw [State.rebuildTold, hy, hz]
        simp only [hhealth, hstale]
    rw [hevents] at htold
    exact htold

/-! ## The teardown -/

theorem teardown_eq (s : State) (p : Port) (reason : EventValue) :
    s.teardown p reason = ((s.clearEvents p).workEnded p).pass.raise (peer p) .peerLost (.port p) reason := rfl

/-- The session of a port ended, its queue and stack cleared. -/
theorem endSession_clearEvents (s : State) (p : Port) (st : SessionState) :
    (s.endSession p st).clearEvents p = s.setPort p (endedPort (s.port p) st) := by
  simp [State.endSession, State.clearEvents, State.setSession, State.setEvents, endedPort]

/-- A port torn down: its work ended, one pass, and PEER_LOST to an OPEN peer (R127). -/
theorem tornDown (hsizes : TableSizes s) (hclosed : (s.port p).session.state ≠ .opened) (reason : EventValue) :
    TornDown s ((s.workEnded p).pass.raise (peer p) .peerLost (.port p) reason) p reason := by
  have hended := workEnded_ends hsizes hclosed
  obtain ⟨helse, -, hintents, hwaiters, -, hassignments, -, -, hvolumes⟩ := id hended
  have hgrants := pass_grantsOnly (s.workEnded p)
  have honly := raise_onlyEvents (s.workEnded p).pass (peer p) .peerLost (.port p) reason
  have hentries (w : Nat) : ((s.workEnded p).waiterEntry w).ownedBy p = false := by
    rw [State.waiterEntry, hwaiters, List.getElem?_map]
    cases s.waiters[w]? with
    | none => rfl
    | some z =>
      dsimp only [Option.map_some]
      by_cases howned : z.held.ownedBy p = true
      · rw [if_pos howned]; rfl
      · rw [if_neg howned]; exact Bool.eq_false_iff.2 howned
  have hnone (slot : Nat) (i : Intent) (hi : (s.workEnded p).intent? slot = some i) : i.port ≠ p := by
    rw [State.intent?, hintents, heldAt_map _ (Option.filter _) rfl] at hi
    exact of_decide_eq_true (Option.filter_eq_some_iff.1 hi).2
  refine ⟨⟨s.workEnded p, hended, fun hagree => workEnded_tells hsizes hagree p, rfl⟩,
    (helse.trans hgrants.elsewhere).trans honly.sameElsewhere, ?events, fun slot i hi => ?intents, fun w => ?waiters,
    fun slot a ha => ?assignments, fun v x hx => ?record, fun hopen => ?lost⟩
  case events =>
    rw [raise_peer_port, hgrants.shut p (by rwa [(helse.1 p).1]), workEnded_shut s p p hclosed]
  case intents =>
    rw [honly.intent?] at hi
    exact pass_no_intents hentries hnone slot i hi
  case waiters => rw [honly.waiterEntry]; exact pass_owns_none hentries w
  case assignments =>
    rw [honly.assignment?] at ha
    obtain ⟨b, hb, hport, -⟩ := pass_assignment? ha
    rw [State.assignment?, hassignments, heldAt_map _ (Option.filter _) rfl] at hb
    rw [hport]
    exact of_decide_eq_true (Option.filter_eq_some_iff.1 hb).2
  case record =>
    obtain ⟨y, hy, hfixed, hA, hB, hlength, -, hextents, -⟩ := (hvolumes v).2 x hx
    obtain ⟨z, hz, hgranted⟩ := (hgrants.volumes v).2 y hy
    refine ⟨z, (honly.volume? v).trans hz, hgranted.fixed.trans hfixed, (congrArg CopyRecord.errors (hgranted.copy .a)).trans hA,
      (congrArg CopyRecord.errors (hgranted.copy .b)).trans hB, hgranted.extents_length.trans hlength, fun e k hk => ?_,
      fun hopen hlost => ?_⟩
    · obtain ⟨k', hk', hstate, -⟩ := hextents e k hk
      rw [hgranted.stateAt_eq, ← hstate, stateAt, List.getD_eq_getElem?_getD, hk']
      rfl
    · rw [hgranted.stateAt_eq] at hlost
      obtain ⟨es, hcauses⟩ := workSettled_causes s p (peer p)
      obtain ⟨y', hy', -⟩ := workSettled_record hsizes p hx
      obtain ⟨y'', hy'', -, hsame, -⟩ := ((workEnded_rebuilt s p).only.volumes v).2 y' hy'
      obtain rfl := Option.some.inj (hy.symm.trans hy'')
      rw [stateAt_extents hsame] at hlost
      have hmem := List.count_pos_iff.1 (hlost.trans_le (hcauses.lost v x y' hx hy'))
      exact honly.told _ _ _ _ (hgrants.told _ _ _ _ ((workEnded_rebuilt s p).only.told _ _ _ _ (hcauses.told.tells hopen hmem)))
  case lost =>
    refine raise_tells ?_ _ _ _
    rw [((helse.trans hgrants.elsewhere).1 (peer p)).1]
    exact hopen

end Sys2Proof.Machine
end

section
/-! PROOF. The lease's expiry (R126) and PRST (R129, R147). -/

namespace Sys2Proof.Machine

variable {s t u : State} {p q : Port}

theorem TableSizes.setPort (h : TableSizes s) (p : Port) {x : PortRecord}
    (hx : x.session.events = (s.port p).session.events) : TableSizes (s.setPort p x) := by
  obtain ⟨hvolumes, hintents, hwaiters, hassignments, hevents, hpointer⟩ := h
  refine ⟨by simpa using hvolumes, by simpa using hintents, by simpa using hwaiters, by simpa using hassignments, fun q => ?_,
    by simpa using hpointer⟩
  rw [State.port_setPort]
  split
  next => rw [hx]; exact hevents p
  next => exact hevents q

/-- An ended session torn down. -/
theorem endSession_tornDown (hsizes : TableSizes s) (p : Port) {st : SessionState} (hst : st ≠ .opened) (reason : EventValue) :
    TornDown (s.setPort p (endedPort (s.port p) st)) ((s.endSession p st).teardown p reason) p reason := by
  rw [teardown_eq, endSession_clearEvents]
  have hended : TableSizes (s.setPort p (endedPort (s.port p) st)) := hsizes.setPort p rfl
  have hclosed : ((s.setPort p (endedPort (s.port p) st)).port p).session.state ≠ .opened := by
    rw [State.port_setPort_self]
    exact hst
  exact tornDown hended hclosed reason

theorem TornDown.elsewhere {reason : EventValue} (h : TornDown s t p reason) : SameElsewhere s t := h.2.1

/-! ## The lease's expiry -/

theorem leaseExpired_iff (s : State) (p : Port) : s.leaseExpired p = true ↔ s.supply = .run
    ∧ (s.port p).session.state = .opened ∧ ∃ d, (s.port p).session.deadline = some d ∧ d ≤ s.ticks * 25000 := by
  rw [State.leaseExpired]
  cases hd : (s.port p).session.deadline with
  | none => simp
  | some d =>
    simp only [Bool.and_eq_true, decide_eq_true_eq, expired_iff, Option.some.injEq, exists_eq_left']
    tauto

/-- Settles O13: the due expiry ends the session FENCED and tears it down. -/
theorem leaseExpiryFences : Obligations.LeaseExpiryFences := by
  intro p s hsizes
  refine ⟨fun d hrun hopen hdeadline hdue => ?due, fun h => ?inert⟩
  case due =>
    have hexpired := (leaseExpired_iff s p).2 ⟨hrun, hopen, d, hdeadline, hdue⟩
    have htorn := endSession_tornDown hsizes p (st := .fenced) nofun .peerExpired
    refine ⟨_, congrArg _ (if_pos hexpired), htorn, fun hprst => ?_⟩
    obtain ⟨hports, hsupply, -⟩ := htorn.elsewhere
    obtain ⟨hsession, -, hpin, -⟩ := hports p
    rw [State.port_setPort_self] at hsession hpin
    rw [State.settleAttn_port]
    simp only [attnRule, hsession, hpin, hsupply, endedPort, State.setPort_supply, hrun, hprst]
    decide
  case inert =>
    refine congrArg _ (if_neg fun hexpired => ?_)
    obtain ⟨hrun, hopen, d, hdeadline, hdue⟩ := (leaseExpired_iff s p).1 hexpired
    rcases h with h | h | h
    · exact h hrun
    · exact h hopen
    · exact absurd hdue (not_le.2 (h d hdeadline))

/-! ## PRST -/

theorem accepts_prst (h : (s.port p).prst = true) : s.accepts p = false := by
  rw [State.accepts, h, Bool.not_true, Bool.and_false]

/-- The link cleared and the burst cut after the session has been dealt with. -/
theorem prst_noted (hprst : (t.port p).prst = true) (sel : Bool) :
    (t.setLink p Link.reset).noteBurst s p sel
      = t.setPort p { t.port p with link := ⟨none, none, none⟩, burst := cutBurst sel } := by
  have haccepts : (t.setLink p Link.reset).accepts p = false := accepts_prst (by simpa using hprst)
  rw [State.noteBurst, haccepts, Bool.and_false, burstAt_unaccepted, State.setLink, State.setBurst, State.setPort_setPort,
    State.port_setPort_self]
  rfl

theorem resetSession_opened (hrun : s.supply = .run) (h : (s.port p).session.state = .opened) :
    s.resetSession p = (s.endSession p .closed).teardown p .peerReset := by rw [State.resetSession, if_pos hrun, h]

theorem resetSession_fenced (hrun : s.supply = .run) (h : (s.port p).session.state = .fenced) :
    s.resetSession p = s.endSession p .closed := by rw [State.resetSession, if_pos hrun, h]

theorem resetSession_stands (h : s.supply ≠ .run ∨ (s.port p).session.state = .closed) : s.resetSession p = s := by
  rw [State.resetSession]
  rcases h with h | h
  · rw [if_neg h]
  · split <;> simp [h]

/-- The end of a session leaves the input and the supply. -/
theorem resetSession_keeps (s : State) (p : Port) :
    ((s.resetSession p).port p).prst = (s.port p).prst ∧ (s.resetSession p).supply = s.supply := by
  by_cases hstands : s.supply ≠ .run ∨ (s.port p).session.state = .closed
  · rw [resetSession_stands hstands]
    exact ⟨rfl, rfl⟩
  · obtain ⟨hrun, hstate⟩ := not_or.1 hstands
    have hrun := not_not.1 hrun
    cases hsession : (s.port p).session.state with
    | closed => exact absurd hsession hstate
    | opened =>
      rw [resetSession_opened hrun hsession]
      obtain ⟨hports, hsupply, -⟩ := teardown_elsewhere (s.endSession p .closed) p .peerReset
      rw [endSession_clearEvents] at hports hsupply
      refine ⟨(hports p).2.2.1.trans ?_, hsupply.trans (State.setPort_supply ..)⟩
      rw [State.port_setPort_self]
      rfl
    | fenced =>
      rw [resetSession_fenced hrun hsession]
      exact ⟨State.setSession_port_prst .., State.setSession_supply ..⟩

/-- What PRST leaves: the link cleared, the burst cut, the lines settled. -/
theorem execPrst_eq (s : State) (p : Port) (sel : Bool) : execPrst p s sel = .next
    (((s.setPrst p true).resetSession p).setPort p { ((s.setPrst p true).resetSession p).port p with
      link := ⟨none, none, none⟩, burst := cutBurst sel }).settleAttn := by
  have hprst : (((s.setPrst p true).resetSession p).port p).prst = true := by
    rw [(resetSession_keeps _ p).1, State.setPrst_port_self]
  rw [execPrst, prst_noted hprst]

/-- Settles O14: PRST clears the link in every state and ends a session in RUN; its release notes the burst. -/
theorem prstResetsPort : Obligations.PrstResetsPort := by
  intro p sel s hsizes cleared
  have hrunSet : (s.setPrst p true).supply = s.supply := State.setPrst_supply ..
  have hstateSet : ((s.setPrst p true).port p).session.state = (s.port p).session.state := by rw [State.setPrst_port_session]
  refine ⟨fun hrun hopen => ?opened, fun hrun hfenced => ?fenced, fun hstands => ?stands, fun hprst => ?released,
    fun hprst => ?unasserted, fun t u hon ht hu => ?discarded⟩
  case opened =>
    have htorn := endSession_tornDown (s := s.setPrst p true) (hsizes.setPort p rfl) p (st := .closed) nofun .peerReset
    have hbase : (s.setPrst p true).setPort p (endedPort ((s.setPrst p true).port p) .closed)
        = s.setPort p (endedPort { s.port p with prst := true } .closed) := by
      rw [State.setPrst_port_self, State.setPrst, State.setPort_setPort]
    rw [hbase] at htorn
    refine ⟨_, htorn, ?_, ?_⟩
    · rw [← resetSession_opened (hrunSet.trans hrun) (hstateSet.trans hopen)]
      exact execPrst_eq s p sel
    · obtain ⟨hports, -⟩ := htorn.elsewhere
      obtain ⟨hsession, -⟩ := hports p
      rw [State.port_setPort_self] at hsession
      rw [State.settleAttn_port, State.port_setPort_self]
      refine attnRule_closed ?_ _
      dsimp only
      rw [hsession]
      rfl
  case fenced =>
    refine (execPrst_eq s p sel).trans ?_
    rw [resetSession_fenced (hrunSet.trans hrun) (hstateSet.trans hfenced)]
    simp only [State.endSession, State.setSession, State.setPrst, State.setPort_setPort, State.port_setPort_self, cleared]
  case stands =>
    refine (execPrst_eq s p sel).trans ?_
    rw [resetSession_stands (by rwa [hrunSet, hstateSet])]
    simp only [State.setPrst, State.setPort_setPort, State.port_setPort_self, cleared]
  case released =>
    refine congrArg (fun t : State => Host.Outcome.next t.settleAttn) ?_
    rw [State.noteBurst, accepts_prst hprst, Bool.false_and, burstAt_unaccepted, State.setBurst, State.setPrst,
      State.setPort_setPort, State.port_setPort_self]
    rfl
  case unasserted =>
    refine ⟨burstAt (s.port p).burst sel (s.accepts p && (s.setPrst p false).accepts p),
      congrArg (fun t : State => Host.Outcome.next t.settleAttn) ?_⟩
    rw [State.noteBurst, State.setBurst, State.setPrst, State.setPort_setPort, State.port_setPort_self, ← hprst]
  case discarded =>
    obtain rfl := Host.Outcome.next.inj ((execPrst_eq s p true).symm.trans ht)
    have hprst : ((((s.setPrst p true).resetSession p).setPort p { ((s.setPrst p true).resetSession p).port p with
        link := ⟨none, none, none⟩, burst := cutBurst true }).settleAttn.port p).prst = true := by
      rw [State.settleAttn_port, State.port_setPort_self]
      refine (resetSession_keeps _ p).1.trans ?_
      rw [State.setPrst_port_self]
    obtain rfl := Host.Outcome.next.inj hu
    refine ⟨?_, .inr (.inr (.inl ?_))⟩
    · rw [State.settleAttn_supply, State.noteBurst, State.setBurst, State.setPort_supply, State.setPrst_supply,
        State.settleAttn_supply, State.setPort_supply, (resetSession_keeps _ p).2, hrunSet]
      exact hon
    · rw [State.settleAttn_port, noteBurst_port_self, accepts_prst hprst, Bool.false_and, burstAt_unaccepted]
      rfl

end Sys2Proof.Machine
end

section
/-! PROOF. The failure procedure (R111): the copy's extents, and the intents it closes. -/

namespace Sys2Proof.Machine

variable {s t u : State} {v n : Nat} {x y : Volume} {c : Copy} {i : Intent} {p : Port} {except : Option Nat}

/-! ## A copy that is FAILED and current for nothing -/

/-- The copy is FAILED, and current for no extent of the volume. -/
structure Volume.Lacks (x : Volume) (c : Copy) : Prop where
  health : x.health c = .failed
  states : ∀ z ∈ x.extents, z.state.current c = false

theorem loseCurrency_current (c : Copy) (st : Coherence) : (loseCurrency c st).current c = false := by
  cases c <;> cases st <;> rfl

theorem loseCurrency_keeps {d : Copy} {st : Coherence} (h : st.current c = false) : (loseCurrency d st).current c = false := by
  revert h
  cases c <;> cases d <;> cases st <;> decide

/-- A close whose report of the copy is not WRITTEN leaves the copy not current (Table 2-3). -/
theorem closeResult_current (h : i.report c ≠ .written) (st : Coherence) (whole : Bool) :
    (closeResult st whole i.reportA i.reportB).current c = false := by
  cases c with
  | a =>
    rw [closeResult, currentAfterClose_other (ra := i.reportA) h]
    cases currentAfterClose st whole i.reportB .b <;> rfl
  | b =>
    rw [closeResult, currentAfterClose_other (ra := i.reportB) h]
    cases currentAfterClose st whole i.reportA .a <;> rfl

theorem needsRepair_failed {st : Coherence} (hst : st.current c = false) (hhealth : x.health c = .failed) :
    needsRepair st x.copyA.health x.copyB.health = false := by
  cases c with
  | a =>
    have hA : x.copyA.health = .failed := hhealth
    rw [hA]
    cases st <;> simp_all [Coherence.current, needsRepair]
  | b =>
    have hB : x.copyB.health = .failed := hhealth
    rw [hB]
    cases st <;> simp_all [Coherence.current, needsRepair]

/-- Such a volume has no extent to repair. -/
theorem Volume.Lacks.repairNeeded (h : x.Lacks c) : x.recount.repairNeeded = 0 := by
  refine List.countP_eq_zero.2 fun z hz => ?_
  rw [needsRepair_failed (h.states z hz) h.health]
  decide

theorem mem_mapExtents {f : Nat → Extent → Extent} {xs : List Extent} {z : Extent} (h : z ∈ mapExtents f xs) :
    ∃ e k, k ∈ xs ∧ z = f e k := by
  obtain ⟨e, he⟩ := List.getElem?_of_mem h
  rw [mapExtents_getElem?] at he
  obtain ⟨k, hk, hkz⟩ := Option.map_eq_some_iff.1 he
  exact ⟨e, k, List.mem_of_getElem? hk, hkz.symm⟩

theorem Volume.Lacks.settledBy (h : x.Lacks c) (hreport : i.report c ≠ .written) :
    (x.settledBy i (endBy closeResult)).Lacks c where
  health := (settledBy_health ..).trans h.health
  states z hz := by
    obtain ⟨e, k, hk, rfl⟩ := mem_mapExtents hz
    rw [endBy]
    split
    next => exact closeResult_current hreport _ _
    next => exact h.states k hk

theorem Volume.Lacks.repairedBy (h : x.Lacks c) (a : Assignment) (s : State) : (x.repairedBy a (s.revokedState a)).Lacks c where
  health := (repairedBy_health ..).trans h.health
  states z hz := by
    obtain ⟨e, k, hk, rfl⟩ := mem_mapExtents hz
    have hkeeps : (s.revokedState a k.state).current c = false := by
      rw [revokedState_eq]
      split
      next =>
        rw [overtakenRule]
        split
        next => exact h.states k hk
        next => exact loseCurrency_keeps (h.states k hk)
      next => exact h.states k hk
    rw [endExtent]
    split
    next => exact hkeeps
    next => exact h.states k hk

/-- A change after which the copy is current for nothing raises EXTENT_LOST alone. -/
theorem settledEvents_lost (hy : y.repairNeeded = 0) {g : Event} (hg : g ∈ settledEvents v x y) : g = lostOn v := by
  rcases mem_settledEvents hg with h | ⟨-, -, hpos⟩
  · exact h
  · omega

theorem completeRebuild_settled {v : Nat} {d : Copy} (hx : s.volume? v = some x) (h : x.health d ≠ .rebuilding) :
    s.completeRebuild v d = s := by
  rw [State.completeRebuild, hx]
  exact if_neg fun hboth => h hboth.1

/-- Nothing is left to complete on a volume with no copy REBUILDING. -/
theorem completeRebuilds_settled {v : Nat} (hx : s.volume? v = some x) (h : ∀ d, x.health d ≠ .rebuilding) :
    s.completeRebuilds v = s := by
  rw [State.completeRebuilds, completeRebuild_settled hx (h .a), completeRebuild_settled hx (h .b)]

/-! ## The extents and the healths (R111) -/

/-- The record of a volume as soon as one of its copies is failed. -/
def Volume.copyFailed (x : Volume) (c : Copy) : Volume :=
  let y := Volume.setHealth (Volume.recount { x with extents := mapExtents (loseIn (fun _ => true) c) x.extents }) c .failed
  if x.health (other c) = .rebuilding then y.setHealth (other c) .online else y

theorem copyFailed_settled (x : Volume) (c : Copy) : x.Settled (x.copyFailed c) := by
  have hchanged : x.Settled (Volume.recount { x with extents := mapExtents (loseIn (fun _ => true) c) x.extents }) :=
    ⟨rfl, rfl, rfl, rfl⟩
  rw [Volume.copyFailed]
  split
  next => exact (hchanged.trans (setHealth_settled ..)).trans (setHealth_settled ..)
  next => exact hchanged.trans (setHealth_settled ..)

theorem copyFailed_extents (x : Volume) (c : Copy) :
    (x.copyFailed c).extents = mapExtents (loseIn (fun _ => true) c) x.extents := by
  rw [Volume.copyFailed]
  split
  next => rw [setHealth_extents, setHealth_extents]; rfl
  next => rw [setHealth_extents]; rfl

theorem copyFailed_health (x : Volume) (c : Copy) : (x.copyFailed c).health c = .failed := by
  rw [Volume.copyFailed]
  split
  next =>
    have hother := setHealth_health_other ((Volume.recount { x with extents := mapExtents (loseIn (fun _ => true) c) x.extents
      }).setHealth c .failed) (other c) .online
    rw [other_other] at hother
    rw [hother, setHealth_health_self]
  next => rw [setHealth_health_self]

theorem copyFailed_health_other (x : Volume) (c : Copy) : (x.copyFailed c).health (other c)
    = if x.health (other c) = .rebuilding then .online else x.health (other c) := by
  rw [Volume.copyFailed]
  split
  next => rw [setHealth_health_self]
  next =>
    rw [setHealth_health_other, recount_health]
    cases c <;> rfl

theorem copyFailed_recount (x : Volume) (c : Copy) : (x.copyFailed c).recount = x.copyFailed c := by
  rw [Volume.copyFailed]
  split <;> exact recount_recount _

theorem copyFailed_lacks (x : Volume) (c : Copy) : (x.copyFailed c).Lacks c where
  health := copyFailed_health x c
  states z hz := by
    rw [copyFailed_extents] at hz
    obtain ⟨e, k, -, rfl⟩ := mem_mapExtents hz
    exact loseCurrency_current c k.state

theorem copyFailed_not_rebuilding (x : Volume) (c d : Copy) : (x.copyFailed c).health d ≠ .rebuilding := by
  by_cases hd : d = c
  · rw [hd, copyFailed_health]
    decide
  · have hd : d = other c := by cases c <;> cases d <;> simp_all [other]
    rw [hd, copyFailed_health_other]
    split
    next => decide
    next h => exact h

end Sys2Proof.Machine
end

section
/-! PROOF. The failure procedure (R111): the copy taken out, its reports dropped, and the intents it closes. -/

namespace Sys2Proof.Machine

variable {s t u : State} {v n : Nat} {x y : Volume} {c : Copy} {i : Intent} {p : Port} {except : Option Nat}

/-! ## The copy taken out -/

theorem OnlyEvents.setHealth (h : OnlyEvents (s.setVolume v (some x)) t) (hx : t.volume? v = some x) (d : Copy) (z : Health) :
    OnlyEvents (s.setVolume v (some (x.setHealth d z))) (t.setHealth v d z) := by
  rw [State.setHealth, State.modVolume, hx]
  have honly := h.setVolume v (some (x.setHealth d z))
  rwa [setVolume_setVolume] at honly

/-- The record is the failed one; besides it only events change. -/
theorem failExtents_does (hx : s.volume? v = some x) (c : Copy) :
    OnlyEvents (s.setVolume v (some (x.copyFailed c))) (s.failExtents v c) := by
  have hself (y : Volume) : (s.setVolume v (some y)).volume? v = some y := by rw [State.volume?_setVolume hx, if_pos rfl]
  have hchanged := changeExtents_does hx (loseIn (fun _ => true) c)
  have hfailed := hchanged.setHealth ((hchanged.volume? v).trans (hself _)) c .failed
  have hhealth : s.health v (other c) = x.health (other c) := health_of_volume? hx
  rw [State.failExtents, Volume.copyFailed, hhealth]
  by_cases hrebuilding : x.health (other c) = .rebuilding
  · simp only [hrebuilding, if_true]
    exact hfailed.setHealth ((hfailed.volume? v).trans (hself _)) (other c) .online
  · simp only [hrebuilding, if_false]
    exact hfailed

theorem setHealth_events (s : State) (v : Nat) (d : Copy) (z : Health) (p : Port) :
    ((s.setHealth v d z).port p).events = (s.port p).events := by
  rw [State.setHealth, State.modVolume]
  split
  next => rfl
  next => rw [State.setVolume_port]

/-- Each port is told an EXTENT_LOST for each extent that enters LOST (R24). -/
theorem failExtents_told (hx : s.volume? v = some x) (c : Copy) (p : Port) : Told s (s.failExtents v c) p
    (List.replicate (entersLost x (stateAt (x.copyFailed c))) (lostOn v)) := by
  have htold := changeExtents_told hx (loseIn (fun _ => true) c) p
  have hstates : stateAt { x with extents := mapExtents (loseIn (fun _ => true) c) x.extents } = stateAt (x.copyFailed c) :=
    stateAt_extents (copyFailed_extents x c).symm
  rw [hstates] at htold
  refine htold.of_events ?_
  rw [State.failExtents]
  split
  next => rw [setHealth_events, setHealth_events]
  next => rw [setHealth_events]

theorem failExtents_volume? (hx : s.volume? v = some x) (c : Copy) (w : Nat) :
    (s.failExtents v c).volume? w = if w = v then some (x.copyFailed c) else s.volume? w := by
  rw [(failExtents_does hx c).volume?, State.volume?_setVolume hx]

/-! ## The reports dropped -/

theorem dropReport_eq (v : Nat) (c : Copy) (i : Intent) : dropReport v c i = droppedBy v c i := by
  rw [dropReport, droppedBy]
  simp only [Bool.and_eq_true, Bool.or_eq_true, decide_eq_true_eq]

theorem droppedBy_place (v : Nat) (c : Copy) (i : Intent) : (droppedBy v c i).port = i.port
    ∧ (droppedBy v c i).volume = i.volume ∧ (∀ e, (droppedBy v c i).touches e = i.touches e)
    ∧ (droppedBy v c i).report (other c) = i.report (other c)
    ∧ ∀ y, coveredBy y (droppedBy v c i) = coveredBy y i := by
  rw [droppedBy]
  split
  next => cases c <;> exact ⟨rfl, rfl, fun _ => rfl, rfl, fun _ => rfl⟩
  next => exact ⟨rfl, rfl, fun _ => rfl, rfl, fun _ => rfl⟩

/-- No intent of the volume waits for the copy's report, or has it WRITTEN, any more. -/
theorem droppedBy_report (h : i.volume = v) : (droppedBy v c i).report c ≠ .pending ∧ (droppedBy v c i).report c ≠ .written := by
  rw [droppedBy]
  split
  next => rw [withReport_report_self]; decide
  next hnot =>
    rw [h] at hnot
    exact ⟨fun hp => hnot ⟨rfl, .inl hp⟩, fun hw => hnot ⟨rfl, .inr hw⟩⟩

/-- The state with the copy taken out and the reports on it dropped. -/
def State.dropped (s : State) (v : Nat) (c : Copy) : State := (s.failExtents v c).dropReports v c

theorem dropped_intent? (hx : s.volume? v = some x) (c : Copy) (k : Nat) :
    (s.dropped v c).intent? k = (s.intent? k).map (droppedBy v c) := by
  have htable : (s.dropped v c).intents
      = s.intents.map fun z => { z with held := z.held.map (dropReport v c) } := by
    rw [State.dropped, State.dropReports, (failExtents_does hx c).intents, State.setVolume_intents]
  rw [State.intent?, htable, heldAt_map _ (Option.map _) rfl, ← State.intent?]
  exact Option.map_congr fun i _ => dropReport_eq v c i

theorem dropped_volume? (hx : s.volume? v = some x) (c : Copy) (w : Nat) :
    (s.dropped v c).volume? w = if w = v then some (x.copyFailed c) else s.volume? w :=
  (State.volume?_of_volumes (t := s.dropped v c) (s := s.failExtents v c) rfl w).trans (failExtents_volume? hx c w)

theorem dropReports_port (s : State) (v : Nat) (c : Copy) (q : Port) : (s.dropReports v c).port q = s.port q := by
  cases q <;> rfl

/-! ## The intents that the failure closes -/

/-- The intents that `closeComplete` closes: complete ones of the volume, but for the one excepted. -/
def closing (v : Nat) (except : Option Nat) (k : Nat) (i : Intent) : Bool :=
  decide (i.volume = v) && i.complete && decide (except ≠ some k)

theorem closing_dropped (v : Nat) (c : Copy) (except : Option Nat) (k : Nat) (i : Intent) :
    closing v except k (droppedBy v c i) = closedByFailure v c except k i := by
  obtain ⟨-, hvolume, -, hother, -⟩ := droppedBy_place v c i
  rw [closing, closedByFailure, hvolume]
  by_cases hv : i.volume = v
  · have hcomplete : (droppedBy v c i).complete = decide (i.report (other c) ≠ .pending) := by
      rw [Intent.complete, Bool.eq_iff_iff, Bool.and_eq_true, decide_eq_true_iff, decide_eq_true_iff, decide_eq_true_iff]
      have hreport := (droppedBy_report (c := c) hv).1
      rw [← hother]
      cases c
      · exact ⟨fun h => h.2, fun h => ⟨hreport, h⟩⟩
      · exact ⟨fun h => h.1, fun h => ⟨h, hreport⟩⟩
    rw [hcomplete]
  · rw [decide_eq_false hv]
    rfl

theorem dropped_picks (hx : s.volume? v = some x) (c : Copy) (except : Option Nat) {g : Intent → Bool}
    (hg : ∀ i, g (droppedBy v c i) = g i) (m : Nat) :
    (s.dropped v c).picked m (fun k i => closing v except k i && g i)
      = s.picked m fun k i => closedByFailure v c except k i && g i := by
  refine List.countP_congr fun k _ => ?_
  cases hi : s.intent? k with
  | none => rw [picks_none hi, picks_none ((dropped_intent? hx c k).trans (by rw [hi]; rfl))]
  | some i =>
    rw [picks_some hi, picks_some ((dropped_intent? hx c k).trans (congrArg (Option.map _) hi)), closing_dropped, hg]

/-- The closes, slot by slot: they end the closing intents by Table 2-3, and tell EXTENT_LOST alone. -/
theorem closeComplete_ended (hy : s.volume? v = some y) (hlacks : y.Lacks c) (hsettled : ∀ d, y.health d ≠ .rebuilding)
    (hreports : ∀ k i, s.intent? k = some i → i.volume = v → i.report c ≠ .written) (except : Option Nat) (p : Port) :
    IntentsEnded s (s.closeComplete v except) 192 (closing v except) closeResult
      ∧ (∀ z, (s.closeComplete v except).volume? v = some z → z.Lacks c)
      ∧ ∃ es, Causes (· = lostOn v) s (s.closeComplete v except) p es := by
  refine foldl_range_induct (motive := fun n u => IntentsEnded s u n (closing v except) closeResult
    ∧ (∀ z, u.volume? v = some z → z.Lacks c) ∧ ∃ es, Causes (· = lostOn v) s u p es)
    ⟨.init .., fun z hz => ?_, [], .refl ..⟩ fun k u _ ⟨hended, hl, es, hcauses⟩ => ?_
  · obtain rfl := Option.some.inj (hy.symm.trans hz)
    exact hlacks
  have hsame := hended.intent?
  cases hi : s.intent? k with
  | none =>
    rw [hsame, hi]
    exact ⟨hended.skip (picks_none hi), hl, es, hcauses⟩
  | some i =>
    rw [hsame, hi]
    dsimp only
    split
    next hclosing =>
      have hui := hsame.trans hi
      have hvolume : i.volume = v := by
        rw [Bool.and_eq_true, Bool.and_eq_true] at hclosing
        exact of_decide_eq_true hclosing.1.1
      obtain ⟨z, hz, hrecord⟩ := hended.present v y hy
      have hreport := hreports k i hi hvolume
      have hlackz := (hl z hz).settledBy hreport
      have hafter : (u.settleIntent k (endBy closeResult)).volume? v = some (z.settledBy i (endBy closeResult)) := by
        rw [settleIntent_volume? hui, if_pos hvolume.symm, hz]
        rfl
      have hclose : u.closeIntent k = u.settleIntent k (endBy closeResult) := by
        rw [State.closeIntent, endIntent_settles hui, hvolume, closeExtent_eq]
        refine completeRebuilds_settled hafter fun d => ?_
        rw [settledBy_health, hrecord.health d]
        exact hsettled d
      rw [hclose]
      obtain ⟨fs, hmore⟩ := settleIntent_causes (R := (· = lostOn v)) hui (endBy closeResult) p fun z' hz' g hg => by
        rw [hvolume] at hz' hg
        obtain rfl := Option.some.inj (hz.symm.trans hz')
        exact settledEvents_lost hlackz.repairNeeded hg
      refine ⟨hended.settle hi hclosing, fun z' hz' => ?_, es ++ fs,
        hcauses.trans hmore (hended.elsewhere.1 p).1 hended.keepsExtents⟩
      obtain rfl := Option.some.inj (hafter.symm.trans hz')
      exact hlackz
    next hnot =>
      refine ⟨hended.skip ?_, hl, es, hcauses⟩
      rw [picks_some hi]
      exact Bool.eq_false_iff.2 hnot

end Sys2Proof.Machine
end

section
/-! PROOF. The failure procedure (R111): the assignments it revokes, and the waiters it removes. -/

namespace Sys2Proof.Machine

variable {s t u : State} {v n w : Nat} {x y : Volume} {c : Copy} {a : Assignment} {p : Port}

/-! ## The assignments of the volume (R95) -/

/-- ASSIGN_ENDED of each assignment of the volume that the port holds, in slot order. -/
def State.assignEnds (s : State) (v : Nat) (p : Port) (n : Nat) : List Event :=
  (List.range n).filterMap fun slot => match s.assignment? slot with
    | some a => if a.volume = v ∧ a.port = p
      then some (.assignEnded, .assignment ⟨slot, genAt s.assignments slot⟩, .assignCopyFailed) else none
    | none => none

theorem assignEnds_succ_none (h : s.assignment? n = none) : s.assignEnds v p (n + 1) = s.assignEnds v p n := by
  rw [State.assignEnds, List.range_succ, List.filterMap_append, List.filterMap_cons, h]
  exact List.append_nil _

theorem assignEnds_succ_some (h : s.assignment? n = some a) : s.assignEnds v p (n + 1) = s.assignEnds v p n
    ++ if a.volume = v ∧ a.port = p then [(.assignEnded, .assignment ⟨n, genAt s.assignments n⟩, .assignCopyFailed)] else [] := by
  rw [State.assignEnds, List.range_succ, List.filterMap_append, List.filterMap_cons, h]
  by_cases hsel : a.volume = v ∧ a.port = p
  · dsimp only
    rw [if_pos hsel, if_pos hsel]
    rfl
  · dsimp only
    rw [if_neg hsel, if_neg hsel]
    rfl

theorem AssignmentsRevoked.gen {sel : Assignment → Bool} (h : AssignmentsRevoked s u n sel) (k : Nat) :
    genAt u.assignments k = genAt s.assignments k := by
  rw [genAt, genAt, h.assignments k]
  cases s.assignments[k]? <;> rfl

/-- An event that is no cause leaves the causes as they are. -/
theorem Causes.raised {R : Event → Prop} {es : List Event} (h : Causes R s t p es)
    (hsession : (t.port p).session = (s.port p).session) (q : Port) (k : Kind) (sub : Subject) (val : EventValue) :
    Causes (fun _ => True) s (t.raise q k sub val) p (es ++ if p = q then [(k, sub, val)] else []) where
  told := h.told.trans hsession (raise_told t q p k sub val)
  kinds _ _ := trivial
  lost w x x' hx hx' := by
    rw [(raise_onlyEvents t q k sub val).volume?] at hx'
    rw [List.count_append]
    exact (h.lost w x x' hx hx').trans (Nat.le_add_right _ _)
  pending w x x' hx hx' h0 hpos := by
    rw [(raise_onlyEvents t q k sub val).volume?] at hx'
    exact List.mem_append_left _ (h.pending w x x' hx hx' h0 hpos)

theorem filter_lost {es : List Event} (h : ∀ g ∈ es, g = lostOn v) : es.filter (fun g => g ≠ lostOn v) = [] := by
  refine List.filter_eq_nil_iff.2 fun g hg => ?_
  simp [h g hg]

/-- The revocations, slot by slot: they end the volume's assignments by R29, tell each holder ASSIGN_ENDED, and tell
EXTENT_LOST besides. -/
theorem revokeVolume_revoked (hy : s.volume? v = some y) (hlacks : y.Lacks c) (hsettled : ∀ d, y.health d ≠ .rebuilding)
    (p : Port) : AssignmentsRevoked s (s.revokeVolume v) 32 (fun a => decide (a.volume = v))
      ∧ (∀ z, (s.revokeVolume v).volume? v = some z → z.Lacks c)
      ∧ ∃ es, Causes (fun _ => True) s (s.revokeVolume v) p es
        ∧ es.filter (fun g => g ≠ lostOn v) = s.assignEnds v p 32 := by
  refine foldl_range_induct (motive := fun n u => AssignmentsRevoked s u n (fun a => decide (a.volume = v))
    ∧ (∀ z, u.volume? v = some z → z.Lacks c) ∧ ∃ es, Causes (fun _ => True) s u p es
      ∧ es.filter (fun g => g ≠ lostOn v) = s.assignEnds v p n) ⟨.init .., fun z hz => ?_, [], .refl .., rfl⟩
    fun k u _ ⟨hrevoked, hl, es, hcauses, hes⟩ => ?_
  · obtain rfl := Option.some.inj (hy.symm.trans hz)
    exact hlacks
  have hsame := hrevoked.assignment?
  cases ha : s.assignment? k with
  | none =>
    rw [hsame, ha]
    exact ⟨hrevoked.skip (takesBack_none ha), hl, es, hcauses, hes.trans (assignEnds_succ_none ha).symm⟩
  | some a =>
    rw [hsame, ha]
    dsimp only
    split
    next hvolume =>
      obtain ⟨z, hz, hrecord⟩ := hrevoked.present v y hy
      have hlackz := (hl z hz).repairedBy a u
      have hafter : (u.settleAssignment k a (u.revokedState a)).volume? v = some (z.repairedBy a (u.revokedState a)) := by
        rw [settleAssignment_volume?, if_pos hvolume.symm, hz]
        rfl
      have hend : u.endAssignment k a (u.revokedState a) = u.settleAssignment k a (u.revokedState a) := by
        rw [State.endAssignment, hvolume]
        refine completeRebuilds_settled hafter fun d => ?_
        rw [repairedBy_health, hrecord.health d]
        exact hsettled d
      rw [revoke_raise_eq (hsame.trans ha), hend, hrevoked.gen k]
      obtain ⟨fs, hmore⟩ := settleAssignment_causes (R := (· = lostOn v)) u k a (u.revokedState a) p fun z' hz' g hg => by
        rw [hvolume] at hz' hg
        obtain rfl := Option.some.inj (hz.symm.trans hz')
        exact settledEvents_lost hlackz.repairNeeded hg
      have hnext := hrevoked.settle ha (decide_eq_true hvolume)
      have hall := hcauses.trans (hmore.weaken fun _ _ => trivial) (hrevoked.elsewhere.1 p).1 hrevoked.keepsExtents
      refine ⟨hnext.told (raise_onlyEvents _ _ _ _ _), fun z' hz' => ?_, _, hall.raised (hnext.elsewhere.1 p).1 _ _ _ _, ?_⟩
      · rw [(raise_onlyEvents _ _ _ _ _).volume?] at hz'
        obtain rfl := Option.some.inj (hafter.symm.trans hz')
        exact hlackz
      · rw [List.filter_append, List.filter_append, hes, filter_lost hmore.kinds, List.append_nil, assignEnds_succ_some ha]
        congr 1
        by_cases hp : p = a.port
        · rw [if_pos hp, if_pos ⟨hvolume, hp.symm⟩]
          rfl
        · rw [if_neg hp, if_neg fun h => hp h.2.symm]
          rfl
    next hvolume =>
      refine ⟨hrevoked.skip (by rw [takesBack_some ha, decide_eq_false hvolume]), hl, es, hcauses, hes.trans ?_⟩
      rw [assignEnds_succ_some ha, if_neg fun h => hvolume h.1, List.append_nil]

/-! ## The waiters of an OFFLINE volume (R82) -/

/-- Whether the slot holds a waiter for the volume. -/
def State.leaving (s : State) (v w : Nat) : Bool :=
  match s.waiter? w with
  | some y => decide (y.volume = v)
  | none => false

/-- WAIT_ENDED with OFFLINE for the port's waiter for the volume in the slot. -/
def State.waitEnd (s : State) (v : Nat) (p : Port) (w : Nat) : Option Event :=
  match s.waiter? w with
  | some y => if y.volume = v ∧ y.port = p then some (.waitEnded, .ticket ⟨w, genAt s.waiters w⟩, .waitOffline) else none
  | none => none

/-- The state without the volume's waiters in the slots of a list. -/
def State.without (s : State) (l : List Nat) (v : Nat) : State :=
  { s with
    waiters := s.waiters.mapIdx fun w z => if w ∈ l ∧ s.leaving v w = true then { z with held := .vacant } else z
    arrival := s.arrival.filter fun w => !(decide (w ∈ l) && s.leaving v w) }

theorem without_nil (s : State) (v : Nat) : s.without [] v = s := by
  have hwaiters : (s.waiters.mapIdx fun w z => if w ∈ [] ∧ s.leaving v w = true then { z with held := .vacant } else z)
      = s.waiters := by
    refine List.ext_getElem? fun k => ?_
    rw [List.getElem?_mapIdx]
    simp
  have harrival : (s.arrival.filter fun w => !(decide (w ∈ []) && s.leaving v w)) = s.arrival := by simp
  rw [State.without, hwaiters, harrival]

theorem without_skip {l : List Nat} (h : w ∈ l ∨ s.leaving v w = false) : s.without (l ++ [w]) v = s.without l v := by
  have hmem (k : Nat) : (k ∈ l ++ [w] ∧ s.leaving v k = true) ↔ (k ∈ l ∧ s.leaving v k = true) := by
    rw [List.mem_append, List.mem_singleton]
    constructor
    · rintro ⟨hk | rfl, hl⟩
      · exact ⟨hk, hl⟩
      · exact h.elim (fun hk => ⟨hk, hl⟩) fun hno => absurd hl (by rw [hno]; decide)
    · exact fun hk => ⟨.inl hk.1, hk.2⟩
  have hbool (k : Nat) : (decide (k ∈ l ++ [w]) && s.leaving v k) = (decide (k ∈ l) && s.leaving v k) := by
    rw [Bool.eq_iff_iff, Bool.and_eq_true, Bool.and_eq_true, decide_eq_true_iff, decide_eq_true_iff]
    exact hmem k
  rw [State.without, State.without]
  simp only [hmem, hbool]

theorem without_waiterEntry (s : State) (l : List Nat) (v w : Nat) : (s.without l v).waiterEntry w
    = if w ∈ l ∧ s.leaving v w = true then .vacant else s.waiterEntry w := by
  rw [State.waiterEntry, State.waiterEntry, State.without, List.getElem?_mapIdx]
  cases s.waiters[w]? with
  | none => simp
  | some z =>
    dsimp only [Option.map_some]
    split <;> rfl

theorem without_gen (s : State) (l : List Nat) (v w : Nat) : genAt (s.without l v).waiters w = genAt s.waiters w := by
  rw [genAt, genAt, State.without, List.getElem?_mapIdx]
  cases s.waiters[w]? with
  | none => rfl
  | some z =>
    dsimp only [Option.map_some]
    split <;> rfl

theorem without_waiter? (s : State) (l : List Nat) (v w : Nat) : (s.without l v).waiter? w
    = if w ∈ l ∧ s.leaving v w = true then none else s.waiter? w := by
  by_cases h : w ∈ l ∧ s.leaving v w = true
  · simp only [State.waiter?, without_waiterEntry, if_pos h]
  · simp only [State.waiter?, without_waiterEntry, if_neg h]

/-- Removing the waiter of one more slot. -/
theorem without_remove {l : List Nat} (hw : w ∉ l) (hleaves : s.leaving v w = true) :
    (s.without l v).removeWaiter w = s.without (l ++ [w]) v := by
  have hlt : w < s.waiters.length := by
    rw [State.leaving] at hleaves
    split at hleaves
    next y hy => exact State.waiter?_lt hy
    next => cases hleaves
  have hwaiters : hold (s.without l v).waiters w .vacant = (s.without (l ++ [w]) v).waiters := by
    refine List.ext_getElem? fun k => ?_
    by_cases hk : k = w
    · subst hk
      rw [hold_getElem?_self (by simpa [State.without] using hlt), without_gen]
      simp [State.without, hlt, hleaves, genAt]
    · rw [hold_getElem?_ne _ hk]
      simp [State.without, List.mem_append, hk]
  have harrival : (s.without l v).arrival.filter (· ≠ w) = (s.without (l ++ [w]) v).arrival := by
    simp only [State.without, List.filter_filter]
    refine List.filter_congr fun k _ => ?_
    by_cases hk : k = w
    · subst hk
      simp [hleaves]
    · simp [hk]
  rw [State.removeWaiter, hwaiters, harrival]
  rfl

theorem OnlyEvents.removeWaiter (h : OnlyEvents s t) (w : Nat) : OnlyEvents (s.removeWaiter w) (t.removeWaiter w) where
  port := h.port
  stack := h.stack
  told := h.told
  shut := h.shut
  rest := by
    rw [State.removeWaiter, State.removeWaiter, h.waiters, h.arrival]
    exact congrArg (fun u : State => { u with waiters := hold s.waiters w .vacant, arrival := s.arrival.filter (· ≠ w) }) h.rest

theorem waitEnd_append (s : State) (v : Nat) (p : Port) (l : List Nat) (w : Nat) :
    (l ++ [w]).eraseDups.filterMap (s.waitEnd v p)
      = l.eraseDups.filterMap (s.waitEnd v p) ++ if w ∈ l then [] else (s.waitEnd v p w).toList := by
  rw [List.eraseDups_append, List.filterMap_append]
  congr 1
  by_cases hw : w ∈ l
  · simp [List.removeAll, hw]
  · simp only [List.removeAll, hw, if_false]
    cases he : s.waitEnd v p w <;> simp [hw, he, List.eraseDups_cons]

/-- The volume's waiters removed, each port told of its own in arrival order. -/
theorem removeOffline_removed (s : State) (v : Nat) (p : Port) (l : List Nat) :
    let t := l.foldl (fun s w => match s.waiter? w with
      | some x => if x.volume = v then
          (s.removeWaiter w).raise x.port .waitEnded (.ticket (s.ticket w)) .waitOffline else s
      | none => s) s
    OnlyEvents (s.without l v) t ∧ Told s t p (l.eraseDups.filterMap (s.waitEnd v p)) := by
  induction l using List.reverseRecOn with
  | nil =>
    refine ⟨?_, Told.refl s p⟩
    rw [without_nil]
    exact .refl s
  | append_singleton l w ih =>
    rw [List.foldl_append]
    generalize l.foldl _ s = u at ih ⊢
    obtain ⟨honly, htold⟩ := ih
    have hsession : (u.port p).session = (s.port p).session := (honly.session p).trans (by cases p <;> rfl)
    have huw : u.waiter? w = if w ∈ l ∧ s.leaving v w = true then none else s.waiter? w :=
      (honly.waiter? w).trans (without_waiter? s l v w)
    rw [waitEnd_append]
    by_cases hleaves : w ∉ l ∧ s.leaving v w = true
    case neg =>
      have hskip : w ∈ l ∨ s.leaving v w = false := by
        by_cases hw : w ∈ l
        · exact .inl hw
        · exact .inr (Bool.eq_false_iff.2 fun h => hleaves ⟨hw, h⟩)
      have hnothing : (if w ∈ l then [] else (s.waitEnd v p w).toList) = [] := by
        split
        next => rfl
        next hw =>
          have hno := hskip.resolve_left hw
          rw [State.leaving] at hno
          rw [State.waitEnd]
          split at hno
          next y hy => rw [if_neg fun h => of_decide_eq_false hno h.1]; rfl
          next => rfl
      rw [without_skip hskip, hnothing, List.append_nil]
      have hsame : (match u.waiter? w with
          | some x => if x.volume = v then
              (u.removeWaiter w).raise x.port .waitEnded (.ticket (u.ticket w)) .waitOffline else u
          | none => u) = u := by
        split
        next y hy =>
          rw [huw] at hy
          split at hy
          next => cases hy
          next hnot =>
            have hno : s.leaving v w = false := hskip.elim (fun hw => Bool.eq_false_iff.2 fun h => hnot ⟨hw, h⟩) id
            rw [State.leaving, hy] at hno
            exact if_neg (of_decide_eq_false hno)
        next => rfl
      simp only [List.foldl_cons, List.foldl_nil]
      rw [hsame]
      exact ⟨honly, htold⟩
    case pos =>
      obtain ⟨hw, hleaves⟩ := hleaves
      obtain ⟨y, hy, hvolume⟩ : ∃ y, s.waiter? w = some y ∧ y.volume = v := by
        rw [State.leaving] at hleaves
        split at hleaves
        next y hy => exact ⟨y, hy, of_decide_eq_true hleaves⟩
        next => cases hleaves
      rw [if_neg fun h => hw h.1, hy] at huw
      have hticket : u.ticket w = ⟨w, genAt s.waiters w⟩ := by
        rw [State.ticket, honly.waiters, without_gen]
      simp only [List.foldl_cons, List.foldl_nil, huw, hvolume, if_true, hticket]
      have hremoved := honly.removeWaiter w
      rw [without_remove hw hleaves] at hremoved
      refine ⟨hremoved.trans (raise_onlyEvents ..), ?_⟩
      rw [if_neg hw, State.waitEnd, hy]
      have hmore := raise_told (u.removeWaiter w) y.port p .waitEnded (.ticket ⟨w, genAt s.waiters w⟩) .waitOffline
      have hevent : (if p = y.port then [((.waitEnded, .ticket ⟨w, genAt s.waiters w⟩, .waitOffline) : Event)] else [])
          = (if y.volume = v ∧ y.port = p then some ((.waitEnded, .ticket ⟨w, genAt s.waiters w⟩, .waitOffline) : Event)
              else none).toList := by
        by_cases hp : p = y.port
        · rw [if_pos hp, if_pos ⟨hvolume, hp.symm⟩]
          rfl
        · rw [if_neg hp, if_neg fun h => hp h.2.symm]
          rfl
      rw [hevent] at hmore
      have hremovedPort : (u.removeWaiter w).port p = u.port p := by cases p <;> rfl
      exact htold.trans hsession (hmore.source (by rw [hremovedPort]) (by rw [hremovedPort]))

end Sys2Proof.Machine
end

section
/-! PROOF. The work in flight that a failed copy ends, whole (R111). -/

namespace Sys2Proof.Machine

variable {s t u : State} {v n w : Nat} {x y : Volume} {c : Copy} {a : Assignment} {i : Intent} {p : Port} {except : Option Nat}

/-! ## The stages -/

/-- The state with the copy taken out and the intents closed that wait for nothing else. -/
def State.closedOff (s : State) (v : Nat) (c : Copy) (except : Option Nat) : State := (s.dropped v c).closeComplete v except

/-- The state with the volume's assignments revoked besides. -/
def State.revokedOff (s : State) (v : Nat) (c : Copy) (except : Option Nat) : State := (s.closedOff v c except).revokeVolume v

/-- The state with the work in flight ended: of an OFFLINE volume the waiters are gone too. -/
def State.workedOff (s : State) (v : Nat) (c : Copy) (except : Option Nat) : State :=
  if (s.revokedOff v c except).condition v = .offline then (s.revokedOff v c except).removeOffline v
  else s.revokedOff v c except

theorem failProcedure_eq (hx : s.volume? v = some x) (c : Copy) (cause : EventValue) (except : Option Nat) :
    s.failProcedure v c cause except
      = if x.health (other c) = .rebuilding
        then ((s.workedOff v c except).pass.raiseAll .copyFailed (.copy v c) cause).raiseAll .copyOnline (.copy v (other c)) .zero
        else (s.workedOff v c except).pass.raiseAll .copyFailed (.copy v c) cause := by
  rw [State.failProcedure, health_of_volume? hx]
  rfl

theorem dropped_tables (hx : s.volume? v = some x) (c : Copy) : (s.dropped v c).waiters = s.waiters
    ∧ (s.dropped v c).arrival = s.arrival ∧ (s.dropped v c).assignments = s.assignments
    ∧ (s.dropped v c).pointer = s.pointer := by
  have honly := failExtents_does hx c
  refine ⟨?_, ?_, ?_, ?_⟩
  · exact (show (s.dropped v c).waiters = (s.failExtents v c).waiters from rfl).trans honly.waiters
  · exact (show (s.dropped v c).arrival = (s.failExtents v c).arrival from rfl).trans honly.arrival
  · exact (show (s.dropped v c).assignments = (s.failExtents v c).assignments from rfl).trans honly.assignments
  · exact (show (s.dropped v c).pointer = (s.failExtents v c).pointer from rfl).trans honly.pointer

theorem dropped_port (hx : s.volume? v = some x) (c : Copy) (p : Port) :
    (s.dropped v c).port p = { s.port p with events := ((s.dropped v c).port p).events } := by
  rw [State.dropped, dropReports_port]
  exact ((failExtents_does hx c).port p).trans (by rw [State.setVolume_port])

theorem dropped_elsewhere (s : State) (v : Nat) (c : Copy) : SameElsewhere s (s.dropped v c) :=
  (failExtents_elsewhere s v c).trans (dropReports_elsewhere ..)

theorem dropped_told (hx : s.volume? v = some x) (c : Copy) (p : Port) : Told s (s.dropped v c) p
    (List.replicate (entersLost x (stateAt (x.copyFailed c))) (lostOn v)) :=
  (failExtents_told hx c p).of_events (by rw [State.dropped, dropReports_port])

theorem dropped_self (hx : s.volume? v = some x) (c : Copy) : (s.dropped v c).volume? v = some (x.copyFailed c) := by
  rw [dropped_volume? hx, if_pos rfl]

theorem dropped_reports (hx : s.volume? v = some x) {k : Nat} (hi : (s.dropped v c).intent? k = some i) (hv : i.volume = v) :
    i.report c ≠ .pending ∧ i.report c ≠ .written := by
  rw [dropped_intent? hx] at hi
  obtain ⟨j, -, rfl⟩ := Option.map_eq_some_iff.1 hi
  exact droppedBy_report ((droppedBy_place v c j).2.1.symm.trans hv)

/-- The closes of the failure (R111). -/
theorem closedOff_ended (hx : s.volume? v = some x) (c : Copy) (except : Option Nat) (p : Port) :
    IntentsEnded (s.dropped v c) (s.closedOff v c except) 192 (closing v except) closeResult
      ∧ (∀ z, (s.closedOff v c except).volume? v = some z → z.Lacks c)
      ∧ ∃ es, Causes (· = lostOn v) (s.dropped v c) (s.closedOff v c except) p es :=
  closeComplete_ended (dropped_self hx c) (copyFailed_lacks x c) (copyFailed_not_rebuilding x c)
    (fun _ _ hi hv => (dropped_reports hx hi hv).2) except p

/-- The record of the volume after the closes. -/
theorem closedOff_record (hx : s.volume? v = some x) (c : Copy) (except : Option Nat) :
    ∃ y, (s.closedOff v c except).volume? v = some y
      ∧ RecordEnded (s.dropped v c) 192 (closing v except) closeResult v (x.copyFailed c) y :=
  (closedOff_ended hx c except .p0).1.present v _ (dropped_self hx c)

/-- The revocations of the failure (R95, R111). -/
theorem revokedOff_revoked (hx : s.volume? v = some x) (c : Copy) (except : Option Nat) (p : Port) :
    AssignmentsRevoked (s.closedOff v c except) (s.revokedOff v c except) 32 (fun a => decide (a.volume = v))
      ∧ (∀ z, (s.revokedOff v c except).volume? v = some z → z.Lacks c)
      ∧ ∃ es, Causes (fun _ => True) (s.closedOff v c except) (s.revokedOff v c except) p es
        ∧ es.filter (fun g => g ≠ lostOn v) = (s.closedOff v c except).assignEnds v p 32 := by
  obtain ⟨y, hy, hrecord⟩ := closedOff_record hx c except
  refine revokeVolume_revoked hy ((closedOff_ended hx c except p).2.1 y hy) (fun d => ?_) p
  rw [hrecord.health d]
  exact copyFailed_not_rebuilding x c d

theorem closedOff_assignments (hx : s.volume? v = some x) (c : Copy) (except : Option Nat) :
    (s.closedOff v c except).assignments = s.assignments :=
  (closedOff_ended hx c except .p0).1.assignments.trans (dropped_tables hx c).2.2.1

theorem revokedOff_waits (hx : s.volume? v = some x) (c : Copy) (except : Option Nat) :
    (s.revokedOff v c except).waiters = s.waiters ∧ (s.revokedOff v c except).arrival = s.arrival := by
  have hended := (closedOff_ended hx c except .p0).1
  have hrevoked := (revokedOff_revoked hx c except .p0).1
  obtain ⟨hwaiters, harrival, -, -⟩ := dropped_tables hx c
  exact ⟨hrevoked.waiters.trans (hended.waiters.trans hwaiters), hrevoked.arrival.trans (hended.arrival.trans harrival)⟩

/-- The record of the volume after the failure's work. -/
theorem revokedOff_record (hx : s.volume? v = some x) (c : Copy) (except : Option Nat) :
    ∃ y z, (s.revokedOff v c except).volume? v = some z
      ∧ RecordEnded (s.dropped v c) 192 (closing v except) closeResult v (x.copyFailed c) y
      ∧ RecordRevoked (s.closedOff v c except) 32 (fun a => decide (a.volume = v)) v y z := by
  obtain ⟨y, hy, hrecord⟩ := closedOff_record hx c except
  obtain ⟨z, hz, hrecord'⟩ := (revokedOff_revoked hx c except .p0).1.present v y hy
  exact ⟨y, z, hz, hrecord, hrecord'⟩

theorem condition_of_recount (h : x.recount = x) : x.condition = conditionOf x.copyA.health x.copyB.health :=
  congrArg Volume.condition h.symm

/-- A volume with a FAILED copy is OFFLINE when the other copy is FAILED too, else DEGRADED. -/
theorem condition_of_failed (h : x.recount = x) (hc : x.health c = .failed) :
    x.condition = if x.health (other c) = .failed then .offline else .degraded := by
  rw [condition_of_recount h]
  cases c with
  | a =>
    have hA : x.copyA.health = .failed := hc
    rw [hA]
    change conditionOf .failed x.copyB.health = if x.copyB.health = .failed then .offline else .degraded
    cases x.copyB.health <;> rfl
  | b =>
    have hB : x.copyB.health = .failed := hc
    rw [hB]
    change conditionOf x.copyA.health .failed = if x.copyA.health = .failed then .offline else .degraded
    cases x.copyA.health <;> rfl

theorem copyFailed_other_failed (x : Volume) (c : Copy) :
    (x.copyFailed c).health (other c) = .failed ↔ x.health (other c) = .failed := by
  rw [copyFailed_health_other]
  split
  next h => rw [h]; decide
  next => exact Iff.rfl

/-- The waiters that a failure removes: those of a volume that becomes OFFLINE. -/
def Volume.removes (x : Volume) (c : Copy) (s : State) : List Nat := if x.health (other c) = .failed then s.arrival else []

/-- Besides the waiters of an OFFLINE volume only events change after the revocations. -/
theorem workedOff_does (hx : s.volume? v = some x) (c : Copy) (except : Option Nat) (p : Port) :
    OnlyEvents ((s.revokedOff v c except).without (x.removes c s) v) (s.workedOff v c except)
      ∧ Told (s.revokedOff v c except) (s.workedOff v c except) p
          ((x.removes c s).eraseDups.filterMap ((s.revokedOff v c except).waitEnd v p)) := by
  obtain ⟨y, z, hz, hended, hrevoked⟩ := revokedOff_record hx c except
  have hcondition : (s.revokedOff v c except).condition v = z.condition := by rw [State.condition, hz]
  have hrecount : z.recount = z := hrevoked.recount (hended.recount (copyFailed_recount x c))
  have hhealth (d : Copy) : z.health d = (x.copyFailed c).health d := (hrevoked.health d).trans (hended.health d)
  rw [State.workedOff, hcondition, condition_of_failed hrecount ((hhealth c).trans (copyFailed_health x c)), hhealth,
    Volume.removes]
  simp only [copyFailed_other_failed]
  by_cases hoffline : x.health (other c) = .failed
  · simp only [hoffline, if_true]
    have hremoved := removeOffline_removed (s.revokedOff v c except) v p (s.revokedOff v c except).arrival
    rw [(revokedOff_waits hx c except).2] at hremoved
    rw [State.removeOffline, (revokedOff_waits hx c except).2]
    exact hremoved
  · simp only [hoffline, if_false]
    rw [without_nil]
    exact ⟨.refl _, Told.refl _ p⟩

/-! ## The tables and the counts after the failure's work -/

theorem State.picked_literal (s : State) (n : Nat) (sel : Nat → Intent → Bool) : s.picked n sel
    = (List.range n).countP fun k => match s.intent? k with
      | some i => sel k i
      | none => false := by
  refine List.countP_congr fun k _ => ?_
  cases hi : s.intent? k with
  | none => simp [picks_none hi]
  | some i => simp [picks_some hi]

theorem dropped_picked (hx : s.volume? v = some x) (c : Copy) (except : Option Nat) {g : Intent → Bool}
    (hg : ∀ i, g (droppedBy v c i) = g i) : (s.dropped v c).picked 192 (fun k i => closing v except k i && g i)
      = (List.range 192).countP fun k => match s.intent? k with
        | some i => closedByFailure v c except k i && g i
        | none => false :=
  (dropped_picks hx c except hg 192).trans (State.picked_literal ..)

theorem closedOff_intents (hsize : s.intents.length = 192) (hx : s.volume? v = some x) (c : Copy) (except : Option Nat)
    (k : Nat) : (s.closedOff v c except).intents[k]? = (s.intents[k]?).map fun (z : Slot (Option Intent)) =>
      { z with held := (z.held.filter fun i => !closedByFailure v c except k i).map (droppedBy v c) } := by
  have htable : (s.dropped v c).intents = s.intents.map fun z => { z with held := z.held.map (dropReport v c) } := by
    rw [State.dropped, State.dropReports, (failExtents_does hx c).intents, State.setVolume_intents]
  rw [(closedOff_ended hx c except .p0).1.intents k, htable, List.getElem?_map]
  cases hz : s.intents[k]? with
  | none => rfl
  | some z =>
    have hlt : k < 192 := hsize ▸ (List.getElem?_eq_some_iff.1 hz).1
    simp only [Option.map_some, hlt, decide_true, Bool.true_and]
    congr 2
    cases z.held with
    | none => rfl
    | some i =>
      simp only [Option.map_some, dropReport_eq]
      by_cases hclose : closedByFailure v c except k i = true
      · simp [Option.filter, closing_dropped, hclose]
      · simp [Option.filter, closing_dropped, hclose]

theorem closedOff_intent? (hsize : s.intents.length = 192) (hx : s.volume? v = some x) (c : Copy) (except : Option Nat)
    (k : Nat) : (s.closedOff v c except).intent? k
      = ((s.intent? k).filter fun i => !closedByFailure v c except k i).map (droppedBy v c) := by
  rw [State.intent?, heldAt, closedOff_intents hsize hx, State.intent?, heldAt]
  cases s.intents[k]? <;> rfl

/-! ## What an extent of the volume has become -/

/-- Whether the other copy is still written in the extent. -/
def State.otherWrites (s : State) (v e : Nat) (d : Copy) : Bool :=
  (List.range 192).any fun j => match s.intent? j with
    | some i => (decide (i.volume = v) && decide (i.firstExtent ≤ e) && decide (e < i.firstExtent + i.extentCount))
      && i.report d = .pending
    | none => false

/-- The pending reports after the closes: none of the failed copy, of the other one those there were (R29). -/
theorem closedOff_pending (hsize : s.intents.length = 192) (hx : s.volume? v = some x) (c : Copy) (except : Option Nat)
    (e : Nat) (d : Copy) : (s.closedOff v c except).pendingReportOn v e d
      = if d = c then false else s.otherWrites v e (other c) := by
  rw [Bool.eq_iff_iff, pendingReportOn_iff]
  split
  next hd =>
    subst hd
    refine ⟨?_, fun h => absurd h (by decide)⟩
    rintro ⟨k, i, hi, hvolume, -, hreport⟩
    rw [closedOff_intent? hsize hx] at hi
    obtain ⟨j, -, rfl⟩ := Option.map_eq_some_iff.1 hi
    exact absurd hreport (droppedBy_report ((droppedBy_place v d j).2.1.symm.trans hvolume)).1
  next hd =>
    have hother : d = other c := by cases c <;> cases d <;> simp_all [other]
    subst hother
    rw [State.otherWrites, List.any_eq_true]
    constructor
    · rintro ⟨k, i, hi, hvolume, htouch, hreport⟩
      rw [closedOff_intent? hsize hx] at hi
      obtain ⟨j, hj, rfl⟩ := Option.map_eq_some_iff.1 hi
      obtain ⟨hj, -⟩ := Option.filter_eq_some_iff.1 hj
      obtain ⟨-, hjvolume, hjtouch, hjother, -⟩ := droppedBy_place v c j
      refine ⟨k, List.mem_range.2 (hsize ▸ intent?_lt hj), ?_⟩
      rw [hj]
      dsimp only
      rw [touches_eq, ← hjvolume, hvolume, ← hjtouch, htouch, ← hjother, hreport]
      simp
    · rintro ⟨k, -, hk⟩
      split at hk
      next j hj =>
        rw [touches_eq] at hk
        simp only [Bool.and_eq_true, decide_eq_true_eq] at hk
        obtain ⟨⟨hvolume, htouch⟩, hreport⟩ := hk
        obtain ⟨-, hjvolume, hjtouch, hjother, -⟩ := droppedBy_place v c j
        have hopen : closedByFailure v c except k j = false := by
          rw [closedByFailure, hreport]
          simp
        refine ⟨k, droppedBy v c j, ?_, hjvolume.trans hvolume, (hjtouch e).trans htouch, hjother.trans hreport⟩
        rw [closedOff_intent? hsize hx, hj]
        simp [Option.filter, hopen]
      next => cases hk

theorem loseCurrency_void (c : Copy) : loseCurrency c .void = .void := rfl

theorem takenState_eq (hsize : s.intents.length = 192) (hx : s.volume? v = some x) (c : Copy) (except : Option Nat) (e : Nat)
    (st : Coherence) : takenState s v x c except e st
      = (s.closedOff v c except).revokedTo 32 (fun a => decide (a.volume = v)) v e
        ((s.dropped v c).endedState 192 (closing v except) closeResult (x.copyFailed c) v e (loseCurrency c st)) := by
  refine (List.foldl_ext _ _ _ fun st k _ => ?revoked).trans
    (congrArg (fun z => List.foldl _ z (List.range 32)) (List.foldl_ext _ _ _ fun st k _ => ?closed))
  case closed =>
    rw [dropped_intent? hx]
    cases hi : s.intent? k with
    | none => rfl
    | some i =>
      obtain ⟨-, hvolume, htouch, -, hcovered⟩ := droppedBy_place v c i
      simp only [touches_eq, Option.map_some, closing_dropped, hvolume, htouch, hcovered,
        coveredBy_of_fixed (copyFailed_settled x c).fixed]
      rw [Bool.and_comm]
  case revoked =>
    have hassignment : (s.closedOff v c except).assignment? k = s.assignment? k :=
      State.assignment?_of_assignments (closedOff_assignments hx c except) k
    rw [hassignment]
    cases ha : s.assignment? k with
    | none => rfl
    | some a =>
      change (if a.volume = v ∧ a.extent = e ∧ a.overtaken = true ∧ (a.target = c ∨ s.otherWrites v e (other c) = false)
        then loseCurrency a.target st else st) = if (_ : Bool) then (s.closedOff v c except).revokedState a st else st
      rw [revokedState_eq]
      by_cases hsel : a.volume = v ∧ a.extent = e
      · obtain ⟨rfl, rfl⟩ := hsel
        simp only [decide_true, Bool.and_self, if_true, true_and]
        cases a.overtaken
        · simp
        · simp only [if_true, overtakenRule, true_and, closedOff_pending hsize hx]
          by_cases hlose : a.target = c ∨ s.otherWrites a.volume a.extent (other c) = false
          · rw [if_pos hlose]
            have hnone : ¬ (if a.target = c then false else s.otherWrites a.volume a.extent (other c)) = true := by
              rcases hlose with h | h <;> simp [h]
            by_cases hvoid : st = .void
            · rw [if_pos (.inl hvoid), hvoid, loseCurrency_void]
            · rw [if_neg fun h => h.elim hvoid hnone]
          · obtain ⟨htarget, hwrites⟩ := not_or.1 hlose
            have hkeep : (if a.target = c then false else s.otherWrites a.volume a.extent (other c)) = true := by
              rw [if_neg htarget]
              exact eq_true_of_ne_false hwrites
            rw [if_neg hlose, if_pos (.inr hkeep)]
      · rw [if_neg fun h => hsel ⟨h.1, h.2.1⟩, if_neg]
        simp only [Bool.and_eq_true, decide_eq_true_eq]
        exact fun h => hsel h.2

end Sys2Proof.Machine
end

section
/-! PROOF. The failure procedure, whole (R111 to R114). -/

namespace Sys2Proof.Machine

variable {s t u : State} {v n w : Nat} {x y z : Volume} {c : Copy} {a : Assignment} {i : Intent} {p : Port} {except : Option Nat}

/-! ## What the removal of waiters leaves -/

theorem without_fields (s : State) (l : List Nat) (v : Nat) : (s.without l v).volumes = s.volumes
    ∧ (s.without l v).intents = s.intents ∧ (s.without l v).assignments = s.assignments
    ∧ (s.without l v).pointer = s.pointer ∧ ∀ q, (s.without l v).port q = s.port q :=
  ⟨rfl, rfl, rfl, rfl, fun q => by cases q <;> rfl⟩

theorem without_elsewhere (s : State) (l : List Nat) (v : Nat) : SameElsewhere s (s.without l v) :=
  ⟨fun p => by rw [(without_fields s l v).2.2.2.2]; exact ⟨rfl, rfl, rfl, rfl, rfl, rfl⟩,
    rfl, rfl, rfl, rfl, rfl, rfl, rfl, rfl, rfl, rfl, rfl, rfl⟩

theorem leaving_of_waiters (h : t.waiters = s.waiters) (v w : Nat) : t.leaving v w = s.leaving v w := by
  rw [State.leaving, State.leaving, State.waiter?_of_waiters h]

theorem waitEnd_of_waiters (h : t.waiters = s.waiters) (v : Nat) (p : Port) (w : Nat) : t.waitEnd v p w = s.waitEnd v p w := by
  rw [State.waitEnd, State.waitEnd, State.waiter?_of_waiters h, h]

theorem assignEnds_of_assignments (h : t.assignments = s.assignments) (v : Nat) (p : Port) (n : Nat) :
    t.assignEnds v p n = s.assignEnds v p n := by
  rw [State.assignEnds, State.assignEnds, h]
  refine List.filterMap_congr fun k _ => ?_
  rw [State.assignment?_of_assignments h]

/-- Whether the failure removes the waiter in the slot. -/
def Volume.leaves (x : Volume) (c : Copy) (s : State) (v w : Nat) : Bool :=
  decide (x.health (other c) = .failed) && match s.waiter? w with
    | some y => decide (y.volume = v)
    | none => false

theorem leaves_eq (x : Volume) (c : Copy) (s : State) (v w : Nat) :
    x.leaves c s v w = (decide (x.health (other c) = .failed) && s.leaving v w) := by
  unfold Volume.leaves State.leaving
  cases s.waiter? w <;> rfl

theorem removes_iff (x : Volume) (c : Copy) (s : State) (v w : Nat) :
    (w ∈ x.removes c s ∧ s.leaving v w = true) ↔ w ∈ s.arrival ∧ x.leaves c s v w = true := by
  rw [leaves_eq, Volume.removes]
  by_cases h : x.health (other c) = .failed <;> simp [h]

/-- The record of a volume whose copy has been failed: the copy is FAILED and current for nothing, the other copy is
ONLINE if it was REBUILDING, and the condition follows. -/
structure Volume.FailedTo (x : Volume) (c : Copy) (y : Volume) : Prop where
  fixed : y.fixed = x.fixed
  length : y.extents.length = x.extents.length
  errorsA : y.copyA.errors = x.copyA.errors
  errorsB : y.copyB.errors = x.copyB.errors
  other : y.health (other c) = if x.health (other c) = .rebuilding then .online else x.health (other c)
  condition : y.condition = if x.health (Machine.other c) = .failed then .offline else .degraded
  lacks : y.Lacks c

section Worked

variable (hsizes : TableSizes s) (hx : s.volume? v = some x) (c : Copy) (except : Option Nat)
include hx

theorem workedOff_waiters (w : Nat) : (s.workedOff v c except).waiters[w]? = (s.waiters[w]?).map fun (z : Slot WaiterEntry) =>
    if w ∈ s.arrival ∧ x.leaves c s v w = true then { z with held := .vacant } else z := by
  have honly := (workedOff_does hx c except .p0).1
  have hwaiters := (revokedOff_waits hx c except).1
  rw [honly.waiters, State.without, List.getElem?_mapIdx, hwaiters]
  simp only [leaving_of_waiters hwaiters, removes_iff]

theorem workedOff_arrival : (s.workedOff v c except).arrival = s.arrival.filter fun w => !x.leaves c s v w := by
  have honly := (workedOff_does hx c except .p0).1
  obtain ⟨hwaiters, harrival⟩ := revokedOff_waits hx c except
  rw [honly.arrival, State.without, harrival]
  refine List.filter_congr fun w hw => ?_
  rw [leaving_of_waiters hwaiters, leaves_eq, Volume.removes]
  by_cases h : x.health (other c) = .failed <;> simp [h, hw]

/-- A waiter that is left waits as it did. -/
theorem workedOff_waiter? {w : Nat} {y : Waiter} (hw : (s.workedOff v c except).waiter? w = some y) : s.waiter? w = some y := by
  rw [State.waiter?, State.waiterEntry, workedOff_waiters hx] at hw
  rw [State.waiter?, State.waiterEntry]
  cases hz : s.waiters[w]? with
  | none => rw [hz] at hw; exact hw
  | some z =>
    rw [hz, Option.map_some] at hw
    by_cases hleaves : w ∈ s.arrival ∧ x.leaves c s v w = true
    · rw [if_pos hleaves] at hw
      cases hw
    · rw [if_neg hleaves] at hw
      exact hw

theorem workedOff_gen (w : Nat) : genAt (s.workedOff v c except).waiters w = genAt s.waiters w := by
  rw [genAt, genAt, workedOff_waiters hx]
  cases s.waiters[w]? with
  | none => rfl
  | some z =>
    dsimp only [Option.map_some]
    split <;> rfl

theorem workedOff_elsewhere : SameElsewhere s (s.workedOff v c except) :=
  ((((dropped_elsewhere s v c).trans (closedOff_ended hx c except .p0).1.elsewhere).trans
    (revokedOff_revoked hx c except .p0).1.elsewhere).trans (without_elsewhere ..)).trans
    (workedOff_does hx c except .p0).1.sameElsewhere

theorem workedOff_volume? (w : Nat) : (s.workedOff v c except).volume? w = (s.revokedOff v c except).volume? w :=
  ((workedOff_does hx c except .p0).1.volume? w).trans (State.volume?_of_volumes (without_fields _ _ _).1 w)

theorem workedOff_others : OthersSame s (s.workedOff v c except) v := by
  intro w hw
  rw [workedOff_volume? hx, (revokedOff_revoked hx c except .p0).1.untouched w fun k a _ ha => ?_,
    (closedOff_ended hx c except .p0).1.untouched w fun k i _ hi => ?_, dropped_volume? hx, if_neg hw]
  · rw [closing, Bool.and_eq_true, Bool.and_eq_true] at hi
    exact fun h => hw (h.symm.trans (of_decide_eq_true hi.1.1))
  · exact fun h => hw (h.symm.trans (of_decide_eq_true ha))

theorem workedOff_tables : (s.workedOff v c except).intents = (s.closedOff v c except).intents
    ∧ (s.workedOff v c except).assignments = (s.revokedOff v c except).assignments
    ∧ (s.workedOff v c except).pointer = s.pointer := by
  have honly := (workedOff_does hx c except .p0).1
  have hrevoked := (revokedOff_revoked hx c except .p0).1
  have hended := (closedOff_ended hx c except .p0).1
  obtain ⟨-, hintents, hassignments, hpointer, -⟩ := without_fields (s.revokedOff v c except) (x.removes c s) v
  exact ⟨honly.intents.trans (hintents.trans hrevoked.intents), honly.assignments.trans hassignments,
    honly.pointer.trans (hpointer.trans (hrevoked.pointer.trans (hended.pointer.trans (dropped_tables hx c).2.2.2)))⟩

/-- The volume's record after the failure's work. -/
theorem workedOff_failed : ∃ y, (s.workedOff v c except).volume? v = some y ∧ x.FailedTo c y := by
  obtain ⟨y, z, hz, hended, hrevoked⟩ := revokedOff_record hx c except
  have hlacks := (revokedOff_revoked hx c except .p0).2.1 z hz
  have hsettled := copyFailed_settled x c
  have hlength : (x.copyFailed c).extents.length = x.extents.length := by rw [copyFailed_extents, mapExtents_length]
  have hhealth (d : Copy) : z.health d = (x.copyFailed c).health d := (hrevoked.health d).trans (hended.health d)
  have hrecount : z.recount = z := hrevoked.recount (hended.recount (copyFailed_recount x c))
  refine ⟨z, (workedOff_volume? hx c except v).trans hz, hrevoked.fixed.trans (hended.fixed.trans hsettled.fixed),
    hrevoked.length.trans (hended.length.trans hlength), hrevoked.errorsA.trans (hended.errorsA.trans hsettled.errorsA),
    hrevoked.errorsB.trans (hended.errorsB.trans hsettled.errorsB), (hhealth _).trans (copyFailed_health_other x c), ?_, hlacks⟩
  rw [condition_of_failed hrecount hlacks.health, hhealth]
  simp only [copyFailed_other_failed]

include hsizes

theorem workedOff_assignments : (s.workedOff v c except).assignments
    = s.assignments.map fun z => { z with held := z.held.filter fun a => a.volume ≠ v } := by
  obtain ⟨-, -, -, hsize, -⟩ := hsizes
  rw [(workedOff_tables hx c except).2.1]
  refine filtered_table hsize _ fun k => ?_
  rw [(revokedOff_revoked hx c except .p0).1.assignments k, closedOff_assignments hx]
  simp

/-- The number of closed intents of a selection, as the model of the failure counts it. -/
def State.closedCount (s : State) (v : Nat) (c : Copy) (except : Option Nat) (g : Intent → Bool) : Nat :=
  (List.range 192).countP fun k => match s.intent? k with
    | some i => closedByFailure v c except k i && g i
    | none => false

theorem workedOff_port (p : Port) : (s.workedOff v c except).port p = { s.port p with
    intents := (s.port p).intents - s.closedCount v c except fun i => decide (i.port = p)
    assignments := (s.port p).assignments - s.assignments.countP fun z => match z.held with
      | some a => decide (a.port = p) && decide (a.volume = v)
      | none => false
    events := ((s.workedOff v c except).port p).events } := by
  have honly := (workedOff_does hx c except p).1
  have hclosed : (s.dropped v c).picked 192 (fun k i => closing v except k i && decide (i.port = p))
      = s.closedCount v c except fun i => decide (i.port = p) :=
    dropped_picked hx c except fun i => by rw [(droppedBy_place v c i).1]
  have htaken : (s.closedOff v c except).takenBack 32 (fun a => decide (a.volume = v) && decide (a.port = p))
      = s.takenBack 32 fun a => decide (a.port = p) && decide (a.volume = v) := by
    refine List.countP_congr fun k _ => ?_
    rw [State.takesBack, State.takesBack, State.assignment?_of_assignments (closedOff_assignments hx c except)]
    simp only [Bool.and_comm]
  refine (honly.port p).trans ?_
  rw [(without_fields _ _ _).2.2.2.2, (revokedOff_revoked hx c except p).1.ports p, (closedOff_ended hx c except p).1.ports p,
    dropped_port hx, hclosed, htaken, takenBack_eq_countP hsizes.2.2.2.1] <;> rfl

/-- The counts, the states and the links of the volume after the failure's work. -/
theorem workedOff_record (hz : (s.workedOff v c except).volume? v = some z) : z.recount = z
    ∧ z.openIntents = x.openIntents - s.closedCount v c except (fun _ => true)
    ∧ ∀ e k, x.extents[e]? = some k → ∃ k', z.extents[e]? = some k' ∧ k'.state = takenState s v x c except e k.state
        ∧ k'.openCount = k.openCount - s.closedCount v c except (fun i => i.touches e)
        ∧ ((∃ slot a, s.assignment? slot = some a ∧ a.volume = v ∧ a.extent = e) → k'.link = none)
        ∧ ((¬ ∃ slot a, s.assignment? slot = some a ∧ a.volume = v ∧ a.extent = e) → k'.link = k.link) := by
  obtain ⟨-, hintents, -, hassignments, -⟩ := hsizes
  obtain ⟨y, z', hz', hended, hrevoked⟩ := revokedOff_record hx c except
  obtain rfl := Option.some.inj (hz.symm.trans ((workedOff_volume? hx c except v).trans hz'))
  have hsettled := copyFailed_settled x c
  refine ⟨hrevoked.recount (hended.recount (copyFailed_recount x c)), ?openIntents, fun e k hk => ?extent⟩
  case openIntents =>
    have hcount : (s.dropped v c).picked 192 (fun k i => closing v except k i && decide (i.volume = v))
        = s.closedCount v c except fun _ => true := by
      refine (dropped_picked hx c except fun i => by rw [(droppedBy_place v c i).2.1]).trans (List.countP_congr fun k _ => ?_)
      cases s.intent? k with
      | none => exact Iff.rfl
      | some i =>
        by_cases hv : i.volume = v <;> simp [closedByFailure, hv]
    rw [hrevoked.openIntents, hended.openIntents, hcount, hsettled.openIntents]
  case extent =>
    have hcount : (s.dropped v c).picked 192 (fun k i => closing v except k i && (decide (i.volume = v) && i.touches e))
        = s.closedCount v c except fun i => i.touches e := by
      refine (dropped_picked hx c except fun i => by rw [(droppedBy_place v c i).2.1, (droppedBy_place v c i).2.2.1]).trans
        (List.countP_congr fun k _ => ?_)
      cases s.intent? k with
      | none => exact Iff.rfl
      | some i =>
        by_cases hv : i.volume = v <;> simp [closedByFailure, hv]
    have hsize : (s.closedOff v c except).assignments.length = 32 := by rw [closedOff_assignments hx, hassignments]
    have hlinked : (s.closedOff v c except).takenBack 32
        (fun a => decide (a.volume = v) && (decide (a.volume = v) && decide (a.extent = e))) = 0
        ↔ ¬ ∃ slot a, s.assignment? slot = some a ∧ a.volume = v ∧ a.extent = e := by
      rw [takenBack_eq_zero_iff hsize.le]
      constructor
      · rintro h ⟨slot, a, ha, hvolume, hextent⟩
        have hnot := h slot a ((State.assignment?_of_assignments (closedOff_assignments hx c except) slot).trans ha)
        simp [hvolume, hextent] at hnot
      · intro h slot a ha
        rw [State.assignment?_of_assignments (closedOff_assignments hx c except)] at ha
        by_contra hsel
        simp only [Bool.not_eq_false, Bool.and_eq_true, decide_eq_true_eq] at hsel
        exact h ⟨slot, a, ha, hsel.2⟩
    have hfailed : (x.copyFailed c).extents[e]? = some { k with state := loseCurrency c k.state } := by
      rw [copyFailed_extents, mapExtents_getElem?, hk]
      rfl
    refine ⟨_, hrevoked.extent e _ (hended.extent e _ hfailed), ?_, ?_, fun hheld => ?_, fun hnot => ?_⟩
    · dsimp only
      rw [takenState_eq hintents hx]
    · dsimp only
      rw [hcount]
    · dsimp only
      rw [if_neg fun h => hlinked.1 h hheld]
    · dsimp only
      rw [if_pos (hlinked.2 hnot)]

/-- The work in flight that the failure ends, whole (R111). -/
theorem workedOff_worked : FailureWorked s (s.workedOff v c except) v x c except := by
  obtain ⟨hintents, -, hpointer⟩ := workedOff_tables hx c except
  obtain ⟨y, hy, hfailed⟩ := workedOff_failed hx c except
  obtain ⟨hrecount, hopen, hextents⟩ := workedOff_record hsizes hx c except hy
  exact ⟨workedOff_elsewhere hx c except, workedOff_others hx c except, hpointer,
    fun k => (congrArg (·[k]?) hintents).trans (closedOff_intents hsizes.2.1 hx c except k),
    workedOff_assignments hsizes hx c except, workedOff_waiters hx c except, workedOff_arrival hx c except,
    workedOff_port hsizes hx c except, y, hy, hfailed.fixed, hfailed.errorsA, hfailed.errorsB, hopen, hfailed.lacks.health,
    hfailed.other, hrecount, hfailed.length, hextents⟩

end Worked

end Sys2Proof.Machine
end

section
/-! PROOF. The failure procedure after the work in flight (R111, R112): its pass, and what each port is told. -/

namespace Sys2Proof.Machine

variable {s t u m : State} {v n w : Nat} {x y z : Volume} {c : Copy} {a : Assignment} {i : Intent} {p : Port}
  {except : Option Nat} {cause : EventValue}

/-! ## The pass -/

theorem Volume.FailedTo.granted (h : x.FailedTo c y) (g : y.GrantedTo z) : x.FailedTo c z where
  fixed := g.fixed.trans h.fixed
  length := g.extents_length.trans h.length
  errorsA := (congrArg CopyRecord.errors (g.copy .a)).trans h.errorsA
  errorsB := (congrArg CopyRecord.errors (g.copy .b)).trans h.errorsB
  other := (g.health _).trans h.other
  condition := g.condition.trans h.condition
  lacks := ⟨(g.health c).trans h.lacks.health, fun k hk => by
    have hstate := List.mem_map_of_mem (f := Extent.state) hk
    rw [g.2] at hstate
    obtain ⟨k', hk', hsame⟩ := List.mem_map.1 hstate
    rw [← hsame]
    exact h.lacks.states k' hk'⟩

/-- The error counter of each copy is the one before the failure. -/
theorem Volume.FailedTo.errors (h : x.FailedTo c y) (d : Copy) : (y.copy d).errors = (x.copy d).errors := by
  cases d
  · exact h.errorsA
  · exact h.errorsB

/-- After the pass only events are raised. -/
theorem failProcedure_events (hx : s.volume? v = some x) (c : Copy) (cause : EventValue) (except : Option Nat) :
    OnlyEvents (s.workedOff v c except).pass (s.failProcedure v c cause except) := by
  rw [failProcedure_eq hx]
  split
  next => exact (raiseAll_onlyEvents ..).trans (raiseAll_onlyEvents ..)
  next => exact raiseAll_onlyEvents ..

theorem failProcedure_failed (hx : s.volume? v = some x) (c : Copy) (cause : EventValue) (except : Option Nat) :
    ∃ y, (s.failProcedure v c cause except).volume? v = some y ∧ x.FailedTo c y := by
  obtain ⟨y, hy, hfailed⟩ := workedOff_failed hx c except
  obtain ⟨z, hz, hgranted⟩ := ((pass_grantsOnly (s.workedOff v c except)).volumes v).2 y hy
  exact ⟨z, ((failProcedure_events hx c cause except).volume? v).trans hz, hfailed.granted hgranted⟩

/-- The other volumes: what a pass leaves of them. -/
theorem failProcedure_others (hx : s.volume? v = some x) (c : Copy) (cause : EventValue) (except : Option Nat) :
    OthersKept s (s.failProcedure v c cause except) v := by
  intro w hw
  have hsame := workedOff_others hx c except w hw
  have hgrants := (pass_grantsOnly (s.workedOff v c except)).volumes w
  refine ⟨fun hn => ?_, fun k hk => ?_⟩ <;> rw [(failProcedure_events hx c cause except).volume? w]
  · exact hgrants.1 (hsame.trans hn)
  · exact hgrants.2 k (hsame.trans hk)

/-- The intent that the failure leaves to its own report (R111) stays, its report on the failed copy dropped. -/
theorem failProcedure_excepted (hx : s.volume? v = some x) (c : Copy) (cause : EventValue) {k : Nat} (hi : s.intent? k = some i) :
    (s.failProcedure v c cause (some k)).intents[k]? = some ⟨genAt s.intents k, some (droppedBy v c i)⟩ := by
  have hclosed := (closedOff_ended hx c (some k) .p0).1.intents k
  have hdropped := dropped_intent? hx c k
  obtain ⟨g, hg, hheld⟩ := heldAt_some ((dropped_intent? hx c k).trans (congrArg (Option.map _) hi))
  have htable : (s.dropped v c).intents = s.intents.map fun z => { z with held := z.held.map (dropReport v c) } := by
    rw [State.dropped, State.dropReports, (failExtents_does hx c).intents, State.setVolume_intents]
  have hgen : g.gen = genAt s.intents k := by
    rw [htable, List.getElem?_map] at hg
    obtain ⟨z, hz, rfl⟩ := Option.map_eq_some_iff.1 hg
    rw [genAt, hz]
  have hkept : (s.workedOff v c (some k)).intents[k]? = some ⟨genAt s.intents k, some (droppedBy v c i)⟩ := by
    rw [(workedOff_tables hx c (some k)).1, hclosed, hg, Option.map_some, hheld, ← hgen]
    simp [Option.filter, closing]
  rw [(failProcedure_events hx c cause (some k)).intents]
  exact (pass_grantsOnly _).intents k _ hkept rfl

/-! ## No report on the failed copy is wanted any more (R111) -/

/-- The copy of the volume is FAILED, and no intent of the volume waits for its report or has it WRITTEN. -/
structure Unwritten (s : State) (v : Nat) (c : Copy) : Prop where
  failed : ∀ y, s.volume? v = some y → y.health c = .failed
  reports : ∀ k i, s.intent? k = some i → i.volume = v → i.report c ≠ .pending ∧ i.report c ≠ .written

theorem newIntent_report (s : State) (p : Port) (epoch : Word16) (v first count : Nat) (h : x.health c = .failed) :
    (s.newIntent p epoch v x first count).report c = .notRequired := by
  cases c
  · exact if_pos h
  · exact if_pos h

theorem Unwritten.visit (h : Unwritten s v c) (w : Nat) : Unwritten (s.visit w) v c where
  failed y hy := by
    cases hx : s.volume? v with
    | none =>
      rw [((visit_grantsOnly s w).volumes v).1 hx] at hy
      cases hy
    | some x =>
      obtain ⟨z, hz, hgranted⟩ := ((visit_grantsOnly s w).volumes v).2 x hx
      obtain rfl := Option.some.inj (hy.symm.trans hz)
      exact (hgranted.health c).trans (h.failed x hx)
  reports k i hi hv := by
    rcases visit_cases s w with hsame | ⟨y, slot, vol, hw, hg, hvol⟩
    · rw [hsame] at hi
      exact h.reports k i hi hv
    · obtain ⟨hlt, -, -⟩ := lowestFree_spec (grantable_free hg)
      rw [State.intent?, visit_intent hw hg hvol, heldAt_place hlt] at hi
      split at hi
      next =>
        obtain rfl := Option.some.inj hi
        have hv' : y.volume = v := hv
        rw [hv'] at hvol
        rw [newIntent_report _ _ _ _ _ _ (h.failed vol hvol)]
        decide
      next => exact h.reports k i hi hv

theorem Unwritten.pass (h : Unwritten s v c) : Unwritten s.pass v c :=
  foldl_keeps (R := fun s t => Unwritten s v c → Unwritten t v c) (fun _ => id) (fun _ _ _ h k hs => k (h hs))
    (fun _ w hs => hs.visit w) s.arrival s h

theorem workedOff_unwritten (hintents : s.intents.length = 192) (hx : s.volume? v = some x) (c : Copy) (except : Option Nat) :
    Unwritten (s.workedOff v c except) v c where
  failed y hy := by
    obtain ⟨z, hz, hfailed⟩ := workedOff_failed hx c except
    obtain rfl := Option.some.inj (hy.symm.trans hz)
    exact hfailed.lacks.health
  reports k i hi hv := by
    rw [State.intent?_of_intents (workedOff_tables hx c except).1, closedOff_intent? hintents hx] at hi
    obtain ⟨j, -, rfl⟩ := Option.map_eq_some_iff.1 hi
    exact droppedBy_report ((droppedBy_place v c j).2.1.symm.trans hv)

/-! ## What each port is told (R112) -/

theorem assignEnds_literal (s : State) (v : Nat) (p : Port) : s.assignEnds v p 32
    = (List.range 32).filterMap fun slot => match s.assignment? slot with
      | some a => if a.volume = v ∧ a.port = p
        then some (.assignEnded, .assignment ⟨slot, genAt s.assignments slot⟩, .assignCopyFailed) else none
      | none => none := by
  refine List.filterMap_congr fun k _ => ?_
  cases s.assignment? k <;> rfl

/-- WAIT_ENDED of the waiters removed, where the volume becomes OFFLINE. -/
theorem removes_waitEnds (x : Volume) (c : Copy) (s : State) (v : Nat) (p : Port) :
    (x.removes c s).eraseDups.filterMap (s.waitEnd v p)
      = s.arrival.eraseDups.filterMap fun w => match s.waiter? w with
        | some y => if x.health (other c) = .failed ∧ y.volume = v ∧ y.port = p
          then some (.waitEnded, .ticket ⟨w, genAt s.waiters w⟩, .waitOffline) else none
        | none => none := by
  rw [Volume.removes]
  by_cases h : x.health (other c) = .failed
  · rw [if_pos h]
    refine List.filterMap_congr fun w _ => ?_
    rw [State.waitEnd]
    cases s.waiter? w <;> simp [h]
  · rw [if_neg h]
    refine (List.filterMap_eq_nil_iff.2 fun w _ => ?_).symm
    cases s.waiter? w <;> simp [h]

theorem stateAt_copyFailed (x : Volume) (c : Copy) : stateAt (x.copyFailed c) = fun e => loseCurrency c (stateAt x e) := by
  funext e
  rw [stateAt, stateAt, List.getD_eq_getElem?_getD, List.getD_eq_getElem?_getD, copyFailed_extents, mapExtents_getElem?]
  cases x.extents[e]? <;> rfl

theorem lost_within (hx : s.volume? v = some x) (c : Copy) (except : Option Nat) (hy : (s.workedOff v c except).volume? v = some y)
    {es : List Event} (hcauses : Causes (fun _ => True) (s.dropped v c) (s.revokedOff v c except) p es) :
    entersLost x (stateAt y) ≤ entersLost x (stateAt (x.copyFailed c)) + es.count (lostOn v) := by
  have hlength : (x.copyFailed c).extents.length = x.extents.length := by rw [copyFailed_extents, mapExtents_length]
  have hlater := hcauses.lost v _ y (dropped_self hx c) ((workedOff_volume? hx c except v).symm.trans hy)
  exact (entersLost_triangle hlength).trans (Nat.add_le_add_left hlater _)

/-- Up to the pass each port is told what the failure raises, in its order (R112). -/
theorem workedOff_told (hx : s.volume? v = some x) (c : Copy) (except : Option Nat)
    (hy : (s.workedOff v c except).volume? v = some y) (hstates : stateAt z = stateAt y) (p : Port) :
    ∃ told, FailureTells s v x z c p told ∧ Told s (s.workedOff v c except) p told := by
  obtain ⟨hclosed, -, es, hes⟩ := closedOff_ended hx c except p
  obtain ⟨-, -, fs, hfs, hends⟩ := revokedOff_revoked hx c except p
  have hcauses := (hes.weaken (R' := fun _ => True) fun _ _ => trivial).trans hfs (hclosed.elsewhere.1 p).1 hclosed.keepsExtents
  have htold := (workedOff_does hx c except p).2
  have hsession := ((dropped_elsewhere s v c).1 p).1
  have hwaits := removes_waitEnds x c s v p
  rw [List.filterMap_congr fun w _ => (waitEnd_of_waiters (revokedOff_waits hx c except).1 v p w).symm] at hwaits
  rw [assignEnds_of_assignments (closedOff_assignments hx c except), assignEnds_literal] at hends
  rw [hwaits] at htold
  have hsession' := (((dropped_elsewhere s v c).trans hclosed.elsewhere).trans
    (revokedOff_revoked hx c except p).1.elsewhere).1 p
  have hfirst : entersLost x (stateAt (x.copyFailed c)) = entersLost x fun e => loseCurrency c (stateAt x e) :=
    by rw [stateAt_copyFailed]
  refine ⟨_, ⟨es ++ fs, rfl, ?_, ?_⟩, ?_⟩
  · rw [List.filter_append]
    exact (congrArg (· ++ _) (filter_lost hes.kinds)).trans hends
  · rw [hstates, List.count_append, List.count_append, ← hfirst]
    refine (lost_within hx c except hy hcauses).trans ((Nat.add_le_add_right ?_ _).trans (Nat.le_add_right _ _))
    exact (List.count_replicate_self (a := lostOn v)).ge
  · rw [← hfirst]
    exact ((dropped_told hx c p).trans hsession hcauses.told).trans hsession'.1 htold

/-! ## The procedure, whole -/

theorem workedOff_waitersPresent (hx : s.volume? v = some x) (c : Copy) (except : Option Nat) (h : ArrivalAgrees s) :
    WaitersPresent (s.workedOff v c except) := by
  intro k y hy
  have hpresent := h.2.2 k y (workedOff_waiter? hx c except hy)
  by_cases hv : y.volume = v
  · obtain ⟨z, hz, -⟩ := workedOff_failed hx c except
    rw [hv, hz]
    rfl
  · rw [workedOff_others hx c except _ hv]
    exact hpresent

/-- Later events alone finish what a pass has left. -/
theorem OnlyEvents.finishes {last : Port → List Event} (h : OnlyEvents u t) (htold : ∀ p, Told u t p (last p)) :
    Finishes u t last where
  volumes := h.volumes
  intents := h.intents
  waiters := h.waiters
  arrival := h.arrival
  session := h.session
  count := h.intentCount
  told := htold

/-- COPY_FAILED and, of a copy that was REBUILDING, COPY_ONLINE come last (R112). -/
theorem failProcedure_last (hx : s.volume? v = some x) (c : Copy) (cause : EventValue) (except : Option Nat) (p : Port) :
    Told (s.workedOff v c except).pass (s.failProcedure v c cause except) p ([(.copyFailed, .copy v c, cause)]
      ++ if x.health (other c) = .rebuilding then [(.copyOnline, .copy v (other c), .zero)] else []) := by
  rw [failProcedure_eq hx]
  split
  next => exact (raiseAll_told ..).trans ((raiseAll_onlyEvents _ _ _ _).session p) (raiseAll_told ..)
  next => exact raiseAll_told ..

/-- A waiter that the pass grants waited before the failure. -/
theorem GrantTold.before_failure (hx : s.volume? v = some x) {g : Event} (h : GrantTold (s.workedOff v c except) t p g) :
    GrantTold s t p g := by
  obtain ⟨w, y, tag, i, hin, hw, hport, hentry, hi, hgen, hiport, hepoch, hvolume, hfirst, hcount, hg⟩ := h
  rw [workedOff_gen hx] at hg
  rw [workedOff_arrival hx] at hin
  exact ⟨w, y, tag, i, (List.mem_filter.1 hin).1, workedOff_waiter? hx c except hw, hport, hentry, hi, hgen, hiport, hepoch,
    hvolume, hfirst, hcount, hg⟩

/-- Where nothing but the loss of currency reaches an extent, it keeps the state that leaves. -/
theorem takenState_of_untouched {e : Nat}
    (hintents : ∀ slot i, s.intent? slot = some i → i.volume = v → i.firstExtent ≤ e → e < i.firstExtent + i.extentCount →
      except ≠ some slot → i.report (other c) = .pending)
    (hassignments : ∀ slot a, s.assignment? slot = some a → a.volume = v → a.extent = e → a.overtaken = false)
    (st : Coherence) : takenState s v x c except e st = loseCurrency c st := by
  unfold takenState
  dsimp only
  refine Eq.trans (congrArg (fun z => List.foldl _ z (List.range 32)) (List.foldl_fixed' (a := loseCurrency c st)
    (fun k => ?closed) (List.range 192))) (List.foldl_fixed' (fun k => ?revoked) _)
  case closed =>
    cases hi : s.intent? k with
    | none => rfl
    | some i =>
      refine if_neg fun hboth => ?_
      rw [closedByFailure] at hboth
      simp only [Bool.and_eq_true, decide_eq_true_eq] at hboth
      obtain ⟨⟨⟨hv, hlow⟩, hhigh⟩, ⟨-, hreport⟩, hexcept⟩ := hboth
      exact hreport (hintents k i hi hv hlow hhigh hexcept)
  case revoked =>
    cases ha : s.assignment? k with
    | none => rfl
    | some a =>
      refine if_neg fun ⟨hv, he, hovertaken, _⟩ => ?_
      rw [hassignments k a ha hv he] at hovertaken
      cases hovertaken

/-- The failure procedure takes the copy out, whole (R111, R112). -/
theorem failProcedure_takenOut (hsizes : TableSizes s) (hx : s.volume? v = some x) (c : Copy) (cause : EventValue)
    (except : Option Nat) (hz : (s.failProcedure v c cause except).volume? v = some z) (hfailed : x.FailedTo c z) :
    TakenOut s (s.failProcedure v c cause except) v x z c cause except := by
  have hevents := failProcedure_events hx c cause except
  obtain ⟨y, hy, -⟩ := workedOff_failed hx c except
  obtain ⟨z', hz', hgranted⟩ := ((pass_grantsOnly (s.workedOff v c except)).volumes v).2 y hy
  obtain rfl := Option.some.inj (hz.symm.trans ((hevents.volume? v).trans hz'))
  have hfinish := hevents.finishes (failProcedure_last hx c cause except)
  have hreports := (workedOff_unwritten hsizes.2.1 hx c except).pass.reports
  refine ⟨⟨_, workedOff_worked hsizes hx c except, failProcedure_eq hx c cause except, fun p => ?told⟩,
    fun hagree => hfinish.noneGrantable (pass_noneGrantable (workedOff_waitersPresent hx c except hagree)), hz, hfailed.fixed,
    hfailed.length, hfailed.errorsA, hfailed.errorsB, hfailed.lacks.health, hfailed.other, hfailed.condition,
    hfailed.lacks.states, fun e k hk hintents hassignments => ?state,
    fun slot i hi => hreports slot i ((hevents.intent? slot).symm.trans hi), fun slot a ha hv => ?assignments,
    fun hoffline w k hw hk hv => ?waiters, failProcedure_others hx c cause except, failProcedure_elsewhere ..⟩
  case told =>
    obtain ⟨told, htells, htold⟩ := workedOff_told hx c except hy hgranted.stateAt_eq p
    obtain ⟨grants, hall, hpass⟩ := pass_told (s.workedOff v c except) p
    refine ⟨told, grants, htells, fun g hg => hfinish.grantTold ((hall g hg).before_failure hx), htold, ?_⟩
    have hsession := ((workedOff_elsewhere hx c except).1 p).1
    have hlast := (htold.trans hsession hpass).trans
      ((((pass_grantsOnly (s.workedOff v c except)).elsewhere.1 p).1).trans hsession) (failProcedure_last hx c cause except p)
    rwa [← List.append_assoc] at hlast
  case state =>
    obtain ⟨-, -, hextents⟩ := workedOff_record hsizes hx c except hy
    obtain ⟨k', hk', hst, -⟩ := hextents e k hk
    rw [hgranted.stateAt_eq, stateAt, List.getD_eq_getElem?_getD, hk', ← takenState_of_untouched hintents hassignments]
    exact hst
  case assignments =>
    rw [hevents.assignment?] at ha
    obtain ⟨b, hb, -, hvolume, -⟩ := pass_assignment? ha
    rw [State.assignment?, workedOff_assignments hsizes hx, heldAt_map _ (Option.filter _) rfl] at hb
    obtain ⟨-, hnot⟩ := Option.filter_eq_some_iff.1 hb
    exact (of_decide_eq_true hnot) (hvolume.symm.trans hv)
  case waiters =>
    rw [hfailed.condition] at hoffline
    rw [hevents.arrival] at hw
    rw [hevents.waiter?] at hk
    have hback := workedOff_waiter? hx c except (foldl_visit_back hk)
    have hin := (pass_grantsOnly _).arrival.subset hw
    rw [workedOff_arrival hx, List.mem_filter, leaves_eq, State.leaving, hback] at hin
    split at hoffline
    next hother => simp [hother, hv] at hin
    next => cases hoffline

end Sys2Proof.Machine
end

section
/-! PROOF. FAIL_COPY (R110), and a charge of an error counter (R107, R108). -/

namespace Sys2Proof.Machine

variable {s t u m : State} {v : Nat} {x y z : Volume} {c : Copy} {except : Option Nat}

/-! ## The sizes of the tables -/

theorem begun_tableSizes (r : Request) (h : TableSizes s) : TableSizes (begun s r) := by
  obtain ⟨hvolumes, hintents, hwaiters, hassignments, hevents, hpointer⟩ := h
  exact ⟨by rw [begun_volumes]; exact hvolumes, by rw [begun_intents]; exact hintents, by rw [begun_waiters]; exact hwaiters,
    by rw [begun_assignments]; exact hassignments, fun p => by rw [begun_eventConfig]; exact hevents p,
    by rw [begun_pointer]; exact hpointer⟩

theorem TableSizes.setVolume (h : TableSizes s) (v : Nat) (x : Option Volume) : TableSizes (s.setVolume v x) := by
  obtain ⟨hvolumes, hintents, hwaiters, hassignments, hevents, hpointer⟩ := h
  exact ⟨(List.length_set ..).trans hvolumes, hintents, hwaiters, hassignments,
    fun p => by rw [State.setVolume_port]; exact hevents p, hpointer⟩

theorem TableSizes.onlyEvents (h : TableSizes s) (k : OnlyEvents s t) : TableSizes t := by
  obtain ⟨hvolumes, hintents, hwaiters, hassignments, hevents, hpointer⟩ := h
  exact ⟨k.volumes ▸ hvolumes, k.intents ▸ hintents, k.waiters ▸ hwaiters, k.assignments ▸ hassignments,
    fun p => by rw [k.session]; exact hevents p, k.pointer ▸ hpointer⟩

/-! ## FAIL_COPY (R110) -/

theorem condition_of_volume? (h : s.volume? v = some x) : s.condition v = x.condition := by
  rw [State.condition, h]

theorem ownFailCopy_named {p : Port} {ps : List Byte} (hv : field ps 0 1 ≤ 15) (hx : s.volume? (field ps 0 1) = some x)
    (hc : byteAt ps 1 = c.code) : ownFailCopy p ps s =
      if x.health c = .failed then (s, .bare .badState)
      else
        let t := s.failProcedure (field ps 0 1) c .failRequest none
        (t, ⟨.ok, [(t.health (field ps 0 1) .a).code, (t.health (field ps 0 1) .b).code, (t.condition (field ps 0 1)).code]⟩) := by
  rw [ownFailCopy, withCopy_named _ hv hx hc]

/-- Settles O44: the checks of the copy byte and of its health, then the failure procedure whole. -/
theorem failCopyTakesCopyOut : Obligations.FailCopyTakesCopyOut := by
  intro r s x admitted hlen hsizes v hv hx
  have hbegun : (begun s r).volume? v = some x := (begun_volume? s r v).trans hx
  have concludes {t : State} {st : Status} {results : List Byte}
      (h : ownFailCopy r.port r.params (begun s r) = (t, ⟨st, results⟩)) :
      exec (.failCopy r) s = .next (concluded t r 0x30 st results) :=
    next_of_own admitted rfl (by rw [hlen]; rfl) h
  refine ⟨fun ha hb => concludes (withCopy_badCopy _ hv hbegun ha hb), fun c hc => ?_⟩
  have hown := ownFailCopy_named (p := r.port) hv hbegun hc
  refine ⟨fun hfailed => concludes (hown.trans (if_pos hfailed)), fun hhealth => ?_⟩
  obtain ⟨z, hz, hfailed⟩ := failProcedure_failed hbegun c .failRequest none
  refine ⟨_, z, failProcedure_takenOut (begun_tableSizes r hsizes) hbegun c .failRequest none hz hfailed, ?_⟩
  rw [← health_of_volume? (c := .a) hz, ← health_of_volume? (c := .b) hz, ← condition_of_volume? hz]
  exact concludes (hown.trans (if_neg hhealth))

/-! ## A charge (R107, R108) -/

theorem charge_eq_chargedRecord (x : Volume) (c : Copy) : x.charge c = chargedRecord x c := rfl

theorem chargeFails_iff (x : Volume) (c : Copy) : (chargedRecord x c).failsAt c = true ↔ ChargeFails x c := by
  rw [← charge_eq_chargedRecord]
  have hthreshold : (x.charge c).threshold = x.threshold := by cases c <;> rfl
  simp only [Volume.failsAt, ChargeFails, hthreshold, charge_errors_self, charge_health, Bool.and_eq_true, decide_eq_true_eq]
  tauto

/-- The charge reads nothing of the extents, and no health but FAILED. -/
theorem chargeFails_settled (hfixed : y.fixed = x.fixed) (herrors : (y.copy c).errors = (x.copy c).errors)
    (hhealths : HealthsSettled x y) : ChargeFails y c ↔ ChargeFails x c := by
  have hthreshold : y.threshold = x.threshold := congrArg (fun f => f.2.1) hfixed
  have hhealth (d : Copy) : y.health d ≠ .failed ↔ x.health d ≠ .failed := by
    rw [hhealths d]
    split
    next h => rw [h.1]; decide
    next => exact Iff.rfl
  rw [ChargeFails, ChargeFails, hthreshold, herrors, hhealth, hhealth]

theorem chargedRecord_fixed (x : Volume) (c : Copy) : (chargedRecord x c).fixed = x.fixed := charge_fixed x c

/-- A charge from `s` to `t`: the counter is raised, and where the charge fails the copy the failure procedure follows. -/
structure ChargedTo (s t : State) (v : Nat) (x : Volume) (c : Copy) (except : Option Nat) (z : Volume) : Prop where
  volume : t.volume? v = some z
  fixed : z.fixed = x.fixed
  length : z.extents.length = x.extents.length
  errors : ∀ d, (z.copy d).errors = ((chargedRecord x c).copy d).errors
  others : OthersKept s t v
  elsewhere : SameElsewhere s t
  spared : ¬ ChargeFails x c → t = s.setVolume v (some (chargedRecord x c))
  lacks : ChargeFails x c → z.Lacks c
  takenOut : ChargeFails x c → TableSizes s →
    TakenOut (s.setVolume v (some (chargedRecord x c))) t v (chargedRecord x c) z c .failThreshold except

theorem OthersSame.othersKept (h : OthersSame s t v) : OthersKept s t v :=
  fun w hw => ⟨fun hn => (h w hw).trans hn, fun k hk => ⟨k, (h w hw).trans hk, rfl, rfl⟩⟩

theorem OthersSame.transKept (h : OthersSame s t v) (k : OthersKept t u v) : OthersKept s u v :=
  fun w hw => ⟨fun hn => (k w hw).1 ((h w hw).trans hn), fun y hy => (k w hw).2 y ((h w hw).trans hy)⟩

theorem charge_charged (hx : s.volume? v = some x) (c : Copy) (except : Option Nat) :
    ∃ z, ChargedTo s (s.charge v c except) v x c except z := by
  have hm : (s.setVolume v (some (chargedRecord x c))).volume? v = some (chargedRecord x c) := by
    rw [State.volume?_setVolume hx, if_pos rfl]
  have hothers := setVolume_othersSame s v (some (chargedRecord x c))
  rw [charge_does hx, charge_eq_chargedRecord]
  by_cases hfails : ChargeFails x c
  · rw [if_pos ((chargeFails_iff x c).2 hfails)]
    obtain ⟨z, hz, hfailed⟩ := failProcedure_failed hm c .failThreshold except
    exact ⟨z, hz, hfailed.fixed.trans (chargedRecord_fixed x c), hfailed.length.trans (congrArg List.length (charge_extents x c)),
      hfailed.errors, hothers.transKept (failProcedure_others hm c .failThreshold except),
      (setVolume_sameElsewhere ..).trans (failProcedure_elsewhere ..), fun hspared => absurd hfails hspared,
      fun _ => hfailed.lacks, fun _ hsizes => failProcedure_takenOut (hsizes.setVolume _ _) hm c .failThreshold except hz hfailed⟩
  · rw [if_neg fun h => hfails ((chargeFails_iff x c).1 h)]
    exact ⟨_, hm, chargedRecord_fixed x c, congrArg List.length (charge_extents x c), fun _ => rfl, hothers.othersKept,
      setVolume_sameElsewhere .., fun _ => rfl, fun h => absurd h hfails, fun h => absurd h hfails⟩

/-- An extent for which the copy is not current when it is charged is not current after the charge. -/
theorem ChargedTo.notCurrent (h : ChargedTo s t v x c except z) {e : Nat}
    (hx : ∀ k, x.extents[e]? = some k → k.state.current c = false) (hs : s.volume? v = some x) :
    ∀ k, z.extents[e]? = some k → k.state.current c = false := by
  intro k hk
  by_cases hfails : ChargeFails x c
  · exact (h.lacks hfails).states k (List.mem_of_getElem? hk)
  · have hz := h.volume
    rw [h.spared hfails, State.volume?_setVolume hs, if_pos rfl] at hz
    obtain rfl := Option.some.inj hz
    exact hx k (charge_extents x c ▸ hk)

end Sys2Proof.Machine
end

section
/-! PROOF. REPORT_READ_FAILURE (R41). -/

namespace Sys2Proof.Machine

variable {s t u m : State} {v : Nat} {x y z : Volume} {c : Copy} {p : Port} {ps : List Byte}

/-! ## What a charge leaves of a record -/

theorem chargedRecord_recount (h : x.recount = x) (c : Copy) : (chargedRecord x c).recount = chargedRecord x c :=
  (kept_setErrors x c _).counts h

theorem chargedRecord_stale (x : Volume) (c d : Copy) : ((chargedRecord x c).copy d).stale = (x.copy d).stale := by
  cases c <;> cases d <;> rfl

theorem chargedRecord_health (x : Volume) (c d : Copy) : (chargedRecord x c).health d = x.health d := charge_health x c d

theorem chargedRecord_extents (x : Volume) (c : Copy) : (chargedRecord x c).extents = x.extents := charge_extents x c

theorem chargedRecord_repairNeeded (x : Volume) (c : Copy) : (chargedRecord x c).repairNeeded = x.repairNeeded := by
  cases c <;> rfl

/-- A counter tells no port anything. -/
theorem consequencesOf_chargedRecord (v : Nat) (x y : Volume) (c : Copy) :
    consequencesOf v x (chargedRecord y c) = consequencesOf v x y := by
  simp only [consequencesOf, stateAt_extents (chargedRecord_extents y c), chargedRecord_repairNeeded, chargedRecord_stale]

theorem healthsSettled_chargedRecord (h : HealthsSettled x y) (c : Copy) : HealthsSettled x (chargedRecord y c) := by
  intro d
  rw [chargedRecord_health, chargedRecord_stale]
  exact h d

theorem Volume.Settled.errors (h : x.Settled y) (d : Copy) : (y.copy d).errors = (x.copy d).errors := by
  cases d
  · exact h.errorsA
  · exact h.errorsB

theorem begun_othersKept (r : Request) (h : OthersKept (begun s r) t v) : OthersKept s t v := by
  intro w hw
  have hkept := h w hw
  rwa [begun_volume?] at hkept

theorem begun_told {r : Request} {es : List Event} (h : Told (begun s r) t p es) : Told s t p es := by
  rwa [Told, begun_events, begun_sessionState] at h

/-- A record written over another, with events, is the record written. -/
theorem OnlyEvents.rewritten (h : OnlyEvents (s.setVolume v (some x)) t) (y : Volume) :
    OnlyEvents (s.setVolume v (some y)) (t.setVolume v (some y)) := by
  have honly := h.setVolume v (some y)
  rwa [setVolume_setVolume] at honly

theorem OnlyEvents.onlyRecord (h : OnlyEvents (s.setVolume v (some x)) t) : OnlyRecord s t v :=
  ⟨(setVolume_sameElsewhere ..).trans h.sameElsewhere,
    fun w hw => (h.volume? w).trans (State.volume?_setVolume_ne s hw _), h.pointer, h.intents, h.waiters, h.arrival, h.assignments,
    fun p => (h.port p).trans (by rw [State.setVolume_port])⟩

/-! ## REPORT_READ_FAILURE -/

section Owner

variable (hv : field ps 0 1 ≤ 15) (hx : s.volume? (field ps 0 1) = some x)
include hv hx

theorem ownReportReadFailure_refused (h : x.blockCount ≤ field ps 1 5 ∨ (byteAt ps 6 ≠ 1 ∧ byteAt ps 6 ≠ 2)) :
    ownReportReadFailure p ps s = (s, .bare .badParam) := by
  simp only [ownReportReadFailure, withVolume_present _ hv hx]
  split
  next => rfl
  next hwithin =>
    obtain ⟨ha, hb⟩ := h.resolve_left hwithin
    rw [copyParam_none ha hb]

theorem ownReportReadFailure_named (hwithin : field ps 1 5 < x.blockCount) (hc : byteAt ps 6 = c.code) :
    ownReportReadFailure p ps s =
      let e := field ps 1 5 / 2 ^ x.shift
      let t := (s.applyCause (field ps 0 1) (loseIn (· = e) c)).charge (field ps 0 1) c none
      (t, ⟨.ok, bytesOf 3 e ++ [(t.extentState (field ps 0 1) e).code, (t.health (field ps 0 1) c).code]⟩) := by
  simp only [ownReportReadFailure, withVolume_present _ hv hx, if_neg (not_le.2 hwithin), hc, copyParam_code]
  rfl

end Owner

/-- Settles O29: the loss of currency is one cause, and the charge follows it. -/
theorem readFailureTakesCurrency : Obligations.ReadFailureTakesCurrency := by
  intro r s x admitted hlen v b e hv hx
  have hbegun : (begun s r).volume? v = some x := (begun_volume? s r v).trans hx
  have concludes {t : State} {st : Status} {results : List Byte}
      (h : ownReportReadFailure r.port r.params (begun s r) = (t, ⟨st, results⟩)) :
      exec (.reportReadFailure r) s = .next (concluded t r 0x1B st results) :=
    next_of_own admitted rfl (by rw [hlen]; rfl) h
  refine ⟨fun h => concludes (ownReportReadFailure_refused hv hbegun h), fun c hwithin hc => ?_⟩
  have hown := ownReportReadFailure_named (p := r.port) hv hbegun hwithin hc
  obtain ⟨y, honly, hextents, settled, hhealths, hcount, htold⟩ := applyCause_whole hbegun (loseIn (· = e) c)
  have hy : ((begun s r).applyCause v (loseIn (· = e) c)).volume? v = some y := by
    rw [honly.volume?, State.volume?_setVolume hbegun, if_pos rfl]
  obtain ⟨z, hcharged⟩ := charge_charged hy c none
  have hrecord := honly.rewritten (chargedRecord y c)
  have hfails : ChargeFails y c ↔ ChargeFails x c := chargeFails_settled settled.fixed (settled.errors c) hhealths
  have hextent (k : Nat) : y.extents[k]? = (x.extents[k]?).map (loseIn (· = e) c k) := by
    rw [hextents, mapExtents_getElem?]
  have hcurrent (k : Extent) (hk : y.extents[e]? = some k) : k.state.current c = false := by
    rw [hextent] at hk
    obtain ⟨k', -, rfl⟩ := Option.map_eq_some_iff.1 hk
    simp only [loseIn, decide_true, if_true]
    exact loseCurrency_current c _
  have hlength : y.extents.length = x.extents.length := by rw [hextents, mapExtents_length]
  refine ⟨_, chargedRecord y c, _, z, hrecord.onlyRecord, ?record, (chargedRecord_fixed y c).trans settled.fixed,
    (congrArg List.length (chargedRecord_extents y c)).trans hlength, ?openIntents, ?errors, ?errorsOther, fun k w hk => ?extent,
    chargedRecord_recount hcount c, healthsSettled_chargedRecord hhealths c, fun p => ?told,
    fun h => hcharged.spared fun h' => h (hfails.1 h'), fun h hsizes => hcharged.takenOut (hfails.2 h) ?sizes, hcharged.volume,
    hcharged.fixed.trans settled.fixed, hcharged.length.trans hlength, ?errors', ?errorsOther', hcharged.notCurrent hcurrent hy,
    begun_othersKept r (honly.onlyRecord.2.1.transKept hcharged.others), honly.onlyRecord.1.trans hcharged.elsewhere, ?answer⟩
  case record => rw [State.volume?_setVolume hy, if_pos rfl]
  case openIntents => exact (show (chargedRecord y c).openIntents = y.openIntents by cases c <;> rfl).trans settled.openIntents
  case errors => rw [← charge_eq_chargedRecord, charge_errors_self, settled.errors c]
  case errorsOther => rw [← charge_eq_chargedRecord, charge_errors_other, settled.errors (other c)]
  case extent =>
    rw [chargedRecord_extents, hextent, hk]
    simp only [Option.map_some, loseIn, decide_eq_true_eq]
  case told =>
    rw [consequencesOf_chargedRecord v x y c]
    exact begun_told ((htold p).of_events (congrArg PortRecord.events (State.setVolume_port ..)))
  case sizes => exact ((begun_tableSizes r hsizes).setVolume v _).onlyEvents honly
  case errors' => rw [hcharged.errors, ← charge_eq_chargedRecord, charge_errors_self, settled.errors c]
  case errorsOther' => rw [hcharged.errors, ← charge_eq_chargedRecord, charge_errors_other, settled.errors (other c)]
  case answer =>
    rw [stateCode, ← extentState_of_volume? hcharged.volume, ← health_of_volume? (c := c) hcharged.volume]
    exact concludes hown

end Sys2Proof.Machine
end

section
/-! PROOF. REPAIR_DONE (R92). -/

namespace Sys2Proof.Machine

variable {s t u m : State} {v slot : Nat} {x y z : Volume} {c : Copy} {p : Port} {ps : List Byte} {a : Assignment}
  {o : RepairOutcome} {st : Coherence → Coherence} {except : Option Nat}

/-! ## An ended assignment stays ended -/

theorem pass_assignment?_none (h : s.assignment? slot = none) : s.pass.assignment? slot = none := by
  by_contra hne
  obtain ⟨a, ha⟩ := Option.ne_none_iff_exists'.1 hne
  obtain ⟨b, hb, -⟩ := pass_assignment? ha
  rw [h] at hb
  cases hb

theorem failProcedure_assignment?_none (hx : s.volume? v = some x) (c : Copy) (cause : EventValue) (except : Option Nat)
    (h : s.assignment? slot = none) : (s.failProcedure v c cause except).assignment? slot = none := by
  have hworked : (s.workedOff v c except).assignment? slot = none := by
    rw [State.assignment?_of_assignments (workedOff_tables hx c except).2.1, State.assignment?, heldAt,
      (revokedOff_revoked hx c except .p0).1.assignments, closedOff_assignments hx]
    rw [State.assignment?, heldAt] at h
    cases hz : s.assignments[slot]? with
    | none => rfl
    | some z =>
      rw [hz] at h
      have hheld : z.held = none := h
      simp [hheld]
  rw [(failProcedure_events hx c cause except).assignment?]
  exact pass_assignment?_none hworked

theorem charge_assignment?_none (hx : s.volume? v = some x) (c : Copy) (except : Option Nat) (h : s.assignment? slot = none) :
    (s.charge v c except).assignment? slot = none := by
  have hm : (s.setVolume v (some (x.charge c))).assignment? slot = none := h
  rw [charge_does hx]
  split
  next => exact failProcedure_assignment?_none (x := x.charge c) (by rw [State.volume?_setVolume hx, if_pos rfl]) c _ _ hm
  next => exact hm

theorem assignment?_lt (h : s.assignment? slot = some a) : slot < s.assignments.length := by
  obtain ⟨y, hy, -⟩ := heldAt_some h
  exact (List.getElem?_eq_some_iff.1 hy).1

theorem findAssignment_none {tag : Tag} (h : s.assignment? tag.slot = none) (p : Port) : s.findAssignment p tag = none := by
  rw [State.findAssignment, h]

/-! ## The charge of an ended assignment -/

theorem chargedRecord_errors (h : x.copyA.errors = y.copyA.errors ∧ x.copyB.errors = y.copyB.errors) (c : Copy) :
    (chargedRecord x c).copyA.errors = (chargedRecord y c).copyA.errors
      ∧ (chargedRecord x c).copyB.errors = (chargedRecord y c).copyB.errors := by
  obtain ⟨hA, hB⟩ := h
  cases c
  · exact ⟨congrArg (fun n => min 255 (n + 1)) hA, hB⟩
  · exact ⟨hA, congrArg (fun n => min 255 (n + 1)) hB⟩

theorem chargedRecord_openIntents (x : Volume) (c : Copy) : (chargedRecord x c).openIntents = x.openIntents := by cases c <;> rfl

theorem consequencesOf_chargedRecord_both (v : Nat) (x y : Volume) (c : Copy) :
    consequencesOf v (chargedRecord x c) (chargedRecord y c) = consequencesOf v x y := by
  rw [consequencesOf_chargedRecord v (chargedRecord x c) y c]
  have hstates : stateAt (chargedRecord x c) = stateAt x := stateAt_extents (chargedRecord_extents x c)
  simp only [consequencesOf, entersLost, chargedRecord_extents, hstates, chargedRecord_repairNeeded, chargedRecord_health]

/-- The counter may be raised before the assignment ends or after. -/
theorem AssignmentEnded.charged {last : Port → List Event} (h : AssignmentEnded s m slot a x st last)
    (hy : m.volume? a.volume = some y) (c : Copy) :
    AssignmentEnded s (m.setVolume a.volume (some (chargedRecord y c))) slot a (chargedRecord x c) st last := by
  obtain ⟨htable, hcount, hpeer, hintentCounts, hintents, hwaiters, harrival, hpointer, hothers, y', hy', hfixed, hA, hB, hopen,
    hrecount, hlength, hextents, hhealths, htold⟩ := h
  obtain rfl := Option.some.inj (hy.symm.trans hy')
  have hport (q : Port) : (m.setVolume a.volume (some (chargedRecord y c))).port q = m.port q := State.setVolume_port ..
  obtain ⟨hA', hB'⟩ := chargedRecord_errors ⟨hA, hB⟩ c
  refine ⟨htable, by rw [hport]; exact hcount, by rw [hport]; exact hpeer, fun q => by rw [hport]; exact hintentCounts q, hintents,
    hwaiters, harrival, hpointer, fun w hw => (State.volume?_setVolume_ne m hw _).trans (hothers w hw), chargedRecord y c,
    by rw [State.volume?_setVolume hy, if_pos rfl], ?fixed, hA', hB', ?openIntents, chargedRecord_recount hrecount c, ?length,
    fun e k hk => ?extent, ?healths, fun q => ?told⟩
  case fixed => rw [chargedRecord_fixed, chargedRecord_fixed, hfixed]
  case openIntents => rw [chargedRecord_openIntents, chargedRecord_openIntents, hopen]
  case length => rw [chargedRecord_extents, chargedRecord_extents, hlength]
  case extent =>
    rw [chargedRecord_extents] at hk ⊢
    exact hextents e k hk
  case healths =>
    intro d
    rw [chargedRecord_health, chargedRecord_health, chargedRecord_stale]
    exact hhealths d
  case told =>
    rw [consequencesOf_chargedRecord_both]
    exact (htold q).of_events (congrArg PortRecord.events (hport q))

/-! ## REPAIR_DONE -/

theorem ownRepairDone_found (ho : repairOutcomeParam (byteAt ps 2) = some o) (ha : s.findAssignment p (tagParam ps 0) = some a) :
    ownRepairDone p ps s = (s.finishRepair (tagParam ps 0).slot a o,
      ⟨if a.overtaken then .stale else .ok, doneBytes (s.finishRepair (tagParam ps 0).slot a o) a⟩) := by
  simp only [ownRepairDone, ho, ha]

theorem finishRepair_copied (s : State) (slot : Nat) (a : Assignment) : s.finishRepair slot a .copied
    = s.endAssignment slot a (if a.overtaken then overtakenRule s a
        else fun st => if st.current a.source then .synced else loseCurrency a.target st) := by
  rw [State.finishRepair, overtakenResult_eq]
  rfl

theorem finishRepair_bad (ho : (o = .sourceBad ∧ c = a.source) ∨ (o = .targetBad ∧ c = a.target)) (s : State) (slot : Nat) :
    s.finishRepair slot a o
      = (s.endAssignment slot a (if a.overtaken then overtakenRule s a else loseCurrency c)).charge a.volume c none := by
  rw [State.finishRepair, overtakenResult_eq]
  rcases ho with ⟨rfl, rfl⟩ | ⟨rfl, rfl⟩ <;> rfl

theorem doneBytes_eq (h : t.volume? a.volume = some x) : doneBytes t a = bytesOf 1 a.volume ++ bytesOf 3 a.extent
    ++ [stateCode x a.extent, (x.health a.source).code, (x.health a.target).code] := by
  rw [doneBytes, extentState_of_volume? h, health_of_volume? h, health_of_volume? h]
  rfl

/-- Settles O42: the assignment ends by its rule, and the charge of the bad copy follows. -/
theorem repairDoneEndsAssignment : Obligations.RepairDoneEndsAssignment := by
  intro r s a x admitted hlen tag status answer hfound hx
  have hfound' := (begun_findAssignment s r r.port tag).trans hfound
  obtain ⟨ha, -⟩ := findAssignment_eq_some hfound'
  have hx' := (begun_volume? s r a.volume).trans hx
  refine ⟨fun hcopied => ?copied, fun c hbad => ?bad⟩
  case copied =>
    have hown := ownRepairDone_found (o := .copied) (by rw [hcopied]; rfl) hfound'
    rw [finishRepair_copied, begun_overtakenRule] at hown
    have hended := endAssignment_ended tag.slot hx' (if a.overtaken then overtakenRule s a
      else fun st => if st.current a.source then .synced else loseCurrency a.target st)
    have helse := endAssignment_elsewhere (begun s r) tag.slot a (if a.overtaken then overtakenRule s a
      else fun st => if st.current a.source then .synced else loseCurrency a.target st)
    obtain ⟨-, -, -, -, -, -, -, -, -, y, hy, -⟩ := id hended
    rw [doneBytes_eq hy] at hown
    exact ⟨_, y, next_of_own admitted rfl (by rw [hlen]; rfl) hown, (concluded_volume? ..).trans hy,
      (hended.finished (fun p => (helse.1 p).1) (finishesAll_concluded ..)).of_begun, helse.concluded ..⟩
  case bad =>
    obtain ⟨o, hparam, ho⟩ : ∃ o, repairOutcomeParam (byteAt r.params 2) = some o
        ∧ ((o = .sourceBad ∧ c = a.source) ∨ (o = .targetBad ∧ c = a.target)) := by
      rcases hbad with ⟨hb, hc⟩ | ⟨hb, hc⟩
      · exact ⟨.sourceBad, by rw [hb]; rfl, .inl ⟨rfl, hc⟩⟩
      · exact ⟨.targetBad, by rw [hb]; rfl, .inr ⟨rfl, hc⟩⟩
    have hown := ownRepairDone_found hparam hfound'
    rw [finishRepair_bad ho, begun_overtakenRule] at hown
    let rule := if a.overtaken then overtakenRule s a else loseCurrency c
    have hended := endAssignment_ended tag.slot hx' rule
    have helse := endAssignment_elsewhere (begun s r) tag.slot a rule
    obtain ⟨htable, -, -, -, -, -, -, -, hothers, y, hy, hfixed, hA, hB, -, -, hlength, hextents, hhealths, -⟩ := id hended
    obtain ⟨z, hcharged⟩ := charge_charged hy c none
    have herrors (d : Copy) : (y.copy d).errors = (x.copy d).errors := by
      cases d
      · exact hA
      · exact hB
    have hfails : ChargeFails y c ↔ ChargeFails x c := chargeFails_settled hfixed (herrors c) hhealths
    have hgone : ((begun s r).endAssignment tag.slot a rule).assignment? tag.slot = none := by
      have hlt := assignment?_lt ha
      rw [State.assignment?, htable, heldAt, List.getElem?_set_self hlt]
    rw [doneBytes_eq hcharged.volume] at hown
    refine ⟨_, chargedRecord y c, _, z, hended.charged hy c, helse.trans (setVolume_sameElsewhere ..),
      by rw [State.volume?_setVolume hy, if_pos rfl], fun h => hcharged.spared fun h' => h (hfails.1 h'),
      fun h hsizes => hcharged.takenOut (hfails.2 h) ?sizes, hcharged.volume, hcharged.fixed.trans hfixed,
      hcharged.length.trans hlength, ?errors, ?errorsOther, findAssignment_none (charge_assignment?_none hy c none hgone) _,
      fun hnot => hcharged.notCurrent (fun k hk => ?current) hy, begun_othersKept r (hothers.transKept hcharged.others),
      helse.trans hcharged.elsewhere, next_of_own admitted rfl (by rw [hlen]; rfl) hown⟩
    case sizes =>
      exact (endAssignment_moves (m := ⟨false, fun _ => false, fun _ => false, false⟩) ha rule).invariant
        (fun _ _ h => h.keeps_tableSizes) (begun_tableSizes r hsizes)
    case errors => rw [hcharged.errors, ← charge_eq_chargedRecord, charge_errors_self, herrors]
    case errorsOther => rw [hcharged.errors, ← charge_eq_chargedRecord, charge_errors_other, herrors]
    case current =>
      cases hk' : x.extents[a.extent]? with
      | none =>
        rw [List.getElem?_eq_none (hlength.trans_le (List.getElem?_eq_none_iff.1 hk'))] at hk
        cases hk
      | some k' =>
        obtain rfl := Option.some.inj (hk.symm.trans (hextents a.extent k' hk'))
        simp only [if_true, rule, hnot, Bool.false_eq_true, if_false]
        exact loseCurrency_current c _

end Sys2Proof.Machine
end

section
/-! PROOF. REPORT_WRITE of FAILED (R54, R60). -/

namespace Sys2Proof.Machine

variable {s t u m : State} {v k slot : Nat} {x y z : Volume} {c : Copy} {p : Port} {i j : Intent}

theorem OthersKept.trans (h : OthersKept s t v) (g : OthersKept t u v) : OthersKept s u v := by
  refine fun w hw => ⟨fun hn => (g w hw).1 ((h w hw).1 hn), fun x hx => ?_⟩
  obtain ⟨y, hy, hxy⟩ := (h w hw).2 x hx
  obtain ⟨z, hz, hyz⟩ := (g w hw).2 y hy
  exact ⟨z, hz, Volume.GrantedTo.trans hxy hyz⟩

theorem OthersKept.concluded (h : OthersKept s t v) (r : Request) (code : Byte) (st : Status) (results : List Byte) :
    OthersKept s (concluded t r code st results) v := by
  intro w hw
  rw [concluded_volume?]
  exact h w hw

/-! ## The intent whose report fails its copy stays open (R60) -/

theorem droppedBy_reported (h : i.report c ≠ .pending ∧ i.report c ≠ .written) : droppedBy v c i = i :=
  if_neg fun hd => hd.2.elim h.1 h.2

theorem charge_excepted (hx : s.volume? v = some x) (c : Copy) (hi : s.intent? k = some i)
    (hreport : i.report c ≠ .pending ∧ i.report c ≠ .written) :
    (s.charge v c (some k)).intents[k]? = some ⟨genAt s.intents k, some i⟩ := by
  have hm : (s.setVolume v (some (x.charge c))).intent? k = some i := hi
  rw [charge_does hx]
  split
  next =>
    rw [failProcedure_excepted (x := x.charge c) (by rw [State.volume?_setVolume hx, if_pos rfl]) c .failThreshold hm,
      droppedBy_reported hreport]
    rfl
  next =>
    obtain ⟨z, hz, hheld⟩ := heldAt_some hi
    refine Eq.trans (b := s.intents[k]?) rfl ?_
    rw [hz, genAt, hz, ← hheld]

theorem recordReport_failed (s : State) (slot : Nat) (i : Intent) (c : Copy) : s.recordReport slot i c .failed
    = if i.report (other c) = .pending
      then (s.recorded slot (i.withReport .failed c)).charge i.volume c (some slot)
      else (((s.recorded slot (i.withReport .failed c)).charge i.volume c (some slot)).closeIntent slot).pass := by
  simp only [State.recordReport, withReport_complete (o := .failed) nofun]
  by_cases h : i.report (other c) = .pending <;> simp [h, State.recorded]

theorem recorded_gen (hlt : slot < s.intents.length) (j : Intent) :
    genAt (s.recorded slot j).intents slot = genAt s.intents slot := by
  rw [genAt, State.recorded, hold_getElem?_self hlt]

theorem intent?_of_slot {g : BitVec 8} (h : s.intents[k]? = some ⟨g, some i⟩) : s.intent? k = some i ∧ genAt s.intents k = g := by
  rw [State.intent?, heldAt, genAt, h]
  exact ⟨rfl, rfl⟩

/-- A tag finds the intent again whose slot, port and epoch are the same. -/
theorem findIntent_of_slot {tag : Tag} (h : s.intents[tag.slot]? = some ⟨tag.gen, some i⟩) (hport : i.port = p)
    (hepoch : i.epoch = (s.port p).session.epoch) : s.findIntent p tag = some i := by
  obtain ⟨hi, hgen⟩ := intent?_of_slot h
  simp only [State.findIntent, hi]
  exact if_pos ⟨hgen, hport, hepoch⟩

/-- A close after a FAILED report of the copy leaves the copy current for none of the intent's extents. -/
theorem IntentEnded.notCurrent {done : State → State} {last : Port → List Event} {covered : Nat → Bool}
    (h : IntentEnded m t done slot j y (fun e st => closeResult st (covered e) j.reportA j.reportB) last)
    (hreport : j.report c ≠ .written) (hz : t.volume? j.volume = some z) {e : Nat} {w : Extent} (hw : z.extents[e]? = some w)
    (hlow : j.firstExtent ≤ e) (hhigh : e < j.firstExtent + j.extentCount) : w.state.current c = false := by
  obtain ⟨-, -, -, z', hz', -, hlength, -, -, hstates, -⟩ := h
  obtain rfl := Option.some.inj (hz.symm.trans hz')
  have hlt : e < y.extents.length := hlength ▸ (List.getElem?_eq_some_iff.1 hw).1
  obtain ⟨w', hw', hstate⟩ := hstates e _ (List.getElem?_eq_getElem hlt)
  obtain rfl := Option.some.inj (hw.symm.trans hw')
  rw [hstate, if_pos ⟨hlow, hhigh⟩]
  exact closeResult_current hreport _ _

/-- Settles O34: the report is recorded and the charge follows; with both reports there the intent then closes. -/
theorem failedReportChargesCopy : Obligations.FailedReportChargesCopy := by
  intro r s i x c admitted hlen p tag j waits answer hc ho hfound hpending hx charged
  have hfound' := (begun_findIntent s r p tag).trans hfound
  obtain ⟨hi, hgen, hport, hepoch⟩ := findIntent_eq_some hfound'
  have hlt := intent?_lt hi
  obtain ⟨hjport, hjvolume, hjfirst, hjcount, hjepoch⟩ := withReport_place i .failed c
  have hrecorded : ((begun s r).recorded tag.slot j).volume? i.volume = some x := (begun_volume? s r _).trans hx
  have hcharged_eq : ((begun s r).recorded tag.slot j).setVolume i.volume (some (chargedRecord x c)) = charged := by
    rw [State.recorded, hold, hgen, begun_intents]
  let m := ((begun s r).recorded tag.slot j).charge i.volume c (some tag.slot)
  obtain ⟨y, hcharged⟩ : ∃ y, ChargedTo ((begun s r).recorded tag.slot j) m i.volume x c (some tag.slot) y :=
    charge_charged hrecorded c (some tag.slot)
  have hown := ownReportWrite_pending hc (o := .failed) (by rw [ho]; rfl) hfound' hpending
  rw [reportBytes_withReport (o := .failed) nofun, recordReport_failed] at hown
  have hjreport : j.report c = .failed := withReport_report_self i .failed c
  have hslot := charge_excepted hrecorded c (recorded_intent? hlt j) (by rw [hjreport]; decide)
  rw [recorded_gen hlt, hgen] at hslot
  obtain ⟨hmi, hmgen⟩ := intent?_of_slot hslot
  have helse := (recorded_elsewhere (begun s r) tag.slot j).trans hcharged.elsewhere
  have hsizes (h : TableSizes s) : TableSizes ((begun s r).recorded tag.slot j) := by
    obtain ⟨hvolumes, hintents, hrest⟩ := begun_tableSizes r h
    exact ⟨hvolumes, (hold_length ..).trans hintents, hrest⟩
  have hspared (h : ¬ ChargeFails x c) := (hcharged.spared h).trans hcharged_eq
  have htaken (h : ChargeFails x c) (hs : TableSizes s) := hcharged_eq ▸ hcharged.takenOut h (hsizes hs)
  have herrors (d : Copy) : (y.copy d).errors = ((x.charge c).copy d).errors := hcharged.errors d
  have hothers := begun_othersKept r hcharged.others
  by_cases hwaits : waits
  case pos =>
    have hwaits' : i.report (other c) = .pending := hwaits
    rw [if_pos hwaits', health_of_volume? hcharged.volume] at hown
    refine ⟨_, y, _, y, hcharged.volume, hmi, hspared, htaken, next_of_own admitted rfl (by rw [hlen]; rfl) hown,
      (concluded_volume? ..).trans hcharged.volume, fun _ => ⟨rfl, ?found⟩, fun h => absurd hwaits h, hcharged.fixed,
      hcharged.length, by rw [herrors, charge_errors_self], by rw [herrors, charge_errors_other], ?others, helse.concluded ..⟩
    case found =>
      refine findIntent_of_slot (by rw [concluded_intents]; exact hslot) (hjport.trans hport) ?_
      rw [concluded_session, (helse.1 p).1, hjepoch, hepoch]
    case others => exact hothers.concluded r _ _ _
  case neg =>
    have hwaits' : i.report (other c) ≠ .pending := hwaits
    rw [if_neg hwaits'] at hown
    have hcovered : coveredBy y j = coveredBy x i := by
      rw [coveredBy_of_fixed hcharged.fixed]
      cases c <;> rfl
    have hfreed := closeIntent_freed hmi (x := y) (by rw [hjvolume]; exact hcharged.volume)
    rw [hcovered] at hfreed
    obtain ⟨-, -, -, -, -, -, -, -, -, y', hy', -⟩ := id hfreed
    obtain ⟨z, hz, -⟩ := ((pass_grantsOnly (m.closeIntent tag.slot)).volumes j.volume).2 y' hy'
    rw [health_of_volume? (hjvolume ▸ hz)] at hown
    have hended := hfreed.ended (done := fun u => concluded u r 0x21 .ok (answer (z.health c))) (finishes_concluded ..)
    have hspent := hfreed.spent (intent?_lt hmi)
    rw [hmgen] at hspent
    have hzt : (concluded (m.closeIntent tag.slot).pass r 0x21 .ok (answer (z.health c))).volume? j.volume = some z :=
      (concluded_volume? ..).trans hz
    obtain ⟨-, -, hkept, z', hz', hfixed, hlength, hA, hB, -⟩ := id hended
    obtain rfl := Option.some.inj (hzt.symm.trans hz')
    have hsame (d : Copy) : (z.copy d).errors = (y.copy d).errors := by
      cases d
      · exact hA
      · exact hB
    refine ⟨m, y, _, z, hcharged.volume, hmi, hspared, htaken, next_of_own admitted rfl (by rw [hlen]; rfl) hown,
      (congrArg (State.volume? _) hjvolume.symm).trans hzt, fun h => absurd h hwaits, fun _ => ⟨(hspent.of_intents (concluded_intents ..)).findIntent _, hended,
        fun e w hw hlow hhigh => hended.notCurrent (by rw [hjreport]; decide) hzt hw (hjfirst ▸ hlow)
          (by rw [hjfirst, hjcount]; exact hhigh)⟩, hfixed.trans hcharged.fixed, hlength.trans hcharged.length,
      by rw [hsame, herrors, charge_errors_self], by rw [hsame, herrors, charge_errors_other],
      hothers.trans ((congrArg (OthersKept m _) hjvolume).mp hkept), ((helse.trans hfreed.elsewhere).trans (pass_grantsOnly _).elsewhere).concluded ..⟩

end Sys2Proof.Machine
end
